-- ==== Sys2Proof/Word.lean ====
section
/-! DEFINITION. The plain word types of the VB-612's memory and links. -/

namespace Sys2Proof

/-- One byte of book memory or one character of a screen link. -/
abbrev Byte := BitVec 8

/-- A two-byte field: a cue id, a slot's tag, a language, a pass number. -/
abbrev Half := BitVec 16

/-- An aligned 32-bit word of book memory or one register (00_scope, "Memory access"). -/
abbrev Word := BitVec 32

end Sys2Proof
end

