-- ==== Sys2Proof/Syntax.lean ====
section
/-! DEFINITION. The commands of the VB-612, one constructor for each row of spec/opcode_table.json. The part is a block:
it fetches no program, it takes what reaches it (a register access, an edge on an input, a request in a slot, a
character or reply on a screen link) and the expiries and line events of its own (the table lists both).
A command's operands are what the event itself carries; the rest is read from the state. TIME_LO_READ carries the first byte it
addresses in TIME_LO and its size, an aligned word where neither is given, REGISTER_WRITE its byte offset in the window of eight words (R178). -/

namespace Sys2Proof

/-- Lanes are numbered 0 to 5 (chapter 5). -/
abbrev LaneIx := Fin 6

/-- Request slots are numbered 0 to 31 (chapter 8). -/
abbrev SlotIx := Fin 32

/-- The two beat-pulse inputs PULSE_A and PULSE_B (2.2). -/
inductive BeatInput where
  | a | b
  deriving DecidableEq, Repr

/-- The four console keys (R141). -/
inductive Key where
  | go | back | hold | blank
  deriving DecidableEq, Repr

/-- The size of a host access to the register window (R178). -/
inductive AccessSize where
  | byte | half | word
  deriving DecidableEq, Repr

/-- The outcome field of an accepted ACK: DONE 1 or REFUSED 2 (R119). -/
inductive AckOutcome where
  | done | refused
  deriving DecidableEq, Repr

/-- The twelve values of SET_PROFILE as its six argument words carry them (11.3), in the order of the profile table (R27). -/
structure ProfileArgs where
  inputMode : Byte
  pulseMin : Half
  pulseMax : Half
  wt : Word
  lockIn : Half
  lockOut : Half
  lockRun : Byte
  lateMargin : Half
  coastLimit : Byte
  horizon : Half
  goLockout : Half
  countRecords : Byte
  deriving DecidableEq, Repr

/-- The eight configuration fields of SET_LANE as its argument words carry them (11.3), in the order of R89's table. -/
structure LaneArgs where
  enable : Byte
  baud : Byte
  language : Half
  depth : Byte
  retry : Byte
  faultLimit : Byte
  ackTimeout : Half
  silenceTimeout : Half
  deriving DecidableEq, Repr

/-- The seven argument words of REPLACE_SECTION (11.3). -/
structure ReplaceArgs where
  section_ : Word
  firstCue : Word
  cueCount : Word
  length : Word
  hint : Word
  successorCode : Word
  successorTarget : Word
  deriving DecidableEq, Repr

/-- The commands. A request command carries its slot, and the tag and arguments as the part reads them at the take (R152). -/
inductive Instr where
  -- resets, start-up and halt (R184 to R187), register window (R178 to R181)
  | powerUpReset
  | softReset
  | pcieBusReset
  | startUp
  | halt
  | scan (value : Word)
  | noticeClear (value : Word)
  | noticeEnWrite (value : Word)
  | timeLoRead (byte : Fin 4 := 0) (size : AccessSize := .word)
  | registerWrite (offset : Fin 32) (size : AccessSize) (value : Word)
  -- beat inputs and the clock unit (R24 to R42)
  | beatInputEdge (input : BeatInput)
  | beatInputRelease (input : BeatInput)
  | pulse (input : BeatInput)
  | lateDetection
  | sectionTimer
  -- sequencer expiries (R57, R70) and max dwell (R108)
  | dueExpiry
  | deferralExpiry
  | maxDwellExpiry (lane : LaneIx)
  -- console (R140 to R147)
  | keyInputAsserted (key : Key)
  | keyInputReleased (key : Key)
  | keyReleaseConfirmed (key : Key)
  | goKey
  | backKey
  | holdKey
  | blankKey
  -- requests (R150 to R167)
  | scanPeriodExpiry
  | unknown (slot : SlotIx) (tag : Half) (kind : Byte)
  | loadBook (slot : SlotIx) (tag : Half)
  | loadBookComplete
  | replaceSection (slot : SlotIx) (tag : Half) (args : ReplaceArgs)
  | replaceSectionComplete
  | arm (slot : SlotIx) (tag : Half) (sect count prime : Word)
  | jump (slot : SlotIx) (tag : Half) (sect count keep prime : Word)
  | stop (slot : SlotIx) (tag : Half) (keep : Word)
  | setCut (slot : SlotIx) (tag : Half) (sect target : Word)
  | clearCut (slot : SlotIx) (tag : Half) (sect : Word)
  | vampExit (slot : SlotIx) (tag : Half)
  | setProfile (slot : SlotIx) (tag : Half) (args : ProfileArgs)
  | setLane (slot : SlotIx) (tag : Half) (lane : Word) (args : LaneArgs)
  | clearFault (slot : SlotIx) (tag : Half) (lane : Word)
  | blank (slot : SlotIx) (tag : Half) (mask : Word)
  | unblank (slot : SlotIx) (tag : Half) (mask : Word)
  | remoteKey (slot : SlotIx) (tag : Half) (key : Word)
  | setJournal (slot : SlotIx) (tag : Half) (level option : Word)
  | note (slot : SlotIx) (tag : Half) (w0 w1 w2 w3 : Word)
  -- the screen links (R114 to R139)
  | frameOpen (lane : LaneIx)
  | frameClose (lane : LaneIx)
  | suspend (lane : LaneIx)
  | resume (lane : LaneIx)
  | cancel (lane : LaneIx)
  | helloInterval (lane : LaneIx)
  | ready (lane : LaneIx) (echo buffers maxLine : Byte)
  | ack (lane : LaneIx) (echo : Byte) (outcome : AckOutcome)
  | busy (lane : LaneIx)
  | free (lane : LaneIx)
  | badReply (lane : LaneIx)
  | ackTimeout (lane : LaneIx) (seq : Byte)
  | silenceExpiry (lane : LaneIx)
  | characterReceived (lane : LaneIx) (char : Byte) (framingError : Bool)
  deriving DecidableEq, Repr

end Sys2Proof
end

