-- ==== Sys2Proof/Config.lean ====
section
/-! DEFINITION. The constants the manual fixes for every VB-612: the register constants (R178, 11.7), the book memory
map (11.1), the link characters (R115) and the limits of the blocks. The manual leaves no value open that a
register of the part would hold, so this file declares no free value (log entries 2 and 3 name the two things
it does leave open). -/

namespace Sys2Proof.Config

/-- Show time stays at 2^48 − 1 once it gets there (R22). -/
def maxTime : Nat := 281474976710655

/-- IDENT: family code 0x5642, revision 0x0612 (R178, 11.7). -/
def ident : Word := 0x56420612

/-- FEATURES: 6 lanes, 32 slots, 128 sections, window of 8, history of 4, 2^12 records (R178, 11.7). -/
def features : Word := 0x19220206

/-- The book memory map of 11.1, by byte offset. -/
def readMarkAt : Nat := 0x000030
def statusAt : Nat := 0x000040
def slotsAt : Nat := 0x000200
def sectionsAt : Nat := 0x000A00
def cueAreaAt : Nat := 0x002000
def cueAreaSize : Nat := 262144
def journalAt : Nat := 0x042000
def poolAt : Nat := 0x062000
def poolSize : Nat := 1695744
def memorySize : Nat := 0x200000

/-- The header's magic number (R2). -/
def magic : Nat := 0x56424B31

/-- Journal ring size (R168), window size (R63), history size (R79), entry-run limit (R75). -/
def ringSize : Nat := 4096
def windowSize : Nat := 8
def historySize : Nat := 4
def entryRunLimit : Nat := 128

/-- The outstanding list holds at most 6 frames, at most 4 of them normal (R128). -/
def maxOutstanding : Nat := 6
def maxOutstandingNormal : Nat := 4

/-- Confirmation of a beat edge (R24) and of a key (R140), the scan period (R151) and the HELLO interval (R134), in µs. -/
def beatConfirm : Nat := 2000
def keyConfirm : Nat := 10000
def scanPeriod : Nat := 5000
def helloInterval : Nat := 100000

/-- The link characters (R115). -/
def chFill : Byte := 0xF4
def chOpen : Byte := 0xF5
def chEsc : Byte := 0xF7
def chResume : Byte := 0xF9
def chClose : Byte := 0xFA
def chSuspend : Byte := 0xFB
def chCancel : Byte := 0xFC

end Sys2Proof.Config
end

