-- ==== Sys2Proof/Machine/State.lean ====
section
/-! DEFINITION. The state of the VB-612: one structure per block of 00_scope's block diagram (book memory, register window and
notice unit, clock unit, sequencer, six lane units, console, request unit, journal unit), the queue of waiting commands beside
them, and the machine after reset. Times are show times in µs unless a field says ms. -/

namespace Sys2Proof.Machine

/-! ### Book memory -/

/-- Book memory: the listed bytes, addresses rising; an address not listed reads as 0 (log entry 2). -/
structure Memory where
  cells : List Host.Cell
  deriving DecidableEq, Repr

/-! ### The title book as the part holds it (chapter 1) -/

/-- A section's way of keeping time (R3). -/
inductive SectionKind where
  | pulsed | called | timed
  deriving DecidableEq, Repr

/-- What follows a section: STOP, or NEXT with a section index (R5). -/
inductive Successor where
  | stop
  | next (index : Nat)
  deriving DecidableEq, Repr

/-- One entry of the loaded section table (R1, R14). -/
structure SectionRec where
  kind : SectionKind
  vamp : Bool
  length : Nat
  hint : Nat
  cueCount : Nat
  firstCue : Nat
  successor : Successor
  deriving DecidableEq, Repr

/-- The loaded section table: the section records (their number is the section count) and the used length (R1, R16). -/
structure Book where
  sections : List SectionRec
  usedLength : Nat
  deriving DecidableEq, Repr

/-- The four cue triggers (R8). -/
inductive Trigger where
  | atPos | go | after | withPrev
  deriving DecidableEq, Repr

/-- A text reference (R11). -/
structure TextRef where
  lane : Nat
  lines : Nat
  len1 : Nat
  len2 : Nat
  offset : Nat
  deriving DecidableEq, Repr

/-- A cue as decoded when the part read it: the head's fields and the text references (1.5). -/
structure Cue where
  id : Half
  trigger : Trigger
  priority : Bool
  keep : Bool
  mask : BitVec 6
  style : Byte
  lead : Nat
  when_ : Nat
  minDwell : Nat
  maxDwell : Nat
  refs : List TextRef
  deriving DecidableEq, Repr

/-- The load errors (1.7, "Error codes"). -/
inductive LoadCode where
  | none | badHeader | badSectionCount | badKind | badFlags | badSuccessor | badLength | badHint | badCueRange
  | badRecordLength | badTrigger | badPosition | badOrder | badWith | badLane | badLines | badText | badLead | badDwell
  | emptyCalled
  deriving DecidableEq, Repr

/-- The last load error: its code, section index and cue offset, the last two absent where the error gives none (R16). -/
structure LoadError where
  code : LoadCode
  sect : Option Nat
  offset : Option Nat
  deriving DecidableEq, Repr

/-! ### The clock unit (chapter 2) -/

/-- The clock states (2.4). -/
inductive ClockState where
  | stopped | armed | locking | following | coasting | held | untracked
  deriving DecidableEq, Repr

/-- The profile's input mode (R25). -/
inductive InputMode where
  | a | b | merge
  deriving DecidableEq, Repr

/-- The tracking profile (R27), periods and the lockout in ms, ratios in ‰. Count records are the journal unit's option. -/
structure Profile where
  inputMode : InputMode
  pulseMin : Nat
  pulseMax : Nat
  wt : Nat
  lockIn : Nat
  lockOut : Nat
  lockRun : Nat
  lateMargin : Nat
  coastLimit : Nat
  horizon : Nat
  goLockout : Nat
  deriving DecidableEq, Repr

/-- A beat input's filter: idle, confirming an edge captured at a show time, or waiting for the release after a pulse (R24). -/
inductive BeatFilter where
  | idle
  | confirming (edge : Nat)
  | waiting
  deriving DecidableEq, Repr

/-- The clock unit (chapter 2's state table). Late detection and the section timer are expiries computed from these fields
(R35, R42), so they need no field of their own. -/
structure Clock where
  showTime : Nat
  filterA : BeatFilter
  filterB : BeatFilter
  lastPulse : Option Nat
  profile : Profile
  state : ClockState
  c0 : Nat
  t0 : Nat
  period : Nat
  run : Nat
  coast : Nat
  fh : Nat
  start : Int
  deriving DecidableEq, Repr

/-! ### The sequencer (chapter 4) -/

/-- The sequencer states (R62). -/
inductive SeqState where
  | empty | loading | loaded | running | ended
  deriving DecidableEq, Repr

/-- Which cue of which pass a window entry is: section, pass number and list position (4.2). -/
structure EntryKey where
  sect : Nat
  pass : Half
  offset : Nat
  index : Nat
  deriving DecidableEq, Repr

/-- A window entry's state (4.2). -/
inductive EntryState where
  | waiting | deferred | called
  deriving DecidableEq, Repr

/-- A window entry (4.2). -/
structure Entry where
  cue : Cue
  key : EntryKey
  state : EntryState
  due : Option Nat
  reached : Bool
  qe : Option Nat
  deriving DecidableEq, Repr

/-- The loader cursor: finished, or the pass being loaded, its section, the offset and list index of its next cue and the
cues left in its list. `lost` marks that the cue before was a skipped one that is not WITH, so the WITH cues after it have lost
their group (R19). -/
inductive Cursor where
  | finished
  | reading (pass : Half) (sect offset index left : Nat) (lost : Bool)
  deriving DecidableEq, Repr

/-- What a text title shows: its style and its text reference (R92). -/
structure Text where
  style : Byte
  ref : TextRef
  deriving DecidableEq, Repr

/-- A lane's shadow (5.2): TEXT or BLANK, the cue id or none, the shown time, and the dwells in ms. -/
structure Shadow where
  text : Option Text
  cue : Option Half
  shown : Nat
  minDwell : Nat
  maxDwell : Nat
  deriving DecidableEq, Repr

/-- A fired group in the history: its cues with their places, and the previous shadow of each lane it touched (R79). -/
structure FiredGroup where
  entries : List Entry
  previous : List (LaneIx × Shadow)
  deriving DecidableEq, Repr

/-- The sequencer (chapter 4's state table). `deferAt` is the deferral expiry (R70); `lastEntryAt` is the show time of the
last section entry, ARM or JUMP of the act, which the entry run compares with (R75). -/
structure Sequencer where
  state : SeqState
  book : Option Book
  current : Option Nat
  pass : Half
  heldNext : Option Successor
  cuts : Vector (Option Nat) 128
  vampExit : Bool
  window : List Entry
  cursor : Cursor
  history : List FiredGroup
  lastFire : Option Nat
  entryRun : Nat
  lastEntryAt : Option Nat
  deferAt : Option Nat
  lastError : LoadError
  deriving DecidableEq, Repr

/-! ### The lane units and the screen links (chapters 5 and 6) -/

/-- The four link rates (R89, R114). -/
inductive Baud where
  | b250k | b500k | b1m | b2m
  deriving DecidableEq, Repr

/-- The retry policies (R89). -/
inductive Retry where
  | oneTry | resendOnce
  deriving DecidableEq, Repr

/-- A lane's configuration (R89); timeouts in ms. -/
structure LaneConfig where
  enable : Bool
  baud : Baud
  language : Half
  depth : Nat
  retry : Retry
  faultLimit : Nat
  ackTimeout : Nat
  silenceTimeout : Nat
  deriving DecidableEq, Repr

/-- The link states (R133). -/
inductive LinkState where
  | off | sync | live | paused | fault
  deriving DecidableEq, Repr

/-- The screen values of the last READY (chapter 5's state table). -/
structure ScreenValues where
  buffers : Nat
  maxLine : Nat
  deriving DecidableEq, Repr

/-- The states of a staging record (R97). -/
inductive RecState where
  | free | pending | sending | sent | staged
  deriving DecidableEq, Repr

/-- Who owns a staging record's title (R97). -/
inductive Owner where
  | nobody
  | entry (key : EntryKey)
  | shadow
  deriving DecidableEq, Repr

/-- A staging record (R97). `showSent` is the "show sent" mark; `attempted` says that an earlier attempt of the STAGE was closed
(R106's PENDING row), `showOpened` that its SHOW has been opened, and so sent (R105; log entry 29). `token` is the model's own: a
number that names one title's stay in the record, so that a frame can say which title it belongs to (log entry 12). -/
structure StagingRec where
  state : RecState
  owner : Owner
  token : Nat
  cue : Half
  text : Text
  showSent : Bool
  showOpened : Bool
  attempted : Bool
  deriving DecidableEq, Repr

/-- The kinds of frame the part sends (R118). -/
inductive FrameKind where
  | hello | stage | drop | show_ | clear
  deriving DecidableEq, Repr

/-- The frames the express queue may hold: SHOW of a buffer for the title `token` names, or CLEAR (R125). -/
inductive ExpressWhat where
  | show_ (buffer : Fin 2) (token : Nat) (cue : Half)
  | clear
  deriving DecidableEq, Repr

/-- A queued express frame and the attempt it will be (R125, R131). -/
structure Express where
  what : ExpressWhat
  attempt : Nat
  deriving DecidableEq, Repr

/-- When a frame's CLOSE was sent: its place in the order of the lane's CLOSEs, its show time and the ack timeout expiry
scheduled then (R128). -/
structure Closing where
  order : Nat
  time : Nat
  deadline : Nat
  deriving DecidableEq, Repr

/-- An entry of the outstanding list (R128). `content` is a STAGE's body after its sequence number, for the resend (R131);
`retry` is the retry policy in force at the frame's OPEN, which is the one it is judged by (R89, R131). -/
structure Outstanding where
  kind : FrameKind
  seq : Byte
  attempt : Nat
  buffer : Option (Fin 2)
  token : Nat
  cue : Option Half
  content : List Byte
  retry : Retry
  closing : Option Closing
  deriving DecidableEq, Repr

/-- A STAGE waiting to be sent again (R131). -/
structure Resend where
  buffer : Fin 2
  token : Nat
  cue : Half
  content : List Byte
  deriving DecidableEq, Repr

/-- A frame in flight: its kind, sequence number, the staging title and buffer it belongs to, and the characters not yet
sent, CLOSE last (R123); none are left while its CLOSE is on the line. -/
structure InFlight where
  kind : FrameKind
  seq : Byte
  buffer : Option (Fin 2)
  token : Nat
  left : List Byte
  deriving DecidableEq, Repr

/-- The transmitter (chapter 6's state table): the normal frame in flight or suspended, the express frame in flight, whether a
suspension is in progress, whether a CANCEL is due (R127), the last character put on the line (none: the line is idle) and the
show time of the next character boundary (R114). -/
structure Transmitter where
  normal : Option InFlight
  express : Option InFlight
  suspended : Bool
  cancelDue : Bool
  lineOut : Option Byte
  boundary : Nat
  deriving DecidableEq, Repr

/-- The receiver (R121): outside a frame, in a frame or after ESC, with the bytes taken so far and whether the frame is
already bad. -/
inductive Receiver where
  | outside
  | inFrame (bytes : List Byte) (bad : Bool)
  | afterEsc (bytes : List Byte) (bad : Bool)
  deriving DecidableEq, Repr

/-- A lane unit with its screen link (the state tables of chapters 5 and 6). `late` are the buffers of the late and catch-up
STAGEs waiting to open, oldest first; `catchUpWaiting` is a catch-up STAGE that waits without a record (R110); `maxDwellAt` the
max dwell expiry; `lastChar` the show time from which the silence timeout runs (R136); `helloAt` the HELLO interval and
`helloWaiting` that it has expired; `nextToken` the next title's number (log entry 12). -/
structure Lane where
  cfg : LaneConfig
  link : LinkState
  screen : Option ScreenValues
  shadow : Shadow
  blanked : Bool
  recs : Vector StagingRec 2
  drops : Vector Bool 2
  maxDwellAt : Option Nat
  sent : Word
  acknowledged : Word
  misses : Word
  badReplies : Word
  strays : Word
  sequence : Byte
  tx : Transmitter
  express : List Express
  outstanding : List Outstanding
  late : List (Fin 2)
  resends : List Resend
  catchUpWaiting : Bool
  rx : Receiver
  hellos : List Byte
  missCounter : Nat
  helloAt : Option Nat
  helloWaiting : Bool
  lastChar : Nat
  nextToken : Nat
  deriving DecidableEq, Repr

/-! ### The console (chapter 7) -/

/-- One value for each of the four keys. -/
structure PerKey (α : Type) where
  go : α
  back : α
  hold : α
  blank : α
  deriving DecidableEq, Repr

/-- A key's filter (R140), with the show time at which its 10 ms began. -/
inductive KeyFilter where
  | idle
  | confirmingPress (since : Nat)
  | held
  | confirmingRelease (since : Nat)
  deriving DecidableEq, Repr

/-- The four lamp outputs, lit or dark (R149). -/
structure Lamps where
  go : Bool
  hold : Bool
  blank : Bool
  fault : Bool
  deriving DecidableEq, Repr

/-- The console (chapter 7's state table), with the levels of the four key inputs, which a start-up reads (R140). -/
structure Console where
  levels : PerKey Bool
  filters : PerKey KeyFilter
  lastGo : Option Nat
  lamps : Lamps
  deriving DecidableEq, Repr

/-! ### The request unit (chapter 8) -/

/-- The two requests that take time (R153), with what they carried. -/
inductive LongJob where
  | load
  | replace (args : ReplaceArgs)
  deriving DecidableEq, Repr

/-- The scan state: idle, scanning with the index of the next slot to read, or executing the slot taken, whose tag and
arguments are held as read at the take (R152, R153). -/
inductive ScanState where
  | idle
  | scanning (next : Nat)
  | executing (slot : SlotIx) (tag : Half) (job : LongJob)
  deriving DecidableEq, Repr

/-- The request unit (chapter 8's state table). `replaceUsed` says that the section of the REPLACE_SECTION being executed has come
into use while its walk ran (R21). -/
structure RequestUnit where
  scan : ScanState
  rescan : Bool
  replaceUsed : Bool
  periodAt : Option Nat
  deriving DecidableEq, Repr

/-! ### The journal unit and the status writer (chapters 9 and 10) -/

/-- The start cause of the next START record (R173). -/
inductive StartCause where
  | power | soft | resume
  deriving DecidableEq, Repr

/-- The journal unit (chapter 9's state table). -/
structure JournalUnit where
  w : Word
  lost : Nat
  alert : Nat
  countRecords : Bool
  startCause : StartCause
  deriving DecidableEq, Repr

/-- The register window and notice unit (R178 to R181), and the status writer's count of generations (R182). The seven notice
bits are NOTICE's bits 6..0 (11.7). `noticeLine` is the notice line's level. `generation` is the generation word last written, and
`update` the words of the update under way that are still to be written, the even generation word last: none where no update is
under way (R182; log entry 7). `readData` is the model's own: the bytes the last TIME_LO read returned to the host. -/
structure Registers where
  enable : Bool
  notice : BitVec 7
  noticeEn : BitVec 7
  timeHi : Half
  readData : Word
  noticeLine : Bool
  generation : Word
  update : List (Fin 112 × Word)
  deriving DecidableEq, Repr

/-! ### The part and the machine -/

/-- Everything the manual gives the part. -/
structure Part where
  mem : Memory
  regs : Registers
  clock : Clock
  seq : Sequencer
  lanes : Vector Lane 6
  console : Console
  requests : RequestUnit
  journal : JournalUnit
  deriving DecidableEq, Repr

/-- The machine: the part and the queue of commands that are waiting, first in, first out. -/
structure State where
  part : Part
  pending : List Instr
  deriving DecidableEq, Repr

/-- Why a command stops. -/
inductive Fault where
  /-- Raised by UNKNOWN with a kind code in 1..16: such a slot holds one of the sixteen requests and is never answered UNKNOWN
  (R155), so the command names no event of the part. Safe. -/
  | kindIsKnown
  deriving DecidableEq, Repr

/-- Why a command is refused. -/
inductive Refusal where
  /-- Raised by exec's arm of a command that has no meaning yet; no arm is left so. Safe. -/
  | notModelled (mnemonic : String)
  deriving DecidableEq, Repr

/-! ### Reset (R184, and the tables at the head of each chapter) -/

/-- The default tracking profile (R27). -/
def Profile.default : Profile :=
  { inputMode := .a, pulseMin := 150, pulseMax := 3000, wt := 16384, lockIn := 80, lockOut := 250, lockRun := 3,
    lateMargin := 300, coastLimit := 2, horizon := 2, goLockout := 250 }

/-- The clock unit after reset (R22, R24, R27, R29). -/
def Clock.reset : Clock :=
  { showTime := 0, filterA := .idle, filterB := .idle, lastPulse := none, profile := Profile.default, state := .stopped,
    c0 := 0, t0 := 0, period := 500000, run := 0, coast := 0, fh := 0, start := 0 }

/-- No load error (R16, R17). -/
def LoadError.none : LoadError := { code := .none, sect := Option.none, offset := Option.none }

/-- The sequencer after reset (chapter 4's table, R17, R87). -/
def Sequencer.reset : Sequencer :=
  { state := .empty, book := none, current := none, pass := 0, heldNext := none, cuts := Vector.replicate 128 none,
    vampExit := false, window := [], cursor := .finished, history := [], lastFire := none, entryRun := 0,
    lastEntryAt := none, deferAt := none, lastError := LoadError.none }

/-- The default lane configuration (R89). -/
def LaneConfig.default : LaneConfig :=
  { enable := false, baud := .b500k, language := 0x2D2D, depth := 2, retry := .resendOnce, faultLimit := 3,
    ackTimeout := 30, silenceTimeout := 250 }

/-- The shadow after reset: BLANK, no cue, shown time 0, dwells 0 (R92). -/
def Shadow.reset : Shadow := { text := none, cue := none, shown := 0, minDwell := 0, maxDwell := 0 }

/-- A FREE staging record. -/
def StagingRec.free : StagingRec :=
  { state := .free, owner := .nobody, token := 0, cue := 0,
    text := { style := 0, ref := { lane := 0, lines := 0, len1 := 0, len2 := 0, offset := 0 } },
    showSent := false, showOpened := false, attempted := false }

/-- The transmitter with nothing in flight and the line idle (R114). -/
def Transmitter.idle : Transmitter :=
  { normal := none, express := none, suspended := false, cancelDue := false, lineOut := none, boundary := 0 }

/-- A lane after reset (the tables of chapters 5 and 6). -/
def Lane.reset : Lane :=
  { cfg := LaneConfig.default, link := .off, screen := none, shadow := Shadow.reset, blanked := false,
    recs := Vector.replicate 2 StagingRec.free, drops := Vector.replicate 2 false, maxDwellAt := none,
    sent := 0, acknowledged := 0, misses := 0, badReplies := 0, strays := 0, sequence := 0, tx := Transmitter.idle,
    express := [], outstanding := [], late := [], resends := [], catchUpWaiting := false, rx := .outside, hellos := [],
    missCounter := 0, helloAt := none, helloWaiting := false, lastChar := 0, nextToken := 0 }

/-- The console after reset with given key input levels: filters idle, no accepted GO, lamps dark (chapter 7's table). -/
def Console.reset (levels : PerKey Bool) : Console :=
  { levels := levels, filters := { go := .idle, back := .idle, hold := .idle, blank := .idle }, lastGo := none,
    lamps := { go := false, hold := false, blank := false, fault := false } }

/-- The request unit after reset (R151). -/
def RequestUnit.reset : RequestUnit := { scan := .idle, rescan := false, replaceUsed := false, periodAt := none }

/-- The journal unit after reset, with the start cause the reset gives (R173). -/
def JournalUnit.reset (cause : StartCause) : JournalUnit :=
  { w := 0, lost := 0, alert := 1, countRecords := false, startCause := cause }

/-- The register window after reset (R184, R182). -/
def Registers.reset : Registers :=
  { enable := false, notice := 0, noticeEn := 0, timeHi := 0, readData := 0, noticeLine := false, generation := 0,
    update := [] }

/-- The part after a reset that leaves this memory, key levels and start cause: every other field at its reset value. -/
def Part.resetWith (mem : Memory) (levels : PerKey Bool) (cause : StartCause) : Part :=
  { mem := mem, regs := Registers.reset, clock := Clock.reset, seq := Sequencer.reset,
    lanes := Vector.replicate 6 Lane.reset, console := Console.reset levels, requests := RequestUnit.reset,
    journal := JournalUnit.reset cause }

/-- The part after power-up with every key released (R184; log entries 2 and 4). -/
def Part.reset : Part :=
  Part.resetWith { cells := [] } { go := false, back := false, hold := false, blank := false } .power

/-- The machine right after power-up reset: no command waits. -/
def State.reset : State := { part := Part.reset, pending := [] }

end Sys2Proof.Machine
end

