-- ==== Sys2Proof/Machine/Ops.lean ====
section
/-! DEFINITION. The named operations over book memory and over the part's lanes and keys, on which every meaning rests. -/

namespace Sys2Proof.Machine

open Sys2Proof (LaneIx SlotIx Key)

/-! ### Book memory -/

/-- What an address that no cell lists reads as: 0 (log entry 2). -/
def unlisted : Byte := 0

/-- The byte the cells give an address. -/
def cellsRead : List Host.Cell → Nat → Byte
  | [], _ => unlisted
  | (a, b) :: rest, k => if k = a then b else cellsRead rest k

/-- A cell put before the first cell of a higher address. -/
def cellsInsert (k : Nat) (v : Byte) : List Host.Cell → List Host.Cell
  | [] => [(k, v)]
  | (a, b) :: rest => if k < a then (k, v) :: (a, b) :: rest else (a, b) :: cellsInsert k v rest

/-- The cells with one byte written: no other cell of the address is left, and a byte an unlisted address reads as anyway is
not listed. -/
def cellsWrite (cells : List Host.Cell) (k : Nat) (v : Byte) : List Host.Cell :=
  let others := cells.filter fun c => decide (c.1 ≠ k)
  if v = unlisted then others else cellsInsert k v others

/-- The canonical form: addresses strictly rising, and no cell that an unlisted address would read as. -/
def Memory.wf (m : Memory) : Bool :=
  decide (m.cells.Pairwise fun x y => x.1 < y.1) && m.cells.all fun c => decide (c.2 ≠ unlisted)

/-- One byte of book memory. -/
def Memory.byte (m : Memory) (a : Nat) : Byte := cellsRead m.cells a

/-- Book memory with one byte written. -/
def Memory.setByte (m : Memory) (a : Nat) (v : Byte) : Memory := { cells := cellsWrite m.cells a v }

/-- Book memory with a run of bytes written, the first at the lowest address. -/
def Memory.setBytes (m : Memory) (a : Nat) : List Byte → Memory
  | [] => m
  | v :: rest => (m.setByte a v).setBytes (a + 1) rest

/-- A run of bytes, the first at the lowest address. -/
def Memory.bytes (m : Memory) (a : Nat) : Nat → List Byte
  | 0 => []
  | n + 1 => m.byte a :: m.bytes (a + 1) n

/-- The little-endian number of `n` bytes (R188). -/
def Memory.number (m : Memory) (a : Nat) : Nat → Nat
  | 0 => 0
  | n + 1 => (m.byte a).toNat + 256 * m.number (a + 1) n

/-- One 32-bit word of book memory (R188). -/
def Memory.word (m : Memory) (a : Nat) : Nat := m.number a 4

/-- The `n` bytes of a number, little-endian (R188). -/
def leBytes : Nat → Nat → List Byte
  | 0, _ => []
  | n + 1, v => BitVec.ofNat 8 v :: leBytes n (v / 256)

/-- A field that may be absent: all one bits when it is (R188). -/
def optBytes (n : Nat) (v : Option Nat) : List Byte := leBytes n (v.getD (256 ^ n - 1))

/-- Book memory with one 32-bit word written. -/
def Memory.setWord (m : Memory) (a v : Nat) : Memory := m.setBytes a (leBytes 4 v)

/-- A signed number as the field of `n` bytes holds it in two's complement. -/
def twosComplement (n : Nat) (v : Int) : Nat := (v % (256 ^ n : Nat)).toNat

/-! ### Lanes, keys, buffers -/

/-- The six lanes in lane order. -/
def allLanes : List LaneIx := [0, 1, 2, 3, 4, 5]

/-- The two buffers in order. -/
def bothBuffers : List (Fin 2) := [0, 1]

/-- One lane of the part. -/
def Part.lane (p : Part) (i : LaneIx) : Lane := p.lanes[i]

/-- The part with one lane replaced. -/
def Part.setLane (p : Part) (i : LaneIx) (l : Lane) : Part := { p with lanes := p.lanes.set i l }

/-- The part with one lane changed. -/
def Part.modLane (p : Part) (i : LaneIx) (f : Lane → Lane) : Part := p.setLane i (f (p.lane i))

/-- One staging record of a lane. -/
def Lane.rec_ (l : Lane) (b : Fin 2) : StagingRec := l.recs[b]

/-- A lane with one staging record replaced. -/
def Lane.setRec (l : Lane) (b : Fin 2) (r : StagingRec) : Lane := { l with recs := l.recs.set b r }

/-- A lane with a buffer's owed DROP set or forgotten. -/
def Lane.setDrop (l : Lane) (b : Fin 2) (owed : Bool) : Lane := { l with drops := l.drops.set b owed }

/-- The value of one key. -/
def PerKey.get {α : Type} (k : PerKey α) : Key → α
  | .go => k.go
  | .back => k.back
  | .hold => k.hold
  | .blank => k.blank

/-- The values with one key's replaced. -/
def PerKey.set {α : Type} (k : PerKey α) (i : Key) (v : α) : PerKey α :=
  match i with
  | .go => { k with go := v }
  | .back => { k with back := v }
  | .hold => { k with hold := v }
  | .blank => { k with blank := v }

/-- The lanes of a set of six bits, in lane order (R7). -/
def lanesOf (mask : BitVec 6) : List LaneIx := allLanes.filter fun i => mask.getLsbD i

/-- The set of six bits of a list of lanes. -/
def laneMask (lanes : List LaneIx) : BitVec 6 :=
  lanes.foldl (fun m i => m ||| BitVec.twoPow 6 i) 0

/-! ### Small updates of the part -/

/-- The show time of the event being taken (2.1). -/
def Part.now (p : Part) : Nat := p.clock.showTime

/-- Whether CONTROL.ENABLE is 1. -/
def Part.enabled (p : Part) : Bool := p.regs.enable

/-- The loaded section table entry of a section. An index no section has reads as an empty CALLED section that leads to STOP; no
reachable state looks one up (log entry 20). -/
def Sequencer.sectionAt (q : Sequencer) (n : Nat) : SectionRec :=
  ((q.book.bind fun b => b.sections[n]?).getD
    { kind := .called, vamp := false, length := 0, hint := 0, cueCount := 0, firstCue := 0, successor := .stop })

/-- The current section's table entry. -/
def Sequencer.currentRec (q : Sequencer) : SectionRec := q.sectionAt (q.current.getD Config.memorySize)

/-- The loaded used length (R12). -/
def Sequencer.usedLength (q : Sequencer) : Nat := (q.book.map Book.usedLength).getD 0

/-- The loaded section count (R2). -/
def Sequencer.sectionCount (q : Sequencer) : Nat := (q.book.map fun b => b.sections.length).getD 0

end Sys2Proof.Machine
end

