-- ==== Sys2Proof/Machine/Codes.lean ====
section
/-! DEFINITION. The codes the part writes into slots, the status block and journal records, from the owning chapters' tables. -/

namespace Sys2Proof.Machine

open Sys2Proof (Key)

/-- Load error codes (1.7). -/
def LoadCode.code : LoadCode → Nat
  | .none => 0 | .badHeader => 1 | .badSectionCount => 2 | .badKind => 3 | .badFlags => 4 | .badSuccessor => 5
  | .badLength => 6 | .badHint => 7 | .badCueRange => 8 | .badRecordLength => 9 | .badTrigger => 10
  | .badPosition => 11 | .badOrder => 12 | .badWith => 13 | .badLane => 14 | .badLines => 15 | .badText => 16
  | .badLead => 17 | .badDwell => 18 | .emptyCalled => 19

/-- Clock state codes (2.4). -/
def ClockState.code : ClockState → Nat
  | .stopped => 0 | .armed => 1 | .locking => 2 | .following => 3 | .coasting => 4 | .held => 5 | .untracked => 6

/-- Sequencer state codes (R62). -/
def SeqState.code : SeqState → Nat
  | .empty => 0 | .loading => 1 | .loaded => 2 | .running => 3 | .ended => 4

/-- Link state codes (R133). -/
def LinkState.code : LinkState → Nat
  | .off => 0 | .sync => 1 | .live => 2 | .paused => 3 | .fault => 4

/-- Frame kinds (R118). -/
def FrameKind.code : FrameKind → Byte
  | .hello => 0x10 | .stage => 0x11 | .drop => 0x12 | .show_ => 0x21 | .clear => 0x22

/-- Normal frames are HELLO, STAGE and DROP (R117). -/
def FrameKind.normal : FrameKind → Bool
  | .hello | .stage | .drop => true
  | .show_ | .clear => false

/-- Key codes (R141). -/
def keyCode : Key → Nat
  | .go => 1 | .back => 2 | .hold => 3 | .blank => 4

/-- The outcomes of a key press (R141). -/
inductive KeyOutcome where
  | fired | forced | exitArmed | backed | held | blanked | unblanked | nothing | ignored
  deriving DecidableEq, Repr

/-- Key outcome codes (R141). -/
def KeyOutcome.code : KeyOutcome → Nat
  | .fired => 1 | .forced => 2 | .exitArmed => 3 | .backed => 4 | .held => 5 | .blanked => 6 | .unblanked => 7
  | .nothing => 8 | .ignored => 9

/-- Who pressed (R141, R177). -/
inductive KeySource where
  | console | remote
  deriving DecidableEq, Repr

/-- Key source codes (R177). -/
def KeySource.code : KeySource → Nat
  | .console => 1 | .remote => 2

/-- How a group fired (R68). -/
inductive HowFired where
  | due | late | deferred | go | forced | calledBack | primed
  deriving DecidableEq, Repr

/-- How-fired codes (R68). -/
def HowFired.code : HowFired → Nat
  | .due => 1 | .late => 2 | .deferred => 3 | .go => 4 | .forced => 5 | .calledBack => 6 | .primed => 7

/-- How a section was entered (R72). -/
inductive HowEntered where
  | next | cut | vampLoop | vampExit | jump | arm | forced
  deriving DecidableEq, Repr

/-- How-entered codes (R72). -/
def HowEntered.code : HowEntered → Nat
  | .next => 1 | .cut => 2 | .vampLoop => 3 | .vampExit => 4 | .jump => 5 | .arm => 6 | .forced => 7

/-- The causes of a clock state change (R45). -/
inductive ClockCause where
  | pulse | lock | deviation | overlong | late | hold | section_ | forced | arm | stop | halt
  deriving DecidableEq, Repr

/-- Clock cause codes (R45). -/
def ClockCause.code : ClockCause → Nat
  | .pulse => 1 | .lock => 2 | .deviation => 3 | .overlong => 4 | .late => 5 | .hold => 6 | .section_ => 7
  | .forced => 8 | .arm => 9 | .stop => 10 | .halt => 11

/-- The origins of a count (R46). -/
inductive CountOrigin where
  | pulse | synth | retime | forced
  deriving DecidableEq, Repr

/-- Count origin codes (R46). -/
def CountOrigin.code : CountOrigin → Nat
  | .pulse => 1 | .synth => 2 | .retime => 3 | .forced => 4

/-- The causes of a link state change (R133). -/
inductive LaneCause where
  | enable | disable | baud | start | ready | restart | busy | free | silence | fault | clearFault
  deriving DecidableEq, Repr

/-- Lane cause codes (R133). -/
def LaneCause.code : LaneCause → Nat
  | .enable => 1 | .disable => 2 | .baud => 3 | .start => 4 | .ready => 5 | .restart => 6 | .busy => 7 | .free => 8
  | .silence => 9 | .fault => 10 | .clearFault => 11

/-- The causes of a CLEARED record (R108). -/
inductive ClearedCause where
  | maxDwell | jump | stop
  deriving DecidableEq, Repr

/-- CLEARED cause codes (R108). -/
def ClearedCause.code : ClearedCause → Nat
  | .maxDwell => 1 | .jump => 2 | .stop => 3

/-- The causes of an OVERTAKEN record (R174). -/
inductive OvertakenCause where
  | byGroup | sectionEntry | actEnd
  deriving DecidableEq, Repr

/-- OVERTAKEN cause codes (R174). -/
def OvertakenCause.code : OvertakenCause → Nat
  | .byGroup => 1 | .sectionEntry => 2 | .actEnd => 3

/-- Start cause codes (R174). -/
def StartCause.code : StartCause → Nat
  | .power => 1 | .soft => 2 | .resume => 3

/-- The results of a request (8.3). -/
inductive Result where
  | ok | okClamped | unknown | badArg | state | inUse | bookError | aborted
  deriving DecidableEq, Repr

/-- Result codes (8.3). -/
def Result.code : Result → Nat
  | .ok => 1 | .okClamped => 2 | .unknown => 3 | .badArg => 4 | .state => 5 | .inUse => 6 | .bookError => 7
  | .aborted => 8

/-- Slot owner codes (8.1). -/
def ownerSubmitted : Nat := 1
def ownerTaken : Nat := 2
def ownerDone : Nat := 3

/-- The character time of each rate, in µs: ten bit times (R114). -/
def Baud.charTime : Baud → Nat
  | .b250k => 40 | .b500k => 20 | .b1m => 10 | .b2m => 5

end Sys2Proof.Machine
end

