-- ==== Sys2Proof/Machine/Flags.lean ====
section
/-! DEFINITION. The part's flags: the seven notice bits and the notice line (R180), the up and down of a lane (chapter 5), and
the conditions of the four lamps (R149). -/

namespace Sys2Proof.Machine

/-- The seven notices (10.2). -/
inductive Notice where
  | slot | journal | urgent | clock | section_ | end_ | mark
  deriving DecidableEq, Repr

/-- A notice's bit of NOTICE and NOTICE_EN (11.7). -/
def Notice.bit : Notice → Nat
  | .slot => 0 | .journal => 1 | .urgent => 2 | .clock => 3 | .section_ => 4 | .end_ => 5 | .mark => 6

/-- The part with a notice bit set; a bit already set stays set (R180). -/
def Part.setNotice (p : Part) (n : Notice) : Part :=
  { p with regs := { p.regs with notice := p.regs.notice ||| BitVec.twoPow 7 n.bit } }

/-- The notice line is asserted while some bit is set in both NOTICE and NOTICE_EN (R180). -/
def noticeLineOf (r : Registers) : Bool := decide (r.notice &&& r.noticeEn ≠ 0)

/-- A lane is up in LIVE and PAUSED (chapter 5). -/
def Lane.up (l : Lane) : Bool :=
  match l.link with
  | .live | .paused => true
  | .off | .sync | .fault => false

/-- The transmitter sends and the receiver takes characters in SYNC, LIVE and PAUSED (R114). -/
def Lane.active (l : Lane) : Bool :=
  match l.link with
  | .sync | .live | .paused => true
  | .off | .fault => false

/-- What an accepted GO does: R143's cases in their order. Case 4 and case 5 tell the passes apart by the head group's pass
number. -/
def goCase (p : Part) : KeyOutcome :=
  match p.seq.window with
  | [] => .nothing
  | e :: _ =>
    if p.seq.state ≠ .running then .nothing
    else if p.seq.currentRec.vamp && !p.seq.vampExit then .exitArmed
    else if e.key.pass = p.seq.pass then .fired
    else if p.clock.state = .held then .forced
    else .nothing

/-- The lamp conditions (R149). -/
def lampsOf (p : Part) : Lamps :=
  { go := decide (goCase p ≠ .nothing)
    hold := decide (p.clock.state = .held)
    blank := allLanes.any fun i => (p.lane i).cfg.enable && (p.lane i).blanked
    fault := allLanes.any fun i => decide ((p.lane i).link = .fault) }

/-- The notice line and the lamps brought to their conditions, in the event that changes them (R149, R180). -/
def Part.outputs (p : Part) : Part :=
  { p with
    regs := { p.regs with noticeLine := noticeLineOf p.regs }
    console := { p.console with lamps := lampsOf p } }

end Sys2Proof.Machine
end

