-- ==== Sys2Proof/Machine/Journal.lean ====
section
/-! DEFINITION. The status writer (R182, 11.5) and the journal unit: the records (R174 to R177, 11.4) and their append (R169 to
R171). -/

namespace Sys2Proof.Machine

open Sys2Proof (LaneIx Key)

/-! ### The status block -/

/-- A status word that may be absent: all one bits when it is (10.4). -/
def optWord (v : Option Nat) : Nat := v.getD 0xFFFFFFFF

/-- The head group's first cue id, or none (R88). -/
def Sequencer.headCue (q : Sequencer) : Option Nat := q.window.head?.map fun e => e.cue.id.toNat

/-- The sequencer's status words: offset and value (R88, 11.5). -/
def seqStatus (q : Sequencer) : List (Nat × Nat) :=
  [(0x044, q.state.code), (0x048, optWord q.current), (0x04C, q.pass.toNat), (0x050, optWord q.headCue),
   (0x054, q.window.length), (0x058, q.lastError.code.code), (0x05C, optWord q.lastError.sect),
   (0x060, optWord q.lastError.offset)]

/-- The clock unit's status words (R47, 11.5): t0 and S take two words each. -/
def clockStatus (c : Clock) : List (Nat × Nat) :=
  [(0x064, c.state.code), (0x068, c.c0), (0x06C, c.t0 % 4294967296), (0x070, c.t0 / 4294967296), (0x074, c.period),
   (0x078, c.run), (0x07C, c.coast), (0x088, c.fh), (0x08C, twosComplement 8 c.start % 4294967296),
   (0x090, twosComplement 8 c.start / 4294967296)]

/-- The journal unit's status words (R171, 11.5). -/
def journalStatus (j : JournalUnit) : List (Nat × Nat) := [(0x080, j.w.toNat), (0x084, j.lost)]

/-- A lane's status words (R113, 11.5). -/
def laneStatus (i : LaneIx) (l : Lane) : List (Nat × Nat) :=
  let base := 0x0C0 + 32 * i.val
  [(base, l.link.code), (base + 4, if l.blanked then 1 else 0), (base + 8, optWord (l.shadow.cue.map BitVec.toNat)),
   (base + 12, l.sent.toNat), (base + 16, l.acknowledged.toNat), (base + 20, l.misses.toNat),
   (base + 24, l.badReplies.toNat), (base + 28, l.strays.toNat)]

/-- Book memory with a list of words written in turn. -/
def Memory.setWords (m : Memory) : List (Nat × Nat) → Memory
  | [] => m
  | (a, v) :: rest => (m.setWord a v).setWords rest

/-- The word of the status block at an address (11.5). -/
def statusIndex (a : Nat) : Fin 112 := Fin.ofNat 112 ((a - Config.statusAt) / 4)

/-- Book memory with one word of the status block written. -/
def Memory.setStatus (m : Memory) (x : Fin 112 × Word) : Memory := m.setWord (Config.statusAt + 4 * x.1.val) x.2.toNat

/-- The writer's next word: the next one of the update under way, the even generation word last (R182). -/
def Part.writeStatusWord (p : Part) : Part :=
  match p.regs.update with
  | [] => p
  | x :: rest =>
    { p with
      mem := p.mem.setStatus x
      regs := { p.regs with
        update := rest, generation := if rest = [] then p.regs.generation + 1 else p.regs.generation } }

/-- The update under way, if any, written whole (R182). -/
def Part.finishUpdate (p : Part) : Part :=
  { p with
    mem := p.regs.update.foldl Memory.setStatus p.mem
    regs := { p.regs with
      update := [], generation := if p.regs.update = [] then p.regs.generation else p.regs.generation + 1 } }

/-- An update handed to the writer: the one under way is written whole, then the generation word is made odd, and the fields
and the even generation word are the update now under way (R182). -/
def Part.statusWrite (p : Part) (fields : List (Nat × Nat)) : Part :=
  let p := p.finishUpdate
  let g := p.regs.generation
  { p with
    mem := p.mem.setStatus (0, g + 1)
    regs := { p.regs with
      generation := g + 1
      update := (fields.map fun x => (statusIndex x.1, BitVec.ofNat 32 x.2)) ++ [(0, g + 2)] } }

/-- The update a block hands when the words it shows have changed over the event. -/
def Part.statusIfChanged (p : Part) (old new : List (Nat × Nat)) : Part :=
  if old = new then p else p.statusWrite new

/-- The updates of one event: the sequencer's, the clock unit's and each lane's, where its words changed (R47, R88, R113). The
journal unit's are written at each append (R171). -/
def Part.statusUpdates (before p : Part) : Part :=
  let p := p.statusIfChanged (seqStatus before.seq) (seqStatus p.seq)
  let p := p.statusIfChanged (clockStatus before.clock) (clockStatus p.clock)
  allLanes.foldl (fun q i => q.statusIfChanged (laneStatus i (before.lane i)) (laneStatus i (q.lane i))) p

/-- The unused words of the status block (11.5), which the whole-block write makes 0 (R183). -/
def unusedStatus : List (Nat × Nat) :=
  ((List.range 11).map fun k => (0x094 + 4 * k, 0)) ++ ((List.range 32).map fun k => (0x180 + 4 * k, 0))

/-- The whole-block write of a start-up: every field in one update, the generation word going on from the writer's count, and the
block then whole (R183). -/
def Part.statusWhole (p : Part) : Part :=
  Part.finishUpdate <| p.statusWrite (seqStatus p.seq ++ clockStatus p.clock ++ journalStatus p.journal ++
    (allLanes.flatMap fun i => laneStatus i (p.lane i)) ++ unusedStatus)

/-! ### Records -/

/-- A journal record as it is asked for: kind, cause, lane (255: none) and the kind's fields. NOTE's tag stands in the place of
cause and lane. `urgent` marks the urgent kinds (R170). -/
structure Record where
  kind : Nat
  cause : Nat
  lane : Nat
  fields : List Byte
  urgent : Bool

/-- No lane, in a record's lane byte (R174). -/
def noLane : Nat := 0xFF

/-- START (R173, R175). -/
def startRecord (cause : StartCause) (w h lost : Nat) : Record :=
  { kind := 1, cause := cause.code, lane := noLane, fields := leBytes 4 w ++ leBytes 4 h ++ leBytes 4 lost, urgent := false }

/-- BOOK (R16, R21, R175): `request` is LOAD_BOOK 1 or REPLACE_SECTION 2. -/
def bookRecord (request : Nat) (result : Result) (code : LoadCode) (sect offset : Option Nat) : Record :=
  { kind := 2, cause := request, lane := noLane, urgent := false
    fields := leBytes 1 result.code ++ leBytes 1 code.code ++ optBytes 2 sect ++ optBytes 4 offset }

/-- SECTION (R72, R175). -/
def sectionRecord (how : HowEntered) (left : Option Nat) (entered : Nat) (pass : Half) : Record :=
  { kind := 3, cause := how.code, lane := noLane, urgent := false
    fields := optBytes 1 left ++ leBytes 1 entered ++ leBytes 2 pass.toNat }

/-- CLOCK (R45, R175): c0 and P after the change, fh when the state entered is HELD. -/
def clockRecord (cause : ClockCause) (left : ClockState) (c : Clock) : Record :=
  { kind := 4, cause := cause.code, lane := noLane, urgent := false
    fields := leBytes 1 left.code ++ leBytes 1 c.state.code ++
      optBytes 1 (if c.state = .held then some c.fh else none) ++ [0] ++ leBytes 2 c.c0 ++ [0, 0] ++ leBytes 4 c.period }

/-- COUNT (R46, R175). -/
def countRecord (origin : CountOrigin) (sect : Option Nat) (c : Clock) : Record :=
  { kind := 5, cause := origin.code, lane := noLane, urgent := false
    fields := optBytes 1 sect ++ [0] ++ leBytes 2 c.c0 ++ leBytes 4 c.period ++ leBytes 6 c.t0 }

/-- A slip held within ±2,147,483,647 µs, or none (R175, 11.4). -/
def slipField (slip : Option Int) : List Byte :=
  match slip with
  | none => leBytes 4 0xFFFFFFFF
  | some v => leBytes 4 (twosComplement 4 (max (-2147483647) (min 2147483647 v)))

/-- FIRED (R68, R175). -/
def firedRecord (how : HowFired) (cue : Half) (sect : Nat) (lanes : BitVec 6) (pass : Half) (due : Option Nat)
    (slip : Option Int) : Record :=
  { kind := 6, cause := how.code, lane := noLane, urgent := false
    fields := leBytes 2 cue.toNat ++ leBytes 1 sect ++ leBytes 1 lanes.toNat ++ leBytes 2 pass.toNat ++ optBytes 6 due ++
      slipField slip }

/-- OVERTAKEN (R71, R72, R74, R175). -/
def overtakenRecord (cause : OvertakenCause) (cue : Half) (by_ : Option Half) (key : EntryKey) (due : Option Nat) : Record :=
  { kind := 7, cause := cause.code, lane := noLane, urgent := false
    fields := leBytes 2 cue.toNat ++ optBytes 2 (by_.map BitVec.toNat) ++ leBytes 1 key.sect ++ [0] ++
      leBytes 2 key.pass.toNat ++ optBytes 6 due }

/-- CLEARED (R108, R109, R176): the cue whose title was cleared. -/
def clearedRecord (cause : ClearedCause) (lane : LaneIx) (cue : Option Half) : Record :=
  { kind := 8, cause := cause.code, lane := lane.val, urgent := false, fields := optBytes 2 (cue.map BitVec.toNat) }

/-- LANE (R133, R176): the fields that do not apply are absent; with cause FAULT it is urgent (R170). -/
def laneRecord (cause : LaneCause) (lane : LaneIx) (left entered : LinkState) (screen : Option (Nat × Nat × Nat))
    (missCounter : Option Nat) : Record :=
  { kind := 9, cause := cause.code, lane := lane.val, urgent := decide (cause = .fault)
    fields := leBytes 1 left.code ++ leBytes 1 entered.code ++ optBytes 1 (screen.map fun s => s.1) ++
      optBytes 1 (screen.map fun s => s.2.1) ++ optBytes 1 (screen.map fun s => s.2.2) ++ optBytes 1 missCounter }

/-- LANE_MISS (R132, R176). -/
def laneMissRecord (lane : LaneIx) (kind : FrameKind) (seq : Byte) (attempt missCounter : Nat) : Record :=
  { kind := 10, cause := 0, lane := lane.val, urgent := false
    fields := [kind.code, seq] ++ leBytes 1 attempt ++ leBytes 1 missCounter }

/-- TRUNCATED (R99, R176). -/
def truncatedRecord (lane : LaneIx) (cue : Half) (line len sent : Nat) : Record :=
  { kind := 11, cause := 0, lane := lane.val, urgent := false
    fields := leBytes 2 cue.toNat ++ leBytes 1 line ++ leBytes 1 len ++ leBytes 1 sent }

/-- REFUSED (R129, R176): no buffer for CLEAR, no cue for CLEAR and DROP. -/
def refusedRecord (lane : LaneIx) (kind : FrameKind) (seq : Byte) (buffer : Option (Fin 2)) (cue : Option Half) : Record :=
  { kind := 12, cause := 0, lane := lane.val, urgent := false
    fields := [kind.code, seq] ++ optBytes 1 (buffer.map Fin.val) ++ [0] ++ optBytes 2 (cue.map BitVec.toNat) }

/-- STRAY (R130, R176): the reply kind, READY 0x50 or ACK 0x51, and the echoed number. -/
def strayRecord (lane : LaneIx) (kind echo : Byte) : Record :=
  { kind := 13, cause := 0, lane := lane.val, urgent := false, fields := [kind, echo] }

/-- KEY (R141, R177). -/
def keyRecord (key : Key) (source : KeySource) (outcome : KeyOutcome) (cue : Option Half) : Record :=
  { kind := 14, cause := keyCode key, lane := noLane, urgent := false
    fields := leBytes 1 source.code ++ leBytes 1 outcome.code ++ optBytes 2 (cue.map BitVec.toNat) }

/-- BAD_CUE (R18, R19, R175), an urgent kind (R170): no cue id when the head could not be read whole. -/
def badCueRecord (code : LoadCode) (sect : Nat) (pass : Half) (offset : Nat) (cue : Option Half) : Record :=
  { kind := 15, cause := code.code, lane := noLane, urgent := true
    fields := leBytes 1 sect ++ [0] ++ leBytes 2 pass.toNat ++ leBytes 4 offset ++ optBytes 2 (cue.map BitVec.toNat) }

/-- GAP (R170, R177). -/
def gapRecord (lost : Nat) : Record :=
  { kind := 16, cause := 0, lane := noLane, urgent := true, fields := leBytes 4 lost }

/-- NOTE (R162, R177): the tag in the place of cause and lane, and the 16 bytes. -/
def noteRecord (tag : Half) (w0 w1 w2 w3 : Word) : Record :=
  { kind := 17, cause := tag.toNat % 256, lane := tag.toNat / 256, urgent := false
    fields := leBytes 4 w0.toNat ++ leBytes 4 w1.toNat ++ leBytes 4 w2.toNat ++ leBytes 4 w3.toNat }

/-- The 28 bytes of a record after its sequence number, with the show time of the append (11.4). -/
def Record.bytes (r : Record) (time : Nat) : List Byte :=
  leBytes 1 r.kind ++ [0] ++ leBytes 1 r.cause ++ leBytes 1 r.lane ++ leBytes 6 time ++ [0, 0] ++
    (r.fields ++ List.replicate 16 0).take 16

/-- Where the record with a sequence number stands in the ring (R168). -/
def recordAt (n : Word) : Nat := Config.journalAt + 32 * (n.toNat % Config.ringSize)

/-! ### The append -/

/-- The status words of W and the lost count, in an update that is whole before the append's notices are set (R171; log entry 7). -/
def Part.journalUpdate (p : Part) : Part := (p.statusWrite (journalStatus p.journal)).finishUpdate

/-- One record written: its bytes with the sequence number last, W increased, and the status words of W and the lost count
(R171). -/
def Part.writeRecord (p : Part) (r : Record) : Part :=
  let at_ := recordAt p.journal.w
  let p := { p with
    mem := (p.mem.setBytes (at_ + 4) (r.bytes p.now)).setWord at_ p.journal.w.toNat
    journal := { p.journal with w := p.journal.w + 1 } }
  p.journalUpdate

/-- One record lost: the lost count increased, staying at 2^32 − 1 (R170), and its status word (R171). -/
def Part.loseRecord (p : Part) : Part :=
  let p := { p with journal := { p.journal with lost := min 4294967295 (p.journal.lost + 1) } }
  p.journalUpdate

/-- The host's read mark as the word at 0x000030 holds it (R168). -/
def Part.readMark (p : Part) : Word := BitVec.ofNat 32 (p.mem.word Config.readMarkAt)

/-- The unread count against a mark (R168). -/
def Part.unread (p : Part) (mark : Word) : Nat := (p.journal.w - mark).toNat

/-- The mark an append uses: H, or W where H is invalid (R169). -/
def Part.markInForce (p : Part) : Word :=
  if p.unread p.readMark ≤ Config.ringSize then p.readMark else p.journal.w

/-- MARK set where the read mark is invalid (R169). -/
def Part.checkMark (p : Part) : Part :=
  if p.unread p.readMark ≤ Config.ringSize then p else p.setNotice .mark

/-- Whether an append begins with a GAP: records were lost and there is room (R170). -/
def Part.gapDue (p : Part) (mark : Word) : Bool :=
  decide (0 < p.journal.lost) && decide (p.unread mark < Config.ringSize)

/-- The GAP of an append, which sets the lost count to 0 (R170). -/
def Part.writeGap (p : Part) (mark : Word) : Part :=
  if p.gapDue mark then
    Part.writeRecord { p with journal := { p.journal with lost := 0 } } (gapRecord p.journal.lost)
  else p

/-- The record asked for: written where there is room, else lost (R170). -/
def Part.writeOrLose (p : Part) (mark : Word) (r : Record) : Part :=
  if p.unread mark < Config.ringSize then p.writeRecord r else p.loseRecord

/-- An append (R169, R170): the mark read and checked, a GAP where one is due, the record written or lost, JOURNAL at the alert
level and URGENT. -/
def Part.append (p : Part) (r : Record) : Part :=
  let mark := p.markInForce
  let gap := p.gapDue mark
  let p := (p.checkMark.writeGap mark).writeOrLose mark r
  let p := if p.journal.alert ≤ p.unread mark then p.setNotice .journal else p
  if gap || r.urgent then p.setNotice .urgent else p

/-- Several appends in turn, each with its own read of H (R171). -/
def Part.appendAll (p : Part) (rs : List Record) : Part := rs.foldl Part.append p

end Sys2Proof.Machine
end

