-- ==== Sys2Proof/Machine/Book.lean ====
section
/-! DEFINITION. Reading the title book (chapter 1): the header, section and cue records as they lie in book memory (11.2), the
checks of R2, R14, R15 and R18, and the walks of LOAD_BOOK and REPLACE_SECTION. -/

namespace Sys2Proof.Machine

/-! ### Records as read -/

/-- A section record's fields before any check (11.2); REPLACE_SECTION carries the same fields as argument words (11.3). -/
structure RawSection where
  kind : Nat
  flags : Nat
  length : Nat
  hint : Nat
  cueCount : Nat
  firstCue : Nat
  successorCode : Nat
  successorTarget : Nat
  deriving DecidableEq, Repr

/-- Section record `s` of the section table in book memory (11.2). -/
def readSection (m : Memory) (s : Nat) : RawSection :=
  let a := Config.sectionsAt + 16 * s
  { kind := m.number a 1, flags := m.number (a + 1) 1, length := m.number (a + 2) 2, hint := m.number (a + 4) 2,
    cueCount := m.number (a + 6) 2, firstCue := m.number (a + 8) 4, successorCode := m.number (a + 12) 1,
    successorTarget := m.number (a + 14) 2 }

/-- A cue record's head before any check (11.2). -/
structure RawCue where
  length : Nat
  id : Half
  trigger : Nat
  flags : Byte
  refs : Nat
  mask : Byte
  style : Byte
  lead : Nat
  when_ : Nat
  minDwell : Nat
  maxDwell : Nat
  deriving DecidableEq, Repr

/-- The head of the cue record at an offset of the cue area (11.2). -/
def readCueHead (m : Memory) (offset : Nat) : RawCue :=
  let a := Config.cueAreaAt + offset
  { length := m.number a 2, id := BitVec.ofNat 16 (m.number (a + 2) 2), trigger := m.number (a + 4) 1,
    flags := m.byte (a + 5), refs := m.number (a + 6) 1, mask := m.byte (a + 7), style := m.byte (a + 8),
    lead := m.number (a + 10) 2, when_ := m.number (a + 12) 4, minDwell := m.number (a + 16) 2,
    maxDwell := m.number (a + 18) 2 }

/-- The text references of the record at an offset (11.2). -/
def readRefs (m : Memory) (a : Nat) : Nat → List TextRef
  | 0 => []
  | n + 1 =>
    { lane := m.number a 1, lines := m.number (a + 1) 1, len1 := m.number (a + 2) 1, len2 := m.number (a + 3) 1,
      offset := m.number (a + 4) 4 } :: readRefs m (a + 8) n

/-! ### Section checks (R14) -/

/-- R14's first check: the kind code (R3). -/
def sectionKindOf (code : Nat) : Option SectionKind :=
  match code with
  | 1 => some .pulsed
  | 2 => some .called
  | 3 => some .timed
  | _ => none

/-- R14's checks 3 to 7, which REPLACE_SECTION makes too (R20): the error with its cue offset, or the section. -/
def checkSectionFields (r : RawSection) (kind : SectionKind) (vamp : Bool) (count : Nat) :
    Except (LoadCode × Option Nat) SectionRec :=
  if kind ≠ .called ∧ ¬ (1 ≤ r.length ∧ r.length ≤ 65535) then .error (.badLength, none)
  else if kind = .pulsed ∧ ¬ (60 ≤ r.hint ∧ r.hint ≤ 6000) then .error (.badHint, none)
  else if ¬ (r.successorCode = 0 ∨ (r.successorCode = 1 ∧ r.successorTarget < count)) then .error (.badSuccessor, none)
  else if kind = .called ∧ r.cueCount = 0 then .error (.emptyCalled, none)
  else if 4095 < r.cueCount ∨
      (1 ≤ r.cueCount ∧ ¬ (r.firstCue % 4 = 0 ∧ r.firstCue + 24 ≤ Config.cueAreaSize)) then
    .error (.badCueRange, some r.firstCue)
  else .ok
    { kind := kind, vamp := vamp, length := r.length, hint := r.hint, cueCount := r.cueCount, firstCue := r.firstCue,
      successor := if r.successorCode = 0 then .stop else .next r.successorTarget }

/-- A section record checked in R14's order. -/
def checkSection (r : RawSection) (count : Nat) : Except (LoadCode × Option Nat) SectionRec :=
  match sectionKindOf r.kind with
  | none => .error (.badKind, none)
  | some kind =>
    let vamp := decide (r.flags % 2 = 1)
    if vamp ∧ kind ≠ .pulsed then .error (.badFlags, none) else checkSectionFields r kind vamp count

/-! ### Cue checks (R15) -/

/-- R15's orders 1 to 3, after which a record's length can be trusted. -/
def checkExtent (r : RawCue) (offset : Nat) : Option LoadCode :=
  if Config.cueAreaSize < offset + 24 then some .badCueRange
  else if ¬ (r.refs ≤ 6 ∧ r.length = 24 + 8 * r.refs) then some .badRecordLength
  else if Config.cueAreaSize < offset + r.length then some .badCueRange
  else none

/-- The trigger a code names, where it is legal in the section (R8; R15's order 4). -/
def triggerOf (code : Nat) (sec : SectionRec) : Option Trigger :=
  match code with
  | 1 => if sec.kind = .called then none else some .atPos
  | 2 => if sec.vamp then none else some .go
  | 3 => some .after
  | 4 => some .withPrev
  | _ => none

/-- R15's order 5: the range of "when" for the trigger (R8). -/
def whenInRange (t : Trigger) (v : Nat) (sec : SectionRec) : Bool :=
  match t with
  | .atPos =>
    match sec.kind with
    | .pulsed => decide (v < sec.length * 64)
    | .timed => decide (v < sec.length * 10)
    | .called => true
  | .after => decide (v ≤ 30000)
  | .go | .withPrev => true

/-- R11's checks of the references in order: `seen` are the lanes named so far. -/
def checkRefs (mask : BitVec 6) (used : Nat) : List TextRef → List Nat → Option LoadCode
  | [], _ => none
  | r :: rest, seen =>
    if 5 < r.lane ∨ mask.getLsbD r.lane = false ∨ r.lane ∈ seen then some .badLane
    else if ¬ (r.lines = 1 ∨ r.lines = 2) ∨ (r.lines = 1 ∧ r.len2 ≠ 0) then some .badLines
    else if ¬ (1 ≤ r.len1 ∧ r.len1 ≤ 120) ∨ (r.lines = 2 ∧ ¬ (1 ≤ r.len2 ∧ r.len2 ≤ 120)) ∨
        used < r.offset + r.len1 + r.len2 then some .badText
    else checkRefs mask used rest (r.lane :: seen)

/-- Where a cue stands: `group` is the lane set of the group a WITH cue would join (none: first in the list, or its group is
lost), `previousAt` the "when" of the nearest AT cue before it, which only a walk of a whole list compares (R15, R18). -/
structure CueContext where
  group : Option (BitVec 6)
  previousAt : Option Nat
  deriving DecidableEq, Repr

/-- R15's orders 4 to 11 on a record whose extent passed. -/
def checkCueBody (m : Memory) (r : RawCue) (offset : Nat) (sec : SectionRec) (used : Nat) (ctx : CueContext) :
    Except LoadCode Cue :=
  match triggerOf r.trigger sec with
  | none => .error .badTrigger
  | some t =>
    let mask := BitVec.ofNat 6 r.mask.toNat
    let refs := readRefs m (Config.cueAreaAt + offset + 24) r.refs
    if ¬ whenInRange t r.when_ sec then .error .badPosition
    else if t = .atPos ∧ r.when_ < ctx.previousAt.getD 0 then .error .badOrder
    else if 64 ≤ r.mask.toNat then .error .badLane
    else if t = .withPrev ∧ ctx.group.all (fun g => decide (g &&& mask ≠ 0)) then .error .badWith
    else if 4000 < r.lead then .error .badLead
    else if 10000 < r.minDwell ∨ (r.maxDwell ≠ 0 ∧ ¬ (r.minDwell ≤ r.maxDwell ∧ r.maxDwell ≤ 60000)) then .error .badDwell
    else
      match checkRefs mask used refs [] with
      | some e => .error e
      | none => .ok
        { id := r.id, trigger := t, priority := r.flags.getLsbD 0, keep := r.flags.getLsbD 1, mask := mask,
          style := r.style, lead := r.lead, when_ := r.when_, minDwell := r.minDwell, maxDwell := r.maxDwell,
          refs := refs }

/-! ### The walks (R13, R20) -/

/-- The walk of one cue list from an offset: the first error with the cue's offset, or none (R15). -/
def walkCues (m : Memory) (sec : SectionRec) (used : Nat) : Nat → Nat → CueContext → Option (LoadCode × Nat)
  | 0, _, _ => none
  | n + 1, offset, ctx =>
    let r := readCueHead m offset
    match checkExtent r offset with
    | some e => some (e, offset)
    | none =>
      match checkCueBody m r offset sec used ctx with
      | .error e => some (e, offset)
      | .ok c =>
        walkCues m sec used n (offset + r.length)
          { group := some (if c.trigger = .withPrev then ctx.group.getD 0 ||| c.mask else c.mask)
            previousAt := if c.trigger = .atPos then some c.when_ else ctx.previousAt }

/-- The walk of a section's whole list (R6, R15). -/
def walkSection (m : Memory) (sec : SectionRec) (used : Nat) : Option (LoadCode × Nat) :=
  walkCues m sec used sec.cueCount sec.firstCue { group := none, previousAt := none }

/-- The walk of the section table: each record followed by its list (R13). -/
def walkSections (m : Memory) (count used : Nat) : Nat → Nat → Except LoadError (List SectionRec)
  | 0, _ => .ok []
  | n + 1, s =>
    match checkSection (readSection m s) count with
    | .error (e, off) => .error { code := e, sect := some s, offset := off }
    | .ok sec =>
      match walkSection m sec used with
      | some (e, off) => .error { code := e, sect := some s, offset := some off }
      | none =>
        match walkSections m count used n (s + 1) with
        | .error e => .error e
        | .ok rest => .ok (sec :: rest)

/-- The walk of LOAD_BOOK: the header (R2), then the sections (R13). -/
def walkBook (m : Memory) : Except LoadError Book :=
  let count := m.word 0x08
  let used := m.word 0x0C
  if m.word 0 ≠ Config.magic ∨ m.word 4 ≠ 1 ∨ Config.poolSize < used then
    .error { code := .badHeader, sect := none, offset := none }
  else if count = 0 ∨ 128 < count then .error { code := .badSectionCount, sect := none, offset := none }
  else
    match walkSections m count used count 0 with
    | .error e => .error e
    | .ok secs => .ok { sections := secs, usedLength := used }

/-- The walk of REPLACE_SECTION: R14's checks 3 to 7 on the new fields against the section's kind, then its cues (R20). -/
def walkReplace (m : Memory) (old : SectionRec) (count used : Nat) (args : ReplaceArgs) :
    Except (LoadCode × Option Nat) SectionRec :=
  let raw : RawSection :=
    { kind := 0, flags := 0, length := args.length.toNat, hint := args.hint.toNat, cueCount := args.cueCount.toNat,
      firstCue := args.firstCue.toNat, successorCode := args.successorCode.toNat,
      successorTarget := args.successorTarget.toNat }
  match checkSectionFields raw old.kind old.vamp count with
  | .error e => .error e
  | .ok sec =>
    match walkSection m sec used with
    | some (e, off) => .error (e, some off)
    | none => .ok sec

/-! ### The start point (R82) -/

/-- A cue's place in a list as the start-point walk meets it: index, offset, and the cues left from it on. -/
structure ListPlace where
  index : Nat
  offset : Nat
  left : Nat
  deriving DecidableEq, Repr

/-- The places of the groups of a list: the first record of each cue that is not WITH, with whether it is an AT cue below
the threshold; a record that fails R15's orders 1 to 3 ends the list (R82). The second part is the place after the last record. -/
def groupPlaces (m : Memory) (threshold : Nat) : Nat → Nat → Nat → List (ListPlace × Bool) × ListPlace
  | 0, index, offset => ([], { index := index, offset := offset, left := 0 })
  | n + 1, index, offset =>
    let r := readCueHead m offset
    match checkExtent r offset with
    | some _ => ([], { index := index, offset := offset, left := 0 })
    | none =>
      let rest := groupPlaces m threshold n (index + 1) (offset + r.length)
      if r.trigger = 4 then rest
      else (({ index := index, offset := offset, left := n + 1 }, decide (r.trigger = 1 ∧ r.when_ < threshold)) :: rest.1, rest.2)

/-- The groups up to and with the last AT group below the threshold, and the groups after it (R82). -/
def splitBelow : List (ListPlace × Bool) → List (ListPlace × Bool) × List (ListPlace × Bool)
  | [] => ([], [])
  | g :: rest =>
    let (below, after) := splitBelow rest
    if g.2 || !below.isEmpty then (g :: below, after) else ([], g :: after)

/-- The threshold for AT "when" values of a start count (R82): no AT group lies below it in a CALLED section. -/
def startThreshold (sec : SectionRec) (count : Nat) : Nat :=
  match sec.kind with
  | .pulsed => count * 64
  | .timed => count * 10
  | .called => 0

/-- The start point of a section at a count, and the prime group's place: the last group before it (R82, R84). A start point at
the first group is the head of the list, where no group lies before it. -/
def startPoint (m : Memory) (sec : SectionRec) (count : Nat) : ListPlace × Option ListPlace :=
  let found := groupPlaces m (startThreshold sec count) sec.cueCount 0 sec.firstCue
  let (below, after) := splitBelow found.1
  match below.getLast? with
  | none => ({ index := 0, offset := sec.firstCue, left := sec.cueCount }, none)
  | some g =>
    match after with
    | a :: _ => (a.1, some g.1)
    | [] => (found.2, some g.1)

end Sys2Proof.Machine
end

