-- ==== Sys2Proof/Machine/Timing.lean ====
section
/-! DEFINITION. Position and due-time arithmetic (chapter 3), and the expiries the clock unit keeps (R35, R42). -/

namespace Sys2Proof.Machine

/-- Show time and due times are held at 2^48 − 1 (R22, R60). -/
def capTime (t : Nat) : Nat := min Config.maxTime t

/-- The interpolated fraction f (R48). -/
def Clock.fraction (c : Clock) : Nat :=
  match c.state with
  | .locking | .following | .coasting => min 63 ((c.showTime - c.t0) * 64 / c.period)
  | .held => c.fh
  | .armed | .stopped | .untracked => 0

/-- The interpolated position in 64ths of a count (R48). -/
def Clock.position (c : Clock) : Nat := c.c0 * 64 + c.fraction

/-- The period clamped into the profile's range (R28, R32). -/
def Profile.clampPeriod (f : Profile) (period : Nat) : Nat :=
  max (f.pulseMin * 1000) (min (f.pulseMax * 1000) period)

/-- The late threshold (R35). -/
def Clock.lateAfter (c : Clock) : Nat := c.period * (1000 + c.profile.lateMargin) / 1000

/-- The show time at which late detection falls due, while the clock keeps it (R35). -/
def Clock.lateAt (c : Clock) : Option Nat :=
  match c.state with
  | .locking | .following | .coasting => some (c.t0 + c.lateAfter + 1)
  | .armed | .held | .stopped | .untracked => none

/-- The show time, perhaps negative, at which the TIMED section timer falls due (R42). -/
def Part.sectionTimerAt (p : Part) : Option Int :=
  if p.clock.state = .untracked ∧ p.seq.current ≠ none ∧ p.seq.currentRec.kind = .timed then
    some (p.clock.start + (p.seq.currentRec.length * 10000 : Nat))
  else none

/-- Whether a window entry belongs to the current pass. -/
def Sequencer.isCurrent (q : Sequencer) (e : Entry) : Bool := decide (e.key.pass = q.pass)

/-- An entry's effective position (R49): AT entries in PULSED sections only, and for the next pass only where the current
section is PULSED too. -/
def Sequencer.effective (q : Sequencer) (e : Entry) : Option Nat :=
  if e.cue.trigger = .atPos ∧ (q.sectionAt e.key.sect).kind = .pulsed then
    if q.isCurrent e then some e.cue.when_
    else if q.currentRec.kind = .pulsed then some (q.currentRec.length * 64 + e.cue.when_)
    else none
  else none

/-- The due time of a reached position: the one in force where the entry is already reached, else now (R50, R56). -/
def dueNow (e : Entry) (now : Nat) : Nat := if e.reached then e.due.getD now else now

/-- The due time of an AT entry with an effective position (R50, R51). -/
def Clock.dueAt (c : Clock) (e : Entry) (qe : Nat) : Option Nat :=
  match c.state with
  | .locking | .following | .coasting =>
    if qe ≤ c.position then some (dueNow e c.showTime)
    else if qe < (c.c0 + 1 + c.profile.horizon) * 64 then
      some (capTime (c.t0 + (qe - c.c0 * 64) * c.period / 64 - e.cue.lead * 1000))
    else none
  | .held => if qe ≤ c.c0 * 64 + c.fh then some (dueNow e c.showTime) else none
  | .armed | .stopped | .untracked => none

/-- The start time of the pass an entry of a TIMED section belongs to, where it is known (R52). -/
def Part.passStart (p : Part) (e : Entry) : Option Int :=
  if p.seq.isCurrent e then some p.clock.start
  else if p.seq.current ≠ none ∧ p.seq.currentRec.kind = .timed then
    some (p.clock.start + (p.seq.currentRec.length * 10000 : Nat))
  else none

/-- The due time of an AT entry in a TIMED section (R52). -/
def dueTimed (e : Entry) (start : Int) : Nat :=
  capTime (start + (e.cue.when_ * 1000 : Nat) - (e.cue.lead * 1000 : Nat)).toNat

/-- The due time an entry gets at a recomputation (R50 to R55); `head` says that it stands first in the window. -/
def Part.dueOf (p : Part) (head : Bool) (e : Entry) : Option Nat :=
  if e.state = .called then none
  else
    match e.cue.trigger with
    | .go | .withPrev => none
    | .after => if head then p.seq.lastFire.map fun f => capTime (f + e.cue.when_ * 1000) else none
    | .atPos =>
      match (p.seq.sectionAt e.key.sect).kind with
      | .called => none
      | .pulsed => (p.seq.effective e).bind fun qe => p.clock.dueAt e qe
      | .timed => (p.passStart e).map fun start => dueTimed e start

/-- A due time is reached when show time is at or after it (R57); one of 2^48 − 1 never falls due (R60, R189). -/
def dueReached (due now : Nat) : Bool := decide (due ≤ now) && decide (due < Config.maxTime)

/-- An entry with its effective position and due time taken anew; it is reached when the due time is reached at now (R56,
R57). -/
def Part.refreshEntry (p : Part) (head : Bool) (e : Entry) : Entry :=
  let due := p.dueOf head e
  { e with qe := p.seq.effective e, due := due, reached := due.any fun d => dueReached d p.now }

/-- The recomputation of every entry of the window with one now and one set of clock values (R56). -/
def Part.recompute (p : Part) : Part :=
  let window :=
    match p.seq.window with
    | [] => []
    | e :: rest => p.refreshEntry true e :: rest.map (p.refreshEntry false)
  { p with seq := { p.seq with window := window } }

end Sys2Proof.Machine
end

