-- ==== Sys2Proof/Machine/Lane.lean ====
section
/-! DEFINITION. What a lane does by itself (chapter 5): its earliest-show time, its shadow, its staging records and their
settlement, the express queue, and what a title does to it. A lane reads the window, in window order, for its targets. -/

namespace Sys2Proof.Machine

open Sys2Proof (LaneIx)

/-! ### Small facts of a lane -/

/-- The staging limit L_s (R96). -/
def Lane.limit (l : Lane) : Nat :=
  match l.screen with
  | none => 0
  | some v => min l.cfg.depth v.buffers

/-- The earliest-show time (R93). -/
def Lane.earliest (l : Lane) : Nat :=
  if l.up && !l.blanked && l.shadow.text.isSome then l.shadow.shown + l.shadow.minDwell * 1000 else 0

/-- The text a cue gives a lane (R11): none where the cue clears the lane. -/
def Cue.textFor (c : Cue) (i : LaneIx) : Option Text :=
  (c.refs.find? fun r => decide (r.lane = i.val)).map fun r => { style := c.style, ref := r }

/-- Whether a window entry carries a TEXT title for a lane (R98). -/
def Entry.textFor (e : Entry) (i : LaneIx) : Option Text := if e.cue.mask.getLsbD i then e.cue.textFor i else none

/-- A lane's targets: the first L_s entries of the window that carry a TEXT title for it (R98). -/
def Lane.targets (l : Lane) (i : LaneIx) (window : List Entry) : List Entry :=
  (window.filter fun e => (e.textFor i).isSome).take l.limit

/-- Whether a record holds a title. -/
def StagingRec.inUse (r : StagingRec) : Bool := decide (r.state ≠ .free)

/-- Whether a record holds the title a token names (log entry 12). -/
def StagingRec.holds (r : StagingRec) (token : Nat) : Bool := r.inUse && decide (r.token = token)

/-- The lowest-numbered FREE record below the staging limit (R98, R103). -/
def Lane.freeBuffer (l : Lane) : Option (Fin 2) :=
  bothBuffers.find? fun b => decide (b.val < l.limit) && !(l.rec_ b).inUse

/-- The buffer whose record belongs to a window entry (R98). -/
def Lane.bufferOf (l : Lane) (key : EntryKey) : Option (Fin 2) :=
  bothBuffers.find? fun b => (l.rec_ b).inUse && decide ((l.rec_ b).owner = .entry key)

/-- The buffer whose record belongs to the latest of the window's entries that own one (R98, R103). -/
def Lane.latestOwned (l : Lane) (window : List Entry) : Option (Fin 2) :=
  (window.reverse.filterMap fun e => l.bufferOf e.key).head?

/-! ### Staging records (R97, R105, R106) -/

/-- A record made FREE; a STAGE of its title that waits to open is removed with it (R106, R127). -/
def Lane.freeRec (l : Lane) (b : Fin 2) : Lane :=
  { l.setRec b StagingRec.free with
    late := l.late.filter fun x => decide (x ≠ b)
    resends := l.resends.filter fun x => decide (x.buffer ≠ b) }

/-- Whether the normal frame in flight is the STAGE of a title. -/
def Lane.stageInFlight (l : Lane) (token : Nat) : Bool :=
  l.tx.normal.any fun f => decide (f.kind = .stage) && decide (f.token = token)

/-- Whether the STAGE of a title is in flight with its CLOSE already on the line. -/
def Lane.stageClosing (l : Lane) (token : Nat) : Bool :=
  l.stageInFlight token && l.tx.normal.any fun f => decide (f.left = [])

/-- A record settled as obsolete (R106): SENDING by a CANCEL, PENDING by removal, SENT and STAGED by an owed DROP. A SENDING record
is FREE at its settlement, before the CANCEL goes on the line; one whose CLOSE is on the line already can have no CANCEL and is
settled as SENT (R127; log entry 30). -/
def Lane.settleObsolete (l : Lane) (b : Fin 2) : Lane :=
  let r := l.rec_ b
  match r.state with
  | .free => l
  | .sending =>
    if l.stageClosing r.token then (l.freeRec b).setDrop b true
    else if l.stageInFlight r.token then Lane.freeRec { l with tx := { l.tx with cancelDue := true } } b
    else l.freeRec b
  | .pending => if r.attempted then (l.freeRec b).setDrop b true else l.freeRec b
  | .sent | .staged => (l.freeRec b).setDrop b true

/-- A record owned by the shadow settled by the shadow's change: FREE where its SHOW has been sent, else obsolete, the SHOW
dropped (R105). -/
def Lane.settleShadowRec (l : Lane) (b : Fin 2) : Lane :=
  let r := l.rec_ b
  if r.inUse ∧ r.owner = .shadow then if r.showOpened then l.freeRec b else l.settleObsolete b else l

/-- The record of an entry that left the window without firing, settled (R106). -/
def Lane.entryRemoved (l : Lane) (key : EntryKey) : Lane :=
  match l.bufferOf key with
  | none => l
  | some b => l.settleObsolete b

/-! ### The express queue (R125) -/

/-- A SHOW is relevant while its record is owned by the shadow and still holds its title and the lane is not blanked; a CLEAR
while the shadow is BLANK or the lane is blanked (R125). -/
def Lane.relevant (l : Lane) : ExpressWhat → Bool
  | .show_ b token _ => !l.blanked && (l.rec_ b).holds token && decide ((l.rec_ b).owner = .shadow)
  | .clear => l.shadow.text.isNone || l.blanked

/-- What the removal of a queued SHOW leaves of its record while the shadow still owns it: FREE where the SHOW had been sent before
and this was its resend, found irrelevant (R105); else as before the SHOW was queued (R102; log entry 29). -/
def Lane.dropExpress (l : Lane) (x : Express) : Lane :=
  match x.what with
  | .clear => l
  | .show_ b token _ =>
    let r := l.rec_ b
    if r.holds token ∧ r.owner = .shadow then
      if r.showOpened then l.freeRec b else l.setRec b { r with showSent := false }
    else l

/-- The express queue without the frames that are no longer relevant (R125). -/
def Lane.pruneAll (l : Lane) : Lane :=
  (l.express.filter fun x => !l.relevant x.what).foldl Lane.dropExpress
    { l with express := l.express.filter fun x => l.relevant x.what }

/-- The express queue without the frames at its front that are no longer relevant (R125). -/
def Lane.pruneFront (l : Lane) : Lane :=
  (l.express.takeWhile fun x => !l.relevant x.what).foldl Lane.dropExpress
    { l with express := l.express.dropWhile fun x => !l.relevant x.what }

/-- An express frame queued: the frames that are no longer relevant are removed first, a CLEAR merges with one already
queued, and a frame that is not relevant itself does not join (R125, R102). -/
def Lane.queueExpress (l : Lane) (f : Express) : Lane :=
  let kept := l.pruneAll
  if !l.relevant f.what then kept
  else if f.what = .clear ∧ kept.express.any (fun x => decide (x.what = .clear)) then kept
  else { kept with express := kept.express ++ [f] }

/-- An express CLEAR queued as a first attempt (R94, R104, R108, R109, R110). -/
def Lane.queueClear (l : Lane) : Lane := l.queueExpress { what := .clear, attempt := 1 }

/-- The SHOW of a record's title queued, and the record marked show sent (R97, R102). A SHOW that is not relevant is dropped
and marks nothing. -/
def Lane.queueShow (l : Lane) (b : Fin 2) : Lane :=
  let r := l.rec_ b
  let what := ExpressWhat.show_ b r.token r.cue
  if l.relevant what then (l.setRec b { r with showSent := true }).queueExpress { what := what, attempt := 1 }
  else l.queueExpress { what := what, attempt := 1 }

/-! ### The shadow (R92) -/

/-- The shadow written: the records that held the previous title are settled, a catch-up STAGE still waiting for a record is
forgotten, and the max dwell expiry is scheduled anew (R92, R105, R108). -/
def Lane.writeShadow (l : Lane) (sh : Shadow) : Lane :=
  let l := { bothBuffers.foldl Lane.settleShadowRec l with catchUpWaiting := false }
  { l with
    shadow := sh
    maxDwellAt := if sh.text.isSome ∧ sh.maxDwell ≠ 0 then some (sh.shown + sh.maxDwell * 1000) else none }

/-- A BLANK shadow with no cue (R92). -/
def blankShadow (shown : Nat) : Shadow := { text := none, cue := none, shown := shown, minDwell := 0, maxDwell := 0 }

/-- The shadow a cue's title writes: TEXT with the cue's dwells, or BLANK with dwells 0 (R92). -/
def titleShadow (c : Cue) (i : LaneIx) (shown : Nat) : Shadow :=
  match c.textFor i with
  | some t => { text := some t, cue := some c.id, shown := shown, minDwell := c.minDwell, maxDwell := c.maxDwell }
  | none => { text := none, cue := some c.id, shown := shown, minDwell := 0, maxDwell := 0 }

/-! ### Late staging and catch-up (R103, R110) -/

/-- A record taken PENDING for the shadow's title, its STAGE waiting with the late ones (R103). -/
def Lane.startLate (l : Lane) (b : Fin 2) : Lane :=
  match l.shadow.text with
  | none => l
  | some t =>
    let r : StagingRec :=
      { state := .pending, owner := .shadow, token := l.nextToken, cue := l.shadow.cue.getD 0, text := t,
        showSent := false, showOpened := false, attempted := false }
    { l.setRec b r with nextToken := l.nextToken + 1, late := l.late ++ [b] }

/-- The shadow's title staged by the late path: into the lowest FREE record, else into the record of the latest window entry,
settled first, else waiting for the first record that becomes FREE (R103, R110). -/
def Lane.placeLate (l : Lane) (window : List Entry) : Lane :=
  match l.freeBuffer with
  | some b => l.startLate b
  | none =>
    match l.latestOwned window with
    | some b => (l.settleObsolete b).startLate b
    | none => { l with catchUpWaiting := true }

/-- A record owned by the shadow whose SHOW is neither queued nor sent (R110). -/
def Lane.unshown (l : Lane) : Option (Fin 2) :=
  bothBuffers.find? fun b =>
    (l.rec_ b).inUse && decide ((l.rec_ b).owner = .shadow) && !(l.rec_ b).showSent

/-- The SHOW of a record's title sent as its state allows: at once from SENT and STAGED, held behind the STAGE from PENDING
and SENDING (R102). -/
def Lane.showAsAllowed (l : Lane) (b : Fin 2) : Lane :=
  match (l.rec_ b).state with
  | .sent | .staged => l.queueShow b
  | .free | .pending | .sending => l

/-- Catch-up (R110): nothing on a down or blanked lane; a CLEAR for a BLANK shadow; the shadow's title by a late STAGE, or by
the record that already holds it with its SHOW not sent (log entry 13). -/
def Lane.catchUp (l : Lane) (window : List Entry) : Lane :=
  if !l.up || l.blanked then l
  else if l.shadow.text.isNone then l.queueClear
  else
    match l.unshown with
    | some b => l.showAsAllowed b
    | none => l.placeLate window

/-! ### A title at a fire or a priming (R101 to R104) -/

/-- The record of a fired entry passes to the shadow (R102). -/
def Lane.ownByShadow (l : Lane) (b : Fin 2) : Lane := l.setRec b { l.rec_ b with owner := .shadow }

/-- A TEXT title on a lane that is up and not blanked: its record's SHOW (R102), or the late path (R103). -/
def Lane.showTitle (l : Lane) (key : Option EntryKey) (window : List Entry) : Lane :=
  match key.bind l.bufferOf with
  | some b => (l.ownByShadow b).showAsAllowed b
  | none => l.placeLate window

/-- Whether a TEXT title's SHOW or late STAGE is queued at the fire: not where its SHOW is held behind its own record's STAGE, which
queues it at that STAGE's CLOSE (R101, R102). -/
def Lane.queuesTitle (l : Lane) (key : Option EntryKey) : Bool :=
  match key.bind l.bufferOf with
  | some b => decide ((l.rec_ b).state = .sent) || decide ((l.rec_ b).state = .staged)
  | none => true

/-- A title handed to the lane, and whether the lane counts as sent: where it queues a SHOW, a late STAGE or a CLEAR for the title
at the fire (R101). `key` is the window entry it came from, none for a priming. -/
def Lane.takeTitle (l : Lane) (sh : Shadow) (key : Option EntryKey) (window : List Entry) : Lane × Bool :=
  let l := l.writeShadow sh
  if !l.up then (l, false)
  else if l.blanked then (match key with | some k => l.entryRemoved k | none => l, false)
  else if sh.text.isSome then (l.showTitle key window, l.queuesTitle key)
  else (l.queueClear, true)

/-! ### Looking again at what to stage (R96, R98, R110) -/

/-- Whether a record stands against the lane's targets: its buffer is at or beyond the staging limit (R96), or its owner is a
window entry outside the targets (R98). -/
def Lane.outOfTarget (l : Lane) (i : LaneIx) (window : List Entry) (b : Fin 2) : Bool :=
  let r := l.rec_ b
  r.inUse &&
    (decide (l.limit ≤ b.val) ||
      match r.owner with
      | .entry k => !(l.targets i window).any fun e => decide (e.key = k)
      | .nobody | .shadow => false)

/-- A lane that is up looks again: records that stand against its targets are settled as obsolete, the latest window entry's
first (R96, R98), and on a lane not blanked a catch-up STAGE that waits takes the first FREE record (R110). What it stages next is
chosen when a frame can open (R124). -/
def Lane.lookAgain (l : Lane) (i : LaneIx) (window : List Entry) : Lane :=
  if !l.up then l
  else
    let late := window.reverse.filterMap fun e => l.bufferOf e.key
    let order := late ++ bothBuffers.filter fun b => decide (b ∉ late)
    let l := order.foldl (fun l b => if l.outOfTarget i window b then l.settleObsolete b else l) l
    if l.catchUpWaiting && !l.blanked then
      match l.freeBuffer with
      | some b => { l.startLate b with catchUpWaiting := false }
      | none => l
    else l

/-- Every lane looks again (R98). -/
def Part.lookAgain (p : Part) : Part :=
  allLanes.foldl (fun q i => q.modLane i fun l => l.lookAgain i q.seq.window) p

/-! ### Blanking (R94, R95) -/

/-- BLANK on a lane (R94). A catch-up STAGE still waiting for a record is forgotten: the catch-up of the UNBLANK begins anew (R110). -/
def Lane.blank (l : Lane) : Lane :=
  if l.blanked then l
  else
    let l := { l with blanked := true, catchUpWaiting := false }
    if l.up then l.queueClear else l

/-- UNBLANK on a lane (R95). -/
def Lane.unblank (l : Lane) (window : List Entry) : Lane :=
  if l.blanked then Lane.catchUp { l with blanked := false } window else l

end Sys2Proof.Machine
end

