-- ==== Sys2Proof/Machine/Frames.lean ====
section
/-! DEFINITION. The characters and frames of the screen link: the check (R120), escaping (R116), frame bodies (R118, 11.6), the
receiver's bytes (R121) and what it judges. -/

namespace Sys2Proof.Machine

open Sys2Proof (LaneIx AckOutcome)

/-! ### The check (R120) -/

/-- One bit fed to the check register: shifted left, XORed with 0x1021 when the bit that leaves differs from the bit fed. -/
def checkBit (reg : BitVec 16) (bit : Bool) : BitVec 16 :=
  let shifted := reg <<< 1
  if reg.getLsbD 15 != bit then shifted ^^^ 0x1021 else shifted

/-- One byte fed, most significant bit first. -/
def checkByte (reg : BitVec 16) (b : Byte) : BitVec 16 :=
  [7, 6, 5, 4, 3, 2, 1, 0].foldl (fun r k => checkBit r (b.getLsbD k)) reg

/-- The register after a run of bytes, preset to 0xFFFF. -/
def checkRegister (bytes : List Byte) : BitVec 16 := bytes.foldl checkByte 0xFFFF

/-- The two check bytes of a body: the register's ones complement, high byte first. -/
def checkBytes (body : List Byte) : List Byte :=
  let c := ~~~ checkRegister body
  [c.extractLsb' 8 8, c.extractLsb' 0 8]

/-- The receiver accepts a body with its check when its register ends at 0x1D0F. -/
def checkAccepted (bytes : List Byte) : Bool := decide (checkRegister bytes = 0x1D0F)

/-! ### Escaping (R115, R116) -/

/-- A body byte in 0xF4..0xFC is escaped. -/
def mustEscape (b : Byte) : Bool := decide (0xF4 ≤ b.toNat) && decide (b.toNat ≤ 0xFC)

/-- A body byte on the line: itself, or ESC and the byte less 0xF0. -/
def escapeByte (b : Byte) : List Byte := if mustEscape b then [Config.chEsc, b - 0xF0] else [b]

/-- A frame on the line: OPEN, the escaped body and check, CLOSE (6.2). -/
def frameChars (body : List Byte) : List Byte :=
  [Config.chOpen] ++ (body ++ checkBytes body).flatMap escapeByte ++ [Config.chClose]

/-! ### Bodies (R118, 11.6) -/

/-- A two-byte field, high byte first. -/
def highFirst (v : Half) : List Byte := [v.extractLsb' 8 8, v.extractLsb' 0 8]

/-- A buffer number as a byte. -/
def bufferByte (b : Fin 2) : Byte := BitVec.ofNat 8 b.val

/-- A frame's body: kind, sequence number, and the fields after them. -/
def frameBody (kind : FrameKind) (seq : Byte) (content : List Byte) : List Byte := kind.code :: seq :: content

/-- HELLO's fields: the lane's language and number. -/
def helloContent (l : Lane) (i : LaneIx) : List Byte := highFirst l.cfg.language ++ [BitVec.ofNat 8 i.val]

/-- A line of a title as sent: its first bytes, no more than the screen's limit (R99). -/
def cutLine (m : Memory) (offset len limit : Nat) : List Byte := m.bytes (Config.poolAt + offset) (min len limit)

/-- A STAGE's fields: buffer, cue id, style, line count, and each line's length as sent and its bytes (R99, R118). -/
def stageContent (m : Memory) (b : Fin 2) (cue : Half) (t : Text) (limit : Nat) : List Byte :=
  let r := t.ref
  let line1 := cutLine m r.offset r.len1 limit
  let line2 := cutLine m (r.offset + r.len1) r.len2 limit
  [bufferByte b] ++ highFirst cue ++ [t.style, BitVec.ofNat 8 r.lines] ++ (BitVec.ofNat 8 line1.length :: line1) ++
    (if r.lines = 2 then BitVec.ofNat 8 line2.length :: line2 else [])

/-- The TRUNCATED records of a STAGE: one for each line cut (R99). -/
def truncations (i : LaneIx) (cue : Half) (t : Text) (limit : Nat) : List Record :=
  (if limit < t.ref.len1 then [truncatedRecord i cue 1 t.ref.len1 limit] else []) ++
    (if t.ref.lines = 2 ∧ limit < t.ref.len2 then [truncatedRecord i cue 2 t.ref.len2 limit] else [])

/-! ### The receiver (R121) -/

/-- A reply as the receiver judges it. -/
inductive Reply where
  | ready (echo buffers maxLine : Byte)
  | ack (echo : Byte) (outcome : AckOutcome)
  | busy
  | free
  | bad
  deriving DecidableEq, Repr

/-- The body of a frame that passed its check (R119): its kind, its length and its fields' ranges. -/
def replyOf : List Byte → Reply
  | [0x50, echo, buffers, maxLine] =>
    if 1 ≤ buffers.toNat ∧ buffers.toNat ≤ 2 ∧ 1 ≤ maxLine.toNat ∧ maxLine.toNat ≤ 120 then .ready echo buffers maxLine
    else .bad
  | [0x51, echo, 1] => .ack echo .done
  | [0x51, echo, 2] => .ack echo .refused
  | [0x52] => .busy
  | [0x53] => .free
  | _ => .bad

/-- A frame judged at its CLOSE: 3 to 18 bytes, the check accepted, and a reply of R119 (R121). -/
def judge (bytes : List Byte) (bad : Bool) : Reply :=
  if bad ∨ bytes.length < 3 ∨ 18 < bytes.length ∨ ¬ checkAccepted bytes then .bad
  else replyOf (bytes.take (bytes.length - 2))

/-- One more byte of a frame; past 19 bytes the frame is bad whatever follows, and no more are kept (R121). -/
def takeByte (bytes : List Byte) (b : Byte) : List Byte := if 18 < bytes.length then bytes else bytes ++ [b]

/-- A link character other than FILL and ESC met in a frame, or a body byte: the receiver's next state and the reply a frame's
end gives. -/
def receiveInFrame (bytes : List Byte) (bad : Bool) (b : Byte) : Receiver × Option Reply :=
  if b = Config.chOpen then (.inFrame [] false, some .bad)
  else if b = Config.chClose then (.outside, some (judge bytes bad))
  else if b = Config.chEsc then (.afterEsc bytes bad, none)
  else if b = Config.chSuspend ∨ b = Config.chResume ∨ b = Config.chCancel then (.inFrame bytes true, none)
  else if b = 0xF6 ∨ b = 0xF8 then (.inFrame (takeByte bytes b) true, none)
  else (.inFrame (takeByte bytes b) bad, none)

/-- Whether a byte is one of the seven link characters (R115). -/
def isLinkChar (b : Byte) : Bool :=
  decide (b ∈ [Config.chFill, Config.chOpen, Config.chEsc, Config.chResume, Config.chClose, Config.chSuspend, Config.chCancel])

/-- The receiver's step on one character: its next state, and the reply judged where a frame ends (R115, R116, R121). A
framing error makes the frame it falls in bad and its value acts as nothing (log entry 15). After ESC any byte but 0x04..0x0C makes
the frame bad, and a link character acts as itself, FILL by being discarded (log entry 11). -/
def receive (r : Receiver) (b : Byte) (framingError : Bool) : Receiver × Option Reply :=
  match r with
  | .outside => if b = Config.chOpen ∧ !framingError then (.inFrame [] false, none) else (.outside, none)
  | .inFrame bytes bad =>
    if framingError then (.inFrame bytes true, none)
    else if b = Config.chFill then (.inFrame bytes bad, none)
    else receiveInFrame bytes bad b
  | .afterEsc bytes bad =>
    if framingError then (.inFrame bytes true, none)
    else if b = Config.chFill then (.inFrame bytes true, none)
    else if 0x04 ≤ b.toNat ∧ b.toNat ≤ 0x0C then (.inFrame (takeByte bytes (b + 0xF0)) bad, none)
    else if isLinkChar b then receiveInFrame bytes true b
    else (.inFrame bytes true, none)

end Sys2Proof.Machine
end

