-- ==== Sys2Proof/Machine/Link.lean ====
section
/-! DEFINITION. The screen link (chapter 6): the transmitter's choice at a character boundary (R123, R124), opening and closing
frames, the outstanding list with its timeouts and misses (R128 to R132), the link states (R133 to R138) and the replies
(R122, R129, R134 to R137). -/

namespace Sys2Proof.Machine

open Sys2Proof (LaneIx AckOutcome)

/-! ### The transmitter's choice -/

/-- The normal frames that can be the first waiting one (R124). -/
inductive NormalChoice where
  | drop (b : Fin 2)
  | lateStage (b : Fin 2)
  | resend (r : Resend)
  | ahead (b : Fin 2) (e : Entry) (t : Text)
  | hello
  deriving DecidableEq, Repr

/-- What the transmitter sends at a character boundary (R123). -/
inductive LineChoice where
  | expressChar (f : InFlight)
  | openExpress (f : Express)
  | resume
  | cancel
  | suspend
  | normalChar (f : InFlight)
  | openNormal (n : NormalChoice)
  | fill
  deriving DecidableEq, Repr

/-- An express frame can begin when the queue is not empty and fewer than 6 frames are outstanding (R123). -/
def Lane.expressReady (l : Lane) : Option Express :=
  if l.outstanding.length < Config.maxOutstanding then l.express.head? else none

/-- The lane as the transmitter finds it at a character boundary: where it is about to open the first queued express frame, in
R123's cases 2 and 6, the frames at the queue's front that are no longer relevant are removed without being sent (R125). -/
def Lane.atBoundary (l : Lane) : Lane :=
  if l.tx.express.isNone && (l.tx.suspended || l.tx.normal.isNone) && l.expressReady.isSome then l.pruneFront else l

/-- How many normal frames are outstanding (R124). -/
def Lane.normalOutstanding (l : Lane) : Nat := (l.outstanding.filter fun e => e.kind.normal).length

/-- A late STAGE waiting to open, or the DROP its buffer is owed (R124's order 1). -/
def Lane.lateChoice (l : Lane) : Option NormalChoice :=
  l.late.head?.map fun b => if l.drops[b] then .drop b else .lateStage b

/-- An owed DROP, lowest buffer first (R124's order 2). -/
def Lane.dropChoice (l : Lane) : Option NormalChoice := (bothBuffers.find? fun b => l.drops[b]).map .drop

/-- A waiting resend, oldest first; in PAUSED only of a STAGE owned by the shadow (R124's order 3). -/
def Lane.resendChoice (l : Lane) : Option NormalChoice :=
  (l.resends.find? fun r => decide (l.link = .live) || decide ((l.rec_ r.buffer).owner = .shadow)).map .resend

/-- A STAGE ahead of a fire: the earliest target that has no record, into the lowest FREE record (R98; R124's order 4). -/
def Lane.aheadChoice (l : Lane) (i : LaneIx) (window : List Entry) : Option NormalChoice :=
  (l.targets i window).find? (fun e => (l.bufferOf e.key).isNone) |>.bind fun e =>
    (e.textFor i).bind fun t => l.freeBuffer.map fun b => .ahead b e t

/-- The first waiting normal frame by R124's order and the link state. That a late STAGE on one buffer goes ahead of a DROP owed on the
other in LIVE, as R124's table and R103 have it and R107 does not, is the model's choice (log entry 37). -/
def Lane.nextNormal (l : Lane) (i : LaneIx) (window : List Entry) : Option NormalChoice :=
  if l.outstanding.length < Config.maxOutstanding ∧ l.normalOutstanding < Config.maxOutstandingNormal then
    match l.link with
    | .live => l.lateChoice <|> l.dropChoice <|> l.resendChoice <|> l.aheadChoice i window
    | .paused => l.lateChoice <|> l.resendChoice
    | .sync => if l.helloWaiting then some .hello else none
    | .off | .fault => none
  else none

/-- The transmitter's choice at a character boundary, on the lane as `Lane.atBoundary` leaves it: R123's cases in order. Inside an
escape pair the escaped byte is sent (R116), and a frame whose CLOSE is on the line has nothing more to send: it closes (R128). -/
def Lane.choice (l : Lane) (i : LaneIx) (window : List Entry) : LineChoice :=
  match l.tx.express with
  | some f => .expressChar f
  | none =>
    if l.tx.suspended then
      match l.expressReady with
      | some f => .openExpress f
      | none => .resume
    else
      match l.tx.normal with
      | some f =>
        if l.tx.lineOut = some Config.chEsc ∨ f.left = [] then .normalChar f
        else if l.tx.cancelDue then .cancel
        else if l.expressReady.isSome then .suspend
        else .normalChar f
      | none =>
        match l.expressReady with
        | some f => .openExpress f
        | none =>
          match l.nextNormal i window with
          | some n => .openNormal n
          | none => .fill

/-- A character put on the line, the next boundary one character time later (R114). -/
def Lane.putChar (l : Lane) (now : Nat) (c : Byte) : Lane :=
  { l with tx := { l.tx with lineOut := some c, boundary := now + l.cfg.baud.charTime } }

/-! ### Opening a frame (R117, R123, R128) -/

/-- A frame opened: it takes the lane's sequence number, OPEN goes on the line, and it joins the outstanding list unless it is
a HELLO (R117, R128). -/
def Lane.openFrame (l : Lane) (now : Nat) (kind : FrameKind) (buffer : Option (Fin 2)) (token : Nat) (cue : Option Half)
    (content : List Byte) (attempt : Nat) : Lane :=
  let seq := l.sequence
  let f : InFlight :=
    { kind := kind, seq := seq, buffer := buffer, token := token, left := (frameChars (frameBody kind seq content)).drop 1 }
  let e : Outstanding :=
    { kind := kind, seq := seq, attempt := attempt, buffer := buffer, token := token, cue := cue, content := content,
      retry := l.cfg.retry, closing := none }
  let l := l.putChar now Config.chOpen
  { l with
    sequence := seq + 1
    tx := if kind.normal then { l.tx with normal := some f } else { l.tx with express := some f }
    outstanding := if kind = .hello then l.outstanding else l.outstanding ++ [e] }

/-- A record marked as having its title's SHOW sent (R105). -/
def Lane.markShown (l : Lane) (b : Fin 2) (token : Nat) : Lane :=
  if (l.rec_ b).holds token then l.setRec b { l.rec_ b with showOpened := true } else l

/-- The first queued express frame opened; a SHOW counts as sent from then on (R105, R125). -/
def Lane.openExpress (l : Lane) (now : Nat) (f : Express) : Lane :=
  let l := { l with express := l.express.drop 1 }
  match f.what with
  | .show_ b token cue => (l.markShown b token).openFrame now .show_ (some b) token (some cue) [bufferByte b] f.attempt
  | .clear => l.openFrame now .clear none 0 none [] f.attempt

/-- The screen's line limit; STAGE opens only on a lane that is up, which has screen values. -/
def Lane.maxLine (l : Lane) : Nat := (l.screen.map ScreenValues.maxLine).getD 120

/-- A STAGE opened for the title its record holds, with the text read from the pool now (R99). -/
def Lane.openStage (l : Lane) (now : Nat) (m : Memory) (b : Fin 2) : Lane :=
  let r := l.rec_ b
  (l.setRec b { r with state := .sending }).openFrame now .stage (some b) r.token (some r.cue)
    (stageContent m b r.cue r.text l.maxLine) 1

/-- The record a STAGE ahead of a fire takes (R98). -/
def Lane.takeAhead (l : Lane) (b : Fin 2) (e : Entry) (t : Text) : Lane :=
  let r : StagingRec :=
    { state := .pending, owner := .entry e.key, token := l.nextToken, cue := e.cue.id, text := t, showSent := false,
      showOpened := false, attempted := false }
  { l.setRec b r with nextToken := l.nextToken + 1 }

/-- The chosen normal frame opened; a STAGE that is not a resend appends its TRUNCATED records (R99, R124). -/
def Part.openNormal (p : Part) (i : LaneIx) (n : NormalChoice) : Part :=
  let l := p.lane i
  match n with
  | .drop b => p.setLane i (l.openFrame p.now .drop (some b) 0 none [bufferByte b] 1)
  | .lateStage b =>
    let p := p.appendAll (truncations i (l.rec_ b).cue (l.rec_ b).text l.maxLine)
    p.setLane i (Lane.openStage { l with late := l.late.drop 1 } p.now p.mem b)
  | .ahead b e t =>
    let p := p.appendAll (truncations i e.cue.id t l.maxLine)
    p.setLane i ((l.takeAhead b e t).openStage p.now p.mem b)
  | .resend r =>
    let l := { l with resends := l.resends.filter fun x => decide (x.buffer ≠ r.buffer) }
    p.setLane i
      ((l.setRec r.buffer { l.rec_ r.buffer with state := .sending }).openFrame p.now .stage (some r.buffer) r.token
        (some r.cue) r.content 2)
  | .hello =>
    let l' := l.openFrame p.now .hello none 0 none (helloContent l i) 1
    p.setLane i
      { l' with
        hellos := (l.sequence :: l.hellos).take 2
        helloAt := some (p.now + Config.helloInterval)
        helloWaiting := false }

/-- A character boundary at which the transmitter opens a frame; no effect where R123 gives anything else. -/
def Part.frameOpen (p : Part) (i : LaneIx) : Part :=
  let l := (p.lane i).atBoundary
  if !l.active then p
  else
    match l.choice i p.seq.window with
    | .openExpress f => p.setLane i (l.openExpress p.now f)
    | .openNormal n => (p.setLane i l).openNormal i n
    | .expressChar _ | .resume | .cancel | .suspend | .normalChar _ | .fill => p

/-! ### Closing a frame (R128, R97, R102, R107) -/

/-- The place of the next CLOSE in the order of the lane's CLOSEs. -/
def Lane.nextOrder (l : Lane) : Nat :=
  (l.outstanding.filterMap fun e => e.closing.map Closing.order).foldl max 0 + 1

/-- The outstanding entry of a frame marked closed, its ack timeout scheduled with the timeout in force at its CLOSE (R128; log
entry 28). -/
def Lane.markClosed (l : Lane) (now : Nat) (seq : Byte) : Lane :=
  let c : Closing := { order := l.nextOrder, time := now, deadline := now + l.cfg.ackTimeout * 1000 }
  { l with outstanding := l.outstanding.map fun e => if e.seq = seq ∧ e.closing.isNone then { e with closing := some c } else e }

/-- What a STAGE's CLOSE does to its record: SENDING becomes SENT, and a SHOW held behind it is queued (R97, R102). -/
def Lane.stageClosed (l : Lane) (b : Fin 2) (token : Nat) : Lane :=
  let r := l.rec_ b
  if r.holds token ∧ r.state = .sending then
    let l := l.setRec b { r with state := .sent, attempted := true }
    if r.owner = .shadow ∧ !r.showSent then l.queueShow b else l
  else l

/-- A frame's CLOSE sent, at the end of its character: the frame leaves the transmitter, which stands at a character boundary, its ack
timeout starts and it counts as sent (R128, R139; 6.8's tables). No CANCEL is due for a frame that has closed (R127). -/
def Lane.closeFrame (l : Lane) (now : Nat) (f : InFlight) : Lane :=
  let l := { l with tx := { l.tx with lineOut := some Config.chClose, boundary := now } }
  let l := { l with
    tx := if f.kind.normal then { l.tx with normal := none, cancelDue := false } else { l.tx with express := none }
    sent := l.sent + 1 }
  let l := if f.kind = .hello then l else l.markClosed now f.seq
  match f.kind, f.buffer with
  | .stage, some b => l.stageClosed b f.token
  | .drop, some b => l.setDrop b false
  | _, _ => l

/-- Whether a CANCEL or a SUSPEND comes before the CLOSE of the normal frame in flight, though R123 gives its next character now: its
CLOSE is not on the line yet, and inside an escape pair the escaped byte goes first (R116, R126, R127; R123's cases 3 and 4). -/
def Lane.breakAhead (l : Lane) (f : InFlight) : Bool :=
  decide (f.left ≠ []) && (l.tx.cancelDue || l.expressReady.isSome)

/-- The CLOSE of the frame whose characters R123 gives at this boundary, after whatever characters it still had; no effect where R123
gives anything else, nor on a normal frame that a CANCEL or a SUSPEND will break first (R126, R127; log entry 8). -/
def Part.frameClose (p : Part) (i : LaneIx) : Part :=
  let l := (p.lane i).atBoundary
  if !l.active then p
  else
    match l.choice i p.seq.window with
    | .expressChar f => p.setLane i (l.closeFrame p.now f)
    | .normalChar f => if l.breakAhead f then p else p.setLane i (l.closeFrame p.now f)
    | .openExpress _ | .resume | .cancel | .suspend | .openNormal _ | .fill => p

/-- SUSPEND, where R123 gives it (R126). -/
def Part.suspend (p : Part) (i : LaneIx) : Part :=
  let l := (p.lane i).atBoundary
  if l.active ∧ l.choice i p.seq.window = .suspend then
    let l := l.putChar p.now Config.chSuspend
    p.setLane i { l with tx := { l.tx with suspended := true } }
  else p

/-- RESUME, where R123 gives it (R126). -/
def Part.resume (p : Part) (i : LaneIx) : Part :=
  let l := (p.lane i).atBoundary
  if l.active ∧ l.choice i p.seq.window = .resume then
    let l := l.putChar p.now Config.chResume
    p.setLane i { l with tx := { l.tx with suspended := false } }
  else p

/-- CANCEL, where R123 gives it: the normal frame ends and leaves the outstanding list, with no timeout and no miss (R127). -/
def Part.cancel (p : Part) (i : LaneIx) : Part :=
  let l := (p.lane i).atBoundary
  if l.active ∧ l.choice i p.seq.window = .cancel then
    let seq := l.tx.normal.map InFlight.seq
    let l := l.putChar p.now Config.chCancel
    p.setLane i
      { l with
        tx := { l.tx with normal := none, cancelDue := false }
        outstanding := l.outstanding.filter fun e => decide (some e.seq ≠ seq) || e.closing.isSome }
  else p

/-- A character that is no command of the table: the next character of the frame in flight, or FILL (R123). -/
def Part.plainChar (p : Part) (i : LaneIx) : Part :=
  let l := (p.lane i).atBoundary
  match l.choice i p.seq.window with
  | .expressChar f =>
    let l := l.putChar p.now (f.left.headD Config.chFill)
    p.setLane i { l with tx := { l.tx with express := some { f with left := f.left.drop 1 } } }
  | .normalChar f =>
    let l := l.putChar p.now (f.left.headD Config.chFill)
    p.setLane i { l with tx := { l.tx with normal := some { f with left := f.left.drop 1 } } }
  | .openExpress _ | .resume | .cancel | .suspend | .openNormal _ | .fill => p.setLane i (l.putChar p.now Config.chFill)

/-! ### Link states (R133) -/

/-- The lists, records and owed drops cleared, the receiver outside a frame and the frame in flight abandoned (R112, R133). That a frame
abandoned with its ESC on the line sends no escaped byte either is the model's choice (log entry 38), and so is that one abandoned with
its CLOSE on the line at an entry to SYNC or LIVE does not count as sent (R139; log entry 40). -/
def Lane.clearLists (l : Lane) : Lane :=
  { l with
    recs := Vector.replicate 2 StagingRec.free
    drops := Vector.replicate 2 false
    tx := { l.tx with normal := none, express := none, suspended := false, cancelDue := false }
    express := [], outstanding := [], late := [], resends := [], catchUpWaiting := false, rx := .outside
    helloAt := none, helloWaiting := false }

/-- Entry to SYNC: the screen values and the HELLO record are forgotten, the HELLO interval has expired, the miss counter is 0
(R132, R134). -/
def Lane.toSync (l : Lane) (now : Nat) : Lane :=
  let c := l.clearLists
  { c with
    link := .sync, screen := none, hellos := [], helloWaiting := true, missCounter := 0
    tx := { c.tx with boundary := if l.active then max now l.tx.boundary else now } }

/-- Entry to OFF: the line goes idle and the miss counter is 0 (R114, R132). -/
def Lane.toOff (l : Lane) : Lane :=
  let c := l.clearLists
  { c with link := .off, missCounter := 0, tx := { c.tx with lineOut := none } }

/-- Entry to FAULT: the line goes idle; the miss counter is kept (R138). -/
def Lane.toFault (l : Lane) : Lane :=
  let c := l.clearLists
  { c with link := .fault, tx := { c.tx with lineOut := none } }

/-- A link state change to SYNC with its LANE record (R133). -/
def Part.enterSync (p : Part) (i : LaneIx) (cause : LaneCause) : Part :=
  let left := (p.lane i).link
  (p.modLane i fun l => l.toSync p.now).append (laneRecord cause i left .sync none none)

/-- SET_LANE's entry to OFF with its LANE record (R90, R133). -/
def Part.enterOff (p : Part) (i : LaneIx) (cause : LaneCause) : Part :=
  let left := (p.lane i).link
  (p.modLane i Lane.toOff).append (laneRecord cause i left .off none none)

/-- Entry to FAULT with its urgent LANE record (R138). -/
def Part.enterFault (p : Part) (i : LaneIx) : Part :=
  let l := p.lane i
  (p.setLane i l.toFault).append (laneRecord .fault i l.link .fault none (some l.missCounter))

/-! ### Timeouts and misses (R131, R132) -/

/-- A record freed if it still holds a frame's title (R131). -/
def Lane.freeTitle (l : Lane) (b : Option (Fin 2)) (token : Nat) : Lane :=
  match b with
  | some b => if (l.rec_ b).holds token then l.freeRec b else l
  | none => l

/-- The record a STAGE or SHOW leaves when it misses (R131). -/
def Lane.freeMissed (l : Lane) (e : Outstanding) : Lane :=
  match e.kind with
  | .stage | .show_ => l.freeTitle e.buffer e.token
  | .hello | .drop | .clear => l

/-- A miss (R132): counted, recorded, and FAULT at the fault limit. -/
def Part.miss (p : Part) (i : LaneIx) (e : Outstanding) : Part :=
  let p := p.modLane i fun l =>
    { l.freeMissed e with missCounter := l.missCounter + 1, misses := l.misses + 1 }
  let l := p.lane i
  let p := p.append (laneMissRecord i e.kind e.seq e.attempt l.missCounter)
  if l.cfg.faultLimit ≤ l.missCounter then p.enterFault i else p

/-- A first attempt under RESEND_ONCE (R131): a relevant frame waits to be sent again, any other is dropped. -/
def Lane.resendOrDrop (l : Lane) (e : Outstanding) : Lane :=
  match e.kind, e.buffer with
  | .stage, some b =>
    let r := l.rec_ b
    if r.holds e.token then
      { l.setRec b { r with state := .pending } with
        resends := l.resends ++ [{ buffer := b, token := e.token, cue := r.cue, content := e.content }] }
    else l
  | .show_, some b =>
    let what := ExpressWhat.show_ b e.token (e.cue.getD 0)
    if l.relevant what then l.queueExpress { what := what, attempt := 2 }
    else if (l.rec_ b).holds e.token ∧ (l.rec_ b).owner = .shadow then l.freeRec b else l
  | .clear, _ => if l.relevant .clear then l.queueExpress { what := .clear, attempt := 2 } else l
  | _, _ => l

/-- An entry taken as timed out: it leaves the list and is sent again, dropped, or a miss, by the retry policy its frame began under
(R89, R131). -/
def Part.timeOut (p : Part) (i : LaneIx) (e : Outstanding) : Part :=
  let p := p.modLane i fun l => { l with outstanding := l.outstanding.filter fun x => decide (x ≠ e) }
  if e.retry = .resendOnce ∧ e.attempt = 1 then p.modLane i fun l => l.resendOrDrop e
  else p.miss i e

/-- The ack timeout expiry of the closed entry with a sequence number, once its deadline has come (R128, R131). -/
def Part.ackTimeout (p : Part) (i : LaneIx) (seq : Byte) : Part :=
  let l := p.lane i
  if !l.up then p
  else
    match l.outstanding.find? fun e => decide (e.seq = seq) && e.closing.any fun c => decide (c.deadline ≤ p.now) with
    | none => p
    | some e => p.timeOut i e

/-! ### Replies -/

/-- A stray reply (R130): counted and recorded. -/
def Part.stray (p : Part) (i : LaneIx) (kind echo : Byte) : Part :=
  (p.modLane i fun l => { l with strays := l.strays + 1 }).append (strayRecord i kind echo)

/-- An entry put in the order of the CLOSEs. -/
def insertByClose (e : Outstanding) : List Outstanding → List Outstanding
  | [] => [e]
  | x :: rest =>
    if (e.closing.map Closing.order).getD 0 ≤ (x.closing.map Closing.order).getD 0 then e :: x :: rest
    else x :: insertByClose e rest

/-- The entries closed before a given one, in the order of their CLOSEs (R129). -/
def closedBefore (list : List Outstanding) (c : Closing) : List Outstanding :=
  (list.filter fun e => e.closing.any fun x => decide (x.order < c.order)).foldr insertByClose []

/-- The outcome of a matched ACK on the lane (R129): the record of a STAGE or SHOW, and the miss counter at a DONE. A lane that
the ACK's own timeouts brought to FAULT keeps its miss counter (R138). -/
def Lane.acked (l : Lane) (e : Outstanding) (outcome : AckOutcome) : Lane :=
  let l :=
    match e.kind, e.buffer with
    | .stage, some b =>
      let r := l.rec_ b
      if r.holds e.token ∧ r.state = .sent then
        match outcome with
        | .done => l.setRec b { r with state := .staged }
        | .refused => l.freeRec b
      else l
    | .show_, some b => if (l.rec_ b).holds e.token ∧ (l.rec_ b).owner = .shadow then l.freeRec b else l
    | _, _ => l
  if outcome = .done ∧ l.up then { l with missCounter := 0 } else l

/-- The buffer and cue a REFUSED record carries: no buffer for CLEAR, no cue for CLEAR and DROP (R129, R176). -/
def refusedOf (i : LaneIx) (e : Outstanding) : Record :=
  match e.kind with
  | .stage | .show_ => refusedRecord i e.kind e.seq e.buffer e.cue
  | .drop | .hello => refusedRecord i e.kind e.seq e.buffer none
  | .clear => refusedRecord i e.kind e.seq none none

/-- A matched ACK (R129). -/
def Part.ackMatched (p : Part) (i : LaneIx) (e : Outstanding) (c : Closing) (outcome : AckOutcome) : Part :=
  let earlier := closedBefore (p.lane i).outstanding c
  let p := p.modLane i fun l =>
    { l with outstanding := l.outstanding.filter fun x => decide (x ≠ e), acknowledged := l.acknowledged + 1 }
  let p := earlier.foldl (fun p x => if x ∈ (p.lane i).outstanding then p.timeOut i x else p) p
  let p := p.modLane i fun l => l.acked e outcome
  if outcome = .refused then p.append (refusedOf i e) else p

/-- The closed entry an echoed number matches, with its CLOSE (R129). -/
def Lane.matchAck (l : Lane) (echo : Byte) : Option (Outstanding × Closing) :=
  l.outstanding.findSome? fun e => if e.seq = echo then e.closing.map fun c => (e, c) else none

/-- An accepted ACK (R122, R129, R130). -/
def Part.takeAck (p : Part) (i : LaneIx) (echo : Byte) (outcome : AckOutcome) : Part :=
  let l := p.lane i
  match l.link with
  | .live | .paused =>
    match l.matchAck echo with
    | some (e, c) => p.ackMatched i e c outcome
    | none => p.stray i 0x51 echo
  | .sync => p.stray i 0x51 echo
  | .off | .fault => p

/-- A READY taken: screen values, LIVE, the silence timeout running from its CLOSE, the LANE record, and catch-up (R134, R137). -/
def Part.comeLive (p : Part) (i : LaneIx) (cause : LaneCause) (echo buffers maxLine : Byte) : Part :=
  let left := (p.lane i).link
  let p := p.modLane i fun l =>
    { l.clearLists with
      link := .live, missCounter := 0, lastChar := p.now
      screen := some { buffers := buffers.toNat, maxLine := maxLine.toNat } }
  let p := p.append
    (laneRecord cause i left .live (some (buffers.toNat, maxLine.toNat, echo.toNat)) none)
  p.modLane i fun l => l.catchUp p.seq.window

/-- An accepted READY (R122, R134, R137). -/
def Part.takeReady (p : Part) (i : LaneIx) (echo buffers maxLine : Byte) : Part :=
  match (p.lane i).link with
  | .sync => if echo ∈ (p.lane i).hellos then p.comeLive i .ready echo buffers maxLine else p.stray i 0x50 echo
  | .live | .paused => p.comeLive i .restart echo buffers maxLine
  | .off | .fault => p

/-- An accepted BUSY (R135): LIVE becomes PAUSED. -/
def Part.takeBusy (p : Part) (i : LaneIx) : Part :=
  if (p.lane i).link = .live then
    (p.modLane i fun l => { l with link := .paused }).append (laneRecord .busy i .live .paused none none)
  else p

/-- An accepted FREE (R135): PAUSED becomes LIVE. -/
def Part.takeFree (p : Part) (i : LaneIx) : Part :=
  if (p.lane i).link = .paused then
    (p.modLane i fun l => { l with link := .live }).append (laneRecord .free i .paused .live none none)
  else p

/-- A bad reply counted (R121). -/
def Part.takeBad (p : Part) (i : LaneIx) : Part := p.modLane i fun l => { l with badReplies := l.badReplies + 1 }

/-- A judged reply acted on (R122). -/
def Part.takeReply (p : Part) (i : LaneIx) : Reply → Part
  | .ready echo buffers maxLine => p.takeReady i echo buffers maxLine
  | .ack echo outcome => p.takeAck i echo outcome
  | .busy => p.takeBusy i
  | .free => p.takeFree i
  | .bad => p.takeBad i

/-- A character of the screen's taken: the silence timeout runs anew in LIVE and PAUSED (R136). -/
def Lane.heard (l : Lane) (now : Nat) : Lane := if l.up then { l with lastChar := now } else l

/-- The receiver brought to a state at a character taken now. -/
def Part.setReceiver (p : Part) (i : LaneIx) (rx : Receiver) : Part :=
  p.modLane i fun l => { l.heard p.now with rx := rx }

/-- One character from the screen (R114, R121, R136), and the reply it ends acted on at once (R122). -/
def Part.receiveChar (p : Part) (i : LaneIx) (b : Byte) (framingError : Bool) : Part :=
  let l := p.lane i
  if !l.active then p
  else
    let next := receive l.rx b framingError
    match next.2 with
    | none => p.setReceiver i next.1
    | some r =>
      match r with
      | .bad => (p.setReceiver i next.1).takeBad i
      | r => (p.setReceiver i .outside).takeReply i r

/-- A whole reply frame of the screen's, taken at its CLOSE (R121, R122): the receiver is outside a frame, and the reply acts. -/
def Part.wholeReply (p : Part) (i : LaneIx) (r : Reply) : Part :=
  if (p.lane i).active then (p.setReceiver i .outside).takeReply i r else p

/-! ### Link expiries -/

/-- The show time of the silence expiry (R136). -/
def Lane.silenceAt (l : Lane) : Option Nat := if l.up then some (l.lastChar + l.cfg.silenceTimeout * 1000) else none

/-- The silence expiry, once it has come (R136). -/
def Part.silence (p : Part) (i : LaneIx) : Part :=
  if (p.lane i).silenceAt.any fun t => decide (t ≤ p.now) then p.enterSync i .silence else p

/-- The HELLO interval, once it has expired in SYNC: a HELLO waits to open (R134). -/
def Part.helloExpiry (p : Part) (i : LaneIx) : Part :=
  let l := p.lane i
  if l.link = .sync ∧ l.helloAt.any (fun t => decide (t ≤ p.now)) then
    p.setLane i { l with helloAt := none, helloWaiting := true }
  else p

/-! ### Halt and start-up of a lane (R91) -/

/-- A lane at a halt: OFF with everything of its link forgotten and no max dwell expiry; no record (R91). -/
def Lane.halt (l : Lane) : Lane := { l.toOff with screen := none, maxDwellAt := none }

/-- The shadow's shown time belongs to the run before and becomes 0 at a start-up (R91). -/
def Lane.restartShadow (l : Lane) : Lane := { l with shadow := { l.shadow with shown := 0 } }

/-- A lane at a start-up: an enabled one enters SYNC (R91). -/
def Part.startLane (p : Part) (i : LaneIx) : Part :=
  let p := p.modLane i Lane.restartShadow
  if (p.lane i).cfg.enable then p.enterSync i .start else p

end Sys2Proof.Machine
end

