-- ==== Sys2Proof/Machine/Loader.lean ====
section
/-! DEFINITION. The sequencer's loader (R18, R19, R64): the cursor, the reading of one cue, and the refill of the window. -/

namespace Sys2Proof.Machine

open Sys2Proof (LaneIx)

/-! ### Groups (R10, R66) -/

/-- Whether an entry is a WITH cue. -/
def Entry.isWith (e : Entry) : Bool := decide (e.cue.trigger = .withPrev)

/-- The head group: the first entry with the WITH entries directly after it (R66). -/
def headGroup : List Entry → List Entry
  | [] => []
  | e :: rest => e :: rest.takeWhile Entry.isWith

/-- The window without its head group. -/
def afterHead : List Entry → List Entry
  | [] => []
  | _ :: rest => rest.dropWhile Entry.isWith

/-- The last group of a window. -/
def tailGroup (window : List Entry) : List Entry :=
  let back := window.reverse
  let withs := back.takeWhile Entry.isWith
  ((back.drop withs.length).take 1 ++ withs.reverse)

/-- The groups of a list of entries, at most as many as `n`. -/
def groupsOf : Nat → List Entry → List (List Entry)
  | 0, _ => []
  | _ + 1, [] => []
  | n + 1, e :: rest => headGroup (e :: rest) :: groupsOf n (afterHead (e :: rest))

/-- The lanes set of a group (R10). -/
def groupMask (group : List Entry) : BitVec 6 := group.foldl (fun m e => m ||| e.cue.mask) 0

/-! ### The cursor (R64) -/

/-- The cursor at the first cue of a pass of a section. -/
def Sequencer.firstOf (q : Sequencer) (pass : Half) (s : Nat) : Cursor :=
  let sec := q.sectionAt s
  .reading pass s sec.firstCue 0 sec.cueCount false

/-- The cursor at the first cue of the next pass under a successor: finished for STOP (R64, R73, R77). -/
def Sequencer.nextPassCursor (q : Sequencer) (successor : Option Successor) : Cursor :=
  match successor with
  | some (.next s) => q.firstOf (q.pass + 1) s
  | some .stop | none => .finished

/-- The cursor after the end of a pass's list: the held next section's first cue after the current pass, else finished (R64). -/
def Sequencer.afterPass (q : Sequencer) (pass : Half) : Cursor :=
  if pass = q.pass then q.nextPassCursor q.heldNext else .finished

/-- The part with the loader's cursor moved. -/
def Part.setCursor (p : Part) (c : Cursor) : Part := { p with seq := { p.seq with cursor := c } }

/-- The lane set a WITH cue of a pass would join: that of the window's last group, where it is of the same section and pass (R18). None
for a list's first cue, which has no cue before it (R15). -/
def Sequencer.openGroup (q : Sequencer) (sect : Nat) (pass : Half) (index : Nat) : Option (BitVec 6) :=
  match tailGroup q.window with
  | [] => none
  | e :: rest => if index ≠ 0 ∧ e.key.sect = sect ∧ e.key.pass = pass then some (groupMask (e :: rest)) else none

/-- A cue check's failure reported (R18). -/
def Part.badCue (p : Part) (code : LoadCode) (sect : Nat) (pass : Half) (offset : Nat) (cue : Option Half) : Part :=
  p.append (badCueRecord code sect pass offset cue)

/-- The cue id of a BAD_CUE record: none where R15's order 1 failed and the head could not be read whole (R175). -/
def headId (r : RawCue) (offset : Nat) : Option Half :=
  if Config.cueAreaSize < offset + 24 then none else some r.id

/-- The record at the cursor read and taken or skipped, and the cursor moved (R18, R19). A WITH cue after the first whose group was
lost, or has left the window already, is BAD_WITH whatever else is wrong with it (R19, R65). -/
def Part.readCue (p : Part) (pass : Half) (sect offset index left : Nat) (lost : Bool) : Part :=
  let r := readCueHead p.mem offset
  let isWith := decide (r.trigger = 4)
  let onward := fun lost' => Cursor.reading pass sect (offset + r.length) (index + 1) (left - 1) lost'
  match checkExtent r offset with
  | some e => (p.setCursor (.reading pass sect offset index 0 lost)).badCue e sect pass offset (headId r offset)
  | none =>
    let group := p.seq.openGroup sect pass index
    if isWith && (lost || (decide (index ≠ 0) && group.isNone)) then (p.setCursor (onward true)).badCue .badWith sect pass offset (some r.id)
    else
      match checkCueBody p.mem r offset (p.seq.sectionAt sect) p.seq.usedLength { group := group, previousAt := none } with
      | .error e => (p.setCursor (onward (!isWith))).badCue e sect pass offset (some r.id)
      | .ok cue =>
        let entry : Entry :=
          { cue := cue, key := { sect := sect, pass := pass, offset := offset, index := index }, state := .waiting,
            due := none, reached := false, qe := none }
        { p with seq := { p.seq with window := p.seq.window ++ [entry], cursor := onward false } }

/-- Whether a section is in use: RUNNING with it current, in the window, under the loader's cursor, or loaded and not yet current
(R20). -/
def Sequencer.inUse (q : Sequencer) (s : Nat) : Bool :=
  decide (q.state = .running) &&
    (decide (q.current = some s) || (q.window.any fun e => decide (e.key.sect = s)) ||
      match q.cursor with
      | .reading _ sect _ _ _ _ => decide (sect = s)
      | .finished => decide (q.heldNext = some (.next s)))

/-- A REPLACE_SECTION being executed marked where its section is in use now (R21). No ARM or JUMP is taken while it is executed (R153),
so that a section comes into use by the loader alone, or by BACK's group and a section entry, which the loader follows. -/
def Part.noteUse (p : Part) : Part :=
  match p.requests.scan with
  | .executing _ _ (.replace a) =>
    { p with requests := { p.requests with
        replaceUsed := p.requests.replaceUsed || p.seq.inUse a.section_.toNat } }
  | .executing _ _ .load | .idle | .scanning _ => p

/-- One step of the loader (R64): at the end of a pass's list the cursor goes on to the next pass, whether the window has room or
not; else the next cue is read where it has. None where the loader has nothing to do. -/
def Part.loadOne (p : Part) : Option Part :=
  match p.seq.cursor with
  | .finished => none
  | .reading pass sect offset index left lost =>
    if left = 0 then some (p.setCursor (p.seq.afterPass pass))
    else if p.seq.window.length < Config.windowSize then some (p.readCue pass sect offset index left lost)
    else none

/-- The loader's steps for as long as it has any, each of which may bring the section of a REPLACE_SECTION into use (R21, R64). -/
def Part.refillFor : Nat → Part → Part
  | 0, p => p.noteUse
  | n + 1, p =>
    match p.noteUse.loadOne with
    | some q => Part.refillFor n q
    | none => p.noteUse

/-- More steps than two passes of 4095 cues can take. -/
def refillSteps : Nat := 8200

/-- The refill of the window (R64). -/
def Part.refill (p : Part) : Part := p.refillFor refillSteps

/-- Entries that left the window without firing, reported to every lane in turn (R106). -/
def Part.reportRemoved (p : Part) (entries : List Entry) : Part :=
  entries.foldl (fun p e => allLanes.foldl (fun p i => p.modLane i fun l => l.entryRemoved e.key) p) p

/-- The part with the window replaced. -/
def Part.setWindow (p : Part) (w : List Entry) : Part := { p with seq := { p.seq with window := w } }

end Sys2Proof.Machine
end

