-- ==== Sys2Proof/Machine/Sequencer.lean ====
section
/-! DEFINITION. The cue sequencer (chapter 4): successors and trims, fires, section ends and act ends, deferral and overtaking,
BACK, GO, and the arming of an act. -/

namespace Sys2Proof.Machine

open Sys2Proof (LaneIx)

/-! ### Reports of the clock (R45) -/

/-- A clock state change reported: CLOCK set and a CLOCK record appended; nothing where the state is the one left (R45). -/
def Part.reportClock (p : Part) (left : ClockState) (cause : ClockCause) : Part :=
  if p.clock.state = left then p else (p.setNotice .clock).append (clockRecord cause left p.clock)

/-- The COUNT record of a count event, while the option is on (R46). -/
def Part.reportCount (p : Part) (origin : CountOrigin) (sect : Option Nat) : Part :=
  if p.journal.countRecords then p.append (countRecord origin sect p.clock) else p

/-- The clock in STOPPED: everything but P and the profile at rest (R29). -/
def Clock.stopped (c : Clock) : Clock :=
  { c with state := .stopped, c0 := 0, t0 := 0, run := 0, coast := 0, fh := 0, start := 0, lastPulse := none }

/-- The clock ARMED at a count, with P from the section's hint (R32, R42). -/
def Clock.armed (c : Clock) (hint count : Nat) : Clock :=
  { c with
    state := .armed, c0 := count, t0 := 0, period := c.profile.clampPeriod (hint * 1000), lastPulse := none,
    run := 0, coast := 0, fh := 0 }

/-- The clock UNTRACKED from a start time, with no count (R31, R42). -/
def Clock.untracked (c : Clock) (start : Int) : Clock :=
  { c with state := .untracked, start := start, c0 := 0, t0 := 0, run := 0, coast := 0, fh := 0 }

/-! ### Successors (R73) and trims (R77) -/

/-- The cut map's entry of a section (R76). -/
def Sequencer.cutOf (q : Sequencer) (s : Nat) : Option Nat := (q.cuts[s]?).join

/-- The successor of the current section (R73). -/
def Sequencer.resolve (q : Sequencer) : Successor :=
  match q.current with
  | none => .stop
  | some s =>
    let sec := q.sectionAt s
    if sec.vamp && !q.vampExit then .next s
    else match q.cutOf s with
      | some t => .next t
      | none => sec.successor

/-- Whether the loader has begun the next pass: its cursor lies in it, or is finished after it (R73, R77). -/
def Sequencer.begunNext (q : Sequencer) : Bool :=
  match q.cursor with
  | .reading pass _ _ _ _ _ => decide (pass ≠ q.pass)
  | .finished => decide (q.heldNext ≠ some .stop)

/-- The deferral expiry cancelled where the head group has left the window. -/
def Part.dropDeferral (p : Part) (oldHead : Option EntryKey) : Part :=
  if p.seq.window.head?.map Entry.key = oldHead then p else { p with seq := { p.seq with deferAt := none } }

/-- A trim to a new held next section (R77). -/
def Part.trim (p : Part) (new : Successor) : Part :=
  let old := p.seq.window
  let kept := old.filter fun e => decide (e.key.pass = p.seq.pass)
  let gone := old.filter fun e => decide (e.key.pass ≠ p.seq.pass)
  let p := p.setWindow kept
  let p := (p.reportRemoved gone.reverse).dropDeferral (old.head?.map Entry.key)
  let p := { p with seq := { p.seq with heldNext := some new, cursor := p.seq.nextPassCursor (some new) } }
  p.refill.recompute

/-- The successor of the current section resolved again (R73, R76, R78): a trim where the loader has begun the next pass, the
cursor moved on where it was finished before a STOP. -/
def Part.resolveAgain (p : Part) : Part :=
  let new := p.seq.resolve
  if p.seq.state ≠ .running ∨ p.seq.heldNext = some new then p
  else if p.seq.begunNext then p.trim new
  else if p.seq.cursor = .finished then
    Part.recompute (Part.refill
      { p with seq := { p.seq with heldNext := some new, cursor := p.seq.nextPassCursor (some new) } })
  else { p with seq := { p.seq with heldNext := some new } }

/-! ### Firing (R67, R68, R69) -/

/-- The earliest time E of a group (R69). -/
def Part.earliestOf (p : Part) (group : List Entry) : Nat :=
  group.foldl
    (fun m e => if e.cue.priority then m else (lanesOf e.cue.mask).foldl (fun m i => max m (p.lane i).earliest) m) 0

/-- A cue's titles handed to the lanes of its mask in lane order, and the lanes that counted as sent (R67, R101). -/
def Part.handTitles (p : Part) (cue : Cue) (key : Option EntryKey) : Part × BitVec 6 :=
  (lanesOf cue.mask).foldl
    (fun (acc : Part × BitVec 6) i =>
      let taken := (acc.1.lane i).takeTitle (titleShadow cue i acc.1.now) key acc.1.seq.window
      (acc.1.setLane i taken.1, if taken.2 then acc.2 ||| BitVec.twoPow 6 i.val else acc.2))
    (p, 0)

/-- Several cues' titles handed in group order, each with the lanes that counted as sent. -/
def Part.handAll : Part → List (Cue × Option EntryKey) → Part × List (Half × BitVec 6)
  | p, [] => (p, [])
  | p, (cue, key) :: rest =>
    let one := p.handTitles cue key
    let more := one.1.handAll rest
    (more.1, (cue.id, one.2) :: more.2)

/-- The previous shadows of the lanes of a group, in lane order (R67, R79). -/
def Part.previousShadows (p : Part) (group : List Entry) : List (LaneIx × Shadow) :=
  (lanesOf (groupMask group)).map fun i => (i, (p.lane i).shadow)

/-- The history with a fired group pushed; at most 4 groups, the oldest gone first, and none with an empty lane set (R79). That a group
fired early, trimmed, read again under the same pass number (R77) and fired again is pushed again, beside its first firing, is the model's
choice (log entry 35). -/
def pushHistory (history : List FiredGroup) (group : List Entry) (previous : List (LaneIx × Shadow)) : List FiredGroup :=
  if previous.isEmpty then history
  else ({ entries := group, previous := previous } :: history).take Config.historySize

/-- The head group fired (R67's steps 1 to 6). -/
def Part.fireHead (p : Part) (how : HowFired) : Part :=
  match headGroup p.seq.window with
  | [] => p
  | e :: rest =>
    let group := e :: rest
    let slip := e.due.map fun d => (p.now : Int) - (d : Int)
    let history := pushHistory p.seq.history group (p.previousShadows group)
    let p := { p with seq := { p.seq with window := afterHead p.seq.window, history := history, deferAt := none } }
    let handed := p.handAll (group.map fun x => (x.cue, some x.key))
    let p := handed.1
    let p := { p with seq := { p.seq with lastFire := some p.now } }
    let p := p.appendAll (handed.2.map fun x => firedRecord how x.1 e.key.sect x.2 e.key.pass e.due slip)
    p.refill

/-- How GO fires the head group (R81). -/
def howByGo (e : Entry) : HowFired :=
  if e.state = .called then .calledBack
  else match e.cue.trigger with
    | .go => .go
    | .atPos | .after | .withPrev => .forced

/-! ### Section ends (R72 to R75, R31, R42, R43) -/

/-- What ended a section: a count event at a time, the section timer at a time, the fire of the last group of a CALLED pass, or a
forced GO (R72). -/
inductive EndBy where
  | count (time : Nat) (origin : CountOrigin)
  | timer (time : Int)
  | called
  | forced
  deriving DecidableEq, Repr

/-- Whether the end is forced. -/
def EndBy.isForced : EndBy → Bool
  | .forced => true
  | .count _ _ | .timer _ | .called => false

/-- The time of a section end. -/
def EndBy.time (b : EndBy) (now : Nat) : Int :=
  match b with
  | .count t _ => t
  | .timer t => t
  | .called | .forced => now

/-- The origin of the COUNT record of a section end taken by a count event or a forced GO (R45, R46). -/
def EndBy.origin : EndBy → Option CountOrigin
  | .count _ o => some o
  | .forced => some .forced
  | .timer _ | .called => none

/-- The clock with the next section's kind applied at a section end (R31, R42, R43). -/
def Clock.enter (c : Clock) (b : EndBy) (sec : SectionRec) : Clock :=
  match sec.kind with
  | .called | .timed => c.untracked (b.time c.showTime)
  | .pulsed =>
    match b with
    | .count t _ => { c with c0 := 0, t0 := t }
    | .forced => { c with c0 := 0, t0 := c.showTime, fh := 0 }
    | .timer _ | .called => c.armed sec.hint 0

/-- How a section is entered at a section end (R72). -/
def Sequencer.howEntered (q : Sequencer) (b : EndBy) : HowEntered :=
  if b.isForced then .forced
  else if q.currentRec.vamp then (if q.vampExit then .vampExit else .vampLoop)
  else if (q.current.bind q.cutOf).isSome then .cut
  else .next

/-- Groups of the pass left removed from the window: reported to the lanes, one OVERTAKEN record each (R72, R74). -/
def Part.overtakeAll (p : Part) (cause : OvertakenCause) (gone : List Entry) : Part :=
  (groupsOf gone.length gone).foldl
    (fun p g =>
      match g with
      | [] => p
      | e :: _ => (p.reportRemoved g).append (overtakenRecord cause e.cue.id none e.key e.due))
    p

/-- The entry run after a section entry at now (R75). -/
def Sequencer.nextRun (q : Sequencer) (now : Nat) : Nat :=
  if q.lastEntryAt = some now then min Config.entryRunLimit (q.entryRun + 1) else 1

/-- The cursor at a section entry: where it was still in the pass left, the first cue of the entered pass; where it was
finished, the first cue of the new held next section; else where it stands (R72's step 6). `q` holds the new pass, current
section and held next section. -/
def Sequencer.entryCursor (q : Sequencer) (s : Nat) : Cursor :=
  match q.cursor with
  | .finished => q.nextPassCursor q.heldNext
  | .reading pass _ _ _ _ _ => if pass = q.pass then q.cursor else q.firstOf q.pass s

/-- The cause of the CLOCK record of a section end: SECTION or FORCED where the clock took the section's kind, else the count
event's own cause (R45). -/
def endCause (b : EndBy) (state : ClockState) (own : ClockCause) : ClockCause :=
  match state with
  | .untracked => if b.isForced then .forced else .section_
  | .armed | .stopped => .section_
  | .locking | .following | .coasting | .held => own

/-- A section entered at a section end (R72's steps 1 to 9). `left` is the clock state before the event. -/
def Part.enterSection (p : Part) (b : EndBy) (s : Nat) (left : ClockState) (own : ClockCause) : Part :=
  let how := p.seq.howEntered b
  let old := p.seq.window
  let from_ := p.seq.current
  let leaving := old.filter fun e => decide (e.key.pass = p.seq.pass)
  let p := { p with clock := p.clock.enter b (p.seq.sectionAt s) }
  let p := match b.origin with
    | some o => p.reportCount o (some s)
    | none => p
  let p := p.setWindow (old.filter fun e => decide (e.key.pass ≠ p.seq.pass))
  let p := (p.overtakeAll .sectionEntry leaving).dropDeferral (old.head?.map Entry.key)
  let pass := p.seq.pass + 1
  let q := { p.seq with
    pass := pass
    current := some s
    history := p.seq.history.filter fun g => g.entries.all fun e => decide (e.key.sect = s ∧ e.key.pass = pass)
    vampExit := if how = HowEntered.vampLoop then p.seq.vampExit else false
    entryRun := p.seq.nextRun p.now
    lastEntryAt := some p.now }
  let q := { q with heldNext := some q.resolve }
  let p := Part.refill { p with seq := { q with cursor := q.entryCursor s } }
  let p := (p.setNotice .section_).append (sectionRecord how from_ s pass)
  (p.reportClock left (endCause b p.clock.state own)).recompute

/-- The act ended at a section end that finds STOP (R74). -/
def Part.endAct (p : Part) (b : EndBy) (left : ClockState) : Part :=
  let old := p.seq.window
  let p := { p with clock := p.clock.stopped }
  let p := match b.origin with
    | some o => p.reportCount o p.seq.current
    | none => p
  let p := p.setWindow []
  let p := p.overtakeAll .actEnd (old.filter fun e => decide (e.key.pass = p.seq.pass))
  let p := p.reportRemoved (old.filter fun e => decide (e.key.pass ≠ p.seq.pass))
  let p := { p with seq := { p.seq with
    state := .ended, heldNext := none, vampExit := false, cursor := .finished, history := [], deferAt := none } }
  (p.setNotice .end_).reportClock left .section_

/-- The section that follows at a section end: the held next section, or STOP where the entry run stands at 128 and the end is not
forced (R72, R75; log entry 16). -/
def Sequencer.following (q : Sequencer) (b : EndBy) : Successor :=
  if !b.isForced && decide (q.entryRun = Config.entryRunLimit) then .stop else q.heldNext.getD .stop

/-- A section end (R72, R74). The clock unit has already made the event's other effects on the clock. -/
def Part.endSection (p : Part) (b : EndBy) (left : ClockState) (own : ClockCause) : Part :=
  match p.seq.following b with
  | .stop => p.endAct b left
  | .next s => p.enterSection b s left own

/-! ### The evaluation of the head group (R66, R70, R71, R75) -/

/-- Whether a CALLED current pass is over: no group of it in the window and none left to load (R75). -/
def Sequencer.calledOver (q : Sequencer) : Bool :=
  decide (q.state = .running) && decide (q.currentRec.kind = .called) &&
    (q.window.all fun e => decide (e.key.pass ≠ q.pass)) &&
    match q.cursor with
    | .reading pass _ _ _ left _ => decide (pass ≠ q.pass) || decide (left = 0)
    | .finished => true

/-- What follows a fire: the end of a CALLED section whose last group it was (R67's step 7), else every due time taken anew. -/
def Part.afterFire (p : Part) : Part :=
  if p.seq.calledOver then p.endSection .called p.clock.state .section_ else p.recompute

/-- Whether the head group would be overtaken by the group after it (R71): both AT and not CALLED, no KEEP in the head, the
group after it reached. -/
def overtaken (window : List Entry) : Bool :=
  match window, afterHead window with
  | e :: _, n :: _ =>
    decide (e.cue.trigger = .atPos) && decide (e.state ≠ .called) && ((headGroup window).all fun x => !x.cue.keep) &&
      decide (n.cue.trigger = .atPos) && decide (n.state ≠ .called) && n.reached
  | _, _ => false

/-- The head group overtaken by the group after it (R71). -/
def Part.overtake (p : Part) : Part :=
  match p.seq.window, afterHead p.seq.window with
  | e :: _, n :: rest =>
    let gone := headGroup p.seq.window
    let p := { p with seq := { p.seq with window := n :: rest, deferAt := none } }
    let p := (p.reportRemoved gone).append (overtakenRecord .byGroup e.cue.id (some n.cue.id) e.key e.due)
    p.refill.recompute
  | _, _ => p

/-- The head group in a state, with a deferral expiry or none. -/
def Part.setHead (p : Part) (st : EntryState) (deferAt : Option Nat) : Part :=
  { p with seq := { p.seq with
    window := (headGroup p.seq.window).map (fun e => { e with state := st }) ++ afterHead p.seq.window
    deferAt := deferAt } }

/-- A DEFERRED head group without a due time returned to WAITING, its deferral expiry gone: it fires by GO and not by time (R55,
R66). -/
def Part.dropAbsent (p : Part) : Part :=
  if p.seq.window.head?.any fun e => decide (e.state = .deferred) && e.due.isNone then p.setHead .waiting none else p

/-- What the evaluation of the head group comes to: it waits, or the sequencer acted and evaluates again. -/
inductive Verdict where
  | waits (p : Part)
  | again (p : Part)

/-- How a reached group fires when E is at or before now and it does not stand DEFERRED: DUE with a slip of 0, else LATE. That is the
model's choice for a group once DEFERRED that BACK (R66) or a recomputation (R70) had returned to WAITING, which R68's LATE, "never
deferred", and DEFERRED, "at the end of a deferral", both leave out (log entry 14). -/
def howReached (due : Option Nat) (now : Nat) : HowFired := if due = some now then .due else .late

/-- A DEFERRED head group that the HOLD key left without a due time: its deferral runs to its end all the same (R146). A late expiry
into HELD leaves no such group DEFERRED (`Part.dropAbsent`; log entry 31). -/
def Part.heldDeferral (p : Part) (e : Entry) : Bool :=
  decide (e.state = .deferred) && e.due.isNone && decide (p.clock.state = .held)

/-- The head group evaluated by its state, due time and E (R66, R70, R71). -/
def Part.evaluate (p : Part) : Verdict :=
  match p.seq.window with
  | [] => .waits p
  | e :: _ =>
    if !p.heldDeferral e ∧ (e.state = .called ∨ e.due = none ∨ !e.reached) then
      .waits (if e.state = .deferred then p.setHead .waiting none else p)
    else
      let earliest := p.earliestOf (headGroup p.seq.window)
      if e.state = .deferred then
        if overtaken p.seq.window then .again p.overtake
        else if earliest ≤ p.now then .again (p.fireHead .deferred).afterFire
        else .waits { p with seq := { p.seq with deferAt := some earliest } }
      else if earliest ≤ p.now then .again (p.fireHead (howReached e.due p.now)).afterFire
      else .again (p.setHead .deferred (some earliest))

/-- The head group evaluated for as long as the sequencer acts (R66, R71, R75). -/
def Part.settleFor : Nat → Part → Part
  | 0, p => p
  | n + 1, p =>
    if p.seq.state ≠ .running then p
    else if p.seq.calledOver then Part.settleFor n (p.endSection .called p.clock.state .section_)
    else
      match p.evaluate with
      | .waits q => q
      | .again q => Part.settleFor n q

/-- More evaluations than one event can need: 128 section entries at one show time (R75), each of at most 4095 cues that defer,
fire or are overtaken. -/
def settleSteps : Nat := 2097152

/-- The evaluation that ends an event (R66). -/
def Part.settle (p : Part) : Part := p.settleFor settleSteps

/-! ### Due and deferral expiries (R57, R70) -/

/-- The first entry of a window whose due time has come and is not yet marked reached, marked so. -/
def markReached (now : Nat) : List Entry → List Entry
  | [] => []
  | e :: rest =>
    if (e.due.any fun d => dueReached d now) && !e.reached then { e with reached := true } :: rest
    else e :: markReached now rest

/-- Whether an entry's due expiry has come. -/
def Sequencer.dueWaiting (q : Sequencer) (now : Nat) : Bool :=
  q.window.any fun e => (e.due.any fun d => dueReached d now) && !e.reached

/-- A due expiry, once it has come (R57). -/
def Part.dueExpiry (p : Part) : Part :=
  if p.seq.dueWaiting p.now then (p.setWindow (markReached p.now p.seq.window)).settle else p

/-- The deferral expiry, once it has come: the head group fires (R70). -/
def Part.deferralExpiry (p : Part) : Part :=
  if p.seq.deferAt.any fun t => decide (t ≤ p.now) then (p.fireHead .deferred).afterFire.settle else p

/-! ### BACK (R80) -/

/-- The cursor moved back to an entry's place, so that it and what follows are read again (R80). -/
def Sequencer.backTo (q : Sequencer) (e : Entry) : Cursor :=
  .reading e.key.pass e.key.sect e.key.offset e.key.index ((q.sectionAt e.key.sect).cueCount - e.key.index) false

/-- Whole groups removed from the tail, the last first, until there is room (R80's step 2). -/
def Part.makeRoom : Nat → Nat → Part → Part
  | 0, _, p => p
  | n + 1, need, p =>
    if p.seq.window.length + need ≤ Config.windowSize then p
    else
      match tailGroup p.seq.window with
      | [] => p
      | e :: rest =>
        let kept := p.seq.window.take (p.seq.window.length - (e :: rest).length)
        let p := (p.setWindow kept).reportRemoved (e :: rest).reverse
        Part.makeRoom n need (p.setCursor (p.seq.backTo e))

/-- A lane given back the shadow it had before a fire (R111). -/
def Lane.restore (l : Lane) (sh : Shadow) (now : Nat) (window : List Entry) : Lane :=
  (l.writeShadow { sh with shown := now }).catchUp window

/-- The top group of the history back at the head of the window, the lanes looking again at their targets in it (R98), and its lanes'
shadows restored (R80). -/
def Part.popGroup (p : Part) (g : FiredGroup) (rest : List FiredGroup) : Part :=
  let p := { p with seq := { p.seq with history := rest } }
  let p := p.makeRoom Config.windowSize g.entries.length
  let p := if p.seq.window.head?.any fun e => decide (e.state = .deferred) then p.setHead .waiting none else p
  let back := g.entries.map fun e => { e with state := .called, due := none, reached := false }
  let p := Part.lookAgain { p with seq := { p.seq with window := back ++ p.seq.window, deferAt := none } }
  let p := g.previous.foldl (fun p x => p.modLane x.1 fun l => l.restore x.2 p.now p.seq.window) p
  p.refill.recompute.settle

/-- BACK: the first cue id of the group returned, or none where there is nothing to return (R80). -/
def Part.back (p : Part) : Part × KeyOutcome × Option Half :=
  if p.seq.state ≠ .running then (p, .nothing, none)
  else
    match p.seq.history with
    | [] => (p, .nothing, none)
    | g :: rest => (p.popGroup g rest, .backed, g.entries.head?.map fun e => e.cue.id)

/-! ### GO (R81, R143) -/

/-- The head group fired by GO (R81). -/
def Part.fireByGo (p : Part) : Part :=
  match p.seq.window with
  | [] => p
  | e :: _ => (p.fireHead (howByGo e)).afterFire

/-- An accepted GO evaluated (R143), with the first cue id of the group it fired: none where a forced end found STOP and so left no
group to fire (R74, R141; log entry 32). -/
def Part.go (p : Part) : Part × KeyOutcome × Option Half :=
  let cue := p.seq.window.head?.map fun e => e.cue.id
  match goCase p with
  | .exitArmed =>
    let p := { p with seq := { p.seq with vampExit := true } }
    (p.resolveAgain.settle, .exitArmed, none)
  | .fired => (p.fireByGo.settle, .fired, cue)
  | .forced =>
    let p := p.endSection .forced p.clock.state .forced
    (p.fireByGo.settle, .forced, p.seq.window.head?.map fun e => e.cue.id)
  | o => (p, o, none)

/-! ### Arming (R82 to R85), STOP (R86) and halt (R87) -/

/-- The cues of a prime group read and checked afresh, and the BAD_CUE records of those that fail (R84): `group` is the lane set
of the cues taken so far, none where the group's first cue was lost. -/
def readPrime (m : Memory) (sec : SectionRec) (used sect : Nat) (first : Bool) (group : Option (BitVec 6)) :
    Nat → Nat → List Cue × List Record
  | 0, _ => ([], [])
  | n + 1, offset =>
    let r := readCueHead m offset
    match checkExtent r offset with
    | some _ => ([], [])
    | none =>
      if !first && decide (r.trigger ≠ 4) then ([], [])
      else if !first && group.isNone then
        let rest := readPrime m sec used sect false none n (offset + r.length)
        (rest.1, badCueRecord .badWith sect 0 offset (some r.id) :: rest.2)
      else
        match checkCueBody m r offset sec used { group := group, previousAt := none } with
        | .error e =>
          let rest := readPrime m sec used sect false group n (offset + r.length)
          (rest.1, badCueRecord e sect 0 offset (some r.id) :: rest.2)
        | .ok cue =>
          let rest := readPrime m sec used sect false (some (group.getD 0 ||| cue.mask)) n (offset + r.length)
          (cue :: rest.1, rest.2)

/-- The prime group shown on its lanes: not a fire (R84). -/
def Part.prime (p : Part) (s : Nat) (place : ListPlace) : Part × Option Half :=
  let read := readPrime p.mem (p.seq.sectionAt s) p.seq.usedLength s true none place.left place.offset
  let p := p.appendAll read.2
  let handed := p.handAll (read.1.map fun c => (c, none))
  let p := handed.1.appendAll (handed.2.map fun x => firedRecord .primed x.1 s x.2 0 none none)
  (p, read.1.head?.map Cue.id)

/-- The clock armed at a section and count (R32). -/
def Clock.arm (c : Clock) (sec : SectionRec) (count : Nat) : Clock :=
  match sec.kind with
  | .pulsed => c.armed sec.hint count
  | .called => { c.untracked c.showTime with period := c.profile.clampPeriod c.period }
  | .timed =>
    { c.untracked ((c.showTime : Int) - (count * 10000 : Nat)) with period := c.profile.clampPeriod c.period }

/-- ARM's steps 1 to 8 (R83), which JUMP takes too (R85), and the evaluation that follows; with the first cue id of the prime
group shown. -/
def Part.armAt (p : Part) (s count : Nat) (prime : Bool) (how : HowEntered) (from_ : Option Nat) : Part × Option Half :=
  let start := startPoint p.mem (p.seq.sectionAt s) count
  let q := { p.seq with
    history := [], vampExit := false, lastFire := none, deferAt := none, pass := 0, current := some s, entryRun := 1,
    lastEntryAt := some p.now }
  let q := { q with
    heldNext := some q.resolve
    cursor := .reading 0 s start.1.offset start.1.index start.1.left false }
  let p := Part.refill { p with seq := q }
  let primed := match prime, start.2 with
    | true, some place => p.prime s place
    | _, _ => (p, none)
  let p := primed.1
  let left := p.clock.state
  let p := { p with
    clock := p.clock.arm (p.seq.sectionAt s) count
    seq := { p.seq with state := .running } }
  let p := ((p.reportClock left .arm).setNotice .section_).append (sectionRecord how from_ s 0)
  (p.recompute.settle, primed.2)

/-- The window flushed: every entry removed and reported, with no record (R85). -/
def Part.flush (p : Part) : Part :=
  let old := p.seq.window
  let p := { p with seq := { p.seq with window := [], deferAt := none } }
  p.reportRemoved old

/-- A lane cleared for JUMP or STOP (R109). -/
def Part.clearLane (cause : ClearedCause) (p : Part) (i : LaneIx) : Part :=
  let before := (p.lane i).shadow
  let p := p.modLane i fun l =>
    let l := l.writeShadow (blankShadow p.now)
    if l.up && !l.blanked then l.queueClear else l
  if before.text.isSome then p.append (clearedRecord cause i before.cue) else p

/-- Every lane cleared in lane order, unless keep is set (R109). -/
def Part.clearLanes (p : Part) (keep : Bool) (cause : ClearedCause) : Part :=
  if keep then p else allLanes.foldl (Part.clearLane cause) p

/-- JUMP (R85). -/
def Part.jump (p : Part) (s count : Nat) (keep prime : Bool) : Part × Option Half :=
  let from_ := p.seq.current
  let p := p.flush
  let p := { p with seq := { p.seq with history := [] } }
  (p.clearLanes keep .jump).armAt s count prime .jump from_

/-- The sequencer with no act: window, history, F, vamp exit, current and next section gone (R86, R87). -/
def Sequencer.rest (q : Sequencer) : Sequencer :=
  { q with
    state := .loaded, window := [], history := [], lastFire := none, vampExit := false, current := none, heldNext := none,
    cursor := .finished, deferAt := none }

/-- STOP (R86). -/
def Part.stopAct (p : Part) (keep : Bool) : Part :=
  let p := p.flush
  let p := p.clearLanes keep .stop
  let left := p.clock.state
  let p := { p with clock := p.clock.stopped, seq := p.seq.rest }
  p.reportClock left .stop

/-- The sequencer at a halt (R62, R87, R17). -/
def Sequencer.halt (q : Sequencer) : Sequencer :=
  match q.state with
  | .running | .ended => { q.rest with pass := 0 }
  | .loading => { q with state := .empty, book := none, lastError := LoadError.none }
  | .empty | .loaded => q

/-! ### Max dwell (R108) -/

/-- The max dwell expiry of a lane, once it has come (R108). -/
def Part.maxDwellExpiry (p : Part) (i : LaneIx) : Part :=
  match (p.lane i).maxDwellAt with
  | none => p
  | some t =>
    if t ≤ p.now then
      let cue := (p.lane i).shadow.cue
      let p := p.modLane i fun l =>
        let l := l.writeShadow (blankShadow t)
        if l.up && !l.blanked then l.queueClear else l
      (p.append (clearedRecord .maxDwell i cue)).settle
    else p

end Sys2Proof.Machine
end

