-- ==== Sys2Proof/Machine/ClockOps.lean ====
section
/-! DEFINITION. The clock unit's events (chapter 2): the beat filters, the pulse in each clock state, late detection, the section
timer, HOLD, and a new profile on a running clock. -/

namespace Sys2Proof.Machine

open Sys2Proof (BeatInput)

/-! ### The beat filters (R24) -/

/-- The filter of a beat input. -/
def Clock.filter (c : Clock) : BeatInput → BeatFilter
  | .a => c.filterA
  | .b => c.filterB

/-- The clock with a beat input's filter set. -/
def Clock.setFilter (c : Clock) (i : BeatInput) (f : BeatFilter) : Clock :=
  match i with
  | .a => { c with filterA := f }
  | .b => { c with filterB := f }

/-- A leading edge of a beat input: an idle filter captures show time (R24). -/
def Part.beatEdge (p : Part) (i : BeatInput) : Part :=
  match p.clock.filter i with
  | .idle => { p with clock := p.clock.setFilter i (.confirming p.now) }
  | .confirming _ | .waiting => p

/-- A beat input released: an edge being confirmed is discarded, a filter that waited is idle again (R24). A release taken before the
pulse discards the edge at the very end of the 2 ms too (log entry 33). -/
def Part.beatRelease (p : Part) (i : BeatInput) : Part := { p with clock := p.clock.setFilter i .idle }

/-- Whether the input mode lets an input's pulses go on (R25). -/
def selected : InputMode → BeatInput → Bool
  | .a, .a | .b, .b | .merge, _ => true
  | .a, .b | .b, .a => false

/-- Whether a pulse is a bounce of the last real pulse (R26). -/
def Clock.bounce (c : Clock) (t : Nat) : Bool :=
  c.lastPulse.any fun last => decide (t < last + c.profile.pulseMin * 1000)

/-! ### Intervals (R34, R36) -/

/-- What an interval says of the tempo: over-long, or its length and its deviation D from P in ‰. -/
inductive Interval where
  | overlong
  | measured (length deviation : Nat)
  deriving DecidableEq, Repr

/-- The deviation D of an interval from the period (2.7). -/
def deviation (length period : Nat) : Nat := ((length : Int) - (period : Int)).natAbs * 1000 / period

/-- The interval from the last real pulse to a pulse at a time (R34, R36). An absent last real pulse counts as over-long; no
reachable state in LOCKING or FOLLOWING has one (log entry 20). -/
def Clock.interval (c : Clock) (t : Nat) : Interval :=
  match c.lastPulse with
  | none => .overlong
  | some last =>
    if c.profile.pulseMax * 1000 < t - last then .overlong
    else .measured (t - last) (deviation (t - last) c.period)

/-- The tempo filter of FOLLOWING (R36). -/
def smooth (wt length period : Nat) : Nat := (wt * length + (65536 - wt) * period + 32768) / 65536

/-- The clock after a pulse in LOCKING, before its count (R34), and the cause of a state change. -/
def Clock.pulseLocking (c : Clock) (t : Nat) : Clock × ClockCause :=
  match c.interval t with
  | .overlong => ({ c with run := 0, lastPulse := some t }, .pulse)
  | .measured length d =>
    let run := if d ≤ c.profile.lockIn then c.run + 1 else 0
    ({ c with
        run := run, period := length, lastPulse := some t
        state := if c.profile.lockRun ≤ run then .following else .locking }, .lock)

/-- The clock after a pulse in FOLLOWING, before its count (R36), and the cause of a state change. -/
def Clock.pulseFollowing (c : Clock) (t : Nat) : Clock × ClockCause :=
  match c.interval t with
  | .overlong => ({ c with state := .locking, run := 0, lastPulse := some t }, .overlong)
  | .measured length d =>
    if c.profile.lockOut < d then
      ({ c with state := .locking, run := 0, period := length, lastPulse := some t }, .deviation)
    else ({ c with period := smooth c.profile.wt length c.period, lastPulse := some t }, .pulse)

/-! ### Count events (R30) -/

/-- A count event at a time (R30): the next count, or the section end. The event's other effects on the clock are already made;
`left` is the clock state before the event. -/
def Part.advance (p : Part) (t : Nat) (origin : CountOrigin) (left : ClockState) (own : ClockCause) : Part :=
  if p.clock.c0 + 1 < p.seq.currentRec.length then
    let p := { p with clock := { p.clock with c0 := p.clock.c0 + 1, t0 := t } }
    ((p.reportCount origin p.seq.current).reportClock left own).recompute
  else p.endSection (.count t origin) left own

/-- A count reported whose c0 stands: the first pulse in ARMED (R33) and a retimed count (R39). -/
def Part.standingCount (p : Part) (origin : CountOrigin) (left : ClockState) : Part :=
  ((p.reportCount origin p.seq.current).reportClock left .pulse).recompute

/-- The part with its clock replaced. -/
def Part.setClock (p : Part) (c : Clock) : Part := { p with clock := c }

/-- An accepted pulse by the clock state (R26, R33, R34, R36, R39, R40). -/
def Part.acceptPulse (p : Part) (t : Nat) : Part :=
  let c := p.clock
  match c.state with
  | .stopped | .untracked => p
  | .armed => (p.setClock { c with t0 := t, state := .locking, run := 0, lastPulse := some t }).standingCount .pulse .armed
  | .locking => (p.setClock (c.pulseLocking t).1).advance t .pulse .locking (c.pulseLocking t).2
  | .following => (p.setClock (c.pulseFollowing t).1).advance t .pulse .following (c.pulseFollowing t).2
  | .coasting =>
    let back := { c with state := .following, coast := 0, lastPulse := some t }
    if (t : Int) - (c.t0 : Int) < ((c.period / 2 : Nat) : Int) then
      (p.setClock { back with t0 := t }).standingCount .retime .coasting
    else (p.setClock back).advance t .pulse .coasting .pulse
  | .held =>
    (p.setClock { c with state := .locking, run := 0, fh := 0, lastPulse := some t }).advance t .pulse .held .pulse

/-- A pulse that passed input selection: a bounce is ignored, any other is accepted (R26). -/
def Part.takePulse (p : Part) (t : Nat) : Part := if p.clock.bounce t then p else (p.acceptPulse t).settle

/-- The end of a beat edge's 2 ms confirmation, once it has come: the pulse goes through input selection (R24, R25). -/
def Part.pulse (p : Part) (i : BeatInput) : Part :=
  match p.clock.filter i with
  | .confirming t =>
    if t + Config.beatConfirm ≤ p.now then
      let p := { p with clock := p.clock.setFilter i .waiting }
      if selected p.clock.profile.inputMode i then p.takePulse t else p
    else p
  | .idle | .waiting => p

/-! ### Late detection, the section timer and HOLD -/

/-- The clock put into HELD at a fraction (R29, R37, R41). -/
def Clock.hold (c : Clock) (fh : Nat) : Clock := { c with state := .held, fh := fh, coast := 0 }

/-- Whether late detection synthesizes a count: FOLLOWING or COASTING with the coast count below the limit (R37). -/
def Clock.coasts (c : Clock) : Bool :=
  match c.state with
  | .following | .coasting => decide (c.coast < c.profile.coastLimit)
  | .stopped | .armed | .locking | .held | .untracked => false

/-- The late detection expiry, once it has come (R37). Into HELD it leaves a head group whose due time it takes away WAITING for GO
(R55; log entry 31). -/
def Part.lateDetection (p : Part) : Part :=
  if p.clock.lateAt.any fun t => decide (t ≤ p.now) then
    let c := p.clock
    if c.coasts then
      ((p.setClock { c with state := .coasting, coast := c.coast + 1 }).advance (c.t0 + c.period) .synth c.state .late).settle
    else (((p.setClock (c.hold 63)).reportClock c.state .late).recompute).dropAbsent.settle
  else p

/-- The section timer of a TIMED section, once it has come (R42). -/
def Part.sectionTimer (p : Part) : Part :=
  match p.sectionTimerAt with
  | some t => if t ≤ (p.now : Int) then (p.endSection (.timer t) p.clock.state .section_).settle else p
  | none => p

/-- HOLD (R41). -/
def Part.hold (p : Part) : Part × KeyOutcome :=
  match p.clock.state with
  | .locking | .following | .coasting =>
    ((((p.setClock (p.clock.hold p.clock.fraction)).reportClock p.clock.state .hold).recompute).settle, .held)
  | .stopped | .armed | .held | .untracked => (p, .ignored)

/-! ### A new profile (R28) -/

/-- A profile put in force: P clamped unless the clock is STOPPED, due times taken anew where P or the horizon changed (R28, R56). -/
def Part.applyProfile (p : Part) (f : Profile) : Part :=
  let c := p.clock
  let period := if c.state = .stopped then c.period else f.clampPeriod c.period
  let q := p.setClock { c with profile := f, period := period }
  if period = c.period ∧ f.horizon = c.profile.horizon then q else q.recompute.settle

end Sys2Proof.Machine
end

