-- ==== Sys2Proof/Machine/Console.lean ====
section
/-! DEFINITION. The console (chapter 7): the key filters and the presses of GO, BACK, HOLD and BLANK. -/

namespace Sys2Proof.Machine

open Sys2Proof (Key LaneIx)

/-! ### Key filters (R140) -/

/-- The part with a key's filter set. -/
def Part.setKeyFilter (p : Part) (k : Key) (f : KeyFilter) : Part :=
  { p with console := { p.console with filters := p.console.filters.set k f } }

/-- The part with a key input at a level. -/
def Part.setKeyLevel (p : Part) (k : Key) (asserted : Bool) : Part :=
  { p with console := { p.console with levels := p.console.levels.set k asserted } }

/-- A key's filter after its input becomes asserted (R140); at the very end of a release's 10 ms, taken before the release is confirmed,
it is held again (log entry 33). -/
def KeyFilter.asserted (f : KeyFilter) (now : Nat) : KeyFilter :=
  match f with
  | .idle => .confirmingPress now
  | .confirmingRelease _ => .held
  | .confirmingPress t => .confirmingPress t
  | .held => .held

/-- A key's filter after its input is released (R140); at the very end of a press's 10 ms, taken before the press, it is idle again
(log entry 33). -/
def KeyFilter.released (f : KeyFilter) (now : Nat) : KeyFilter :=
  match f with
  | .confirmingPress _ => .idle
  | .held => .confirmingRelease now
  | .idle => .idle
  | .confirmingRelease t => .confirmingRelease t

/-- A key input asserted: its level, and its filter while the inputs are watched (R140). -/
def Part.keyAsserted (p : Part) (k : Key) : Part :=
  let q := p.setKeyLevel k true
  if p.enabled then q.setKeyFilter k ((p.console.filters.get k).asserted p.now) else q

/-- A key input released: its level, and its filter while the inputs are watched (R140). -/
def Part.keyReleased (p : Part) (k : Key) : Part :=
  let q := p.setKeyLevel k false
  if p.enabled then q.setKeyFilter k ((p.console.filters.get k).released p.now) else q

/-- The end of a release's 10 ms confirmation, once it has come (R140). -/
def Part.keyReleaseConfirmed (p : Part) (k : Key) : Part :=
  match p.console.filters.get k with
  | .confirmingRelease t => if t + Config.keyConfirm ≤ p.now then p.setKeyFilter k .idle else p
  | .idle | .confirmingPress _ | .held => p

/-- Whether the 10 ms confirmation of a key's press has come to its end (R140). -/
def Part.pressReady (p : Part) (k : Key) : Bool :=
  match p.console.filters.get k with
  | .confirmingPress t => decide (t + Config.keyConfirm ≤ p.now)
  | .idle | .held | .confirmingRelease _ => false

/-! ### Presses (R141 to R147) -/

/-- The KEY record of a press, after every record its action caused (R141). -/
def Part.reportKey (p : Part) (k : Key) (source : KeySource) (outcome : KeyOutcome) (cue : Option Half) : Part :=
  p.append (keyRecord k source outcome cue)

/-- Whether a GO key press falls in the lockout (R142). -/
def Part.inLockout (p : Part) : Bool :=
  p.console.lastGo.any fun t => decide (p.now - t < p.clock.profile.goLockout * 1000)

/-- A GO key press (R142, R143). -/
def Part.pressGo (p : Part) : Part :=
  if p.inLockout then p.reportKey .go .console .ignored none
  else
    let done := Part.go { p with console := { p.console with lastGo := some p.now } }
    done.1.reportKey .go .console done.2.1 done.2.2

/-- A BACK key press (R145). -/
def Part.pressBack (p : Part) : Part :=
  let done := p.back
  done.1.reportKey .back .console done.2.1 done.2.2

/-- A HOLD key press (R146). -/
def Part.pressHold (p : Part) : Part :=
  let done := p.hold
  done.1.reportKey .hold .console done.2 none

/-- The enabled lanes in lane order (R147). -/
def Part.enabledLanes (p : Part) : List LaneIx := allLanes.filter fun i => (p.lane i).cfg.enable

/-- Lanes blanked in lane order (R94). -/
def Part.blankLanes (p : Part) (lanes : List LaneIx) : Part := lanes.foldl (fun p i => p.modLane i Lane.blank) p

/-- Lanes unblanked in lane order (R95). -/
def Part.unblankLanes (p : Part) (lanes : List LaneIx) : Part :=
  lanes.foldl (fun p i => p.modLane i fun l => l.unblank p.seq.window) p

/-- A BLANK key press (R147). That a head group whose E falls as lanes are blanked is evaluated once, after the last lane, is the model's
choice (log entry 36). -/
def Part.pressBlank (p : Part) : Part :=
  let lanes := p.enabledLanes
  if lanes.isEmpty then p.reportKey .blank .console .nothing none
  else if lanes.any fun i => !(p.lane i).blanked then
    (p.blankLanes lanes).settle.reportKey .blank .console .blanked none
  else (p.unblankLanes lanes).settle.reportKey .blank .console .unblanked none

/-- A press produced where its confirmation has ended: the filter is held and the press is taken (R140, R141). -/
def Part.takePress (p : Part) (k : Key) (press : Part → Part) : Part :=
  if p.pressReady k then press (p.setKeyFilter k .held) else p

/-- A REMOTE_KEY press: no filter and no lockout (R148), with its outcome and cue id. -/
def Part.remotePress (p : Part) (k : Key) (act : Part → Part × KeyOutcome × Option Half) :
    Part × KeyOutcome × Option Half :=
  let done := act p
  (done.1.reportKey k .remote done.2.1 done.2.2, done.2.1, done.2.2)

/-! ### Start-up and halt of the console (R140, R142) -/

/-- The filter a start-up begins a key with (R140). -/
def startFilter (asserted : Bool) : KeyFilter := if asserted then .held else .idle

/-- The console at a start-up (R140, R142). -/
def Console.startUp (c : Console) : Console :=
  { c with
    lastGo := none
    filters :=
      { go := startFilter c.levels.go, back := startFilter c.levels.back, hold := startFilter c.levels.hold,
        blank := startFilter c.levels.blank } }

/-- The console at a halt (R140, R142). -/
def Console.halt (c : Console) : Console :=
  { c with lastGo := none, filters := { go := .idle, back := .idle, hold := .idle, blank := .idle } }

end Sys2Proof.Machine
end

