-- ==== Sys2Proof/Machine/Operands.lean ====
section
/-! DEFINITION. The operands of requests: the slot layout (11.3), the clamps and moved marks of SET_PROFILE (R27, R161) and SET_LANE
(R89, R163), and the request a slot's words spell (8.4). -/

namespace Sys2Proof.Machine

open Sys2Proof (SlotIx ProfileArgs LaneArgs ReplaceArgs Instr)

/-! ### Clamps -/

/-- A value moved to the nearer end of a range (R27, R89). -/
def clampTo (low high v : Nat) : Nat := max low (min high v)

/-- The mark of a parameter: bit `k` where the value was moved (11.3). -/
def mark (k : Nat) (moved : Bool) : Nat := if moved then 2 ^ k else 0

/-- A yes-or-no argument taken as yes for any value but 0 (R155). -/
def yesOf (v : Nat) : Bool := decide (v ≠ 0)

/-- Whether a yes-or-no argument counts as a clamp (R155). -/
def yesMoved (v : Nat) : Bool := decide (1 < v)

/-- The input mode a code names; any other code is A (R27). -/
def inputModeOf (v : Nat) : InputMode :=
  match v with
  | 1 => .b
  | 2 => .merge
  | _ => .a

/-- pulse_max after its own range, and then after the cross rule (R27). -/
def crossMax (low high : Nat) : Nat := if high ≤ low then 2 * low else high

/-- SET_PROFILE's values clamped (R27): the profile, the count-record option and the moved marks (11.3). -/
def clampProfile (a : ProfileArgs) : Profile × Bool × Nat :=
  let low := clampTo 60 1000 a.pulseMin.toNat
  let high := clampTo 1000 6000 a.pulseMax.toNat
  let lockIn := clampTo 10 500 a.lockIn.toNat
  let f : Profile :=
    { inputMode := inputModeOf a.inputMode.toNat, pulseMin := low, pulseMax := crossMax low high
      wt := clampTo 1 65536 a.wt.toNat, lockIn := lockIn, lockOut := clampTo lockIn 900 a.lockOut.toNat
      lockRun := clampTo 1 8 a.lockRun.toNat, lateMargin := clampTo 100 900 a.lateMargin.toNat
      coastLimit := clampTo 0 8 a.coastLimit.toNat, horizon := clampTo 1 16 a.horizon.toNat
      goLockout := clampTo 0 2000 a.goLockout.toNat }
  let marks :=
    mark 0 (decide (2 < a.inputMode.toNat)) + mark 1 (decide (low ≠ a.pulseMin.toNat)) +
    mark 2 (decide (high ≠ a.pulseMax.toNat)) + mark 3 (decide (f.wt ≠ a.wt.toNat)) +
    mark 4 (decide (lockIn ≠ a.lockIn.toNat)) + mark 5 (decide (900 < a.lockOut.toNat)) +
    mark 6 (decide (f.lockRun ≠ a.lockRun.toNat)) + mark 7 (decide (f.lateMargin ≠ a.lateMargin.toNat)) +
    mark 8 (decide (f.coastLimit ≠ a.coastLimit.toNat)) + mark 9 (decide (f.horizon ≠ a.horizon.toNat)) +
    mark 10 (decide (f.goLockout ≠ a.goLockout.toNat)) + mark 11 (yesMoved a.countRecords.toNat) +
    mark 12 (decide (high ≤ low)) + mark 13 (decide (a.lockOut.toNat < lockIn))
  (f, yesOf a.countRecords.toNat, marks)

/-- The baud a code names; any other code is 500k (R89, 11.3). -/
def baudOf (v : Nat) : Baud :=
  match v with
  | 0 => .b250k
  | 1 => .b500k
  | 2 => .b1m
  | 3 => .b2m
  | _ => .b500k

/-- The retry policy a code names; any other code is RESEND_ONCE (R89, 11.3). -/
def retryOf (v : Nat) : Retry :=
  match v with
  | 0 => .oneTry
  | _ => .resendOnce

/-- SET_LANE's fields clamped (R89, R155): the configuration and the moved marks (11.3). -/
def clampLane (a : LaneArgs) : LaneConfig × Nat :=
  let c : LaneConfig :=
    { enable := yesOf a.enable.toNat, baud := baudOf a.baud.toNat, language := a.language
      depth := clampTo 1 2 a.depth.toNat, retry := retryOf a.retry.toNat, faultLimit := clampTo 1 15 a.faultLimit.toNat
      ackTimeout := clampTo 5 250 a.ackTimeout.toNat, silenceTimeout := clampTo 50 2000 a.silenceTimeout.toNat }
  (c,
    mark 0 (yesMoved a.enable.toNat) + mark 1 (decide (3 < a.baud.toNat)) + mark 3 (decide (c.depth ≠ a.depth.toNat)) +
    mark 4 (decide (1 < a.retry.toNat)) + mark 5 (decide (c.faultLimit ≠ a.faultLimit.toNat)) +
    mark 6 (decide (c.ackTimeout ≠ a.ackTimeout.toNat)) + mark 7 (decide (c.silenceTimeout ≠ a.silenceTimeout.toNat)))

/-! ### Slots (11.3) -/

/-- Where a slot lies in book memory (11.1). -/
def slotAt (n : SlotIx) : Nat := Config.slotsAt + 64 * n.val

/-- A slot's owner word. -/
def Memory.owner (m : Memory) (n : SlotIx) : Nat := m.word (slotAt n)

/-- A slot's tag. -/
def Memory.tag (m : Memory) (n : SlotIx) : Half := BitVec.ofNat 16 (m.number (slotAt n + 6) 2)

/-- Argument word `k` of a slot. -/
def Memory.arg (m : Memory) (n : SlotIx) (k : Nat) : Word := BitVec.ofNat 32 (m.word (slotAt n + 8 + 4 * k))

/-- Byte `b` of an argument word. -/
def byteOf (w : Word) (b : Nat) : Byte := w.extractLsb' (8 * b) 8

/-- Half `h` of an argument word. -/
def halfOf (w : Word) (h : Nat) : Half := w.extractLsb' (16 * h) 16

/-- SET_PROFILE's values in a slot's argument words (11.3). -/
def Memory.profileArgs (m : Memory) (n : SlotIx) : ProfileArgs :=
  let w := m.arg n
  { inputMode := byteOf (w 0) 0, countRecords := byteOf (w 0) 1, lockRun := byteOf (w 0) 2, coastLimit := byteOf (w 0) 3
    pulseMin := halfOf (w 1) 0, pulseMax := halfOf (w 1) 1, wt := w 2, lockIn := halfOf (w 3) 0, lockOut := halfOf (w 3) 1
    lateMargin := halfOf (w 4) 0, horizon := halfOf (w 4) 1, goLockout := halfOf (w 5) 0 }

/-- SET_LANE's fields in a slot's argument words (11.3). -/
def Memory.laneArgs (m : Memory) (n : SlotIx) : LaneArgs :=
  let w := m.arg n
  { enable := byteOf (w 1) 0, baud := byteOf (w 1) 1, depth := byteOf (w 1) 2, retry := byteOf (w 1) 3
    language := halfOf (w 2) 0, faultLimit := byteOf (w 2) 2, ackTimeout := halfOf (w 3) 0, silenceTimeout := halfOf (w 3) 1 }

/-- REPLACE_SECTION's arguments in a slot's words (11.3). -/
def Memory.replaceArgs (m : Memory) (n : SlotIx) : ReplaceArgs :=
  let w := m.arg n
  { section_ := w 0, firstCue := w 1, cueCount := w 2, length := w 3, hint := w 4, successorCode := w 5,
    successorTarget := w 6 }

/-- The request a slot holds, by its kind code (8.4, 11.3); a code that names none is UNKNOWN (R155). -/
def Memory.requestIn (m : Memory) (n : SlotIx) : Instr :=
  let w := m.arg n
  let t := m.tag n
  match (m.byte (slotAt n + 4)).toNat with
  | 1 => .loadBook n t
  | 2 => .replaceSection n t (m.replaceArgs n)
  | 3 => .arm n t (w 0) (w 1) (w 2)
  | 4 => .jump n t (w 0) (w 1) (w 2) (w 3)
  | 5 => .stop n t (w 0)
  | 6 => .setCut n t (w 0) (w 1)
  | 7 => .clearCut n t (w 0)
  | 8 => .vampExit n t
  | 9 => .setProfile n t (m.profileArgs n)
  | 10 => .setLane n t (w 0) (m.laneArgs n)
  | 11 => .clearFault n t (w 0)
  | 12 => .blank n t (w 0)
  | 13 => .unblank n t (w 0)
  | 14 => .remoteKey n t (w 0)
  | 15 => .setJournal n t (w 0) (w 1)
  | 16 => .note n t (w 0) (w 1) (w 2) (w 3)
  | _ => .unknown n t (m.byte (slotAt n + 4))

end Sys2Proof.Machine
end

