-- ==== Sys2Proof/Machine/Requests.lean ====
section
/-! DEFINITION. How an event ends (the lanes' second look, the status updates, the outputs), the request unit's protocol (chapter
8): scans, the take, the completion, the two long requests, and what a halt and a reset do to slots. -/

namespace Sys2Proof.Machine

open Sys2Proof (LaneIx SlotIx Instr ReplaceArgs)

/-! ### The end of an event -/

/-- What an event hands on: each lane looks again at what to stage, and each block whose status words changed writes them (R98,
R182; log entry 7). -/
def Part.effects (before p : Part) : Part := Part.statusUpdates before p.lookAgain

/-- The end of an event: what it hands on, then the notice line and the lamps (R149, R180). -/
def Part.finish (before p : Part) : Part := (Part.effects before p).outputs

/-- A command that is an event of the running part: no block has an event while ENABLE is 0 (R183). -/
def State.event (s : State) (f : Part → Part) : Host.Outcome State Fault Refusal :=
  .next { s with part := if s.part.enabled then Part.finish s.part (f s.part) else s.part }

/-- A command that acts whatever ENABLE holds: a register access, a reset, the level of an input. -/
def State.access (s : State) (f : Part → Part) : Host.Outcome State Fault Refusal :=
  .next { s with part := (f s.part).outputs }

/-! ### Scans (R151) -/

/-- A scan asked for: one begins at slot 0 where the unit is idle, else rescan pending is set (R151). -/
def RequestUnit.ask (u : RequestUnit) : RequestUnit :=
  match u.scan with
  | .idle => { u with scan := .scanning 0 }
  | .scanning _ | .executing _ _ _ => { u with rescan := true }

/-- A scan asked for (R151). -/
def Part.askScan (p : Part) : Part := { p with requests := p.requests.ask }

/-- The scan period expiry, once it has come: the next falls due 5 ms on, and a scan is asked for (R151). -/
def Part.scanPeriod (p : Part) : Part :=
  match p.requests.periodAt with
  | none => p
  | some t =>
    if t ≤ p.now then Part.askScan { p with requests := { p.requests with periodAt := some (t + Config.scanPeriod) } } else p

/-- The unit after slot 31: a new scan where one was asked for, else idle (R151). -/
def RequestUnit.endScan (u : RequestUnit) : RequestUnit :=
  if u.rescan then { u with scan := .scanning 0, rescan := false } else { u with scan := .idle }

/-! ### The take and the completion (R152, R154) -/

/-- Whether the request unit can take the request of a slot: it runs, it executes none, and the slot's owner reads SUBMITTED
(R150, R152, R153). -/
def Part.takes (p : Part) (n : SlotIx) : Bool :=
  p.enabled && decide (p.mem.owner n = ownerSubmitted) &&
    match p.requests.scan with
    | .idle | .scanning _ => true
    | .executing _ _ _ => false

/-- TAKEN written to a slot's owner (R152). -/
def Part.takeSlot (p : Part) (n : SlotIx) : Part := { p with mem := p.mem.setWord (slotAt n) ownerTaken }

/-- The four detail words of a slot; the words a request does not use are 0 (R154). -/
def detailWords (n : SlotIx) (d : List Nat) : List (Nat × Nat) :=
  (List.range 4).map fun k => (slotAt n + 0x30 + 4 * k, d.getD k 0)

/-- A slot answered: the result and the tag beside the kind byte as it stands, the detail, then DONE (R154, R188). -/
def Memory.answer (m : Memory) (n : SlotIx) (tag : Half) (r : Result) (d : List Nat) : Memory :=
  let m := (m.setByte (slotAt n + 5) (BitVec.ofNat 8 r.code)).setBytes (slotAt n + 6) (leBytes 2 tag.toNat)
  (m.setWords (detailWords n d)).setWord (slotAt n) ownerDone

/-- A slot answered and SLOT set (R154). -/
def Part.answer (p : Part) (n : SlotIx) (tag : Half) (r : Result) (d : List Nat) : Part :=
  { p with mem := p.mem.answer n tag r d }.setNotice .slot

/-- A request's completion: its records and status updates written whole, then the slot, then the outputs (R154, R182). -/
def Part.complete (before p : Part) (n : SlotIx) (tag : Half) (r : Result) (d : List Nat) : Part :=
  ((Part.effects before p).finishUpdate.answer n tag r d).outputs

/-- A request executed in the event that takes it (R153): `act` gives the part after it, the result and the detail. The unit
takes none while it executes one, and none from a slot that is not SUBMITTED (R150; log entry 6). -/
def State.request (s : State) (n : SlotIx) (tag : Half) (act : Part → Part × Result × List Nat) :
    Host.Outcome State Fault Refusal :=
  .next { s with part :=
    if s.part.takes n then
      let done := act (s.part.takeSlot n)
      Part.complete s.part done.1 n tag done.2.1 done.2.2
    else s.part }

/-- A long request taken: refused at once with a result and detail, or its walk begun (R153). -/
def State.longRequest (s : State) (n : SlotIx) (tag : Half) (job : LongJob) (refusal : Part → Option (Result × List Nat))
    (begin_ : Part → Part) : Host.Outcome State Fault Refusal :=
  .next { s with part :=
    if s.part.takes n then
      let p := s.part.takeSlot n
      match refusal s.part with
      | some r => Part.complete s.part p n tag r.1 r.2
      | none =>
        let p := begin_ p
        Part.finish s.part { p with requests := { p.requests with scan := .executing n tag job, replaceUsed := false } }
    else s.part }

/-- The request unit going on with the next slot after a long request (R152). -/
def Part.scanOn (p : Part) (n : SlotIx) : Part :=
  { p with requests := { p.requests with scan := .scanning (n.val + 1) } }

/-! ### LOAD_BOOK (R13, R16) -/

/-- The sequencer emptied for a load (R13, R53). -/
def Sequencer.loading (q : Sequencer) : Sequencer :=
  { q with
    state := .loading, book := none, window := [], history := [], cuts := Vector.replicate 128 none, vampExit := false,
    lastFire := none, current := none, heldNext := none, cursor := .finished, deferAt := none }

/-- The part at the take of a LOAD_BOOK (R13). -/
def Part.beginLoad (p : Part) : Part :=
  let p := p.flush
  { p with seq := p.seq.loading }

/-- The walk's end (R16): the part with its BOOK record, the result and the detail. -/
def Part.endLoad (p : Part) : Part × Result × List Nat :=
  match walkBook p.mem with
  | .ok book =>
    let q := { p.seq with state := .loaded, book := some book, lastError := LoadError.none }
    (Part.append { p with seq := q } (bookRecord 1 .ok .none (some book.sections.length) none), .ok,
      [LoadCode.none.code, book.sections.length, optWord none])
  | .error e =>
    let q := { p.seq with state := .empty, book := none, lastError := e }
    (Part.append { p with seq := q } (bookRecord 1 .bookError e.code e.sect e.offset), .bookError,
      [e.code.code, optWord e.sect, optWord e.offset])

/-! ### REPLACE_SECTION (R20, R21) -/

/-- A loaded section table entry replaced (R21). -/
def Sequencer.replaceSection (q : Sequencer) (s : Nat) (sec : SectionRec) : Sequencer :=
  { q with book := q.book.map fun b => { b with sections := b.sections.set s sec } }

/-- The refusals of a REPLACE_SECTION at its take (R156, R155). -/
def Part.replaceRefusal (p : Part) (a : ReplaceArgs) : Option (Result × List Nat) :=
  let s := a.section_.toNat
  if ¬ (p.seq.state = .loaded ∨ p.seq.state = .running ∨ p.seq.state = .ended) then some (.state, [])
  else if p.seq.sectionCount ≤ s then some (.badArg, [])
  else if p.seq.inUse s then some (.inUse, [LoadCode.none.code, s, optWord none])
  else none

/-- The part with its last load error and a REPLACE_SECTION's BOOK record (R21). -/
def Part.reportReplace (p : Part) (s : Nat) (result : Result) (e : LoadError) : Part :=
  Part.append { p with seq := { p.seq with lastError := e } } (bookRecord 2 result e.code (some s) e.offset)

/-- The walk's end (R21): the part with its BOOK record, the result and the detail. IN_USE where the sequencer is RUNNING now and
the section is in use or came into use while the walk ran; an act that has ended meanwhile leaves OK or BOOK_ERROR (log entry 34). -/
def Part.endReplace (p : Part) (a : ReplaceArgs) : Part × Result × List Nat :=
  let s := a.section_.toNat
  if (decide (p.seq.state = .running) && p.requests.replaceUsed) || p.seq.inUse s then
    (p.reportReplace s .inUse LoadError.none, .inUse, [LoadCode.none.code, s, optWord none])
  else
    match walkReplace p.mem (p.seq.sectionAt s) p.seq.sectionCount p.seq.usedLength a with
    | .error e =>
      (p.reportReplace s .bookError { code := e.1, sect := some s, offset := e.2 }, .bookError,
        [e.1.code, s, optWord e.2])
    | .ok sec =>
      let p := { p with seq := p.seq.replaceSection s sec }
      (p.reportReplace s .ok LoadError.none, .ok, [LoadCode.none.code, s, optWord none])

/-! ### Halt and reset (R167) -/

/-- The long request being executed abandoned at a halt: ABORTED, detail 0, its tag, DONE and SLOT (R156, R167). -/
def Part.abortLong (p : Part) : Part :=
  match p.requests.scan with
  | .executing n tag _ => p.answer n tag .aborted []
  | .idle | .scanning _ => p

/-- The slots in order. -/
def allSlots : List SlotIx := List.finRange 32

/-- Every slot found TAKEN answered ABORTED with its tag as found (R167). -/
def Memory.abortTaken (m : Memory) : Memory :=
  allSlots.foldl (fun m n => if m.owner n = ownerTaken then m.answer n (m.tag n) .aborted [] else m) m

/-- Book memory after a soft reset: the request being executed and every other TAKEN slot answered ABORTED (R167, R185). That the slot
being executed is answered whatever its owner reads, with the tag held since the take, is the model's choice (log entry 39). -/
def Part.resetMemory (p : Part) : Memory :=
  match p.requests.scan with
  | .executing n tag _ => (p.mem.answer n tag .aborted []).abortTaken
  | .idle | .scanning _ => p.mem.abortTaken

end Sys2Proof.Machine
end

