-- ==== Sys2Proof/Machine/ClockCommands.lean ====
section
/-! DEFINITION. The meanings of the beat inputs' events and the clock unit's expiries (chapter 2). -/

namespace Sys2Proof.Machine

open Sys2Proof (BeatInput)

/-- BEAT_INPUT_EDGE (R24). -/
def execBeatInputEdge (input : BeatInput) (s : State) : Host.Outcome State Fault Refusal :=
  s.access fun p => if p.enabled then p.beatEdge input else p

/-- BEAT_INPUT_RELEASE (R24). -/
def execBeatInputRelease (input : BeatInput) (s : State) : Host.Outcome State Fault Refusal :=
  s.access fun p => if p.enabled then p.beatRelease input else p

/-- PULSE (R24 to R40). -/
def execPulse (input : BeatInput) (s : State) : Host.Outcome State Fault Refusal := s.event fun p => p.pulse input

/-- LATE_DETECTION (R37). -/
def execLateDetection (s : State) : Host.Outcome State Fault Refusal := s.event Part.lateDetection

/-- SECTION_TIMER (R42). -/
def execSectionTimer (s : State) : Host.Outcome State Fault Refusal := s.event Part.sectionTimer

end Sys2Proof.Machine
end

