-- ==== Sys2Proof/Machine/ConsoleCommands.lean ====
section
/-! DEFINITION. The meanings of the key inputs' events and of the four keys' presses (chapter 7). -/

namespace Sys2Proof.Machine

open Sys2Proof (Key)

/-- KEY_INPUT_ASSERTED (R140). -/
def execKeyInputAsserted (key : Key) (s : State) : Host.Outcome State Fault Refusal := s.access fun p => p.keyAsserted key

/-- KEY_INPUT_RELEASED (R140). -/
def execKeyInputReleased (key : Key) (s : State) : Host.Outcome State Fault Refusal := s.access fun p => p.keyReleased key

/-- KEY_RELEASE_CONFIRMED (R140). -/
def execKeyReleaseConfirmed (key : Key) (s : State) : Host.Outcome State Fault Refusal :=
  s.access fun p => if p.enabled then p.keyReleaseConfirmed key else p

/-- GO_KEY (R142, R143). -/
def execGoKey (s : State) : Host.Outcome State Fault Refusal := s.event fun p => p.takePress .go Part.pressGo

/-- BACK_KEY (R145). -/
def execBackKey (s : State) : Host.Outcome State Fault Refusal := s.event fun p => p.takePress .back Part.pressBack

/-- HOLD_KEY (R146). -/
def execHoldKey (s : State) : Host.Outcome State Fault Refusal := s.event fun p => p.takePress .hold Part.pressHold

/-- BLANK_KEY (R147). -/
def execBlankKey (s : State) : Host.Outcome State Fault Refusal := s.event fun p => p.takePress .blank Part.pressBlank

end Sys2Proof.Machine
end

