-- ==== Sys2Proof/WellFormed.lean ====
section
/-! DEFINITION. Which commands can reach the part: the checks that an operand's type does not already make. -/

namespace Sys2Proof

/-- The bytes of an access of each size. -/
def AccessSize.bytes : AccessSize → Nat
  | .byte => 1
  | .half => 2
  | .word => 4

/-- A word access is aligned (R178); a smaller one may stand at any byte. -/
def wordAligned (offset : Fin 32) (size : AccessSize) : Bool :=
  match size with
  | .word => decide (offset.val % 4 = 0)
  | .byte | .half => true

/-- The bytes of a read lie in one register (R178). -/
def inRegister (byte : Fin 4) (size : AccessSize) : Bool := decide (byte.val + size.bytes ≤ 4)

/-- A kind code that names one of the sixteen requests (R155). -/
def knownKind (kind : Byte) : Bool :=
  decide (1 ≤ kind.toNat) && decide (kind.toNat ≤ 16)

/-- The ranges of a READY's fields: buffers 1..2, max line length 1..120 (R119). -/
def readyInRange (buffers maxLine : Byte) : Bool :=
  decide (1 ≤ buffers.toNat) && decide (buffers.toNat ≤ 2) &&
  decide (1 ≤ maxLine.toNat) && decide (maxLine.toNat ≤ 120)

/-- The commands that are well formed. An ill-formed UNKNOWN names no event of the part (exec answers a
fault); a READY whose fields are out of range is a bad frame (R121), and exec counts it as one; a word write off its alignment
writes no register whole and is ignored, and a read past TIME_LO's last byte finds no byte there (log entry 25). -/
def Instr.wf : Instr → Bool
  | .registerWrite offset size _ => wordAligned offset size
  | .timeLoRead byte size => inRegister byte size
  | .unknown _ _ kind => !knownKind kind
  | .ready _ _ buffers maxLine => readyInRange buffers maxLine
  | .powerUpReset | .softReset | .pcieBusReset | .startUp | .halt | .scan _ | .noticeClear _ | .noticeEnWrite _
  | .beatInputEdge _ | .beatInputRelease _ | .pulse _ | .lateDetection | .sectionTimer | .dueExpiry
  | .deferralExpiry | .maxDwellExpiry _ | .keyInputAsserted _ | .keyInputReleased _ | .keyReleaseConfirmed _ | .goKey
  | .backKey | .holdKey | .blankKey | .scanPeriodExpiry | .loadBook _ _ | .loadBookComplete | .replaceSection _ _ _
  | .replaceSectionComplete | .arm _ _ _ _ _ | .jump _ _ _ _ _ _ | .stop _ _ _ | .setCut _ _ _ _ | .clearCut _ _ _
  | .vampExit _ _ | .setProfile _ _ _ | .setLane _ _ _ _ | .clearFault _ _ _ | .blank _ _ _ | .unblank _ _ _
  | .remoteKey _ _ _ | .setJournal _ _ _ _ | .note _ _ _ _ _ _ | .frameOpen _ | .frameClose _ | .suspend _ | .resume _
  | .cancel _ | .helloInterval _ | .ack _ _ _ | .busy _ | .free _ | .badReply _ | .ackTimeout _ _ | .silenceExpiry _
  | .characterReceived _ _ _ => true

end Sys2Proof
end

