-- ==== Sys2Proof/Machine/LinkCommands.lean ====
section
/-! DEFINITION. The meanings of the screen links' events (chapter 6). A command that ends an event may change a lane's
earliest-show time, and the head group is then evaluated (R70, R93). -/

namespace Sys2Proof.Machine

open Sys2Proof (LaneIx AckOutcome)

/-- FRAME_OPEN (R123, R124, R128). -/
def execFrameOpen (lane : LaneIx) (s : State) : Host.Outcome State Fault Refusal := s.event fun p => p.frameOpen lane

/-- FRAME_CLOSE (R128). -/
def execFrameClose (lane : LaneIx) (s : State) : Host.Outcome State Fault Refusal := s.event fun p => p.frameClose lane

/-- SUSPEND (R126). -/
def execSuspend (lane : LaneIx) (s : State) : Host.Outcome State Fault Refusal := s.event fun p => p.suspend lane

/-- RESUME (R126). -/
def execResume (lane : LaneIx) (s : State) : Host.Outcome State Fault Refusal := s.event fun p => p.resume lane

/-- CANCEL (R127). -/
def execCancel (lane : LaneIx) (s : State) : Host.Outcome State Fault Refusal := s.event fun p => p.cancel lane

/-- HELLO_INTERVAL (R134). -/
def execHelloInterval (lane : LaneIx) (s : State) : Host.Outcome State Fault Refusal := s.event fun p => p.helloExpiry lane

/-- READY (R134, R137); one whose fields are out of range is a bad frame (R121). -/
def execReady (lane : LaneIx) (echo buffers maxLine : Byte) (s : State) : Host.Outcome State Fault Refusal :=
  s.event fun p =>
    (p.wholeReply lane (if readyInRange buffers maxLine then .ready echo buffers maxLine else .bad)).settle

/-- ACK (R129, R130). -/
def execAck (lane : LaneIx) (echo : Byte) (outcome : AckOutcome) (s : State) : Host.Outcome State Fault Refusal :=
  s.event fun p => (p.wholeReply lane (.ack echo outcome)).settle

/-- BUSY (R135). -/
def execBusy (lane : LaneIx) (s : State) : Host.Outcome State Fault Refusal := s.event fun p => p.wholeReply lane .busy

/-- FREE (R135). -/
def execFree (lane : LaneIx) (s : State) : Host.Outcome State Fault Refusal := s.event fun p => p.wholeReply lane .free

/-- BAD_REPLY (R121). -/
def execBadReply (lane : LaneIx) (s : State) : Host.Outcome State Fault Refusal := s.event fun p => p.wholeReply lane .bad

/-- ACK_TIMEOUT (R131). -/
def execAckTimeout (lane : LaneIx) (seq : Byte) (s : State) : Host.Outcome State Fault Refusal :=
  s.event fun p => (p.ackTimeout lane seq).settle

/-- SILENCE_EXPIRY (R136). -/
def execSilenceExpiry (lane : LaneIx) (s : State) : Host.Outcome State Fault Refusal :=
  s.event fun p => (p.silence lane).settle

/-- CHARACTER_RECEIVED (R114, R121, R136); a character that ends a reply acts on it too (R122; log entry 10). -/
def execCharacterReceived (lane : LaneIx) (char : Byte) (framingError : Bool) (s : State) :
    Host.Outcome State Fault Refusal :=
  s.event fun p => (p.receiveChar lane char framingError).settle

end Sys2Proof.Machine
end

