-- ==== Sys2Proof/Machine/Registers.lean ====
section
/-! DEFINITION. The register window (chapter 10): what each register reads, what writes do, the resets, start-up and halt. -/

namespace Sys2Proof.Machine

open Sys2Proof (LaneIx AccessSize)

/-! ### Reads and notices (R178 to R181) -/

/-- The word a word read of a register offset returns; bits that carry no field read 0 (R178, 11.7). -/
def Part.readRegister (p : Part) (offset : Nat) : Word :=
  match offset with
  | 0x00 => Config.ident
  | 0x04 => Config.features
  | 0x08 => if p.regs.enable then 1 else 0
  | 0x10 => p.regs.notice.setWidth 32
  | 0x14 => p.regs.noticeEn.setWidth 32
  | 0x18 => BitVec.ofNat 32 p.clock.showTime
  | 0x1C => p.regs.timeHi.setWidth 32
  | _ => 0

/-- The part with its registers replaced. -/
def Part.setRegs (p : Part) (r : Registers) : Part := { p with regs := r }

/-- The bytes a read of a size at a byte offset returns, low byte first: those it addresses of the word a word read would return
(R178). A register has no byte past its fourth (log entry 25). -/
def Part.hostRead (p : Part) (offset : Nat) (size : AccessSize) : Word :=
  let at_ := p.readRegister (offset / 4 * 4) >>> (8 * (offset % 4))
  match size with
  | .byte => (at_.setWidth 8).setWidth 32
  | .half => (at_.setWidth 16).setWidth 32
  | .word => at_

/-- A read of TIME_LO: the addressed bytes of show time's low word returned, bits 47..32 copied into TIME_HI whatever the size
(R178, R181). -/
def Part.readTimeLo (p : Part) (byte : Fin 4) (size : AccessSize) : Part :=
  p.setRegs { p.regs with
    readData := p.hostRead (0x18 + byte.val) size
    timeHi := BitVec.ofNat 16 (p.clock.showTime / 4294967296) }

/-- A write to NOTICE: each bit written as 1 is cleared (R180). -/
def Part.clearNotice (p : Part) (value : Word) : Part :=
  p.setRegs { p.regs with notice := p.regs.notice &&& ~~~(value.setWidth 7) }

/-- A write to NOTICE_EN (R180). -/
def Part.writeNoticeEn (p : Part) (value : Word) : Part := p.setRegs { p.regs with noticeEn := value.setWidth 7 }

/-- A write to SCAN: ignored while ENABLE is 0 (R151, R178). -/
def Part.writeScan (p : Part) : Part := if p.enabled then p.askScan else p

/-! ### Resets (R184, R185) -/

/-- Power-up reset: every block at its reset value, book memory with nothing written, the key inputs at their levels (R184; log
entries 2 and 4). -/
def Part.powerUp (p : Part) : Part := Part.resetWith { cells := [] } p.console.levels .power

/-- Soft reset: every block as at power-up, book memory kept but for the TAKEN slots answered ABORTED, the start cause SOFT (R185,
R167). An update under way is cut off there, its generation word odd (R183). -/
def Part.softReset (p : Part) : Part := Part.resetWith p.resetMemory p.console.levels .soft

/-! ### Start-up (R186) -/

/-- The journal unit at a start-up, before its START record: W set to H, the lost count discarded (R173). -/
def JournalUnit.startUp (j : JournalUnit) (h : Word) : JournalUnit := { j with w := h, lost := 0 }

/-- The part running at show time 0 with W at H, its status block written whole, before the START record (R173, R183, R186). -/
def Part.restarted (p : Part) : Part :=
  Part.statusWhole { p with
    regs := { p.regs with enable := true }
    clock := { p.clock with showTime := 0 }
    console := p.console.startUp
    requests := { scan := .scanning 0, rescan := false, replaceUsed := false, periodAt := some Config.scanPeriod }
    journal := p.journal.startUp p.readMark }

/-- The START record appended, the start cause RESUME, and each enabled lane to SYNC in lane order (R91, R173). -/
def Part.runStarted (p q : Part) : Part :=
  let q := q.append (startRecord p.journal.startCause p.journal.w.toNat p.readMark.toNat p.journal.lost)
  let q := { q with journal := { q.journal with startCause := .resume } }
  allLanes.foldl Part.startLane q

/-- A start-up; nothing where ENABLE is already 1 (R179, R186). -/
def Part.startUp (p : Part) : Part :=
  if p.enabled then p else Part.finish p.restarted (p.runStarted p.restarted)

/-! ### Halt (R187) -/

/-- The clock unit at a halt: STOPPED, both beat filters idle, show time held (R24, R44). -/
def Clock.halt (c : Clock) : Clock := { c.stopped with filterA := .idle, filterB := .idle }

/-- Every block's own part of a halt, with the CLOCK record (R45, R87, R91, R140). -/
def Part.haltBlocks (p : Part) : Part :=
  Part.reportClock
    { p with clock := p.clock.halt, seq := p.seq.halt, lanes := p.lanes.map Lane.halt, console := p.console.halt }
    p.clock.state .halt

/-- A halt; nothing where ENABLE is already 0 (R179, R187). No status update is under way while ENABLE stays 0 (R183). -/
def Part.halt (p : Part) : Part :=
  if p.enabled then
    let q := (Part.effects p p.haltBlocks).finishUpdate.abortLong
    Part.outputs { q with
      requests := { scan := .idle, rescan := false, replaceUsed := false, periodAt := none }
      regs := { q.regs with enable := false } }
  else p

/-! ### Register writes (R178, R179) -/

/-- A word write to CONTROL: RESET at 1 is a soft reset, whatever ENABLE it carries; else ENABLE decides (R179). -/
def Part.writeControl (p : Part) (value : Word) : Part :=
  if value.getLsbD 1 then p.softReset
  else if value.getLsbD 0 then p.startUp
  else p.halt

/-- A word write to an offset of the window: the registers with no behaviour of their own ignore it, and a write off a word's
alignment writes no register whole and is ignored (R178; log entry 25). -/
def Part.writeRegister (p : Part) (offset : Nat) (value : Word) : Part :=
  match offset with
  | 0x08 => p.writeControl value
  | 0x0C => p.writeScan
  | 0x10 => p.clearNotice value
  | 0x14 => p.writeNoticeEn value
  | _ => p

/-- A host write of a size: one smaller than a word is ignored (R178). -/
def Part.hostWrite (p : Part) (offset : Nat) (size : AccessSize) (value : Word) : Part :=
  match size with
  | .word => p.writeRegister offset value
  | .byte | .half => p

end Sys2Proof.Machine
end

