-- ==== Sys2Proof/Machine/RegisterCommands.lean ====
section
/-! DEFINITION. The meanings of the resets, the start-up, the halt and the register accesses (chapter 10). -/

namespace Sys2Proof.Machine

open Sys2Proof (AccessSize)

/-- POWER_UP_RESET (R184). -/
def execPowerUpReset (s : State) : Host.Outcome State Fault Refusal := s.access Part.powerUp

/-- SOFT_RESET (R185). -/
def execSoftReset (s : State) : Host.Outcome State Fault Refusal := s.access Part.softReset

/-- PCIE_BUS_RESET acts as the soft reset (R185). -/
def execPcieBusReset (s : State) : Host.Outcome State Fault Refusal := s.access fun p => p.softReset

/-- START_UP (R186). -/
def execStartUp (s : State) : Host.Outcome State Fault Refusal := s.access Part.startUp

/-- HALT (R187). -/
def execHalt (s : State) : Host.Outcome State Fault Refusal := s.access Part.halt

/-- SCAN: any value asks for a scan (R151, R178). -/
def execScan (_value : Word) (s : State) : Host.Outcome State Fault Refusal := s.access Part.writeScan

/-- NOTICE_CLEAR (R180). -/
def execNoticeClear (value : Word) (s : State) : Host.Outcome State Fault Refusal := s.access fun p => p.clearNotice value

/-- NOTICE_EN_WRITE (R180). -/
def execNoticeEnWrite (value : Word) (s : State) : Host.Outcome State Fault Refusal := s.access fun p => p.writeNoticeEn value

/-- TIME_LO_READ (R178, R181): the word, or the bytes a smaller read addresses. -/
def execTimeLoRead (s : State) (byte : Fin 4 := 0) (size : AccessSize := .word) : Host.Outcome State Fault Refusal :=
  s.access fun p => p.readTimeLo byte size

/-- REGISTER_WRITE (R178, R179). -/
def execRegisterWrite (offset : Fin 32) (size : AccessSize) (value : Word) (s : State) : Host.Outcome State Fault Refusal :=
  s.access fun p => p.hostWrite offset.val size value

end Sys2Proof.Machine
end

