-- ==== Sys2Proof/Machine/RequestCommands.lean ====
section
/-! DEFINITION. The meanings of the scan period and of the sixteen requests and UNKNOWN (chapter 8): each request's checks in R155's
order, its effect, its result and its detail (11.3). -/

namespace Sys2Proof.Machine

open Sys2Proof (SlotIx LaneIx Key ProfileArgs LaneArgs ReplaceArgs)

/-- SCAN_PERIOD_EXPIRY (R151). -/
def execScanPeriodExpiry (s : State) : Host.Outcome State Fault Refusal := s.event Part.scanPeriod

/-- UNKNOWN (R155). A kind code that names a request is none of its slots. -/
def execUnknown (slot : SlotIx) (tag : Half) (kind : Byte) (s : State) : Host.Outcome State Fault Refusal :=
  if knownKind kind then .fault .kindIsKnown else s.request slot tag fun p => (p, .unknown, [])

/-! ### LOAD_BOOK and REPLACE_SECTION -/

/-- LOAD_BOOK (R13, R156). -/
def execLoadBook (slot : SlotIx) (tag : Half) (s : State) : Host.Outcome State Fault Refusal :=
  s.longRequest slot tag .load
    (fun p => if p.seq.state = .running ∨ p.seq.state = .loading then some (.state, []) else none) Part.beginLoad

/-- LOAD_BOOK_COMPLETE: the walk of the load being executed ends (R16; log entry 5). -/
def execLoadBookComplete (s : State) : Host.Outcome State Fault Refusal :=
  .next { s with part :=
    match s.part.enabled, s.part.requests.scan with
    | true, .executing n tag .load =>
      let done := s.part.endLoad
      (Part.complete s.part done.1 n tag done.2.1 done.2.2).scanOn n
    | _, _ => s.part }

/-- REPLACE_SECTION (R20, R156). -/
def execReplaceSection (slot : SlotIx) (tag : Half) (args : ReplaceArgs) (s : State) : Host.Outcome State Fault Refusal :=
  s.longRequest slot tag (.replace args) (fun p => p.replaceRefusal args) id

/-- REPLACE_SECTION_COMPLETE: the walk of the replacement being executed ends (R21; log entry 5). -/
def execReplaceSectionComplete (s : State) : Host.Outcome State Fault Refusal :=
  .next { s with part :=
    match s.part.enabled, s.part.requests.scan with
    | true, .executing n tag (.replace args) =>
      let done := s.part.endReplace args
      (Part.complete s.part done.1 n tag done.2.1 done.2.2).scanOn n
    | _, _ => s.part }

/-! ### ARM, JUMP and STOP -/

/-- The grounds on which ARM and JUMP are refused with BAD_ARG (R157). -/
def Sequencer.badPlace (q : Sequencer) (sect count prime : Nat) : Bool :=
  decide (q.sectionCount ≤ sect) || decide (1 < prime) ||
    match (q.sectionAt sect).kind with
    | .called => decide (count ≠ 0)
    | .pulsed | .timed => decide ((q.sectionAt sect).length ≤ count)

/-- The detail of ARM and JUMP: the window fill, the head cue id, the prime group's first cue id (R157). -/
def Part.armDetail (p : Part) (primed : Option Half) : List Nat :=
  [p.seq.window.length, optWord p.seq.headCue, optWord (primed.map BitVec.toNat)]

/-- ARM carried out, with its result and detail (R83, R157). -/
def Part.requestArm (p : Part) (sect count prime : Nat) : Part × Result × List Nat :=
  if ¬ (p.seq.state = .loaded ∨ p.seq.state = .ended) then (p, .state, [])
  else if p.seq.badPlace sect count prime then (p, .badArg, [])
  else
    let done := p.armAt sect count (decide (prime = 1)) .arm none
    (done.1, .ok, done.1.armDetail done.2)

/-- ARM (R83, R157). -/
def execArm (slot : SlotIx) (tag : Half) (sect count prime : Word) (s : State) : Host.Outcome State Fault Refusal :=
  s.request slot tag fun p => p.requestArm sect.toNat count.toNat prime.toNat

/-- JUMP carried out, with its result and detail (R85, R158). -/
def Part.requestJump (p : Part) (sect count keep prime : Nat) : Part × Result × List Nat :=
  if ¬ (p.seq.state = .running ∨ p.seq.state = .ended) then (p, .state, [])
  else if p.seq.badPlace sect count prime || decide (1 < keep) then (p, .badArg, [])
  else
    let done := p.jump sect count (decide (keep = 1)) (decide (prime = 1))
    (done.1, .ok, done.1.armDetail done.2)

/-- JUMP (R85, R158). -/
def execJump (slot : SlotIx) (tag : Half) (sect count keep prime : Word) (s : State) : Host.Outcome State Fault Refusal :=
  s.request slot tag fun p => p.requestJump sect.toNat count.toNat keep.toNat prime.toNat

/-- STOP carried out (R86, R158). -/
def Part.requestStop (p : Part) (keep : Nat) : Part × Result × List Nat :=
  if ¬ (p.seq.state = .running ∨ p.seq.state = .ended) then (p, .state, [])
  else if 1 < keep then (p, .badArg, [])
  else (p.stopAct (decide (keep = 1)), .ok, [])

/-- STOP (R86, R158). -/
def execStop (slot : SlotIx) (tag : Half) (keep : Word) (s : State) : Host.Outcome State Fault Refusal :=
  s.request slot tag fun p => p.requestStop keep.toNat

/-! ### The cut map and the vamp exit -/

/-- Whether the cut map's requests are taken (R159). -/
def Sequencer.takesCuts (q : Sequencer) : Bool := decide (q.state = .loaded ∨ q.state = .running ∨ q.state = .ended)

/-- A cut map entry written; where it is the current section's, the successor is resolved again (R76, R159). -/
def Part.writeCut (p : Part) (sect : Nat) (target : Option Nat) : Part :=
  let q := { p with seq := { p.seq with cuts := p.seq.cuts.setIfInBounds sect target } }
  if p.seq.current = some sect then q.resolveAgain.settle else q

/-- SET_CUT and CLEAR_CUT carried out: the detail is the previous entry (R159). -/
def Part.requestCut (p : Part) (sect : Nat) (target : Option Nat) : Part × Result × List Nat :=
  if !p.seq.takesCuts then (p, .state, [])
  else if p.seq.sectionCount ≤ sect ∨ target.any (fun t => decide (p.seq.sectionCount ≤ t)) then (p, .badArg, [])
  else (p.writeCut sect target, .ok, [optWord (p.seq.cutOf sect)])

/-- SET_CUT (R159). -/
def execSetCut (slot : SlotIx) (tag : Half) (sect target : Word) (s : State) : Host.Outcome State Fault Refusal :=
  s.request slot tag fun p => p.requestCut sect.toNat (some target.toNat)

/-- CLEAR_CUT (R159). -/
def execClearCut (slot : SlotIx) (tag : Half) (sect : Word) (s : State) : Host.Outcome State Fault Refusal :=
  s.request slot tag fun p => p.requestCut sect.toNat none

/-- VAMP_EXIT carried out: the detail says whether the exit was armed before (R78, R160). -/
def Part.requestVampExit (p : Part) : Part × Result × List Nat :=
  if ¬ (p.seq.state = .running ∧ p.seq.currentRec.vamp = true) then (p, .state, [])
  else if p.seq.vampExit then (p, .ok, [1])
  else (Part.settle (Part.resolveAgain { p with seq := { p.seq with vampExit := true } }), .ok, [0])

/-- VAMP_EXIT (R160). -/
def execVampExit (slot : SlotIx) (tag : Half) (s : State) : Host.Outcome State Fault Refusal :=
  s.request slot tag Part.requestVampExit

/-! ### Clock and journal settings -/

/-- The result of a request that clamps (8.3). -/
def clampResult (marks : Nat) : Result := if marks = 0 then .ok else .okClamped

/-- The part with a new profile and count-record option (R27, R28). -/
def Part.setProfile (p : Part) (f : Profile) (countRecords : Bool) : Part :=
  Part.applyProfile { p with journal := { p.journal with countRecords := countRecords } } f

/-- SET_PROFILE (R27, R161). -/
def execSetProfile (slot : SlotIx) (tag : Half) (args : ProfileArgs) (s : State) : Host.Outcome State Fault Refusal :=
  s.request slot tag fun p =>
    let c := clampProfile args
    (p.setProfile c.1 c.2.1, clampResult c.2.2, [c.2.2])

/-- The alert level a request carries, moved into range: 0 is 1 and no clamp (R162). -/
def alertLevel (v : Nat) : Nat := max 1 (min 4096 v)

/-- SET_JOURNAL (R162). -/
def execSetJournal (slot : SlotIx) (tag : Half) (level option : Word) (s : State) : Host.Outcome State Fault Refusal :=
  s.request slot tag fun p =>
    let alert := alertLevel level.toNat
    let on := yesOf option.toNat
    ({ p with journal := { p.journal with alert := alert, countRecords := on } },
      if 4096 < level.toNat ∨ yesMoved option.toNat then .okClamped else .ok, [alert, if on then 1 else 0])

/-- NOTE's detail: the record's sequence number and 1, or absent and 0 where it was lost (R162). A record was written where nothing
is counted as lost after its append (R170). -/
def noteDetail (p : Part) : List Nat :=
  if p.journal.lost = 0 then [(p.journal.w - 1).toNat, 1] else [optWord none, 0]

/-- NOTE (R162). -/
def execNote (slot : SlotIx) (tag : Half) (w0 w1 w2 w3 : Word) (s : State) : Host.Outcome State Fault Refusal :=
  s.request slot tag fun p =>
    let q := p.append (noteRecord tag w0 w1 w2 w3)
    (q, .ok, noteDetail q)

/-! ### Lanes -/

/-- The lane a word names, where it names one (R155). -/
def laneOf (w : Word) : Option LaneIx := if h : w.toNat < 6 then some ⟨w.toNat, h⟩ else none

/-- A lane's configuration replaced, enable and baud acting on the link state at once (R90), a lower staging limit settling its
record (R96). -/
def Part.configureLane (p : Part) (i : LaneIx) (c : LaneConfig) : Part :=
  let old := (p.lane i).cfg
  let p := p.modLane i fun l => Lane.lookAgain { l with cfg := c } i p.seq.window
  if old.enable && !c.enable then p.enterOff i .disable
  else if !old.enable && c.enable then p.enterSync i .enable
  else if c.enable && decide (c.baud ≠ old.baud) then p.enterSync i .baud
  else p

/-- SET_LANE (R89, R90, R163). A lower staging limit settles its record where the lanes look again at the end of the event
(R96). -/
def execSetLane (slot : SlotIx) (tag : Half) (lane : Word) (args : LaneArgs) (s : State) : Host.Outcome State Fault Refusal :=
  s.request slot tag fun p =>
    match laneOf lane with
    | none => (p, .badArg, [])
    | some i =>
      let c := clampLane args
      ((p.configureLane i c.1).settle, clampResult c.2, [c.2])

/-- CLEAR_FAULT: the lane check comes before the state check (R138, R164). -/
def execClearFault (slot : SlotIx) (tag : Half) (lane : Word) (s : State) : Host.Outcome State Fault Refusal :=
  s.request slot tag fun p =>
    match laneOf lane with
    | none => (p, .badArg, [])
    | some i =>
      if (p.lane i).link = .fault then (p.enterSync i .clearFault, .ok, [(p.lane i).missCounter])
      else (p, .state, [])

/-- The lanes of a mask whose blanked flag is not as asked (R165). -/
def Part.lanesToChange (p : Part) (mask : Word) (blanked : Bool) : List LaneIx :=
  (lanesOf (mask.setWidth 6)).filter fun i => (p.lane i).blanked != blanked

/-- BLANK (R94, R165). The head group is evaluated once, after the last lane, as at the BLANK key (log entry 36). -/
def execBlank (slot : SlotIx) (tag : Half) (mask : Word) (s : State) : Host.Outcome State Fault Refusal :=
  s.request slot tag fun p =>
    if 64 ≤ mask.toNat then (p, .badArg, [])
    else
      let lanes := p.lanesToChange mask true
      ((p.blankLanes lanes).settle, .ok, [(laneMask lanes).toNat])

/-- UNBLANK (R95, R165). -/
def execUnblank (slot : SlotIx) (tag : Half) (mask : Word) (s : State) : Host.Outcome State Fault Refusal :=
  s.request slot tag fun p =>
    if 64 ≤ mask.toNat then (p, .badArg, [])
    else
      let lanes := p.lanesToChange mask false
      ((p.unblankLanes lanes).settle, .ok, [(laneMask lanes).toNat])

/-! ### Keys from the host -/

/-- A remote key carried out: the outcome and the cue id in the detail (R148, R166). -/
def Part.requestKey (p : Part) (k : Key) (act : Part → Part × KeyOutcome × Option Half) : Part × Result × List Nat :=
  let done := p.remotePress k act
  (done.1, .ok, [done.2.1.code, optWord (done.2.2.map BitVec.toNat)])

/-- REMOTE_KEY (R148, R166). -/
def execRemoteKey (slot : SlotIx) (tag : Half) (key : Word) (s : State) : Host.Outcome State Fault Refusal :=
  s.request slot tag fun p =>
    match key.toNat with
    | 1 => p.requestKey .go Part.go
    | 2 => p.requestKey .back Part.back
    | 3 => p.requestKey .hold fun p => (p.hold.1, p.hold.2, none)
    | _ => (p, .badArg, [])

end Sys2Proof.Machine
end

