-- ==== Sys2Proof/Machine/SequencerCommands.lean ====
section
/-! DEFINITION. The meanings of the sequencer's expiries (R57, R70) and of a lane's max dwell expiry (R108). -/

namespace Sys2Proof.Machine

open Sys2Proof (LaneIx)

/-- DUE_EXPIRY (R57, R66). -/
def execDueExpiry (s : State) : Host.Outcome State Fault Refusal := s.event Part.dueExpiry

/-- DEFERRAL_EXPIRY (R70). -/
def execDeferralExpiry (s : State) : Host.Outcome State Fault Refusal := s.event Part.deferralExpiry

/-- MAX_DWELL_EXPIRY (R108). -/
def execMaxDwellExpiry (lane : LaneIx) (s : State) : Host.Outcome State Fault Refusal :=
  s.event fun p => p.maxDwellExpiry lane

end Sys2Proof.Machine
end

