-- ==== Sys2Proof/Machine/Dispatch.lean ====
section
/-! DEFINITION. The meaning of each command: one arm per constructor. -/

namespace Sys2Proof.Machine

def exec (i : Instr) (s : State) : Host.Outcome State Fault Refusal :=
  match i with
  | .powerUpReset => Sys2Proof.Machine.execPowerUpReset s
  | .softReset => Sys2Proof.Machine.execSoftReset s
  | .pcieBusReset => Sys2Proof.Machine.execPcieBusReset s
  | .startUp => Sys2Proof.Machine.execStartUp s
  | .halt => Sys2Proof.Machine.execHalt s
  | .scan value => Sys2Proof.Machine.execScan value s
  | .noticeClear value => Sys2Proof.Machine.execNoticeClear value s
  | .noticeEnWrite value => Sys2Proof.Machine.execNoticeEnWrite value s
  | .timeLoRead byte size => Sys2Proof.Machine.execTimeLoRead s byte size
  | .registerWrite offset size value => Sys2Proof.Machine.execRegisterWrite offset size value s
  | .beatInputEdge input => Sys2Proof.Machine.execBeatInputEdge input s
  | .beatInputRelease input => Sys2Proof.Machine.execBeatInputRelease input s
  | .pulse input => Sys2Proof.Machine.execPulse input s
  | .lateDetection => Sys2Proof.Machine.execLateDetection s
  | .sectionTimer => Sys2Proof.Machine.execSectionTimer s
  | .dueExpiry => Sys2Proof.Machine.execDueExpiry s
  | .deferralExpiry => Sys2Proof.Machine.execDeferralExpiry s
  | .maxDwellExpiry lane => Sys2Proof.Machine.execMaxDwellExpiry lane s
  | .keyInputAsserted key => Sys2Proof.Machine.execKeyInputAsserted key s
  | .keyInputReleased key => Sys2Proof.Machine.execKeyInputReleased key s
  | .keyReleaseConfirmed key => Sys2Proof.Machine.execKeyReleaseConfirmed key s
  | .goKey => Sys2Proof.Machine.execGoKey s
  | .backKey => Sys2Proof.Machine.execBackKey s
  | .holdKey => Sys2Proof.Machine.execHoldKey s
  | .blankKey => Sys2Proof.Machine.execBlankKey s
  | .scanPeriodExpiry => Sys2Proof.Machine.execScanPeriodExpiry s
  | .unknown slot tag kind => Sys2Proof.Machine.execUnknown slot tag kind s
  | .loadBook slot tag => Sys2Proof.Machine.execLoadBook slot tag s
  | .loadBookComplete => Sys2Proof.Machine.execLoadBookComplete s
  | .replaceSection slot tag args => Sys2Proof.Machine.execReplaceSection slot tag args s
  | .replaceSectionComplete => Sys2Proof.Machine.execReplaceSectionComplete s
  | .arm slot tag sect count prime => Sys2Proof.Machine.execArm slot tag sect count prime s
  | .jump slot tag sect count keep prime => Sys2Proof.Machine.execJump slot tag sect count keep prime s
  | .stop slot tag keep => Sys2Proof.Machine.execStop slot tag keep s
  | .setCut slot tag sect target => Sys2Proof.Machine.execSetCut slot tag sect target s
  | .clearCut slot tag sect => Sys2Proof.Machine.execClearCut slot tag sect s
  | .vampExit slot tag => Sys2Proof.Machine.execVampExit slot tag s
  | .setProfile slot tag args => Sys2Proof.Machine.execSetProfile slot tag args s
  | .setLane slot tag lane args => Sys2Proof.Machine.execSetLane slot tag lane args s
  | .clearFault slot tag lane => Sys2Proof.Machine.execClearFault slot tag lane s
  | .blank slot tag mask => Sys2Proof.Machine.execBlank slot tag mask s
  | .unblank slot tag mask => Sys2Proof.Machine.execUnblank slot tag mask s
  | .remoteKey slot tag key => Sys2Proof.Machine.execRemoteKey slot tag key s
  | .setJournal slot tag level option => Sys2Proof.Machine.execSetJournal slot tag level option s
  | .note slot tag w0 w1 w2 w3 => Sys2Proof.Machine.execNote slot tag w0 w1 w2 w3 s
  | .frameOpen lane => Sys2Proof.Machine.execFrameOpen lane s
  | .frameClose lane => Sys2Proof.Machine.execFrameClose lane s
  | .suspend lane => Sys2Proof.Machine.execSuspend lane s
  | .resume lane => Sys2Proof.Machine.execResume lane s
  | .cancel lane => Sys2Proof.Machine.execCancel lane s
  | .helloInterval lane => Sys2Proof.Machine.execHelloInterval lane s
  | .ready lane echo buffers maxLine => Sys2Proof.Machine.execReady lane echo buffers maxLine s
  | .ack lane echo outcome => Sys2Proof.Machine.execAck lane echo outcome s
  | .busy lane => Sys2Proof.Machine.execBusy lane s
  | .free lane => Sys2Proof.Machine.execFree lane s
  | .badReply lane => Sys2Proof.Machine.execBadReply lane s
  | .ackTimeout lane seq => Sys2Proof.Machine.execAckTimeout lane seq s
  | .silenceExpiry lane => Sys2Proof.Machine.execSilenceExpiry lane s
  | .characterReceived lane char framingError => Sys2Proof.Machine.execCharacterReceived lane char framingError s

end Sys2Proof.Machine
end

