-- ==== Sys2Proof/Machine/Time.lean ====
section
/-! DEFINITION. What the part does of its own accord when no command waits (log entry 1): the expiries that have come (R23), the
scan's reads, the characters of the screen links, and show time. Where several have come together the manual leaves their
order open; this file takes them in the order written (log entry 3). -/

namespace Sys2Proof.Machine

open Sys2Proof (LaneIx Key BeatInput Instr)

/-- What the part does next by itself. -/
inductive Own where
  | command (c : Instr)
  | statusWord
  | scanRead (next : Nat)
  | character (lane : LaneIx)
  | tick
  deriving DecidableEq, Repr

/-- A command where a condition holds. -/
def when_ (b : Bool) (c : Instr) : List Instr := if b then [c] else []

/-- Whether an expiry kept at a time has come. -/
def come (t : Option Nat) (now : Nat) : Bool := t.any fun t => decide (t ≤ now)

/-- A beat input's pulse, where its confirmation has ended (R24). -/
def Part.pulsesDue (p : Part) (i : BeatInput) : List Instr :=
  match p.clock.filter i with
  | .confirming t => when_ (decide (t + Config.beatConfirm ≤ p.now)) (.pulse i)
  | .idle | .waiting => []

/-- The command of a key's press. -/
def pressCommand : Key → Instr
  | .go => .goKey
  | .back => .backKey
  | .hold => .holdKey
  | .blank => .blankKey

/-- A key's press or confirmed release, where its confirmation has ended (R140). -/
def Part.keyDue (p : Part) (k : Key) : List Instr :=
  match p.console.filters.get k with
  | .confirmingPress t => when_ (decide (t + Config.keyConfirm ≤ p.now)) (pressCommand k)
  | .confirmingRelease t => when_ (decide (t + Config.keyConfirm ≤ p.now)) (.keyReleaseConfirmed k)
  | .idle | .held => []

/-- The ack timeouts of a lane that have come (R131). -/
def Lane.timeoutsDue (l : Lane) (i : LaneIx) (now : Nat) : List Instr :=
  if l.up then
    (l.outstanding.filter fun e => come (e.closing.map Closing.deadline) now).map fun e => .ackTimeout i e.seq
  else []

/-- The expiries that have come, in the order they are taken. -/
def Part.expiries (p : Part) : List Instr :=
  p.pulsesDue .a ++ p.pulsesDue .b ++ when_ (come p.clock.lateAt p.now) .lateDetection ++
    when_ (p.sectionTimerAt.any fun t => decide (t ≤ (p.now : Int))) .sectionTimer ++
    when_ (p.seq.dueWaiting p.now) .dueExpiry ++ when_ (come p.seq.deferAt p.now) .deferralExpiry ++
    (allLanes.flatMap fun i => when_ (come (p.lane i).maxDwellAt p.now) (.maxDwellExpiry i)) ++
    ([Key.go, .back, .hold, .blank].flatMap p.keyDue) ++ when_ (come p.requests.periodAt p.now) .scanPeriodExpiry ++
    (allLanes.flatMap fun i =>
      when_ (decide ((p.lane i).link = .sync) && come (p.lane i).helloAt p.now) (.helloInterval i)) ++
    (allLanes.flatMap fun i => (p.lane i).timeoutsDue i p.now) ++
    (allLanes.flatMap fun i => when_ (come (p.lane i).silenceAt p.now) (.silenceExpiry i))

/-- What an active lane does at its character boundary (R123): a frame whose CLOSE has been sent closes there first (R128). -/
def Part.lineStep (p : Part) (i : LaneIx) : Own :=
  match (p.lane i).atBoundary.choice i p.seq.window with
  | .openExpress _ | .openNormal _ => .command (.frameOpen i)
  | .resume => .command (.resume i)
  | .cancel => .command (.cancel i)
  | .suspend => .command (.suspend i)
  | .expressChar f | .normalChar f => if f.left = [] then .command (.frameClose i) else .character i
  | .fill => .character i

/-- The active lanes whose character boundary has come (R114). -/
def Part.linesDue (p : Part) : List LaneIx :=
  allLanes.filter fun i => (p.lane i).active && decide ((p.lane i).tx.boundary ≤ p.now)

/-- What the running part does next by itself: the next word of a status update under way, an expiry that has come, a slot to read,
a character to send, or the next microsecond. -/
def Part.own (p : Part) : Own :=
  if p.regs.update ≠ [] then .statusWord
  else
    match p.expiries with
    | c :: _ => .command c
    | [] =>
      match p.requests.scan with
      | .scanning n => .scanRead n
      | .idle | .executing _ _ _ =>
        match p.linesDue with
        | i :: _ => p.lineStep i
        | [] => .tick

/-- A scan's read of one slot's owner (R152): the part with the scan one slot on, and the slot's request where it is SUBMITTED. -/
def Part.scanRead (p : Part) (n : Nat) : Part × Option Instr :=
  if h : n < 32 then
    ({ p with requests := { p.requests with scan := .scanning (n + 1) } },
      if p.mem.owner ⟨n, h⟩ = ownerSubmitted then some (p.mem.requestIn ⟨n, h⟩) else none)
  else ({ p with requests := p.requests.endScan }, none)

/-- One microsecond of show time, which stays at 2^48 − 1 (R22). -/
def Part.tick (p : Part) : Part := { p with clock := { p.clock with showTime := min Config.maxTime (p.clock.showTime + 1) } }

/-- The state with its part replaced. -/
def State.withPart (s : State) (p : Part) : State := { s with part := p }

/-- The step of a running part with no command waiting. -/
def ownStep (s : State) : Host.Outcome State Fault Refusal :=
  match s.part.own with
  | .command c => exec c s
  | .statusWord => .next (s.withPart s.part.writeStatusWord)
  | .scanRead n =>
    match s.part.scanRead n with
    | (p, some c) => exec c (s.withPart p)
    | (p, none) => .next (s.withPart p)
  | .character i => .next (s.withPart (Part.finish s.part (s.part.plainChar i)))
  | .tick => .next (s.withPart s.part.tick)

end Sys2Proof.Machine
end

