-- ==== Sys2Proof/Machine/Step.lean ====
section
/-! DEFINITION. One step: the command at the front of the queue, or, where none waits, what the part does by itself (log entry 1). -/

namespace Sys2Proof.Machine

open Sys2Proof (Instr)

/-- One step: the front command executed with the queue's rest; on an empty queue the running part's own next event or
microsecond, and nothing while ENABLE is 0 (R22, R183). -/
def step (s : State) : Host.Outcome State Fault Refusal :=
  match s.pending with
  | c :: rest => exec c { s with pending := rest }
  | [] => if s.part.enabled then ownStep s else .next s

/-- The state with the command a word of the opcode table's bits spells put at the front of its queue; the state itself where the
word spells none. -/
def State.withFetchWord (s : State) (nbits w : Nat) : State :=
  match decodeTableWord nbits w with
  | some c => { s with pending := c :: s.pending }
  | none => s

end Sys2Proof.Machine
end

