-- ==== Sys2Proof/Safety.lean ====
section
/-! DEFINITION. What a safe state is, and what the end of an event and the evaluation of the head group leave alone, in the terms
the statements use: the areas the part writes, the notice line and the lamps at their conditions, book memory in its canonical
form, and the part with the fields blanked that a statement says nothing about. -/

namespace Sys2Proof.Machine

open Sys2Proof (SlotIx)

/-! ### Invariants -/

/-- The notice line and the four lamps are at their conditions (R149, R180). -/
def State.outputsRight (s : State) : Prop :=
  s.part.regs.noticeLine = noticeLineOf s.part.regs ∧ s.part.console.lamps = lampsOf s.part

/-- Book memory is in its canonical form. -/
def State.memoryRight (s : State) : Prop := s.part.mem.wf = true

/-! ### The areas the part writes (11.1) -/

/-- The status block and the journal ring, which the part alone writes. -/
def ownByte (a : Nat) : Prop := (0x40 ≤ a ∧ a < 0x200) ∨ (0x42000 ≤ a ∧ a < 0x62000)

/-- The request slots. -/
def slotByte (a : Nat) : Prop := 0x200 ≤ a ∧ a < 0xA00

/-- The bytes of one slot. -/
def inSlot (n : SlotIx) (a : Nat) : Prop := slotAt n ≤ a ∧ a < slotAt n + 64

/-- A slot as a completion leaves it: owner DONE, the result, the tag, and the four detail words (R154). -/
def Memory.answered (m : Memory) (n : SlotIx) (tag : Half) (r : Result) (d : List Nat) : Prop :=
  m.owner n = ownerDone ∧ m.byte (slotAt n + 5) = BitVec.ofNat 8 r.code ∧ m.tag n = tag ∧
    ∀ k, k < 4 → m.word (slotAt n + 0x30 + 4 * k) = d.getD k 0 % 4294967296

/-! ### Records in the ring -/

/-- The ring holds a record with a sequence number and show time (R168, 11.4). -/
def Memory.holds (m : Memory) (n : Word) (r : Record) (time : Nat) : Prop :=
  m.word (recordAt n) = n.toNat ∧ m.bytes (recordAt n + 4) 28 = r.bytes time

/-- A valid read mark, nothing lost, and room in the ring for a number of records (R168 to R170). -/
def Part.roomFor (p : Part) (k : Nat) : Prop := p.journal.lost = 0 ∧ p.unread p.readMark + k ≤ Config.ringSize

/-- Where there is room, `q`'s journal is `p`'s with these records appended at `p`'s show time, and nothing lost (R170, R171). -/
def Part.appended (p q : Part) (rs : List Record) : Prop :=
  p.roomFor rs.length →
    q.journal.w = p.journal.w + BitVec.ofNat 32 rs.length ∧ q.journal.lost = 0 ∧
      ∀ k (h : k < rs.length), q.mem.holds (p.journal.w + BitVec.ofNat 32 k) rs[k] p.now

/-- Every notice set in `p` is set in `q`: only a host write clears one (R180). -/
def Part.noticesStay (p q : Part) : Prop := ∀ k, p.regs.notice.getLsbD k = true → q.regs.notice.getLsbD k = true

/-! ### What an event's end keeps -/

/-- A lane less what looking again at its staging may change (R98, R106, R110). -/
def Lane.kept (l : Lane) : Lane :=
  { l with
    recs := Vector.replicate 2 StagingRec.free, drops := Vector.replicate 2 false, late := [], resends := []
    catchUpWaiting := false, nextToken := 0, tx := { l.tx with cancelDue := false } }

/-- The part less what the end of an event and an append write: book memory, the notice bits and line, the status writer's
count and update, the lamps, W and the lost count, the lanes' staging, and the mark of a REPLACE_SECTION's use. -/
def Part.kept (p : Part) : Part :=
  { p with
    mem := { cells := [] }
    regs := { p.regs with notice := 0, noticeLine := false, generation := 0, update := [] }
    requests := { p.requests with replaceUsed := false }
    lanes := p.lanes.map Lane.kept
    console := { p.console with lamps := { go := false, hold := false, blank := false, fault := false } }
    journal := { p.journal with w := 0, lost := 0 } }

/-- A lane less what a title may change too: the shadow, its max dwell expiry and the express queue. -/
def Lane.still (l : Lane) : Lane := { l.kept with shadow := Shadow.reset, maxDwellAt := none, express := [] }

/-- The clock unit less what a section end may change. -/
def Clock.still (c : Clock) : Clock :=
  { c with state := .stopped, c0 := 0, t0 := 0, period := 0, run := 0, coast := 0, fh := 0, start := 0, lastPulse := none }

/-- The sequencer less what fires, section ends and trims may change: the book, the cut map and the last load error stay. -/
def Sequencer.still (q : Sequencer) : Sequencer :=
  { Sequencer.reset with book := q.book, cuts := q.cuts, lastError := q.lastError }

/-- The part less what the evaluation of the head group may change as well (R66 to R75). -/
def Part.still (p : Part) : Part :=
  { p.kept with clock := p.clock.still, seq := p.seq.still, lanes := p.lanes.map Lane.still }

/-- No group to fire, defer or overtake now: the sequencer is not RUNNING, or no CALLED pass is over and the head group, if any,
waits (R66). -/
def Sequencer.idleHead (q : Sequencer) : Prop :=
  q.state ≠ .running ∨
    (q.calledOver = false ∧
      ∀ e, q.window.head? = some e → e.state ≠ .deferred ∧ (e.state = .called ∨ e.due = none ∨ e.reached = false))

end Sys2Proof.Machine
end

