-- ==== Sys2Proof/Certificates/Slice0/Obligations.lean ====
section
/-! DEFINITION. The statements for the provers, in the order of the manual's chapters. The forms they share stand first. -/

namespace Sys2Proof.Machine

open Sys2Proof (Instr SlotIx LaneIx BeatInput Key)

/-! ### Shared forms -/

/-- No byte. -/
def noByte (_ : Nat) : Prop := False

/-- How an event leaves the part: from `p` to `t`, as `view` sees it the part `q`. Bytes outside the part's own areas and those
that `ok` allows read as before, no notice is cleared, and the notice line and lamps are at their conditions. -/
structure EndsAs (view : Part → Part) (ok : Nat → Prop) (p q t : Part) : Prop where
  memory : ∀ a, ¬ ownByte a → ¬ ok a → t.mem.byte a = p.mem.byte a
  notices : p.noticesStay t
  line : t.regs.noticeLine = noticeLineOf t.regs
  lamps : t.console.lamps = lampsOf t
  view : view t = view q

/-- The command answers a next state with the queue as it was, and leaves the part as `q` in the view, with `post`. -/
def Runs (c : Instr) (s : State) (view : Part → Part) (q : Part) (post : Part → Prop) : Prop :=
  ∃ t, exec c s = .next t ∧ t.pending = s.pending ∧ EndsAs view noByte s.part q t.part ∧ post t.part

/-- How a request's completion leaves the part: as an event does, with the slot answered, its kind byte and arguments as they
were, and SLOT set (R154). -/
structure AnswersAs (view : Part → Part) (n : SlotIx) (tag : Half) (r : Result) (d : List Nat) (p q t : Part) : Prop where
  ends : EndsAs view (inSlot n) p q t
  slot : t.mem.answered n tag r d
  args : ∀ a, (a = slotAt n + 4 ∨ (slotAt n + 8 ≤ a ∧ a < slotAt n + 0x30)) → t.mem.byte a = p.mem.byte a
  notice : t.regs.notice.getLsbD 0 = true

/-- The request command answers a next state with the queue as it was, its slot answered with a result and detail, and the part
as `q` in the view, with `post`. -/
def Answers (c : Instr) (s : State) (n : SlotIx) (tag : Half) (r : Result) (d : List Nat) (view : Part → Part) (q : Part)
    (post : Part → Prop) : Prop :=
  ∃ t, exec c s = .next t ∧ t.pending = s.pending ∧ AnswersAs view n tag r d s.part q t.part ∧ post t.part

/-- Nothing more is said. -/
def nothingMore (_ : Part) : Prop := True

/-- The part with its sequencer replaced. -/
def Part.setSeq (p : Part) (q : Sequencer) : Part := { p with seq := q }

/-- The part with its console replaced. -/
def Part.setConsole (p : Part) (c : Console) : Part := { p with console := c }

/-- The part with its request unit replaced. -/
def Part.setRequests (p : Part) (u : RequestUnit) : Part := { p with requests := u }

/-- The part with its journal unit replaced. -/
def Part.setJournal (p : Part) (j : JournalUnit) : Part := { p with journal := j }

/-- The place in the act is as it was: sequencer state, current section and pass. -/
def samePlace (p t : Part) : Prop :=
  t.seq.state = p.seq.state ∧ t.seq.current = p.seq.current ∧ t.seq.pass = p.seq.pass

/-- A beat edge captured at `t` has been confirmed for 2 ms (R24). -/
def State.pulseReady (s : State) (i : BeatInput) (t : Nat) : Prop :=
  s.part.enabled = true ∧ s.part.clock.filter i = .confirming t ∧ t + 2000 ≤ s.part.now

/-- Input selection lets the input's pulses go on (R25). -/
def goesOn (mode : InputMode) (i : BeatInput) : Prop :=
  mode = .merge ∨ (mode = .a ∧ i = .a) ∨ (mode = .b ∧ i = .b)

/-- The pulse lies less than pulse_min after the last real pulse (R26). -/
def Clock.isBounce (c : Clock) (t : Nat) : Prop := ∃ last, c.lastPulse = some last ∧ t < last + c.profile.pulseMin * 1000

/-- A pulse accepted in a PULSED section (R24 to R26). -/
def State.pulseAccepted (s : State) (i : BeatInput) (t : Nat) : Prop :=
  s.pulseReady i t ∧ goesOn s.part.clock.profile.inputMode i ∧ ¬ s.part.clock.isBounce t ∧
    s.part.seq.currentRec.kind = .pulsed

/-- The deviation of an interval from a period, in ‰ (2.7). -/
def deviates (interval period : Nat) : Nat := ((interval : Int) - (period : Int)).natAbs * 1000 / period

/-- A press whose 10 ms confirmation has ended (R140). -/
def State.pressed (s : State) (k : Key) : Prop :=
  s.part.enabled = true ∧ ∃ t, s.part.console.filters.get k = .confirmingPress t ∧ t + 10000 ≤ s.part.now

/-- A key's filter held after its press (R140). -/
def Console.hold (c : Console) (k : Key) : Console := { c with filters := c.filters.set k .held }

/-- The absent word (R188). -/
def absent : Nat := 0xFFFFFFFF

/-- Whether a count is a place in a section: below the length, or 0 in a CALLED section (R157). -/
def goodCount (sec : SectionRec) (count : Nat) : Prop :=
  match sec.kind with
  | .called => count = 0
  | .pulsed | .timed => count < sec.length

/-- The clock as an arming leaves it (R32, R42). -/
def armedClock (c : Clock) (sec : SectionRec) (count : Nat) : Clock :=
  let clamp := fun period => max (c.profile.pulseMin * 1000) (min (c.profile.pulseMax * 1000) period)
  match sec.kind with
  | .pulsed =>
    { c with
      state := .armed, c0 := count, t0 := 0, period := clamp (sec.hint * 1000), lastPulse := none, run := 0, coast := 0
      fh := 0 }
  | .called =>
    { c with
      state := .untracked, start := c.showTime, c0 := 0, t0 := 0, run := 0, coast := 0, fh := 0, period := clamp c.period }
  | .timed =>
    { c with
      state := .untracked, start := (c.showTime : Int) - (count * 10000 : Nat), c0 := 0, t0 := 0, run := 0, coast := 0, fh := 0
      period := clamp c.period }

/-- The cues of the prime group that pass R18's checks, in group order (R84): those of the last group of the list before the start point at
a count (R82). None where the start point is the first group. -/
def primeCues (m : Memory) (q : Sequencer) (sect count : Nat) : List Cue :=
  match (startPoint m (q.sectionAt sect) count).2 with
  | some place => (readPrime m (q.sectionAt sect) q.usedLength sect true none place.left place.offset).1
  | none => []

/-- The last detail word of an ARM or JUMP (R157): the first cue id of the prime group shown, or none. -/
def primedWord (cues : List Cue) : Nat := optWord (cues.head?.map fun c => c.id.toNat)

/-- The shadow a cue's title gives a lane at a show time (R92): its text with the cue's dwells, or BLANK with dwells 0. -/
def shownAs (c : Cue) (i : LaneIx) (now : Nat) : Shadow :=
  { text := c.textFor i, cue := some c.id, shown := now
    minDwell := if (c.textFor i).isSome then c.minDwell else 0
    maxDwell := if (c.textFor i).isSome then c.maxDwell else 0 }

/-- A BLANK shadow with no cue, shown at a show time (R92). -/
def blankFrom (now : Nat) : Shadow := { text := none, cue := none, shown := now, minDwell := 0, maxDwell := 0 }

/-- From `p` to `q` a section was entered in the next pass, and SECTION is set (R72). -/
def entered (p q : Part) (sect : Nat) : Prop :=
  q.seq.state = p.seq.state ∧ q.seq.current = some sect ∧ q.seq.pass = p.seq.pass + 1 ∧ q.regs.notice.getLsbD 4 = true

/-- The act has ended at a section end (R74): the clock STOPPED (R29), the window, the history and the held next section gone, CLOCK
and END set. -/
def actEnded (q : Part) : Prop :=
  q.clock.state = .stopped ∧ q.clock.c0 = 0 ∧ q.clock.t0 = 0 ∧ q.clock.run = 0 ∧ q.clock.coast = 0 ∧ q.clock.fh = 0 ∧
    q.clock.start = 0 ∧ q.clock.lastPulse = none ∧ q.seq.state = .ended ∧ q.seq.window = [] ∧ q.seq.history = [] ∧
    q.seq.heldNext = none ∧ q.seq.vampExit = false ∧ q.regs.notice.getLsbD 3 = true ∧ q.regs.notice.getLsbD 5 = true

/-- The clock of a section that keeps no count, from a start time (R31, R42). -/
def untrackedFrom (c : Clock) (start : Int) : Prop :=
  c.state = .untracked ∧ c.start = start ∧ c.c0 = 0 ∧ c.t0 = 0 ∧ c.run = 0 ∧ c.coast = 0 ∧ c.fh = 0

/-- A GO cue of the next pass stands first behind the entries of the current pass, so that a CALLED section entered now waits for GO. -/
def Sequencer.goNext (q : Sequencer) : Prop :=
  ∃ e rest, (q.window.filter fun x => decide (x.key.pass ≠ q.pass)) = e :: rest ∧ e.key.pass = q.pass + 1 ∧ e.cue.trigger = .go

/-- What the current section resolves to (R73): itself in a vamp whose exit is not armed, else its cut, else its own successor. -/
def Sequencer.resolvesTo (q : Sequencer) (sect : Nat) : Successor :=
  if q.currentRec.vamp = true ∧ q.vampExit = false then .next sect
  else match q.cutOf sect with
    | some target => .next target
    | none => q.currentRec.successor

/-- The loader has begun the next pass (R77). -/
def Sequencer.loadsNext (q : Sequencer) : Prop :=
  (∃ pass sect offset index left lost, q.cursor = .reading pass sect offset index left lost ∧ pass ≠ q.pass) ∨
    (q.cursor = .finished ∧ q.heldNext ≠ some .stop)

/-- The head group's first entry can be shown by an expiry: its due time has come and is not yet marked so, in a RUNNING
sequencer where no CALLED pass is over. -/
def Sequencer.headDue (q : Sequencer) (e : Entry) (rest : List Entry) (now : Nat) : Prop :=
  q.state = .running ∧ q.window = e :: rest ∧ e.state = .waiting ∧ e.reached = false ∧ q.calledOver = false ∧
    ∃ d, e.due = some d ∧ d ≤ now ∧ d < Config.maxTime

/-- The status block shows the part and the writer's count (R182; 11.5). -/
def Part.statusShown (p : Part) : Prop :=
  p.mem.word 0x40 = p.regs.generation.toNat ∧
    (∀ x ∈ seqStatus p.seq ++ clockStatus p.clock ++ journalStatus p.journal, p.mem.word x.1 = x.2 % 4294967296) ∧
    ∀ i, ∀ x ∈ laneStatus i (p.lane i), p.mem.word x.1 = x.2 % 4294967296

/-- The generation word is odd while an update is under way and even between updates, and the status block of a running part shows
it once the update under way is written whole (R182, R183). -/
def State.statusRight (s : State) : Prop :=
  s.part.regs.generation.toNat % 2 = (if s.part.regs.update = [] then 0 else 1) ∧
    (s.part.enabled = true → s.part.finishUpdate.statusShown)

/-- The profile's values lie in their ranges (R27). -/
def Profile.inRange (f : Profile) : Prop :=
  60 ≤ f.pulseMin ∧ f.pulseMin ≤ 1000 ∧ 1000 ≤ f.pulseMax ∧ f.pulseMax ≤ 6000 ∧ f.pulseMin < f.pulseMax ∧ 1 ≤ f.wt ∧
    f.wt ≤ 65536 ∧ 10 ≤ f.lockIn ∧ f.lockIn ≤ 500 ∧ f.lockIn ≤ f.lockOut ∧ f.lockOut ≤ 900 ∧ 1 ≤ f.lockRun ∧ f.lockRun ≤ 8 ∧
    100 ≤ f.lateMargin ∧ f.lateMargin ≤ 900 ∧ f.coastLimit ≤ 8 ∧ 1 ≤ f.horizon ∧ f.horizon ≤ 16 ∧ f.goLockout ≤ 2000

/-- A lane's configuration lies in its ranges (R89). -/
def LaneConfig.inRange (c : LaneConfig) : Prop :=
  1 ≤ c.depth ∧ c.depth ≤ 2 ∧ 1 ≤ c.faultLimit ∧ c.faultLimit ≤ 15 ∧ 5 ≤ c.ackTimeout ∧ c.ackTimeout ≤ 250 ∧
    50 ≤ c.silenceTimeout ∧ c.silenceTimeout ≤ 2000

/-- Every setting lies in its range: show time in 48 bits (R22), the profile (R27), the lanes (R89), the alert level (R172) and
the lost count in 32 bits (R170). -/
def State.settingsRight (s : State) : Prop :=
  s.part.clock.showTime ≤ Config.maxTime ∧ s.part.clock.profile.inRange ∧ (∀ i, (s.part.lane i).cfg.inRange) ∧
    1 ≤ s.part.journal.alert ∧ s.part.journal.alert ≤ 4096 ∧ s.part.journal.lost ≤ 4294967295

/-- Every list keeps its size: the window's 8 entries (R63), the history's 4 groups (R79), each no larger than a window, and the
6 frames of an outstanding list (R128). -/
def State.listsRight (s : State) : Prop :=
  s.part.seq.window.length ≤ 8 ∧ s.part.seq.history.length ≤ 4 ∧ (∀ g ∈ s.part.seq.history, g.entries.length ≤ 8) ∧
    ∀ i, (s.part.lane i).outstanding.length ≤ 6

/-- A lane after the OPEN of a frame (R117, R128): the next sequence number, OPEN on the line for a character time, the frame's
other characters in flight, and the frame outstanding and not yet closed. -/
def opened (l : Lane) (now : Nat) (kind : FrameKind) (buffer : Option (Fin 2)) (token : Nat) (cue : Option Half)
    (content : List Byte) (attempt : Nat) : Lane :=
  let f : InFlight :=
    { kind := kind, seq := l.sequence, buffer := buffer, token := token
      left := (frameChars (kind.code :: l.sequence :: content)).drop 1 }
  let line := { l.tx with lineOut := some 0xF5, boundary := now + l.cfg.baud.charTime }
  let express := decide (kind = .show_ ∨ kind = .clear)
  { l with
    sequence := l.sequence + 1
    tx := if express then { line with express := some f } else { line with normal := some f }
    outstanding :=
      l.outstanding ++
        [{ kind := kind, seq := l.sequence, attempt := attempt, buffer := buffer, token := token, cue := cue
           content := content, retry := l.cfg.retry, closing := none }] }

/-- A record of the lane holds a title for a window entry (R97, R98). -/
def Lane.owns (l : Lane) (b : Fin 2) (key : EntryKey) : Prop := (l.rec_ b).state ≠ .free ∧ (l.rec_ b).owner = .entry key

/-- A buffer is the late path's choice (R103): the lowest-numbered FREE record below the staging limit, else the record of the
latest of the window's entries that own one. -/
def Lane.lateRecord (l : Lane) (window : List Entry) (b : Fin 2) : Prop :=
  ((l.rec_ b).state = .free ∧ b.val < l.limit ∧ ∀ c, c < b → (l.rec_ c).state ≠ .free) ∨
    ((∀ c : Fin 2, c.val < l.limit → (l.rec_ c).state ≠ .free) ∧
      ∃ before e after, window = before ++ e :: after ∧ l.owns b e.key ∧ (∀ c, c < b → ¬ l.owns c e.key) ∧
        ∀ x ∈ after, ∀ c, ¬ l.owns c x.key)

/-- A queued express frame is relevant (R125): a SHOW while its record is the shadow's and holds its title and the lane is not
blanked, a CLEAR while the shadow is BLANK or the lane is blanked. -/
def Lane.wants (l : Lane) (x : Express) : Prop :=
  match x.what with
  | .show_ b token _ =>
    l.blanked = false ∧ (l.rec_ b).state ≠ .free ∧ (l.rec_ b).token = token ∧ (l.rec_ b).owner = .shadow
  | .clear => l.shadow.text = none ∨ l.blanked = true

/-- An express frame can begin (R123). -/
def Lane.expressCan (l : Lane) : Prop := l.express ≠ [] ∧ l.outstanding.length < 6

/-- What the transmitter finds at a character boundary (R125): where it is about to open an express frame, the queue from its first
relevant frame on, and else the lane as it stands. -/
def Lane.removesStale (l : Lane) : Prop :=
  let opening := l.tx.express = none ∧ (l.tx.suspended = true ∨ l.tx.normal = none) ∧ l.outstanding.length < 6
  (¬ opening → l.atBoundary = l) ∧
  (opening → ∀ gone left, l.express = gone ++ left → (∀ x ∈ gone, ¬ l.wants x) → (∀ x, left.head? = some x → l.wants x) →
    l.atBoundary.express = left) ∧
  l.atBoundary.tx = l.tx ∧ l.atBoundary.outstanding = l.outstanding ∧ l.atBoundary.shadow = l.shadow ∧
    l.atBoundary.cfg = l.cfg ∧ l.atBoundary.link = l.link

/-- The transmitter's choice at a character boundary, in R123's order: the express frame in flight; in a suspension the next express
frame, else RESUME; with a normal frame in flight its next character inside an escape pair and after its CLOSE, else CANCEL, SUSPEND, its
next character; else the next express frame, the next normal frame, FILL. -/
def Lane.sendsInOrder (l : Lane) (i : LaneIx) (window : List Entry) : Prop :=
  let sends := l.choice i window
  (∀ f, l.tx.express = some f → sends = .expressChar f) ∧
  (l.tx.express = none → l.tx.suspended = true →
    (∀ x rest, l.express = x :: rest → l.outstanding.length < 6 → sends = .openExpress x) ∧
    (¬ l.expressCan → sends = .resume)) ∧
  (∀ f, l.tx.express = none → l.tx.suspended = false → l.tx.normal = some f →
    let whole := l.tx.lineOut = some 0xF7 ∨ f.left = []
    (whole → sends = .normalChar f) ∧
    (¬ whole → l.tx.cancelDue = true → sends = .cancel) ∧
    (¬ whole → l.tx.cancelDue = false → l.expressCan → sends = .suspend) ∧
    (¬ whole → l.tx.cancelDue = false → ¬ l.expressCan → sends = .normalChar f)) ∧
  (l.tx.express = none → l.tx.suspended = false → l.tx.normal = none →
    (∀ x rest, l.express = x :: rest → l.outstanding.length < 6 → sends = .openExpress x) ∧
    (¬ l.expressCan → sends = match l.nextNormal i window with | some n => .openNormal n | none => .fill))

/-- The first waiting normal frame by R124's order and the link state: in LIVE a late STAGE or the DROP its buffer is owed, an owed
DROP, a resend, a STAGE ahead of a fire for the earliest target without a record; in PAUSED a late STAGE and a resend the shadow owns; in
SYNC a HELLO. None where the outstanding list holds 6 frames or 4 normal ones. -/
def Lane.normalInOrder (l : Lane) (i : LaneIx) (window : List Entry) : Prop :=
  let waits := l.nextNormal i window
  let room := l.outstanding.length < 6 ∧ (l.outstanding.filter fun e => e.kind.normal).length < 4
  let staging := l.link = .live ∨ l.link = .paused
  (¬ room → waits = none) ∧
  (∀ b rest, room → staging → l.late = b :: rest →
    waits = some (if l.drops[b] = true then .drop b else .lateStage b)) ∧
  (room → l.link = .live → l.late = [] →
    (l.drops[0] = true → waits = some (.drop 0)) ∧
    (l.drops[0] = false → l.drops[1] = true → waits = some (.drop 1)) ∧
    (l.drops[0] = false → l.drops[1] = false →
      (∀ r rest, l.resends = r :: rest → waits = some (.resend r)) ∧
      (l.resends = [] →
        (∀ before e after t b, l.targets i window = before ++ e :: after → (∀ x ∈ before, ∃ c, l.owns c x.key) →
          (∀ c, ¬ l.owns c e.key) → e.textFor i = some t → (l.rec_ b).state = .free → b.val < l.limit →
          (∀ c, c < b → (l.rec_ c).state ≠ .free) → waits = some (.ahead b e t)) ∧
        ((∀ x ∈ l.targets i window, ∃ c, l.owns c x.key) → waits = none) ∧
        ((∀ c : Fin 2, c.val < l.limit → (l.rec_ c).state ≠ .free) → waits = none)))) ∧
  (room → l.link = .paused → l.late = [] →
    (∀ before r after, l.resends = before ++ r :: after → (∀ x ∈ before, (l.rec_ x.buffer).owner ≠ .shadow) →
      (l.rec_ r.buffer).owner = .shadow → waits = some (.resend r)) ∧
    ((∀ x ∈ l.resends, (l.rec_ x.buffer).owner ≠ .shadow) → waits = none)) ∧
  (room → l.link = .sync → waits = if l.helloWaiting = true then some .hello else none) ∧
  (l.link = .off ∨ l.link = .fault → waits = none)

/-- The characters of a frame fed to the receiver in turn: the state it comes to and the reply its last character gives. -/
def receiveAll (r : Receiver) : List Byte → Receiver × Option Reply
  | [] => (r, none)
  | [b] => receive r b false
  | b :: rest => receiveAll (receive r b false).1 rest

end Sys2Proof.Machine

open Sys2Proof Sys2Proof.Machine

/-! ### The queue and the step -/

/-- Taking a command off the queue's front runs exec on it with the queue's rest. -/
def Obligations.StepTakesFront : Prop :=
  ∀ (s : State) (c : Instr) (rest : List Instr), s.pending = c :: rest → step s = exec c { s with pending := rest }

/-- With no command waiting, a halted part holds (R22, R183), a running part writes the next word of a status update under way,
which makes the generation word even with its last (R182), and a running part with nothing of its own to do counts one
microsecond, up to 2^48 − 1 (R22). That the step on an empty queue is one of these is the model's choice (log entries 1 and 7). -/
def Obligations.EmptyQueueHoldsOrTicks : Prop :=
  ∀ s : State, s.pending = [] →
    (s.part.enabled = false → step s = .next s) ∧
    (∀ k v rest, s.part.enabled = true → s.part.regs.update = (k, v) :: rest →
      step s = .next
        (s.withPart
          { s.part with
            mem := s.part.mem.setWord (0x40 + 4 * k.val) v.toNat
            regs := { s.part.regs with
              update := rest
              generation := if rest = [] then s.part.regs.generation + 1 else s.part.regs.generation } })) ∧
    (s.part.enabled = true → s.part.own = .tick →
      step s = .next
        (s.withPart (s.part.setClock { s.part.clock with showTime := min 281474976710655 (s.part.clock.showTime + 1) })))

/-! ### Invariants -/

/-- The machine after reset meets every invariant stated below. -/
def Obligations.ResetMeetsInvariants : Prop :=
  State.reset.outputsRight ∧ State.reset.memoryRight ∧ State.reset.statusRight ∧ State.reset.settingsRight ∧
    State.reset.listsRight

/-- The notice line and the lamps stay at their conditions over every step (R149, R180). -/
def Obligations.StepKeepsOutputs : Prop :=
  ∀ s t : State, s.outputsRight → step s = .next t → t.outputsRight

/-- Book memory, as the model lists it, stays in its canonical form over every step (log entry 2). -/
def Obligations.StepKeepsMemoryForm : Prop :=
  ∀ s t : State, s.memoryRight → step s = .next t → t.memoryRight

/-- The status block of a running part shows it after every step, once the update under way is written whole, and its generation
word is odd just while one is (R47, R88, R113, R171, R182). -/
def Obligations.StepKeepsStatusBlock : Prop :=
  ∀ s t : State, s.statusRight → step s = .next t → t.statusRight

/-- Every setting stays in its range over every step (R22, R27, R89, R170, R172). -/
def Obligations.StepKeepsSettings : Prop :=
  ∀ s t : State, s.settingsRight → step s = .next t → t.settingsRight

/-- The window, the history and the outstanding lists keep their sizes over every step (R63, R79, R128). -/
def Obligations.StepKeepsLists : Prop :=
  ∀ s t : State, s.listsRight → step s = .next t → t.listsRight

/-- The part writes the status block, the journal ring and the request slots, and nothing else of book memory: no command but a
power-up reset changes any other byte (11.1, R168, R188). -/
def Obligations.BookIsNeverWritten : Prop :=
  ∀ (c : Instr) (s t : State), c ≠ .powerUpReset → exec c s = .next t →
    ∀ a, ¬ ownByte a → ¬ slotByte a → t.part.mem.byte a = s.part.mem.byte a

/-! ### The register window (chapter 10) -/

/-- The values a reset leaves (R22, R27, R29, R89, R92, R170, R172, R173, R184). Power-up reset puts every block at its reset value,
with the start cause POWER (R184); what memory reads as then, and that the key inputs keep their levels, are the model's choices
(log entries 2 and 4). Soft reset and PCIe bus reset put every block at
its reset value with the start cause SOFT, and keep book memory but for the slot being executed and every other slot found TAKEN,
which are answered ABORTED with their tags (R185, R167). That the slot being executed is answered whatever its owner reads, with the
tag held since the take, is the model's choice (log entry 39). -/
def Obligations.ResetsRestore : Prop :=
  (∀ (mem : Memory) (levels : PerKey Bool) (cause : StartCause),
    let r := Machine.Part.resetWith mem levels cause
    r.mem = mem ∧ r.console.levels = levels ∧ r.regs.enable = false ∧ r.regs.notice = 0 ∧ r.regs.noticeEn = 0 ∧
      r.regs.timeHi = 0 ∧
      r.clock =
        { showTime := 0, filterA := .idle, filterB := .idle, lastPulse := none, state := .stopped, c0 := 0, t0 := 0
          period := 500000, run := 0, coast := 0, fh := 0, start := 0
          profile :=
            { inputMode := .a, pulseMin := 150, pulseMax := 3000, wt := 16384, lockIn := 80, lockOut := 250, lockRun := 3
              lateMargin := 300, coastLimit := 2, horizon := 2, goLockout := 250 } } ∧
      r.seq.state = .empty ∧ r.seq.book = none ∧ r.seq.window = [] ∧ r.seq.history = [] ∧ r.seq.lastFire = none ∧
      r.seq.vampExit = false ∧ (∀ s, r.seq.cutOf s = none) ∧ r.seq.lastError.code = .none ∧
      (∀ i,
        (r.lane i).cfg =
          { enable := false, baud := .b500k, language := 0x2D2D, depth := 2, retry := .resendOnce, faultLimit := 3
            ackTimeout := 30, silenceTimeout := 250 } ∧
        (r.lane i).link = .off ∧ (r.lane i).screen = none ∧ (r.lane i).blanked = false ∧
        (r.lane i).shadow = { text := none, cue := none, shown := 0, minDwell := 0, maxDwell := 0 } ∧
        (r.lane i).outstanding = [] ∧ (r.lane i).express = [] ∧ (r.lane i).sequence = 0 ∧ (r.lane i).sent = 0 ∧
        (r.lane i).acknowledged = 0 ∧ (r.lane i).misses = 0 ∧ (r.lane i).badReplies = 0 ∧ (r.lane i).strays = 0) ∧
      r.console.filters = { go := .idle, back := .idle, hold := .idle, blank := .idle } ∧ r.console.lastGo = none ∧
      r.requests.scan = .idle ∧ r.requests.rescan = false ∧ r.requests.periodAt = none ∧
      r.journal = { w := 0, lost := 0, alert := 1, countRecords := false, startCause := cause }) ∧
  (∀ s : State,
    exec .powerUpReset s =
      .next (s.withPart (Machine.Part.resetWith { cells := [] } s.part.console.levels .power))) ∧
  ∀ (c : Instr) (s : State), c = .softReset ∨ c = .pcieBusReset →
    ∃ t, exec c s = .next t ∧ t.pending = s.pending ∧
      t.part = Machine.Part.resetWith t.part.mem s.part.console.levels .soft ∧
      (∀ a, ¬ slotByte a → t.part.mem.byte a = s.part.mem.byte a) ∧
      ∀ n : SlotIx,
        (∀ tag job, s.part.requests.scan = .executing n tag job → t.part.mem.answered n tag .aborted []) ∧
        ((∀ tag job, s.part.requests.scan ≠ .executing n tag job) →
          (s.part.mem.owner n = ownerTaken → t.part.mem.answered n (s.part.mem.tag n) .aborted []) ∧
          (s.part.mem.owner n ≠ ownerTaken → ∀ a, inSlot n a → t.part.mem.byte a = s.part.mem.byte a))

/-- Start-up (R186): ENABLE 1, show time 0 and running, W at H with the START record there and the lost count discarded (R173), a
scan begun and its period at 5 ms (R151), the console watching with no accepted GO (R140, R142), each enabled lane in SYNC and
every shown time 0 (R91). The sequencer, the profile and the rest of the clock stand. -/
def Obligations.StartUpBegins : Prop :=
  ∀ s : State, s.part.enabled = false →
    ∃ t, exec .startUp s = .next t ∧ t.pending = s.pending ∧
      EndsAs (fun p => { p.kept with lanes := s.part.lanes }) noByte s.part
        { s.part with
          regs := { s.part.regs with enable := true }
          clock := { s.part.clock with showTime := 0 }
          console :=
            { s.part.console with
              lastGo := none
              filters :=
                { go := if s.part.console.levels.go then .held else .idle
                  back := if s.part.console.levels.back then .held else .idle
                  hold := if s.part.console.levels.hold then .held else .idle
                  blank := if s.part.console.levels.blank then .held else .idle } }
          requests := { scan := .scanning 0, rescan := false, replaceUsed := false, periodAt := some 5000 }
          journal := { s.part.journal with startCause := .resume } } t.part ∧
      t.part.journal.lost = 0 ∧
      t.part.journal.w =
        s.part.readMark + 1 +
          BitVec.ofNat 32 (allLanes.filter fun i => (s.part.lane i).cfg.enable).length ∧
      t.part.mem.holds s.part.readMark
        (startRecord s.part.journal.startCause s.part.journal.w.toNat s.part.readMark.toNat s.part.journal.lost) 0 ∧
      ∀ i,
        (t.part.lane i).cfg = (s.part.lane i).cfg ∧ (t.part.lane i).blanked = (s.part.lane i).blanked ∧
        (t.part.lane i).sequence = (s.part.lane i).sequence ∧ (t.part.lane i).sent = (s.part.lane i).sent ∧
        (t.part.lane i).shadow = { (s.part.lane i).shadow with shown := 0 } ∧
        ((s.part.lane i).cfg.enable = false → (t.part.lane i).link = (s.part.lane i).link) ∧
        ((s.part.lane i).cfg.enable = true →
          (t.part.lane i).link = .sync ∧ (t.part.lane i).screen = none ∧ (t.part.lane i).helloWaiting = true ∧
            (t.part.lane i).outstanding = [] ∧ (t.part.lane i).express = [] ∧ (t.part.lane i).missCounter = 0)

/-- Halt (R187): ENABLE 0, show time held, the clock STOPPED with its filters idle and a CLOCK record with cause HALT where it was
not (R24, R44, R45), the act gone (R87), every lane OFF with its shadow, blanked flag and counters kept (R91), the console
unwatched (R140), the request unit idle and a long request ABORTED (R167), and no status update left under way (R183). -/
def Obligations.HaltEnds : Prop :=
  ∀ s : State, s.part.enabled = true →
    ∃ t, exec .halt s = .next t ∧ t.pending = s.pending ∧ s.part.noticesStay t.part ∧ t.outputsRight ∧
      t.part.regs.enable = false ∧ t.part.regs.noticeEn = s.part.regs.noticeEn ∧
      t.part.regs.timeHi = s.part.regs.timeHi ∧
      t.part.clock =
        { s.part.clock with
          filterA := .idle, filterB := .idle, lastPulse := none, state := .stopped, c0 := 0, t0 := 0, run := 0, coast := 0
          fh := 0, start := 0 } ∧
      (s.part.seq.state = .running ∨ s.part.seq.state = .ended →
        t.part.seq =
          { s.part.seq with
            state := .loaded, window := [], history := [], lastFire := none, vampExit := false, current := none
            heldNext := none, cursor := .finished, deferAt := none, pass := 0 }) ∧
      (s.part.seq.state = .loading →
        t.part.seq = { s.part.seq with state := .empty, book := none, lastError := LoadError.none }) ∧
      (s.part.seq.state = .empty ∨ s.part.seq.state = .loaded → t.part.seq = s.part.seq) ∧
      (∀ i,
        (t.part.lane i).link = .off ∧ (t.part.lane i).screen = none ∧ (t.part.lane i).outstanding = [] ∧
          (t.part.lane i).express = [] ∧ (t.part.lane i).maxDwellAt = none ∧ (t.part.lane i).missCounter = 0 ∧
          (t.part.lane i).cfg = (s.part.lane i).cfg ∧ (t.part.lane i).shadow = (s.part.lane i).shadow ∧
          (t.part.lane i).blanked = (s.part.lane i).blanked ∧ (t.part.lane i).sequence = (s.part.lane i).sequence ∧
          (t.part.lane i).sent = (s.part.lane i).sent ∧ (t.part.lane i).acknowledged = (s.part.lane i).acknowledged ∧
          (t.part.lane i).misses = (s.part.lane i).misses ∧ (t.part.lane i).badReplies = (s.part.lane i).badReplies ∧
          (t.part.lane i).strays = (s.part.lane i).strays) ∧
      t.part.console.filters = { go := .idle, back := .idle, hold := .idle, blank := .idle } ∧
      t.part.console.lastGo = none ∧ t.part.console.levels = s.part.console.levels ∧
      t.part.requests = { scan := .idle, rescan := false, replaceUsed := false, periodAt := none } ∧
      t.part.regs.update = [] ∧
      t.part.journal.alert = s.part.journal.alert ∧ t.part.journal.startCause = s.part.journal.startCause ∧
      (s.part.clock.state ≠ .stopped →
        s.part.appended t.part [clockRecord .halt s.part.clock.state t.part.clock] ∧
          t.part.regs.notice.getLsbD 3 = true) ∧
      (∀ n tag job, s.part.requests.scan = .executing n tag job →
        t.part.mem.answered n tag .aborted [] ∧ t.part.regs.notice.getLsbD 0 = true ∧
          ∀ a, ¬ ownByte a → ¬ inSlot n a → t.part.mem.byte a = s.part.mem.byte a) ∧
      ((∀ n tag job, s.part.requests.scan ≠ .executing n tag job) →
        ∀ a, ¬ ownByte a → t.part.mem.byte a = s.part.mem.byte a)

/-- SCAN and the scan period (R151): an ask begins a scan at slot 0 in an idle unit and sets rescan pending otherwise; a SCAN
write while ENABLE is 0 does nothing, and the period falls due again 5 ms on. A scan reads the slots in ascending order, takes the
request of a SUBMITTED one and passes any other by (R152); behind slot 31 rescan pending begins a scan at slot 0, and else the unit
is idle (R151). A request command whose slot is not SUBMITTED changes nothing (R150). That a scan's read is one step of its own,
behind the expiries that have come, is the model's choice (log entries 1, 3 and 6). -/
def Obligations.ScansAreAskedFor : Prop :=
  ∀ (s : State) (v : Word),
    let asked := fun (u : RequestUnit) => if u.scan = .idle then { u with scan := .scanning 0 } else { u with rescan := true }
    (s.part.enabled = true → exec (.scan v) s = .next (s.withPart (s.part.setRequests (asked s.part.requests)).outputs)) ∧
    (s.part.enabled = false → exec (.scan v) s = .next (s.withPart s.part.outputs)) ∧
    (s.part.enabled = true → ∀ t, s.part.requests.periodAt = some t → t ≤ s.part.now →
      Runs .scanPeriodExpiry s Machine.Part.kept
        (s.part.setRequests (asked { s.part.requests with periodAt := some (t + 5000) })) fun q =>
          q.journal = s.part.journal ∧ q.regs.notice = s.part.regs.notice) ∧
    (∀ k, s.pending = [] → s.part.enabled = true → s.part.regs.update = [] → s.part.expiries = [] →
      s.part.requests.scan = .scanning k →
      (∀ n : SlotIx, n.val = k →
        let on := s.withPart (s.part.setRequests { s.part.requests with scan := .scanning (k + 1) })
        (s.part.mem.owner n = ownerSubmitted → step s = exec (s.part.mem.requestIn n) on) ∧
        (s.part.mem.owner n ≠ ownerSubmitted → step s = .next on)) ∧
      (32 ≤ k → s.part.requests.rescan = true →
        step s = .next
          (s.withPart (s.part.setRequests { s.part.requests with scan := .scanning 0, rescan := false }))) ∧
      (32 ≤ k → s.part.requests.rescan = false →
        step s = .next (s.withPart (s.part.setRequests { s.part.requests with scan := .idle })))) ∧
    ∀ (n : SlotIx) (m : Memory), s.part.mem.owner n ≠ ownerSubmitted → exec (m.requestIn n) s = .next s

/-- NOTICE's bits written as 1 are cleared, NOTICE_EN is written whole, and the line and lamps follow; nothing else changes
(R180). -/
def Obligations.NoticeRegistersWrite : Prop :=
  ∀ (s : State) (v : Word),
    exec (.noticeClear v) s =
      .next (s.withPart
        (s.part.setRegs { s.part.regs with notice := s.part.regs.notice &&& ~~~ (v.setWidth 7) }).outputs) ∧
    exec (.noticeEnWrite v) s =
      .next (s.withPart (s.part.setRegs { s.part.regs with noticeEn := v.setWidth 7 }).outputs)

/-- A register write (R178, R179): CONTROL resets, starts or halts, SCAN, NOTICE and NOTICE_EN act as their own commands, every
other register and every write smaller than a word is ignored, and a write that repeats the ENABLE in force changes nothing. That a
word write off its alignment is ignored too is the model's choice (log entry 25). -/
def Obligations.RegisterWritesAct : Prop :=
  ∀ (s : State) (v : Word), s.outputsRight →
    exec (.registerWrite 0x08 .word v) s =
      (if v.getLsbD 1 then exec .softReset s else if v.getLsbD 0 then exec .startUp s else exec .halt s) ∧
    exec (.registerWrite 0x0C .word v) s = exec (.scan v) s ∧
    exec (.registerWrite 0x10 .word v) s = exec (.noticeClear v) s ∧
    exec (.registerWrite 0x14 .word v) s = exec (.noticeEnWrite v) s ∧
    (∀ o, o = 0x00 ∨ o = 0x04 ∨ o = 0x18 ∨ o = 0x1C → exec (.registerWrite o .word v) s = .next s) ∧
    (∀ o, exec (.registerWrite o .byte v) s = .next s ∧ exec (.registerWrite o .half v) s = .next s) ∧
    (∀ o, o.val % 4 ≠ 0 → exec (.registerWrite o .word v) s = .next s) ∧
    (s.part.enabled = true → exec .startUp s = .next s) ∧ (s.part.enabled = false → exec .halt s = .next s)

/-- IDENT and FEATURES read their constants, SCAN reads 0, CONTROL reads ENABLE with RESET 0, and no register's unused bits read
anything but 0 (R178, R179; 11.7). A read smaller than a word returns the bytes it addresses (R178). A read of TIME_LO of any size
copies bits 47..32 of show time into TIME_HI and returns its bytes of bits 31..0; a word read and TIME_HI together are the show time
of the read (R181). That the bytes beyond a register's last are 0, and the field that holds the answer, are the model's (log entries 18
and 25). -/
def Obligations.RegistersRead : Prop :=
  ∀ s : State,
    (s.part.readRegister 0x00 = 0x56420612 ∧ s.part.readRegister 0x04 = 0x19220206 ∧
      s.part.readRegister 0x08 = (if s.part.regs.enable then 1 else 0) ∧ s.part.readRegister 0x0C = 0 ∧
      (s.part.readRegister 0x10).toNat = s.part.regs.notice.toNat ∧
      (s.part.readRegister 0x14).toNat = s.part.regs.noticeEn.toNat ∧
      (s.part.readRegister 0x1C).toNat = s.part.regs.timeHi.toNat) ∧
    (∀ o : Fin 32,
      (s.part.hostRead o.val .byte).toNat = (s.part.readRegister (o.val / 4 * 4)).toNat / 256 ^ (o.val % 4) % 256 ∧
      (s.part.hostRead o.val .half).toNat = (s.part.readRegister (o.val / 4 * 4)).toNat / 256 ^ (o.val % 4) % 65536 ∧
      (o.val % 4 = 0 → s.part.hostRead o.val .word = s.part.readRegister o.val)) ∧
    (∀ (byte : Fin 4) (size : AccessSize), byte.val + size.bytes ≤ 4 → s.part.clock.showTime ≤ 281474976710655 →
      ∃ t, exec (.timeLoRead byte size) s = .next t ∧ t.pending = s.pending ∧
        t.part.regs.readData.toNat = s.part.clock.showTime / 256 ^ byte.val % 256 ^ size.bytes ∧
        (size = .word →
          (t.part.readRegister 0x1C).toNat * 4294967296 + t.part.regs.readData.toNat = s.part.clock.showTime) ∧
        (t.part.readRegister 0x1C).toNat = s.part.clock.showTime / 4294967296 ∧
        t.part =
          Machine.Part.outputs (s.part.setRegs
            { s.part.regs with readData := t.part.regs.readData, timeHi := t.part.regs.timeHi }))

/-! ### The clock unit (chapters 2 and 3) -/

/-- A leading edge makes an idle filter confirm from now, a release makes any filter idle, and nothing is watched while ENABLE
is 0 (R24). That a release taken before the pulse does so at the very end of the 2 ms too is the model's choice (log entry 33). -/
def Obligations.BeatInputsFilter : Prop :=
  ∀ (s : State) (i : BeatInput),
    exec (.beatInputEdge i) s =
      .next (s.withPart
        (if s.part.enabled = true ∧ s.part.clock.filter i = .idle then
          (s.part.setClock (s.part.clock.setFilter i (.confirming s.part.now))).outputs
        else s.part.outputs)) ∧
    exec (.beatInputRelease i) s =
      .next (s.withPart
        (if s.part.enabled then (s.part.setClock (s.part.clock.setFilter i .idle)).outputs else s.part.outputs))

/-- A confirmed pulse that input selection discards, or that bounces, or that meets a clock STOPPED or UNTRACKED leaves the filter
waiting and no other trace: no clock field, no record, no notice (R25, R26). -/
def Obligations.PulseDiscarded : Prop :=
  ∀ (s : State) (i : BeatInput) (t : Nat), s.pulseReady i t →
    (¬ goesOn s.part.clock.profile.inputMode i ∨ s.part.clock.isBounce t ∨
      (s.part.seq.idleHead ∧ (s.part.clock.state = .stopped ∨ s.part.clock.state = .untracked))) →
    Runs (.pulse i) s Machine.Part.kept (s.part.setClock (s.part.clock.setFilter i .waiting)) fun q =>
      q.journal = s.part.journal ∧ q.regs.notice = s.part.regs.notice

/-- The pulses that measure no interval and keep P. The first in ARMED starts the count at the arm count (R33); one in HELD
releases the hold at the next count (R40); one in COASTING, earlier than half a period after the synthesized count, retimes that
count, and else is the next one, the clock FOLLOWING again (R39). -/
def Obligations.PulseWithoutInterval : Prop :=
  ∀ (s : State) (i : BeatInput) (t : Nat), s.pulseAccepted i t →
    let c := s.part.clock.setFilter i .waiting
    (s.part.clock.state = .armed →
      Runs (.pulse i) s Machine.Part.still (s.part.setClock c) fun q =>
        q.clock = { c with t0 := t, state := .locking, run := 0, lastPulse := some t } ∧ samePlace s.part q) ∧
    (s.part.clock.state = .held → c.c0 + 1 < s.part.seq.currentRec.length →
      Runs (.pulse i) s Machine.Part.still (s.part.setClock c) fun q =>
        q.clock =
          { c with c0 := c.c0 + 1, t0 := t, state := .locking, run := 0, fh := 0, lastPulse := some t } ∧
        samePlace s.part q) ∧
    (s.part.clock.state = .coasting →
      let retimes := (t : Int) - (c.t0 : Int) < ((c.period / 2 : Nat) : Int)
      (retimes ∨ c.c0 + 1 < s.part.seq.currentRec.length) →
      Runs (.pulse i) s Machine.Part.still (s.part.setClock c) fun q =>
        q.clock =
          { c with
            c0 := if retimes then c.c0 else c.c0 + 1
            t0 := t, state := .following, coast := 0, lastPulse := some t } ∧
        samePlace s.part q)

/-- The pulses that measure an interval; the count advances at each. In LOCKING (R34) an over-long interval leaves P, any other
sets P, counts towards the lock within lock_in, and locks at lock_run. In FOLLOWING (R36) an over-long interval and one beyond
lock_out break the lock, and within lock_out P becomes the weighted mean. -/
def Obligations.PulseMeasuresInterval : Prop :=
  ∀ (s : State) (i : BeatInput) (t last : Nat), s.pulseAccepted i t → s.part.clock.lastPulse = some last →
    s.part.clock.c0 + 1 < s.part.seq.currentRec.length →
    let c := s.part.clock.setFilter i .waiting
    let next := { c with c0 := c.c0 + 1, t0 := t, lastPulse := some t }
    let run := if deviates (t - last) c.period ≤ c.profile.lockIn then c.run + 1 else 0
    (s.part.clock.state = .locking →
      Runs (.pulse i) s Machine.Part.still (s.part.setClock c) fun q =>
        q.clock =
          (if c.profile.pulseMax * 1000 < t - last then { next with run := 0 }
          else
            { next with
              run := run, period := t - last
              state := if c.profile.lockRun ≤ run then .following else .locking }) ∧
        samePlace s.part q) ∧
    (s.part.clock.state = .following →
      Runs (.pulse i) s Machine.Part.still (s.part.setClock c) fun q =>
        q.clock =
          (if c.profile.pulseMax * 1000 < t - last then { next with state := .locking, run := 0 }
          else if c.profile.lockOut < deviates (t - last) c.period then
            { next with state := .locking, run := 0, period := t - last }
          else
            { next with
              period := (c.profile.wt * (t - last) + (65536 - c.profile.wt) * c.period + 32768) / 65536 }) ∧
        samePlace s.part q)

/-- The pulse that would make c0 equal to L ends the section (R30, R31, R39, R72), one in COASTING where it is the next beat. A PULSED
section that follows is entered at count 0 with the pulse's time; before a TIMED one, and a CALLED one that waits for GO, the clock is
UNTRACKED from the pulse's time; each in the next pass, with SECTION set. Before a STOP the act ends (R74). -/
def Obligations.PulseEndsSection : Prop :=
  ∀ (s : State) (i : BeatInput) (t : Nat), s.pulseAccepted i t →
    let c := s.part.clock
    c.state = .locking ∨ c.state = .following ∨ c.state = .held ∨
      (c.state = .coasting ∧ ((c.period / 2 : Nat) : Int) ≤ (t : Int) - (c.t0 : Int)) →
    c.c0 + 1 = s.part.seq.currentRec.length → s.part.seq.entryRun ≠ 128 →
    let ends := fun (post : Part → Prop) =>
      Runs (.pulse i) s Machine.Part.still (s.part.setClock (c.setFilter i .waiting)) post
    (∀ next, s.part.seq.heldNext = some (.next next) →
      let kind := (s.part.seq.sectionAt next).kind
      (kind = .pulsed → ends fun q =>
        q.clock.c0 = 0 ∧ q.clock.t0 = t ∧ q.clock.lastPulse = some t ∧ entered s.part q next) ∧
      (kind = .timed ∨ (kind = .called ∧ s.part.seq.goNext) → ends fun q =>
        untrackedFrom q.clock t ∧ entered s.part q next)) ∧
    (s.part.seq.heldNext = some .stop → ends actEnded)

/-- When late detection falls due (R35): in LOCKING, FOLLOWING and COASTING alone, once show time − t0 is greater than
floor(P × (1000 + late margin) / 1000). -/
def Obligations.LateDetectionFallsDue : Prop :=
  ∀ c : Clock,
    ((c.lateAt.any fun t => decide (t ≤ c.showTime)) = true ↔
      (c.state = .locking ∨ c.state = .following ∨ c.state = .coasting) ∧
        c.t0 + c.period * (1000 + c.profile.lateMargin) / 1000 < c.showTime)

/-- Late detection (R37): FOLLOWING or COASTING below the coast limit synthesizes the count at t0 + P, and a synthesized count that
would make c0 equal to L ends the section at that time, as a pulse would (R30, R31, R72, R74); LOCKING, and a coast at its limit, hold at
fraction 63, where a DEFERRED head group at a position beyond the hold loses its due time and so stands WAITING for GO, its deferral gone
(R51, R55; log entry 31). An expiry that has not come changes nothing (log entry 9). -/
def Obligations.LateDetectionActs : Prop :=
  ∀ s : State, s.part.enabled = true → s.part.seq.currentRec.kind = .pulsed →
    let c := s.part.clock
    let due := c.t0 + c.period * (1000 + c.profile.lateMargin) / 1000 < c.showTime
    let coasts := (c.state = .following ∨ c.state = .coasting) ∧ c.coast < c.profile.coastLimit
    (due → coasts → c.c0 + 1 < s.part.seq.currentRec.length →
      Runs .lateDetection s Machine.Part.still s.part fun q =>
        q.clock = { c with state := .coasting, coast := c.coast + 1, c0 := c.c0 + 1, t0 := c.t0 + c.period } ∧
          samePlace s.part q) ∧
    (due → coasts → c.c0 + 1 = s.part.seq.currentRec.length → s.part.seq.entryRun ≠ 128 →
      let ends := fun (post : Part → Prop) => Runs .lateDetection s Machine.Part.still s.part post
      (∀ next, s.part.seq.heldNext = some (.next next) →
        let kind := (s.part.seq.sectionAt next).kind
        (kind = .pulsed → ends fun q =>
          q.clock = { c with state := .coasting, coast := c.coast + 1, c0 := 0, t0 := c.t0 + c.period } ∧
            entered s.part q next) ∧
        (kind = .timed ∨ (kind = .called ∧ s.part.seq.goNext) → ends fun q =>
          untrackedFrom q.clock ((c.t0 + c.period : Nat) : Int) ∧ entered s.part q next)) ∧
      (s.part.seq.heldNext = some .stop → ends actEnded)) ∧
    (due → (c.state = .locking ∨ ((c.state = .following ∨ c.state = .coasting) ∧ c.profile.coastLimit ≤ c.coast)) →
      Runs .lateDetection s Machine.Part.still s.part fun q =>
        q.clock = { c with state := .held, fh := 63, coast := 0 } ∧ samePlace s.part q ∧
          q.regs.notice.getLsbD 3 = true ∧
          ∀ e rest, s.part.seq.window = e :: rest → e.state = .deferred → e.cue.trigger = .atPos →
            e.key.pass = s.part.seq.pass → (s.part.seq.sectionAt e.key.sect).kind = .pulsed → c.c0 * 64 + 63 < e.cue.when_ →
            q.seq.window.head?.map Entry.state = some .waiting ∧ q.seq.deferAt = none ∧
              q.seq.lastFire = s.part.seq.lastFire) ∧
    (¬ due → Runs .lateDetection s Machine.Part.kept s.part nothingMore)

/-- The section timer at S + L × 10,000 (R42): a TIMED section that follows, or a CALLED one that waits for GO, begins there, and
before a PULSED one the clock is ARMED at count 0 with P from the section's hint (R32); each in the next pass. Before a STOP the act
ends (R74). -/
def Obligations.SectionTimerEnds : Prop :=
  ∀ (s : State) (sect : Nat), s.part.enabled = true → s.part.clock.state = .untracked →
    s.part.seq.current = some sect → s.part.seq.currentRec.kind = .timed →
    s.part.clock.start + (s.part.seq.currentRec.length * 10000 : Nat) ≤ (s.part.now : Int) → s.part.seq.entryRun ≠ 128 →
    let c := s.part.clock
    let ends := fun (post : Part → Prop) => Runs .sectionTimer s Machine.Part.still s.part post
    (∀ next, s.part.seq.heldNext = some (.next next) →
      let sec := s.part.seq.sectionAt next
      (sec.kind = .timed ∨ (sec.kind = .called ∧ s.part.seq.goNext) → ends fun q =>
        q.clock =
          { c with
            state := .untracked, start := c.start + (s.part.seq.currentRec.length * 10000 : Nat), c0 := 0, t0 := 0, run := 0
            coast := 0, fh := 0 } ∧
        entered s.part q next) ∧
      (sec.kind = .pulsed → ends fun q =>
        q.clock.state = .armed ∧ q.clock.c0 = 0 ∧
          q.clock.period = max (c.profile.pulseMin * 1000) (min (c.profile.pulseMax * 1000) (sec.hint * 1000)) ∧
          q.clock.lastPulse = none ∧ q.clock.run = 0 ∧ entered s.part q next)) ∧
    (s.part.seq.heldNext = some .stop → ends fun q => actEnded q ∧ q.clock.period = c.period)

/-- The HOLD key (R41, R146): a running clock is HELD at its interpolated fraction, and a DEFERRED head group at a position beyond the hold
keeps its deferral, to E; in any other clock state the press is IGNORED and leaves only its KEY record. -/
def Obligations.HoldKeyHolds : Prop :=
  ∀ s : State, s.pressed .hold →
    let c := s.part.clock
    let q := s.part.setConsole (s.part.console.hold .hold)
    ((c.state = .locking ∨ c.state = .following ∨ c.state = .coasting) → s.part.seq.currentRec.kind = .pulsed →
      Runs .holdKey s Machine.Part.still q fun t =>
        t.clock = { c with state := .held, fh := min 63 ((c.showTime - c.t0) * 64 / c.period), coast := 0 } ∧
          samePlace s.part t ∧ t.regs.notice.getLsbD 3 = true ∧
          ∀ e rest, s.part.seq.state = .running → s.part.seq.window = e :: rest → afterHead s.part.seq.window = [] →
            e.state = .deferred → e.cue.trigger = .atPos → e.key.pass = s.part.seq.pass →
            (s.part.seq.sectionAt e.key.sect).kind = .pulsed →
            c.c0 * 64 + min 63 ((c.showTime - c.t0) * 64 / c.period) < e.cue.when_ →
            s.part.now < s.part.earliestOf (headGroup s.part.seq.window) →
            t.seq.window.head?.map Entry.state = some .deferred ∧
              t.seq.deferAt = some (s.part.earliestOf (headGroup s.part.seq.window)) ∧
              t.seq.lastFire = s.part.seq.lastFire) ∧
    ((c.state = .stopped ∨ c.state = .armed ∨ c.state = .held ∨ c.state = .untracked) →
      Runs .holdKey s Machine.Part.kept q fun t =>
        s.part.appended t [keyRecord .hold .console .ignored none])

/-! ### The sequencer (chapters 3 and 4) -/

/-- A due expiry of the head group (R57, R66): it fires at once where no lane's dwell holds it back (R69), and is otherwise
DEFERRED to E (R70). The deferral expiry, once it has come, fires the head group (R70), and does nothing before (log entry 9). A
DEFERRED head of AT cues without KEEP is overtaken by a reached AT group behind it (R71): it leaves the window with its deferral, which
F, the history, the clock and every shadow outlive, and an OVERTAKEN record names both groups; the evaluation goes on with the group
behind it, which fires where no dwell holds it back, also where its own due expiry is what has come. -/
def Obligations.ExpiriesFireOrDefer : Prop :=
  (∀ (s : State) (e : Entry) (rest : List Entry), s.part.enabled = true → s.part.seq.headDue e rest s.part.now →
    let earliest := s.part.earliestOf (headGroup s.part.seq.window)
    (earliest ≤ s.part.now →
      Runs .dueExpiry s Machine.Part.still s.part fun q => q.seq.lastFire = some s.part.now) ∧
    (s.part.now < earliest → overtaken s.part.seq.window = false →
      Runs .dueExpiry s Machine.Part.kept
        (s.part.setSeq
          { s.part.seq with
            window :=
              (headGroup ({ e with reached := true } :: rest)).map (fun x => { x with state := .deferred }) ++
                afterHead (e :: rest)
            deferAt := some earliest }) nothingMore)) ∧
  (∀ (s : State) (t : Nat), s.part.enabled = true → s.part.seq.deferAt = some t →
    (t ≤ s.part.now → s.part.seq.window ≠ [] →
      Runs .deferralExpiry s Machine.Part.still s.part fun q => q.seq.lastFire = some s.part.now) ∧
    (s.part.now < t → Runs .deferralExpiry s Machine.Part.kept s.part nothingMore)) ∧
  (∀ (p : Part) (e n : Entry) (rest more : List Entry), p.seq.window = e :: rest → afterHead p.seq.window = n :: more →
    e.state = .deferred → e.reached = true → e.due ≠ none → e.cue.trigger = .atPos →
    (∀ x ∈ headGroup p.seq.window, x.cue.keep = false) → n.cue.trigger = .atPos → n.state ≠ .called → n.reached = true →
    let q := p.overtake
    p.evaluate = .again q ∧ q.seq.lastFire = p.seq.lastFire ∧ q.seq.history = p.seq.history ∧ q.seq.deferAt = none ∧
      q.clock = p.clock ∧ (∀ i, (q.lane i).shadow = (p.lane i).shadow) ∧
      (∃ added, q.seq.window.map Entry.key = (n :: more).map Entry.key ++ added) ∧
      (p.seq.cursor = .finished →
        p.appended q [overtakenRecord .byGroup e.cue.id (some n.cue.id) e.key e.due])) ∧
  ∀ (s : State) (e n : Entry) (rest more : List Entry) (d : Nat), s.part.enabled = true → s.part.seq.state = .running →
    s.part.seq.currentRec.kind = .pulsed → s.part.seq.window = e :: rest → afterHead s.part.seq.window = n :: more →
    e.state = .deferred → e.reached = true → e.due ≠ none → e.cue.trigger = .atPos →
    (∀ x ∈ rest.takeWhile Entry.isWith, x.due = none) → (∀ x ∈ headGroup s.part.seq.window, x.cue.keep = false) →
    n.cue.trigger = .atPos → n.state = .waiting → n.reached = false → n.due = some d → d ≤ s.part.now → d < Config.maxTime →
    s.part.dueOf true { n with reached := true } = some d → afterHead (n :: more) ≠ [] →
    s.part.earliestOf (headGroup (n :: more)) ≤ s.part.now →
    Runs .dueExpiry s Machine.Part.still s.part fun q => q.seq.lastFire = some s.part.now

/-- A fire (R67): F is now and no deferral stands; what stood behind the group stands at the window's head; each lane of the
group's set has its cue's title as shadow, shown now, with the cue's dwells, and every other lane is untouched; the group is
pushed onto the history with the shadows it replaced, unless its lane set is empty (R79); that a group which fired before, was trimmed
and read again, and so stands there already, is pushed again is the model's choice (log entry 35). A WITH cue that the loader reads when no entry
of its section and pass is left in the window is skipped as BAD_WITH (R65, R19), before any other check of its body (log entry 19). -/
def Obligations.FireWritesShadows : Prop :=
  (∀ (p : Part) (pass : Half) (sect offset index left : Nat) (lost : Bool),
    let r := readCueHead p.mem offset
    checkExtent r offset = none → r.trigger = 4 → index ≠ 0 →
    (∀ e ∈ p.seq.window, e.key.sect = sect → e.key.pass ≠ pass) →
    let q := p.readCue pass sect offset index left lost
    q.seq.window = p.seq.window ∧ q.seq.cursor = .reading pass sect (offset + r.length) (index + 1) (left - 1) true ∧
      p.appended q [badCueRecord .badWith sect pass offset (some r.id)]) ∧
  ∀ (s : State) (how : HowFired), s.part.seq.window ≠ [] →
    let group := headGroup s.part.seq.window
    let q := s.part.fireHead how
    q.seq.lastFire = some s.part.now ∧ q.seq.deferAt = none ∧ q.clock = s.part.clock ∧
      (∃ more, q.seq.window = afterHead s.part.seq.window ++ more) ∧
      q.seq.history =
        (if groupMask group = 0 then s.part.seq.history
        else
          ({ entries := group, previous := (lanesOf (groupMask group)).map fun i => (i, (s.part.lane i).shadow) } ::
            s.part.seq.history).take 4) ∧
      (∀ i, (groupMask group).getLsbD i.val = false → q.lane i = s.part.lane i) ∧
      ∀ i, ∀ e ∈ group, e.cue.mask.getLsbD i.val = true →
        (∀ x ∈ group, x.cue.mask.getLsbD i.val = true → x = e) → (q.lane i).shadow = shownAs e.cue i s.part.now

/-- A title reaching a lane (R101 to R104, R106). On a lane up and not blanked a TEXT title's own record passes to the shadow, its
SHOW queued at once where the STAGE has closed, and held behind the STAGE where not, which does not count as sent (R101), and a BLANK
title queues a CLEAR; on a blanked lane nothing is sent and the record is settled as obsolete, a STAGE already sent leaving a DROP owed;
on a lane that is down only the shadow is written. The same holds of a title with no record (a BLANK title, which is never staged, R98,
and every title on a down lane, R112), but for a TEXT title on a lane up and not blanked, which takes a record for a late STAGE and
counts as sent: the lowest FREE one, else the latest window entry's, settled first (R103). That a SENDING record is FREE at its
settlement, on a blanked lane and where the late path takes it, is the model's choice (log entry 30). -/
def Obligations.TitlesReachLanes : Prop :=
  (∀ (l : Lane) (sh : Shadow) (key : Option EntryKey) (t : Text) (b : Fin 2) (window : List Entry),
    (∀ k, key = some k → ∀ c, ¬ l.owns c k) → l.up = true → l.blanked = false → sh.text = some t →
    let m := l.writeShadow sh
    m.lateRecord window b →
    let done := l.takeTitle sh key window
    done.2 = true ∧ done.1.shadow = sh ∧ done.1.late.getLast? = some b ∧
      done.1.express = l.express ∧
      done.1.rec_ b =
        { state := .pending, owner := .shadow, token := l.nextToken, cue := sh.cue.getD 0, text := t, showSent := false
          showOpened := false, attempted := false } ∧
      ((m.rec_ b).state = .sent ∨ (m.rec_ b).state = .staged → done.1.drops[b] = true)) ∧
  (∀ (l : Lane) (sh : Shadow) (key : Option EntryKey) (window : List Entry), (∀ k, key = some k → ∀ c, ¬ l.owns c k) →
    let done := l.takeTitle sh key window
    let nothingSent := done.2 = false ∧ done.1.express = l.express ∧ ((∀ b, (l.rec_ b).state = .free) → done.1.recs = l.recs)
    done.1.shadow = sh ∧
    (l.up = true → l.blanked = false → sh.text = none → done.2 = true ∧ ∃ x ∈ done.1.express, x.what = .clear) ∧
    (l.up = true → l.blanked = true → nothingSent) ∧
    (l.up = false → nothingSent)) ∧
  ∀ (l : Lane) (sh : Shadow) (key : EntryKey) (b : Fin 2) (window : List Entry), l.bufferOf key = some b →
    let r := l.rec_ b
    let done := l.takeTitle sh (some key) window
    done.1.shadow = sh ∧
    (l.up = true → l.blanked = false → sh.text.isSome = true →
      (done.1.rec_ b).owner = .shadow ∧ (done.1.rec_ b).token = r.token ∧
        (r.state = .sent ∨ r.state = .staged →
          done.2 = true ∧ (done.1.rec_ b).showSent = true ∧
            done.1.express.getLast? = some { what := .show_ b r.token r.cue, attempt := 1 }) ∧
        (r.state = .pending ∨ r.state = .sending →
          done.2 = false ∧ done.1.rec_ b = { r with owner := .shadow } ∧ done.1.express = l.express)) ∧
    (l.up = true → l.blanked = false → sh.text = none →
      done.2 = true ∧ ∃ x ∈ done.1.express, x.what = .clear) ∧
    (l.up = true → l.blanked = true →
      done.2 = false ∧ (done.1.rec_ b).state = .free ∧ done.1.express = l.express ∧
        (r.state = .sent ∨ r.state = .staged → done.1.drops[b] = true)) ∧
    (l.up = false → done.2 = false ∧ done.1.express = l.express ∧ done.1.rec_ b = r)

/-- The max dwell expiry (R108): the lane's shadow is BLANK with no cue, shown at the expiry's time, a CLEAR is queued on a lane
up and not blanked, and the CLEARED record names the cue; neither F, the history nor any other lane changes where no group waits
for the lane's dwell. -/
def Obligations.MaxDwellClears : Prop :=
  ∀ (s : State) (i : LaneIx) (t : Nat), s.part.enabled = true → (s.part.lane i).maxDwellAt = some t → t ≤ s.part.now →
    Runs (.maxDwellExpiry i) s Machine.Part.still s.part fun q =>
      s.part.seq.idleHead →
        q.clock = s.part.clock ∧ q.seq = s.part.seq ∧
          (q.lane i).shadow = { text := none, cue := none, shown := t, minDwell := 0, maxDwell := 0 } ∧
          (q.lane i).maxDwellAt = none ∧
          ((s.part.lane i).up = true → (s.part.lane i).blanked = false →
            ∃ x ∈ (q.lane i).express, x.what = .clear) ∧
          (∀ j, j ≠ i → (q.lane j).kept = (s.part.lane j).kept) ∧
          s.part.appended q [clearedRecord .maxDwell i (s.part.lane i).shadow.cue]

/-! ### The console (chapter 7) -/

/-- The key filters (R140): a press begins to be confirmed from idle, a release from held, each broken off by its opposite; a
confirmed release makes the filter idle; while ENABLE is 0 only the input's level changes. The model's choices: that a release taken
before a press breaks it off at the very end of its 10 ms too, and an assertion a release (log entry 33), and that KEY_RELEASE_CONFIRMED
before its time changes nothing (log entry 9). -/
def Obligations.KeyInputsFilter : Prop :=
  ∀ (s : State) (k : Key),
    let f := s.part.console.filters.get k
    let p := s.part.setKeyLevel k true
    let r := s.part.setKeyLevel k false
    exec (.keyInputAsserted k) s =
      .next (s.withPart
        (if s.part.enabled then
          match f with
          | .idle => (p.setKeyFilter k (.confirmingPress s.part.now)).outputs
          | .confirmingRelease _ => (p.setKeyFilter k .held).outputs
          | .confirmingPress _ | .held => (p.setKeyFilter k f).outputs
        else p.outputs)) ∧
    exec (.keyInputReleased k) s =
      .next (s.withPart
        (if s.part.enabled then
          match f with
          | .confirmingPress _ => (r.setKeyFilter k .idle).outputs
          | .held => (r.setKeyFilter k (.confirmingRelease s.part.now)).outputs
          | .idle | .confirmingRelease _ => (r.setKeyFilter k f).outputs
        else r.outputs)) ∧
    ∀ t, s.part.enabled = true → f = .confirmingRelease t →
      (t + 10000 ≤ s.part.now → exec (.keyReleaseConfirmed k) s = .next (s.withPart (s.part.setKeyFilter k .idle).outputs)) ∧
      (s.part.now < t + 10000 → exec (.keyReleaseConfirmed k) s = .next (s.withPart s.part.outputs))

/-- A GO key press within the lockout is IGNORED and leaves only its KEY record; an accepted one with nothing to do starts the
lockout and leaves its KEY record with NOTHING, also where the head group belongs to the next pass and the clock is not HELD (R142,
R143); one in a vamp whose exit is not armed arms it, and the section
resolves to what follows the vamp (R78, R143). -/
def Obligations.GoKeyWithoutFire : Prop :=
  ∀ s : State, s.pressed .go →
    let locked := ∃ t, s.part.console.lastGo = some t ∧ s.part.now - t < s.part.clock.profile.goLockout * 1000
    (locked →
      Runs .goKey s Machine.Part.kept (s.part.setConsole (s.part.console.hold .go)) fun t =>
        s.part.appended t [keyRecord .go .console .ignored none]) ∧
    (¬ locked → (s.part.seq.state ≠ .running ∨ s.part.seq.window = []) →
      Runs .goKey s Machine.Part.kept
        (s.part.setConsole { s.part.console.hold .go with lastGo := some s.part.now }) fun t =>
          s.part.appended t [keyRecord .go .console .nothing none]) ∧
    (∀ e rest, ¬ locked → s.part.seq.window = e :: rest → e.key.pass ≠ s.part.seq.pass → s.part.clock.state ≠ .held →
      (s.part.seq.currentRec.vamp = true → s.part.seq.vampExit = true) →
      Runs .goKey s Machine.Part.kept
        (s.part.setConsole { s.part.console.hold .go with lastGo := some s.part.now }) fun t =>
          s.part.appended t [keyRecord .go .console .nothing none]) ∧
    (∀ sect, ¬ locked → s.part.seq.state = .running → s.part.seq.window ≠ [] → s.part.seq.current = some sect →
      s.part.seq.currentRec.kind = .pulsed → s.part.seq.currentRec.vamp = true → s.part.seq.vampExit = false →
      Runs .goKey s Machine.Part.still
        (s.part.setConsole { s.part.console.hold .go with lastGo := some s.part.now }) fun t =>
          t.clock = s.part.clock ∧ samePlace s.part t ∧ t.seq.vampExit = true ∧
            t.seq.heldNext =
              some (match s.part.seq.cutOf sect with
                | some target => .next target
                | none => s.part.seq.currentRec.successor))

/-- A GO key press that fires (R143): the current pass's head group at once, whatever its due time and dwell, where the section is
no vamp or its exit is armed; the next pass's in HELD, after the forced end of the section (R43). Both start the lockout. That a
forced end which finds STOP ends the act with no fire, and its KEY record names no cue, is the model's choice (log entry 32). -/
def Obligations.GoKeyFires : Prop :=
  ∀ (s : State) (e : Entry) (rest : List Entry), s.pressed .go →
    (∀ t, s.part.console.lastGo = some t → s.part.clock.profile.goLockout * 1000 ≤ s.part.now - t) →
    s.part.seq.state = .running → s.part.seq.window = e :: rest →
    (s.part.seq.currentRec.vamp = true → s.part.seq.vampExit = true) →
    let q := s.part.setConsole { s.part.console.hold .go with lastGo := some s.part.now }
    (e.key.pass = s.part.seq.pass →
      Runs .goKey s Machine.Part.still q fun t => t.seq.lastFire = some s.part.now) ∧
    (∀ next, e.key.pass ≠ s.part.seq.pass → s.part.clock.state = .held →
      s.part.seq.heldNext = some (.next next) →
      Runs .goKey s Machine.Part.still q fun t =>
        t.seq.lastFire = some s.part.now ∧ t.regs.notice.getLsbD 4 = true) ∧
    (e.key.pass ≠ s.part.seq.pass → s.part.clock.state = .held → s.part.seq.heldNext = some .stop →
      Runs .goKey s Machine.Part.still q fun t =>
        actEnded t ∧ t.seq.lastFire = s.part.seq.lastFire ∧
          (s.part.journal.countRecords = false → (∀ x ∈ s.part.seq.window, x.key.pass ≠ s.part.seq.pass) →
            s.part.appended t
              [clockRecord .section_ .held t.clock, keyRecord .go .console .forced none]))

/-- BACK (R80): the last fired group is at the window's head again, CALLED and with no due time, its lanes have the shadows from
before its fire, shown now, and F and the clock stand; with nothing to bring back the press leaves only its KEY record. -/
def Obligations.BackKeyReturns : Prop :=
  ∀ s : State, s.pressed .back →
    let q := s.part.setConsole (s.part.console.hold .back)
    (s.part.seq.state ≠ .running ∨ s.part.seq.history = [] →
      Runs .backKey s Machine.Part.kept q fun t => s.part.appended t [keyRecord .back .console .nothing none]) ∧
    (∀ g rest, s.part.seq.state = .running → s.part.seq.history = g :: rest → g.entries ≠ [] →
      (s.part.seq.currentRec.kind = .called → ∀ e ∈ g.entries, e.key.pass = s.part.seq.pass) →
      (g.previous.map Prod.fst).Nodup →
      Runs .backKey s Machine.Part.still q fun t =>
        t.clock = s.part.clock ∧ samePlace s.part t ∧ t.seq.lastFire = s.part.seq.lastFire ∧ t.seq.history = rest ∧
          ((t.seq.window.take g.entries.length).map fun e => (e.cue, e.key, e.state, e.due)) =
            (g.entries.map fun e => (e.cue, e.key, EntryState.called, none)) ∧
          ∀ x ∈ g.previous, (t.lane x.1).shadow = { x.2 with shown := s.part.now })

/-- The BLANK key acts on the enabled lanes alone (R147): with none, nothing; with one not blanked, all are blanked; else all are
unblanked. -/
def Obligations.BlankKeyTurnsLanes : Prop :=
  ∀ s : State, s.pressed .blank →
    let q := s.part.setConsole (s.part.console.hold .blank)
    let on := fun i => (s.part.lane i).cfg.enable
    let open_ := ∃ i, on i = true ∧ (s.part.lane i).blanked = false
    ((∀ i, on i = false) →
      Runs .blankKey s Machine.Part.kept q fun t => s.part.appended t [keyRecord .blank .console .nothing none]) ∧
    ((∃ i, on i = true) →
      ∃ t, exec .blankKey s = .next t ∧ t.pending = s.pending ∧
        EndsAs (fun p => { p.still with lanes := s.part.lanes }) noByte s.part q t.part ∧
        ∀ i,
          (on i = false → (t.part.lane i).still = (s.part.lane i).still) ∧
          (on i = true → open_ →
            (t.part.lane i).still = { (s.part.lane i) with blanked := true }.still) ∧
          (on i = true → ¬ open_ →
            (t.part.lane i).still = { (s.part.lane i) with blanked := false }.still))

/-! ### Requests (chapter 8) -/

/-- A slot whose kind code names no request is answered UNKNOWN and changes nothing else (R155); that a command UNKNOWN with a
known kind names no event is the model's fault (log entry 25). -/
def Obligations.UnknownIsAnswered : Prop :=
  ∀ (s : State) (n : SlotIx) (tag : Half) (kind : Byte),
    (s.part.takes n = true → kind.toNat = 0 ∨ 16 < kind.toNat →
      Answers (.unknown n tag kind) s n tag .unknown [] Machine.Part.kept s.part nothingMore) ∧
    (1 ≤ kind.toNat → kind.toNat ≤ 16 → exec (.unknown n tag kind) s = .fault .kindIsKnown)

/-- LOAD_BOOK is taken in EMPTY, LOADED and ENDED: the sequencer is LOADING and empty, the cut map cleared, the slot TAKEN and the
request unit executing it; in RUNNING and LOADING it is refused with STATE (R13, R76, R152, R156). -/
def Obligations.LoadBookIsTaken : Prop :=
  ∀ (s : State) (n : SlotIx) (tag : Half), s.part.takes n = true →
    (s.part.seq.state = .empty ∨ s.part.seq.state = .loaded ∨ s.part.seq.state = .ended →
      ∃ t, exec (.loadBook n tag) s = .next t ∧ t.pending = s.pending ∧
        EndsAs Machine.Part.kept (inSlot n) s.part
          { s.part with
            seq :=
              { s.part.seq with
                state := .loading, book := none, window := [], history := [], cuts := Vector.replicate 128 none
                vampExit := false, lastFire := none, current := none, heldNext := none, cursor := .finished
                deferAt := none }
            requests := { s.part.requests with scan := .executing n tag .load } } t.part ∧
        t.part.mem.owner n = ownerTaken ∧
        ∀ a, slotAt n + 4 ≤ a → a < slotAt n + 64 → t.part.mem.byte a = s.part.mem.byte a) ∧
    (s.part.seq.state = .running ∨ s.part.seq.state = .loading →
      Answers (.loadBook n tag) s n tag .state [] Machine.Part.kept s.part nothingMore)

/-- A load's walk ends when its completion is commanded (log entry 5; R16): a good book is held and the sequencer LOADED with no
error; a bad one leaves it EMPTY with the error; the BOOK record, the answer and its detail say so (R156), and the scan goes on
behind the slot (R152). That the last load error after a good load has section and cue offset absent beside NONE is log entry 19. -/
def Obligations.LoadBookCompletes : Prop :=
  ∀ (s : State) (n : SlotIx) (tag : Half), s.part.enabled = true → s.part.requests.scan = .executing n tag .load →
    let u := { s.part.requests with scan := .scanning (n.val + 1) }
    (∀ book, walkBook s.part.mem = .ok book →
      Answers .loadBookComplete s n tag .ok [0, book.sections.length, absent] Machine.Part.kept
        { s.part with
          seq := { s.part.seq with state := .loaded, book := some book, lastError := LoadError.none }
          requests := u } fun t =>
            s.part.appended t [bookRecord 1 .ok .none (some book.sections.length) none]) ∧
    (∀ e, walkBook s.part.mem = .error e →
      Answers .loadBookComplete s n tag .bookError [e.code.code, e.sect.getD absent, e.offset.getD absent]
        Machine.Part.kept
        { s.part with
          seq := { s.part.seq with state := .empty, book := none, lastError := e }
          requests := u } fun t =>
            s.part.appended t [bookRecord 1 .bookError e.code e.sect e.offset])

/-- REPLACE_SECTION at its take (R20, R156): refused with STATE without a book, with BAD_ARG beyond it, with IN_USE for a
section in use, and else executed with nothing else changed. That the detail of this IN_USE is the one R156 gives at the completion is
the model's choice (log entry 24). -/
def Obligations.ReplaceSectionIsTaken : Prop :=
  ∀ (s : State) (n : SlotIx) (tag : Half) (args : ReplaceArgs), s.part.takes n = true →
    let c := Instr.replaceSection n tag args
    let sect := args.section_.toNat
    let q := s.part.seq
    let held := q.state = .loaded ∨ q.state = .running ∨ q.state = .ended
    (¬ held → Answers c s n tag .state [] Machine.Part.kept s.part nothingMore) ∧
    (held → q.sectionCount ≤ sect → Answers c s n tag .badArg [] Machine.Part.kept s.part nothingMore) ∧
    (held → sect < q.sectionCount → q.inUse sect = true →
      Answers c s n tag .inUse [0, sect, absent] Machine.Part.kept s.part nothingMore) ∧
    (held → sect < q.sectionCount → q.inUse sect = false →
      ∃ t, exec c s = .next t ∧ t.pending = s.pending ∧
        EndsAs Machine.Part.kept (inSlot n) s.part
          (s.part.setRequests { s.part.requests with scan := .executing n tag (.replace args) }) t.part ∧
        t.part.mem.owner n = ownerTaken ∧
        ∀ a, slotAt n + 4 ≤ a → a < slotAt n + 64 → t.part.mem.byte a = s.part.mem.byte a)

/-- A replacement's walk ends when its completion is commanded (log entry 5; R21): IN_USE where the sequencer is RUNNING and the section is
in use or came into use while the walk ran, BOOK_ERROR with the error where a check failed, else the one entry of the loaded table
replaced; the last load error and the BOOK record say so, with section and offset absent in the last load error on OK and IN_USE (log
entry 19). A refill that meets the section in use marks it as come into use, and no refill takes the mark away. That an act which has
ended by the walk's end leaves OK or BOOK_ERROR, whatever came into use before, is the model's reading (log entry 34). -/
def Obligations.ReplaceSectionCompletes : Prop :=
  (∀ (p : Part) (n : SlotIx) (tag : Half) (args : ReplaceArgs), p.requests.scan = .executing n tag (.replace args) →
    p.requests.replaceUsed = true ∨ p.seq.inUse args.section_.toNat = true → p.refill.requests.replaceUsed = true) ∧
  ∀ (s : State) (n : SlotIx) (tag : Half) (args : ReplaceArgs), s.part.enabled = true →
    s.part.requests.scan = .executing n tag (.replace args) →
    let sect := args.section_.toNat
    let q := s.part.seq
    let walk := walkReplace s.part.mem (q.sectionAt sect) q.sectionCount q.usedLength args
    let done := fun (q : Sequencer) =>
      { s.part with seq := q, requests := { s.part.requests with scan := .scanning (n.val + 1) } }
    let used := q.state = .running ∧ (s.part.requests.replaceUsed = true ∨ q.inUse sect = true)
    (used →
      Answers .replaceSectionComplete s n tag .inUse [0, sect, absent] Machine.Part.kept
        (done { q with lastError := LoadError.none }) fun t =>
          s.part.appended t [bookRecord 2 .inUse .none (some sect) none]) ∧
    (¬ used → ∀ e off, walk = .error (e, off) →
      Answers .replaceSectionComplete s n tag .bookError [e.code, sect, off.getD absent] Machine.Part.kept
        (done { q with lastError := { code := e, sect := some sect, offset := off } }) fun t =>
          s.part.appended t [bookRecord 2 .bookError e (some sect) off]) ∧
    (¬ used → ∀ sec, walk = .ok sec →
      Answers .replaceSectionComplete s n tag .ok [0, sect, absent] Machine.Part.kept
        (done
          { q with
            book := q.book.map fun b => { b with sections := b.sections.set sect sec }
            lastError := LoadError.none }) fun t =>
              s.part.appended t [bookRecord 2 .ok .none (some sect) none])

/-- ARM (R83, R157): RUNNING at pass 0 of the section with the clock armed for its kind, the cuts and book kept, and the detail
saying the window's fill and head and the first cue of the prime group shown. Of a CALLED section the list, which is not empty, passes
its checks, and the window is empty, as it is in LOADED and ENDED (R86, R74). With prime 1 the prime group is shown (R84): no fire, so in
a PULSED section, where nothing else can fire by position, F is absent and the history empty, each lane of a cue's mask has its title as
shadow, shown now, and every other lane stands; FIRED records say PRIMED, with the lanes that are up and not blanked, after a BAD_CUE
record for each cue that fails, but for one that fails R15's orders 1 to 3, which ends the group with no record (log entry 24); at count
0 there is no prime group. ARM is refused with STATE where it is not taken and with BAD_ARG for
a place that is none. That c0 and t0 are 0 in a CALLED or TIMED section, and S stands in a PULSED one, is the model's choice (log entry
17). -/
def Obligations.ArmBeginsAct : Prop :=
  (∀ (m : Memory) (q : Sequencer) (sect : Nat), primeCues m q sect 0 = []) ∧
  (∀ (p : Part) (sect : Nat) (place : ListPlace),
    let read := readPrime p.mem (p.seq.sectionAt sect) p.seq.usedLength sect true none place.left place.offset
    let done := p.prime sect place
    done.2 = read.1.head?.map Cue.id ∧ done.1.seq = p.seq ∧ done.1.clock = p.clock ∧
      p.appended done.1
        (read.2 ++ read.1.map fun c =>
          firedRecord .primed c.id sect
            (laneMask ((lanesOf c.mask).filter fun i => (p.lane i).up && !(p.lane i).blanked)) 0 none none)) ∧
  ∀ (s : State) (n : SlotIx) (tag : Half) (sect count prime : Word), s.part.takes n = true →
    let c := Instr.arm n tag sect count prime
    let q := s.part.seq
    let sec := q.sectionAt sect.toNat
    let good := sect.toNat < q.sectionCount ∧ prime.toNat ≤ 1 ∧ goodCount sec count.toNat
    (¬ (q.state = .loaded ∨ q.state = .ended) → Answers c s n tag .state [] Machine.Part.kept s.part nothingMore) ∧
    (q.state = .loaded ∨ q.state = .ended → ¬ good →
      Answers c s n tag .badArg [] Machine.Part.kept s.part nothingMore) ∧
    (q.state = .loaded ∨ q.state = .ended → good →
      (sec.kind = .called → q.window = [] ∧ 1 ≤ sec.cueCount ∧ walkSection s.part.mem sec q.usedLength = none) →
      let cues := if prime.toNat = 1 then primeCues s.part.mem q sect.toNat count.toNat else []
      ∃ t, exec c s = .next t ∧ t.pending = s.pending ∧
        AnswersAs Machine.Part.still n tag .ok
          [t.part.seq.window.length, optWord t.part.seq.headCue, primedWord cues] s.part s.part t.part ∧
        t.part.clock = armedClock s.part.clock sec count.toNat ∧
        t.part.seq.state = .running ∧ t.part.seq.current = some sect.toNat ∧ t.part.seq.pass = 0 ∧
        t.part.seq.vampExit = false ∧ t.part.seq.entryRun = 1 ∧ t.part.regs.notice.getLsbD 4 = true ∧
        (sec.kind = .pulsed → q.window = [] →
          t.part.seq.lastFire = none ∧ t.part.seq.history = [] ∧
            ∀ i,
              ((∀ x ∈ cues, x.mask.getLsbD i.val = false) → (t.part.lane i).kept = (s.part.lane i).kept) ∧
              ∀ x ∈ cues, x.mask.getLsbD i.val = true → (t.part.lane i).shadow = shownAs x i s.part.now))

/-- JUMP (R85, R158): as ARM, from RUNNING or ENDED, and refused as ARM is, and with BAD_ARG for a keep flag other than 0 or 1. With keep 0
every lane has a new shadow, shown now (R109). In a PULSED section, where nothing then fires by position, F is absent and the history
empty; a lane of no prime cue's mask is BLANK from now on with no dwell limits, a CLEAR queued where it is up and not blanked, or stands
with keep 1; and a lane of a prime cue's mask shows its title from now on (R84), where a cue that fails R15's orders 1 to 3 ends the prime
group (log entry 24). A clear without keep appends a CLEARED record for each
lane whose shadow was TEXT, in lane order (R109). The clock fields R32 does not name are ARM's (log entry 17). -/
def Obligations.JumpMovesAct : Prop :=
  (∀ (p : Part) (cause : ClearedCause),
    p.appended (p.clearLanes false cause)
      ((allLanes.filter fun i => (p.lane i).shadow.text.isSome).map fun i =>
        clearedRecord cause i (p.lane i).shadow.cue)) ∧
  ∀ (s : State) (n : SlotIx) (tag : Half) (sect count keep prime : Word), s.part.takes n = true →
    let c := Instr.jump n tag sect count keep prime
    let q := s.part.seq
    let sec := q.sectionAt sect.toNat
    let good := sect.toNat < q.sectionCount ∧ prime.toNat ≤ 1 ∧ goodCount sec count.toNat ∧ keep.toNat ≤ 1
    (¬ (q.state = .running ∨ q.state = .ended) → Answers c s n tag .state [] Machine.Part.kept s.part nothingMore) ∧
    (q.state = .running ∨ q.state = .ended → ¬ good →
      Answers c s n tag .badArg [] Machine.Part.kept s.part nothingMore) ∧
    (q.state = .running ∨ q.state = .ended → good →
      (sec.kind = .called → 1 ≤ sec.cueCount ∧ walkSection s.part.mem sec q.usedLength = none) →
      let cues := if prime.toNat = 1 then primeCues s.part.mem q sect.toNat count.toNat else []
      ∃ t, exec c s = .next t ∧ t.pending = s.pending ∧
        AnswersAs Machine.Part.still n tag .ok
          [t.part.seq.window.length, optWord t.part.seq.headCue, primedWord cues] s.part s.part t.part ∧
        t.part.clock = armedClock s.part.clock sec count.toNat ∧
        t.part.seq.state = .running ∧ t.part.seq.current = some sect.toNat ∧ t.part.seq.pass = 0 ∧
        t.part.seq.vampExit = false ∧ t.part.seq.entryRun = 1 ∧ t.part.regs.notice.getLsbD 4 = true ∧
        (keep.toNat = 0 → ∀ i, (t.part.lane i).shadow.shown = s.part.now) ∧
        (sec.kind = .pulsed →
          t.part.seq.lastFire = none ∧ t.part.seq.history = [] ∧
            ∀ i,
              ((∀ x ∈ cues, x.mask.getLsbD i.val = false) →
                (keep.toNat = 1 → (t.part.lane i).kept = (s.part.lane i).kept) ∧
                (keep.toNat = 0 →
                  (t.part.lane i).shadow = blankFrom s.part.now ∧ (t.part.lane i).maxDwellAt = none ∧
                    ((s.part.lane i).up = true → (s.part.lane i).blanked = false →
                      ∃ x ∈ (t.part.lane i).express, x.what = .clear))) ∧
              ∀ x ∈ cues, x.mask.getLsbD i.val = true → (t.part.lane i).shadow = shownAs x i s.part.now))

/-- STOP (R86, R158): LOADED with nothing of the act left and the clock STOPPED; without keep every lane's shadow is BLANK from
now on, with keep every lane stands (R109); refused with STATE outside RUNNING and ENDED and with BAD_ARG for another keep flag.
-/
def Obligations.StopEndsAct : Prop :=
  ∀ (s : State) (n : SlotIx) (tag : Half) (keep : Word), s.part.takes n = true →
    let c := Instr.stop n tag keep
    let q := s.part.seq
    (¬ (q.state = .running ∨ q.state = .ended) → Answers c s n tag .state [] Machine.Part.kept s.part nothingMore) ∧
    (q.state = .running ∨ q.state = .ended → 1 < keep.toNat →
      Answers c s n tag .badArg [] Machine.Part.kept s.part nothingMore) ∧
    (q.state = .running ∨ q.state = .ended → keep.toNat ≤ 1 →
      Answers c s n tag .ok [] Machine.Part.still s.part fun t =>
        t.seq =
          { q with
            state := .loaded, window := [], history := [], lastFire := none, vampExit := false, current := none
            heldNext := none, cursor := .finished, deferAt := none } ∧
        t.clock =
          { s.part.clock with
            lastPulse := none, state := .stopped, c0 := 0, t0 := 0, run := 0, coast := 0, fh := 0, start := 0 } ∧
        ∀ i,
          (keep.toNat = 1 → (t.lane i).kept = (s.part.lane i).kept) ∧
          (keep.toNat = 0 →
            (t.lane i).shadow = { text := none, cue := none, shown := s.part.now, minDwell := 0, maxDwell := 0 } ∧
              (t.lane i).maxDwellAt = none))

/-- SET_CUT and CLEAR_CUT write the one entry of the cut map, the detail carrying the entry before; an entry of a section that is
not current changes nothing else, and for the current section the successor is resolved again, the clock and the place in the act
standing (R76, R159). They are refused with STATE without a book and with BAD_ARG beyond it. A successor resolved anew as it was
changes nothing; one that differs, with the next pass begun, trims the window to the current pass, behind which only entries of the new
next section are loaded (R77). -/
def Obligations.CutsAreWritten : Prop :=
  (∀ (p : Part) (sect : Nat), p.seq.state = .running → p.seq.current = some sect →
    let new := p.seq.resolvesTo sect
    let q := p.resolveAgain
    (p.seq.heldNext = some new → q = p) ∧
    (p.seq.heldNext ≠ some new → p.seq.loadsNext →
      q.seq.heldNext = some new ∧ q.clock = p.clock ∧ q.seq.history = p.seq.history ∧
        (∀ i, (q.lane i).shadow = (p.lane i).shadow) ∧
        ∃ loaded,
          q.seq.window.map Entry.key =
            (p.seq.window.filter fun x => decide (x.key.pass = p.seq.pass)).map Entry.key ++ loaded ∧
          ∀ k ∈ loaded, new = .next k.sect ∧ k.pass = p.seq.pass + 1)) ∧
  ∀ (s : State) (n : SlotIx) (tag : Half) (sect : Word) (target : Option Word), s.part.takes n = true →
    let c := match target with
      | some t => Instr.setCut n tag sect t
      | none => Instr.clearCut n tag sect
    let q := s.part.seq
    let held := q.state = .loaded ∨ q.state = .running ∨ q.state = .ended
    let good := sect.toNat < q.sectionCount ∧ ∀ t, target = some t → t.toNat < q.sectionCount
    let cut := s.part.setSeq { q with cuts := q.cuts.setIfInBounds sect.toNat (target.map BitVec.toNat) }
    (¬ held → Answers c s n tag .state [] Machine.Part.kept s.part nothingMore) ∧
    (held → ¬ good → Answers c s n tag .badArg [] Machine.Part.kept s.part nothingMore) ∧
    (held → good → Answers c s n tag .ok [optWord (q.cutOf sect.toNat)] Machine.Part.still cut nothingMore) ∧
    (held → good → q.current ≠ some sect.toNat →
      Answers c s n tag .ok [optWord (q.cutOf sect.toNat)] Machine.Part.kept cut nothingMore) ∧
    (sect.toNat < 128 → good → q.state = .running → q.current = some sect.toNat → q.currentRec.kind = .pulsed →
      Answers c s n tag .ok [optWord (q.cutOf sect.toNat)] Machine.Part.still cut fun t =>
        t.clock = s.part.clock ∧ samePlace s.part t ∧
          t.seq.heldNext =
            some (if q.currentRec.vamp = true ∧ q.vampExit = false then .next sect.toNat
              else match target with
                | some other => .next other.toNat
                | none => q.currentRec.successor))

/-- VAMP_EXIT arms the exit of a RUNNING vamp and says whether it was armed before; anywhere else it is refused with STATE (R78,
R160). -/
def Obligations.VampExitArms : Prop :=
  ∀ (s : State) (n : SlotIx) (tag : Half), s.part.takes n = true →
    let q := s.part.seq
    let vamp := q.state = .running ∧ q.currentRec.vamp = true
    (¬ vamp → Answers (.vampExit n tag) s n tag .state [] Machine.Part.kept s.part nothingMore) ∧
    (vamp → q.vampExit = true → Answers (.vampExit n tag) s n tag .ok [1] Machine.Part.kept s.part nothingMore) ∧
    (vamp → q.vampExit = false → q.currentRec.kind = .pulsed →
      Answers (.vampExit n tag) s n tag .ok [0] Machine.Part.still s.part fun t =>
        t.clock = s.part.clock ∧ samePlace s.part t ∧ t.seq.vampExit = true)

/-- SET_PROFILE puts the twelve values in force, each moved into its range, and clamps P unless the clock is STOPPED (R27, R28,
R161); the answer's detail marks the values moved, by 11.3's bits 0 to 11, with 12 for a pulse_max raised by the cross rule and 13 for
a lock_out raised to lock_in, and the result is OK_CLAMPED where any is marked. -/
def Obligations.ProfileIsReplaced : Prop :=
  ∀ (s : State) (n : SlotIx) (tag : Half) (a : ProfileArgs), s.part.takes n = true →
    let low := max 60 (min 1000 a.pulseMin.toNat)
    let high := max 1000 (min 6000 a.pulseMax.toNat)
    let lockIn := max 10 (min 500 a.lockIn.toNat)
    let f : Profile :=
      { inputMode := if a.inputMode.toNat = 1 then .b else if a.inputMode.toNat = 2 then .merge else .a
        pulseMin := low
        pulseMax := if high ≤ low then 2 * low else high
        wt := max 1 (min 65536 a.wt.toNat)
        lockIn := lockIn
        lockOut := max lockIn (min 900 a.lockOut.toNat)
        lockRun := max 1 (min 8 a.lockRun.toNat)
        lateMargin := max 100 (min 900 a.lateMargin.toNat)
        coastLimit := min 8 a.coastLimit.toNat
        horizon := max 1 (min 16 a.horizon.toNat)
        goLockout := min 2000 a.goLockout.toNat }
    let outside := fun (bit low high v : Nat) => if v < low ∨ high < v then 2 ^ bit else 0
    let marks :=
      outside 0 0 2 a.inputMode.toNat + outside 1 60 1000 a.pulseMin.toNat + outside 2 1000 6000 a.pulseMax.toNat +
        outside 3 1 65536 a.wt.toNat + outside 4 10 500 a.lockIn.toNat + outside 5 0 900 a.lockOut.toNat +
        outside 6 1 8 a.lockRun.toNat + outside 7 100 900 a.lateMargin.toNat + outside 8 0 8 a.coastLimit.toNat +
        outside 9 1 16 a.horizon.toNat + outside 10 0 2000 a.goLockout.toNat + outside 11 0 1 a.countRecords.toNat +
        (if high ≤ low then 2 ^ 12 else 0) + (if a.lockOut.toNat < lockIn then 2 ^ 13 else 0)
    Answers (.setProfile n tag a) s n tag (if marks = 0 then .ok else .okClamped) [marks] Machine.Part.still
      { s.part with
        clock := { s.part.clock with profile := f }
        journal := { s.part.journal with countRecords := decide (a.countRecords.toNat ≠ 0) } } fun t =>
          s.part.seq.currentRec.kind ≠ .called →
            t.clock =
              { s.part.clock with
                profile := f
                period :=
                  if s.part.clock.state = .stopped then s.part.clock.period
                  else max (f.pulseMin * 1000) (min (f.pulseMax * 1000) s.part.clock.period) } ∧
            samePlace s.part t

/-- SET_LANE replaces one lane's configuration, each field moved into its range, and enable and baud act on the link state at once
(R89, R90, R163); every other lane stands. The detail marks the fields moved, by 11.3's bits 0 to 7, of which 2, the language, is never
moved, and the result is OK_CLAMPED where any is marked. A lane above 5 is refused with BAD_ARG.
That a frame abandoned with its CLOSE on the line does not count as sent is the model's choice (log entry 40). -/
def Obligations.LaneIsConfigured : Prop :=
  ∀ (s : State) (n : SlotIx) (tag : Half) (lane : Word) (a : LaneArgs), s.part.takes n = true →
    let c := Instr.setLane n tag lane a
    let cfg : LaneConfig :=
      { enable := decide (a.enable.toNat ≠ 0)
        baud :=
          if a.baud.toNat = 0 then .b250k else if a.baud.toNat = 2 then .b1m else if a.baud.toNat = 3 then .b2m else .b500k
        language := a.language
        depth := max 1 (min 2 a.depth.toNat)
        retry := if a.retry.toNat = 0 then .oneTry else .resendOnce
        faultLimit := max 1 (min 15 a.faultLimit.toNat)
        ackTimeout := max 5 (min 250 a.ackTimeout.toNat)
        silenceTimeout := max 50 (min 2000 a.silenceTimeout.toNat) }
    let outside := fun (bit low high v : Nat) => if v < low ∨ high < v then 2 ^ bit else 0
    let marks :=
      outside 0 0 1 a.enable.toNat + outside 1 0 3 a.baud.toNat + outside 3 1 2 a.depth.toNat + outside 4 0 1 a.retry.toNat +
        outside 5 1 15 a.faultLimit.toNat + outside 6 5 250 a.ackTimeout.toNat + outside 7 50 2000 a.silenceTimeout.toNat
    (6 ≤ lane.toNat → Answers c s n tag .badArg [] Machine.Part.kept s.part nothingMore) ∧
    ∀ i : LaneIx, i.val = lane.toNat →
      ∃ t, exec c s = .next t ∧ t.pending = s.pending ∧
        AnswersAs Machine.Part.still n tag (if marks = 0 then .ok else .okClamped) [marks] s.part
          (s.part.setLane i (t.part.lane i)) t.part ∧
        (t.part.lane i).cfg = cfg ∧ (t.part.lane i).blanked = (s.part.lane i).blanked ∧
        (t.part.lane i).sequence = (s.part.lane i).sequence ∧ (t.part.lane i).sent = (s.part.lane i).sent ∧
        (t.part.lane i).link =
          (if (s.part.lane i).cfg.enable = true ∧ cfg.enable = false then .off
          else if cfg.enable = true ∧ ((s.part.lane i).cfg.enable = false ∨ cfg.baud ≠ (s.part.lane i).cfg.baud) then .sync
          else (s.part.lane i).link)

/-- CLEAR_FAULT brings a lane in FAULT to SYNC with its miss counter 0 and in the detail, and its LANE record; a lane above 5 is
refused with BAD_ARG, a lane in any other link state with STATE (R138, R164). -/
def Obligations.FaultIsCleared : Prop :=
  ∀ (s : State) (n : SlotIx) (tag : Half) (lane : Word), s.part.takes n = true →
    let c := Instr.clearFault n tag lane
    (6 ≤ lane.toNat → Answers c s n tag .badArg [] Machine.Part.kept s.part nothingMore) ∧
    ∀ i : LaneIx, i.val = lane.toNat →
      ((s.part.lane i).link ≠ .fault → Answers c s n tag .state [] Machine.Part.kept s.part nothingMore) ∧
      ((s.part.lane i).link = .fault →
        ∃ t, exec c s = .next t ∧ t.pending = s.pending ∧
          AnswersAs Machine.Part.kept n tag .ok [(s.part.lane i).missCounter] s.part (s.part.setLane i (t.part.lane i))
            t.part ∧
          (t.part.lane i).link = .sync ∧ (t.part.lane i).missCounter = 0 ∧ (t.part.lane i).screen = none ∧
          (t.part.lane i).helloWaiting = true ∧ (t.part.lane i).outstanding = [] ∧
          (t.part.lane i).shadow = (s.part.lane i).shadow ∧ (t.part.lane i).cfg = (s.part.lane i).cfg ∧
          s.part.appended t.part [laneRecord .clearFault i .fault .sync none none])

/-- BLANK and UNBLANK set and clear the blanked flag of the mask's lanes, whatever their enable and link state; the detail carries
the lanes changed, and a mask above lane 5 is refused with BAD_ARG (R94, R95, R165). -/
def Obligations.LanesAreBlanked : Prop :=
  ∀ (s : State) (n : SlotIx) (tag : Half) (mask : Word) (flag : Bool), s.part.takes n = true →
    let c := if flag then Instr.blank n tag mask else Instr.unblank n tag mask
    let changed := allLanes.filter fun i => mask.getLsbD i.val && ((s.part.lane i).blanked != flag)
    (64 ≤ mask.toNat → Answers c s n tag .badArg [] Machine.Part.kept s.part nothingMore) ∧
    (mask.toNat < 64 →
      ∃ t, exec c s = .next t ∧ t.pending = s.pending ∧
        AnswersAs (fun p => { p.still with lanes := s.part.lanes }) n tag .ok [(laneMask changed).toNat] s.part s.part
          t.part ∧
        ∀ i,
          (mask.getLsbD i.val = false → (t.part.lane i).still = (s.part.lane i).still) ∧
          (mask.getLsbD i.val = true → (t.part.lane i).still = { (s.part.lane i) with blanked := flag }.still) ∧
          (flag = true → i ∈ changed → (s.part.lane i).up = true → s.part.seq.idleHead →
            ∃ x ∈ (t.part.lane i).express, x.what = .clear))

/-- REMOTE_KEY (R148, R166): GO fires the current pass's head group with no lockout and without moving the last accepted GO, arms a
vamp's exit, fires the next pass's head group in HELD after the forced end of the section, or does nothing; BACK returns the last fired
group, or with none does nothing; HOLD holds a running clock or is ignored; each with its outcome and cue id in the detail. Any other
key code is refused with BAD_ARG. That a forced end which finds STOP ends the act and names no cue is the model's choice (log entry
32). -/
def Obligations.RemoteKeysAct : Prop :=
  ∀ (s : State) (n : SlotIx) (tag : Half) (key : Word), s.part.takes n = true →
    let c := Instr.remoteKey n tag key
    let k := s.part.clock
    (key.toNat ≠ 1 → key.toNat ≠ 2 → key.toNat ≠ 3 →
      Answers c s n tag .badArg [] Machine.Part.kept s.part nothingMore) ∧
    (∀ e rest, key.toNat = 1 → s.part.seq.state = .running → s.part.seq.window = e :: rest →
      e.key.pass = s.part.seq.pass → (s.part.seq.currentRec.vamp = true → s.part.seq.vampExit = true) →
      Answers c s n tag .ok [1, e.cue.id.toNat] Machine.Part.still s.part fun t =>
        t.seq.lastFire = some s.part.now) ∧
    (∀ sect, key.toNat = 1 → s.part.seq.state = .running → s.part.seq.window ≠ [] → s.part.seq.current = some sect →
      s.part.seq.currentRec.kind = .pulsed → s.part.seq.currentRec.vamp = true → s.part.seq.vampExit = false →
      Answers c s n tag .ok [3, absent] Machine.Part.still s.part fun t =>
        t.clock = k ∧ samePlace s.part t ∧ t.seq.vampExit = true ∧
          t.seq.heldNext =
            some (match s.part.seq.cutOf sect with
              | some target => .next target
              | none => s.part.seq.currentRec.successor)) ∧
    (∀ e rest, key.toNat = 1 → s.part.seq.state = .running → s.part.seq.window = e :: rest →
      e.key.pass ≠ s.part.seq.pass → k.state = .held → (s.part.seq.currentRec.vamp = true → s.part.seq.vampExit = true) →
      (∀ next, s.part.seq.heldNext = some (.next next) →
        Answers c s n tag .ok [2, e.cue.id.toNat] Machine.Part.still s.part fun t =>
          t.seq.lastFire = some s.part.now ∧ t.regs.notice.getLsbD 4 = true) ∧
      (s.part.seq.heldNext = some .stop →
        Answers c s n tag .ok [2, absent] Machine.Part.still s.part fun t =>
          actEnded t ∧ t.seq.lastFire = s.part.seq.lastFire)) ∧
    (key.toNat = 1 →
      (s.part.seq.state ≠ .running ∨ s.part.seq.window = [] ∨
        ∃ e rest, s.part.seq.window = e :: rest ∧ e.key.pass ≠ s.part.seq.pass ∧ k.state ≠ .held ∧
          (s.part.seq.currentRec.vamp = true → s.part.seq.vampExit = true)) →
      Answers c s n tag .ok [8, absent] Machine.Part.kept s.part fun t =>
        s.part.appended t [keyRecord .go .remote .nothing none]) ∧
    (∀ g rest e more, key.toNat = 2 → s.part.seq.state = .running → s.part.seq.history = g :: rest → g.entries = e :: more →
      (s.part.seq.currentRec.kind = .called → ∀ x ∈ g.entries, x.key.pass = s.part.seq.pass) →
      Answers c s n tag .ok [4, e.cue.id.toNat] Machine.Part.still s.part fun t =>
        t.clock = k ∧ samePlace s.part t ∧ t.seq.lastFire = s.part.seq.lastFire ∧ t.seq.history = rest ∧
          ((t.seq.window.take g.entries.length).map fun x => (x.cue, x.key, x.state, x.due)) =
            (g.entries.map fun x => (x.cue, x.key, EntryState.called, none))) ∧
    (key.toNat = 2 → (s.part.seq.state ≠ .running ∨ s.part.seq.history = []) →
      Answers c s n tag .ok [8, absent] Machine.Part.kept s.part fun t =>
        s.part.appended t [keyRecord .back .remote .nothing none]) ∧
    (key.toNat = 3 → (k.state = .locking ∨ k.state = .following ∨ k.state = .coasting) →
      s.part.seq.currentRec.kind = .pulsed →
      Answers c s n tag .ok [5, absent] Machine.Part.still s.part fun t =>
        t.clock = { k with state := .held, fh := min 63 ((k.showTime - k.t0) * 64 / k.period), coast := 0 }) ∧
    (key.toNat = 3 → (k.state = .stopped ∨ k.state = .armed ∨ k.state = .held ∨ k.state = .untracked) →
      Answers c s n tag .ok [9, absent] Machine.Part.kept s.part fun t =>
        s.part.appended t [keyRecord .hold .remote .ignored none])

/-- SET_JOURNAL sets the alert level, 1 for 0 and at most 4096, and the count-record option, which only values out of range
clamp; the detail carries both (R162). NOTE appends the NOTE record with its 16 bytes and the slot's tag, the detail carrying
its sequence number: behind a GAP where records had been lost; where the GAP takes the last place, or the ring is full, the
record is counted as lost and the number is absent (R162, R170). -/
def Obligations.JournalRequestsAct : Prop :=
  (∀ (s : State) (n : SlotIx) (tag : Half) (level option : Word), s.part.takes n = true →
    let alert := if level.toNat = 0 then 1 else min 4096 level.toNat
    let clamped := 4096 < level.toNat ∨ 1 < option.toNat
    Answers (.setJournal n tag level option) s n tag (if clamped then .okClamped else .ok)
      [alert, if option.toNat = 0 then 0 else 1] Machine.Part.kept
      (s.part.setJournal { s.part.journal with alert := alert, countRecords := decide (option.toNat ≠ 0) }) fun t =>
        t.journal.w = s.part.journal.w ∧ t.journal.lost = s.part.journal.lost) ∧
  ∀ (s : State) (n : SlotIx) (tag : Half) (w0 w1 w2 w3 : Word), s.part.takes n = true →
    let j := s.part.journal
    let used := s.part.unread s.part.markInForce
    let r := noteRecord tag w0 w1 w2 w3
    let answers := fun (d : List Nat) (post : Part → Prop) =>
      Answers (.note n tag w0 w1 w2 w3) s n tag .ok d Machine.Part.kept s.part post
    (j.lost = 0 → used < 4096 →
      answers [j.w.toNat, 1] fun t => t.journal.w = j.w + 1 ∧ t.journal.lost = 0 ∧ t.mem.holds j.w r s.part.now) ∧
    (0 < j.lost → used + 1 < 4096 →
      answers [(j.w + 1).toNat, 1] fun t =>
        t.journal.w = j.w + 2 ∧ t.journal.lost = 0 ∧ t.mem.holds j.w (gapRecord j.lost) s.part.now ∧
          t.mem.holds (j.w + 1) r s.part.now) ∧
    (0 < j.lost → used + 1 = 4096 →
      answers [absent, 0] fun t =>
        t.journal.w = j.w + 1 ∧ t.journal.lost = 1 ∧ t.mem.holds j.w (gapRecord j.lost) s.part.now) ∧
    (used = 4096 →
      answers [absent, 0] fun t => t.journal.w = j.w ∧ t.journal.lost = min 4294967295 (j.lost + 1))

/-! ### The screen link (chapter 6) -/

/-- What the transmitter sends at a character boundary, in R123's and R124's order, behind the removal of the express frames at the
queue's front that are no longer relevant (R125). Opening a frame (R117, R128): it takes the lane's sequence number, OPEN goes on the
line for one character time, and the frame's escaped body, check and CLOSE wait behind it. An express SHOW or CLEAR leaves the queue and
joins the outstanding list, as STAGE and DROP do; a HELLO joins the HELLO record instead and starts its interval (R134). A STAGE's text
is what the pool holds now (R99), a resend's what was sent before (R131). That the command acts whatever the boundary's show time, and
that nothing happens where no frame is to open, is the model's choice (log entry 8), and so is that in LIVE a late STAGE on one buffer
goes ahead of a DROP owed on the other, where R107 says otherwise (log entry 37), and that behind an ESC left on the line by an abandoned
frame any choice may follow (log entry 38). -/
def Obligations.FrameOpens : Prop :=
  (∀ (l : Lane) (i : LaneIx) (window : List Entry),
    l.removesStale ∧ l.sendsInOrder i window ∧ l.normalInOrder i window) ∧
  ∀ (s : State) (i : LaneIx), s.part.enabled = true → (s.part.lane i).active = true →
    let l := (s.part.lane i).atBoundary
    let now := s.part.now
    let chosen := l.choice i s.part.seq.window
    let opens := fun (l' : Lane) => Runs (.frameOpen i) s Machine.Part.kept (s.part.setLane i l') nothingMore
    let queued := { l with express := l.express.drop 1 }
    (∀ f b token cue, chosen = .openExpress f → f.what = .show_ b token cue →
      opens (opened queued now .show_ (some b) token (some cue) [BitVec.ofNat 8 b.val] f.attempt)) ∧
    (∀ f, chosen = .openExpress f → f.what = .clear → opens (opened queued now .clear none 0 none [] f.attempt)) ∧
    (chosen = .openNormal .hello →
      let content := [l.cfg.language.extractLsb' 8 8, l.cfg.language.extractLsb' 0 8, BitVec.ofNat 8 i.val]
      opens
        { opened l now .hello none 0 none content 1 with
          outstanding := l.outstanding, hellos := (l.sequence :: l.hellos).take 2, helloAt := some (now + 100000)
          helloWaiting := false }) ∧
    (∀ b, chosen = .openNormal (.drop b) → opens (opened l now .drop (some b) 0 none [BitVec.ofNat 8 b.val] 1)) ∧
    (∀ b e t, chosen = .openNormal (.ahead b e t) →
      opens
        (opened l now .stage (some b) l.nextToken (some e.cue.id) (stageContent s.part.mem b e.cue.id t l.maxLine) 1)) ∧
    (∀ b, chosen = .openNormal (.lateStage b) →
      let r := l.rec_ b
      opens (opened l now .stage (some b) r.token (some r.cue) (stageContent s.part.mem b r.cue r.text l.maxLine) 1)) ∧
    (∀ r, chosen = .openNormal (.resend r) →
      opens (opened l now .stage (some r.buffer) r.token (some r.cue) r.content 2)) ∧
    ((chosen = .fill ∨ chosen = .resume ∨ chosen = .cancel ∨ chosen = .suspend ∨ ∃ f, chosen = .expressChar f ∨
      chosen = .normalChar f) → opens (s.part.lane i))

/-- A frame's CLOSE, which stands for the characters the frame still had (log entry 8; R128, R139): the frame leaves the
transmitter, counts as sent, and its entry's ack timeout runs from now, the end of the CLOSE's character, with the timeout in force (log
entry 28); no CANCEL is due for a normal frame that has closed (R127). A normal frame inside an escape pair for which a CANCEL is due does
not close, nor one there before which an express frame can begin: the escaped byte and then the CANCEL or the SUSPEND come first (R116,
R123's cases 3 and 4), and the command does nothing (log entry 8). -/
def Obligations.FrameCloses : Prop :=
  ∀ (s : State) (i : LaneIx) (f : InFlight), s.part.enabled = true → (s.part.lane i).active = true →
    let l := (s.part.lane i).atBoundary
    let chosen := l.choice i s.part.seq.window
    let broken := f.left ≠ [] ∧ (l.tx.cancelDue = true ∨ l.expressCan)
    (chosen = .normalChar f → broken → Runs (.frameClose i) s Machine.Part.kept s.part nothingMore) ∧
    (chosen = .expressChar f ∨ (chosen = .normalChar f ∧ ¬ broken) →
      ∃ t, exec (.frameClose i) s = .next t ∧ t.pending = s.pending ∧
        EndsAs Machine.Part.kept noByte s.part (s.part.setLane i (t.part.lane i)) t.part ∧
        (t.part.lane i).sent = l.sent + 1 ∧ (t.part.lane i).sequence = l.sequence ∧
        (t.part.lane i).link = l.link ∧ (t.part.lane i).shadow = l.shadow ∧
        (t.part.lane i).tx.lineOut = some 0xFA ∧
        (t.part.lane i).tx.boundary = s.part.now ∧
        (f.kind.normal = true →
          (t.part.lane i).tx.normal = none ∧ (t.part.lane i).tx.express = l.tx.express ∧
            (t.part.lane i).tx.cancelDue = false) ∧
        (f.kind.normal = false → (t.part.lane i).tx.express = none ∧ (t.part.lane i).tx.normal = l.tx.normal) ∧
        (f.kind = .hello → (t.part.lane i).outstanding = l.outstanding) ∧
        (f.kind ≠ .hello →
          (t.part.lane i).outstanding =
            l.outstanding.map fun e =>
              if e.seq = f.seq ∧ e.closing.isNone then
                { e with
                  closing := some
                    { order := l.nextOrder, time := s.part.now, deadline := s.part.now + l.cfg.ackTimeout * 1000 } }
              else e))

/-- SUSPEND, RESUME and CANCEL go on the line where R123 gives them: SUSPEND and RESUME pause and continue the normal frame,
CANCEL ends it and takes its open entry off the outstanding list, with no miss (R126, R127). That they act whatever the boundary's
show time, and that nothing happens where R123 gives anything else, is the model's choice (log entry 8). -/
def Obligations.LineIsInterrupted : Prop :=
  ∀ (s : State) (i : LaneIx), s.part.enabled = true → (s.part.lane i).active = true →
    let l := (s.part.lane i).atBoundary
    let chosen := l.choice i s.part.seq.window
    let line := fun (c : Byte) => { l.tx with lineOut := some c, boundary := s.part.now + l.cfg.baud.charTime }
    (chosen = .suspend →
      Runs (.suspend i) s Machine.Part.kept (s.part.setLane i { l with tx := { line 0xFB with suspended := true } })
        nothingMore) ∧
    (chosen = .resume →
      Runs (.resume i) s Machine.Part.kept (s.part.setLane i { l with tx := { line 0xF9 with suspended := false } })
        nothingMore) ∧
    (∀ f, chosen = .cancel → l.tx.normal = some f →
      Runs (.cancel i) s Machine.Part.kept
        (s.part.setLane i
          { l with
            tx := { line 0xFC with normal := none, cancelDue := false }
            outstanding := l.outstanding.filter fun e => decide (e.seq ≠ f.seq) || e.closing.isSome }) fun t =>
        t.journal = s.part.journal) ∧
    (chosen ≠ .suspend → Runs (.suspend i) s Machine.Part.kept s.part nothingMore) ∧
    (chosen ≠ .resume → Runs (.resume i) s Machine.Part.kept s.part nothingMore) ∧
    (chosen ≠ .cancel → Runs (.cancel i) s Machine.Part.kept s.part nothingMore)

/-- The HELLO interval, once expired in SYNC, has a HELLO wait (R134); the silence expiry of a lane that is up, once come,
brings it to SYNC with its lists and screen values forgotten, its counters, flag and configuration kept, and a HELLO waiting
(R136).
That a frame abandoned with its CLOSE on the line does not count as sent is the model's choice (log entry 40). -/
def Obligations.LinkExpiriesAct : Prop :=
  ∀ (s : State) (i : LaneIx), s.part.enabled = true →
    let l := s.part.lane i
    (∀ t, l.link = .sync → l.helloAt = some t → t ≤ s.part.now →
      Runs (.helloInterval i) s Machine.Part.kept (s.part.setLane i { l with helloAt := none, helloWaiting := true })
        nothingMore) ∧
    (l.link = .live ∨ l.link = .paused → l.lastChar + l.cfg.silenceTimeout * 1000 ≤ s.part.now →
      ∃ t, exec (.silenceExpiry i) s = .next t ∧ t.pending = s.pending ∧
        EndsAs Machine.Part.still noByte s.part (s.part.setLane i (t.part.lane i)) t.part ∧
        (t.part.lane i).link = .sync ∧ (t.part.lane i).screen = none ∧ (t.part.lane i).outstanding = [] ∧
        (t.part.lane i).missCounter = 0 ∧ (t.part.lane i).helloWaiting = true ∧ (t.part.lane i).cfg = l.cfg ∧
        (t.part.lane i).blanked = l.blanked ∧ (t.part.lane i).misses = l.misses ∧ (t.part.lane i).sent = l.sent ∧
        (t.part.lane i).acknowledged = l.acknowledged ∧ (t.part.lane i).badReplies = l.badReplies ∧
        (t.part.lane i).strays = l.strays ∧
        (s.part.seq.idleHead →
          (t.part.lane i).shadow = l.shadow ∧ s.part.appended t.part [laneRecord .silence i l.link .sync none none]))

/-- READY (R119, R121, R130, R134, R137): in SYNC, echoing one of the last HELLOs, and in LIVE and PAUSED, it makes the lane LIVE
with the screen's values and miss counter 0; in SYNC with another echo it is stray, and with a field out of range a bad reply. -/
def Obligations.ReadyBringsLive : Prop :=
  ∀ (s : State) (i : LaneIx) (echo buffers maxLine : Byte), s.part.enabled = true →
    let l := s.part.lane i
    let c := Instr.ready i echo buffers maxLine
    let heard := if l.up then { l with lastChar := s.part.now } else l
    let inRange :=
      1 ≤ buffers.toNat ∧ buffers.toNat ≤ 2 ∧ 1 ≤ maxLine.toNat ∧ maxLine.toNat ≤ 120
    (inRange → ((l.link = .sync ∧ echo ∈ l.hellos) ∨ l.link = .live ∨ l.link = .paused) →
      ∃ t, exec c s = .next t ∧ t.pending = s.pending ∧
        EndsAs Machine.Part.still noByte s.part (s.part.setLane i (t.part.lane i)) t.part ∧
        (t.part.lane i).link = .live ∧
        (t.part.lane i).screen = some { buffers := buffers.toNat, maxLine := maxLine.toNat } ∧
        (t.part.lane i).missCounter = 0 ∧ (t.part.lane i).lastChar = s.part.now ∧ (t.part.lane i).cfg = l.cfg ∧
        (t.part.lane i).outstanding = [] ∧
        (s.part.seq.idleHead →
          (t.part.lane i).shadow = l.shadow ∧
            s.part.appended t.part
              [laneRecord (if l.link = .sync then .ready else .restart) i l.link .live
                (some (buffers.toNat, maxLine.toNat, echo.toNat)) none])) ∧
    (inRange → l.link = .sync → echo ∉ l.hellos →
      Runs c s Machine.Part.still (s.part.setLane i { l with strays := l.strays + 1, rx := .outside }) nothingMore) ∧
    (¬ inRange → l.active = true →
      Runs c s Machine.Part.still (s.part.setLane i { heard with badReplies := l.badReplies + 1, rx := .outside })
        nothingMore) ∧
    (l.link = .off ∨ l.link = .fault → Runs c s Machine.Part.still s.part nothingMore)

/-- ACK (R129, R130): on a lane that is up it matches the closed frame with its number, which leaves the outstanding list and
counts as acknowledged, a DONE with no earlier frame closed setting the miss counter to 0; one that matches none, and any in
SYNC, is stray. -/
def Obligations.AckMatchesFrame : Prop :=
  ∀ (s : State) (i : LaneIx) (echo : Byte) (outcome : AckOutcome), s.part.enabled = true →
    let l := s.part.lane i
    let c := Instr.ack i echo outcome
    (∀ e k, l.link = .live ∨ l.link = .paused → e ∈ l.outstanding → e.seq = echo → e.closing = some k →
      (∀ x ∈ l.outstanding, x.seq = echo → x.closing ≠ none → x = e) →
      ∃ t, exec c s = .next t ∧ t.pending = s.pending ∧
        EndsAs Machine.Part.still noByte s.part (s.part.setLane i (t.part.lane i)) t.part ∧
        (t.part.lane i).acknowledged = l.acknowledged + 1 ∧ e ∉ (t.part.lane i).outstanding ∧
        (closedBefore l.outstanding k = [] →
          (t.part.lane i).outstanding = l.outstanding.filter (fun x => decide (x ≠ e)) ∧
            (t.part.lane i).link = l.link ∧ (t.part.lane i).lastChar = s.part.now ∧
            (t.part.lane i).misses = l.misses ∧
            (t.part.lane i).missCounter = (if outcome = .done then 0 else l.missCounter))) ∧
    (l.link = .live ∨ l.link = .paused → (∀ x ∈ l.outstanding, x.seq = echo → x.closing = none) →
      Runs c s Machine.Part.still
        (s.part.setLane i { l with strays := l.strays + 1, rx := .outside, lastChar := s.part.now }) nothingMore) ∧
    (l.link = .sync →
      Runs c s Machine.Part.still (s.part.setLane i { l with strays := l.strays + 1, rx := .outside }) nothingMore)

/-- BUSY pauses a LIVE lane and FREE takes a PAUSED one back to LIVE, each with its LANE record; otherwise they are discarded. A
bad reply is counted (R121, R122, R135). All three are characters heard. -/
def Obligations.BusyFreeAndBad : Prop :=
  ∀ (s : State) (i : LaneIx), s.part.enabled = true →
    let l := s.part.lane i
    let heard := { l with rx := .outside, lastChar := s.part.now }
    (l.link = .live →
      Runs (.busy i) s Machine.Part.kept (s.part.setLane i { heard with link := .paused }) (fun t =>
        s.part.appended t [laneRecord .busy i .live .paused none none]) ∧
      Runs (.free i) s Machine.Part.kept (s.part.setLane i heard) nothingMore ∧
      Runs (.badReply i) s Machine.Part.kept (s.part.setLane i { heard with badReplies := l.badReplies + 1 })
        nothingMore) ∧
    (l.link = .paused →
      Runs (.free i) s Machine.Part.kept (s.part.setLane i { heard with link := .live }) (fun t =>
        s.part.appended t [laneRecord .free i .paused .live none none]) ∧
      Runs (.busy i) s Machine.Part.kept (s.part.setLane i heard) nothingMore ∧
      Runs (.badReply i) s Machine.Part.kept (s.part.setLane i { heard with badReplies := l.badReplies + 1 })
        nothingMore) ∧
    (l.link = .sync →
      Runs (.badReply i) s Machine.Part.kept
        (s.part.setLane i { l with rx := .outside, badReplies := l.badReplies + 1 }) nothingMore ∧
      Runs (.busy i) s Machine.Part.kept (s.part.setLane i { l with rx := .outside }) nothingMore ∧
      Runs (.free i) s Machine.Part.kept (s.part.setLane i { l with rx := .outside }) nothingMore)

/-- The ack timeout of a closed frame, once it has come (R131, R132): the frame leaves the list; a first attempt that began under
RESEND_ONCE is no miss, any other counts one and at the fault limit brings the lane to FAULT (R138). That the retry policy in force at the
frame's OPEN decides, where R131 says "the lane's retry policy", is the model's choice (log entry 28). -/
def Obligations.AckTimesOut : Prop :=
  ∀ (s : State) (i : LaneIx) (e : Outstanding) (k : Closing), s.part.enabled = true → (s.part.lane i).up = true →
    let l := s.part.lane i
    e ∈ l.outstanding → e.closing = some k → k.deadline ≤ s.part.now →
    (∀ x ∈ l.outstanding, x.seq = e.seq → x = e) →
    ∃ t, exec (.ackTimeout i e.seq) s = .next t ∧ t.pending = s.pending ∧
      EndsAs Machine.Part.still noByte s.part (s.part.setLane i (t.part.lane i)) t.part ∧
      e ∉ (t.part.lane i).outstanding ∧ (t.part.lane i).cfg = l.cfg ∧
      (e.retry = .resendOnce ∧ e.attempt = 1 →
        (t.part.lane i).misses = l.misses ∧ (t.part.lane i).missCounter = l.missCounter ∧
          (t.part.lane i).link = l.link) ∧
      (¬ (e.retry = .resendOnce ∧ e.attempt = 1) →
        (t.part.lane i).misses = l.misses + 1 ∧ (t.part.lane i).missCounter = l.missCounter + 1 ∧
          (t.part.lane i).link = (if l.cfg.faultLimit ≤ l.missCounter + 1 then .fault else l.link))

/-- A character from the screen (R114, R121, R136): on a lane up the silence timeout runs anew; the receiver takes it, a frame
that ends bad counts, and one that ends well is acted on as its reply, READY and ACK as the commands of those names (log entry 10); a
lane in OFF or FAULT takes none. -/
def Obligations.CharactersAreReceived : Prop :=
  ∀ (s : State) (i : LaneIx) (b : Byte) (err : Bool), s.part.enabled = true →
    let l := s.part.lane i
    let c := Instr.characterReceived i b err
    let heard := if l.up then { l with lastChar := s.part.now } else l
    (l.active = false → Runs c s Machine.Part.still s.part nothingMore) ∧
    (∀ r, l.active = true → receive l.rx b err = (r, none) →
      Runs c s Machine.Part.still (s.part.setLane i { heard with rx := r }) fun t =>
        s.part.seq.idleHead → t.kept = (s.part.setLane i { heard with rx := r }).kept) ∧
    (∀ r, l.active = true → receive l.rx b err = (r, some .bad) →
      Runs c s Machine.Part.still (s.part.setLane i { heard with rx := r, badReplies := l.badReplies + 1 }) nothingMore) ∧
    (∀ r, l.link = .live → receive l.rx b err = (r, some .busy) →
      Runs c s Machine.Part.still (s.part.setLane i { heard with rx := .outside, link := .paused }) nothingMore) ∧
    (∀ r, l.link = .paused → receive l.rx b err = (r, some .free) →
      Runs c s Machine.Part.still (s.part.setLane i { heard with rx := .outside, link := .live }) nothingMore) ∧
    (∀ r echo buffers maxLine, l.active = true → receive l.rx b err = (r, some (.ready echo buffers maxLine)) →
      exec c s = exec (.ready i echo buffers maxLine) s) ∧
    (∀ r echo outcome, l.active = true → receive l.rx b err = (r, some (.ack echo outcome)) →
      exec c s = exec (.ack i echo outcome) s)

/-- A frame framed, checked and escaped as the part sends one is received as its body: the receiver ends outside a frame and
judges the reply the body spells (R115, R116, R120, R121). -/
def Obligations.FramesReadBack : Prop :=
  ∀ body : List Byte, 1 ≤ body.length → body.length ≤ 16 →
    receiveAll .outside (frameChars body) = (.outside, some (replyOf body))
end

