-- ==== Sys2Proof/Laws/Memory.lean ====
section
/-! SUPPORT. The laws of book memory: a read after a write gives the value written, a write leaves every other byte alone, and
every write keeps the canonical form. -/

namespace Sys2Proof.Machine

/-! ### Reads of the cells -/

theorem cellsRead_filter_ne (k : Nat) (cells : List Host.Cell) :
    cellsRead (cells.filter fun c => decide (c.1 ≠ k)) k = unlisted := by
  induction cells with
  | nil => rfl
  | cons c rest ih =>
    obtain ⟨a, b⟩ := c
    by_cases h : a = k
    · simpa [h] using ih
    · simp only [ne_eq, h, not_false_eq_true, decide_true, List.filter_cons_of_pos, cellsRead, Ne.symm h, if_false]
      simpa using ih

theorem cellsRead_filter_other {k j : Nat} (h : j ≠ k) (cells : List Host.Cell) :
    cellsRead (cells.filter fun c => decide (c.1 ≠ k)) j = cellsRead cells j := by
  induction cells with
  | nil => rfl
  | cons c rest ih =>
    obtain ⟨a, b⟩ := c
    by_cases ha : a = k
    · have hj : j ≠ a := fun e => h (e.trans ha)
      simpa [ha, cellsRead, h] using ih
    · simp only [ne_eq, ha, not_false_eq_true, decide_true, List.filter_cons_of_pos, cellsRead]
      simp only [ne_eq] at ih
      rw [ih]

theorem cellsRead_insert_same (k : Nat) (v : Byte) (cells : List Host.Cell)
    (h : cells.all fun c => decide (c.1 ≠ k)) : cellsRead (cellsInsert k v cells) k = v := by
  induction cells with
  | nil => simp [cellsInsert, cellsRead]
  | cons c rest ih =>
    obtain ⟨a, b⟩ := c
    simp only [List.all_cons, Bool.and_eq_true, decide_eq_true_eq] at h
    by_cases hk : k < a
    · simp [cellsInsert, hk, cellsRead]
    · simp only [cellsInsert, hk, if_false, cellsRead, Ne.symm h.1]
      exact ih h.2

theorem cellsRead_insert_other {k j : Nat} (h : j ≠ k) (v : Byte) (cells : List Host.Cell) :
    cellsRead (cellsInsert k v cells) j = cellsRead cells j := by
  induction cells with
  | nil => simp [cellsInsert, cellsRead, h]
  | cons c rest ih =>
    obtain ⟨a, b⟩ := c
    by_cases hk : k < a
    · simp [cellsInsert, hk, cellsRead, h]
    · simp [cellsInsert, hk, cellsRead, ih]

/-- A byte just written reads as written. -/
@[simp] theorem Memory.byte_setByte_same (m : Memory) (a : Nat) (v : Byte) : (m.setByte a v).byte a = v := by
  by_cases hv : v = unlisted
  · simp only [Memory.byte, Memory.setByte, cellsWrite, hv, if_true]
    exact cellsRead_filter_ne a m.cells
  · simp only [Memory.byte, Memory.setByte, cellsWrite, hv, if_false]
    exact cellsRead_insert_same a v _ (by simp)

/-- Every other byte reads as before. -/
theorem Memory.byte_setByte_other (m : Memory) {a k : Nat} (v : Byte) (h : k ≠ a) : (m.setByte a v).byte k = m.byte k := by
  by_cases hv : v = unlisted
  · simp only [Memory.byte, Memory.setByte, cellsWrite, hv, if_true]
    exact cellsRead_filter_other h m.cells
  · simp only [Memory.byte, Memory.setByte, cellsWrite, hv, if_false]
    rw [cellsRead_insert_other h]
    exact cellsRead_filter_other h m.cells

/-- Bytes outside a run written read as before. -/
theorem Memory.byte_setBytes_other (bs : List Byte) :
    ∀ (m : Memory) (a k : Nat), k < a ∨ a + bs.length ≤ k → (m.setBytes a bs).byte k = m.byte k := by
  induction bs with
  | nil => intro m a k _; rfl
  | cons v rest ih =>
    intro m a k h
    simp only [List.length_cons] at h
    rw [Memory.setBytes, ih _ _ _ (by omega)]
    exact m.byte_setByte_other v (by omega)

/-- A run of bytes just written reads as written. -/
theorem Memory.byte_setBytes_same (bs : List Byte) :
    ∀ (m : Memory) (a i : Nat) (h : i < bs.length), (m.setBytes a bs).byte (a + i) = bs[i] := by
  induction bs with
  | nil => intro m a i h; exact absurd h (by simp)
  | cons v rest ih =>
    intro m a i h
    rw [Memory.setBytes]
    cases i with
    | zero =>
      rw [Nat.add_zero, Memory.byte_setBytes_other _ _ _ _ (by omega)]
      simp
    | succ n =>
      have := ih (m.setByte a v) (a + 1) n (by simpa using h)
      rw [show a + (n + 1) = a + 1 + n by omega, this]
      simp

@[simp] theorem leBytes_length (n v : Nat) : (leBytes n v).length = n := by
  induction n generalizing v with
  | zero => rfl
  | succ n ih => simp [leBytes, ih]

/-- The number just written reads back, as far as its bytes hold it. -/
theorem Memory.number_setBytes_same (n : Nat) :
    ∀ (m : Memory) (a v : Nat), (m.setBytes a (leBytes n v)).number a n = v % 256 ^ n := by
  induction n with
  | zero => intro m a v; simp [Memory.number, Nat.mod_one]
  | succ n ih =>
    intro m a v
    rw [Memory.number, leBytes, Memory.setBytes, ih,
      Memory.byte_setBytes_other _ _ _ _ (by omega), Memory.byte_setByte_same]
    simp only [BitVec.toNat_ofNat, Nat.reducePow]
    rw [show (256 : Nat) ^ (n + 1) = 256 * 256 ^ n by rw [Nat.pow_succ, Nat.mul_comm], Nat.mod_mul]

/-- A number whose bytes a write leaves alone reads as before. -/
theorem Memory.number_setBytes_other (bs : List Byte) (m : Memory) (a : Nat) (n : Nat) :
    ∀ k : Nat, k + n ≤ a ∨ a + bs.length ≤ k → (m.setBytes a bs).number k n = m.number k n := by
  induction n with
  | zero => intro k _; rfl
  | succ n ih =>
    intro k h
    rw [Memory.number, Memory.number, ih _ (by omega), Memory.byte_setBytes_other _ _ _ _ (by omega)]

/-- The word just written reads back modulo 2^32. -/
theorem Memory.word_setWord_same (m : Memory) (a v : Nat) : (m.setWord a v).word a = v % 4294967296 :=
  Memory.number_setBytes_same 4 m a v

/-- A word that does not overlap the word written reads as before. -/
theorem Memory.word_setWord_other (m : Memory) {a k : Nat} (v : Nat) (h : k + 4 ≤ a ∨ a + 4 ≤ k) :
    (m.setWord a v).word k = m.word k :=
  Memory.number_setBytes_other _ m a 4 k (by simpa using h)

/-! ### The canonical form -/

theorem Memory.wf_iff (m : Memory) :
    m.wf = true ↔ m.cells.Pairwise (fun x y => x.1 < y.1) ∧ ∀ c ∈ m.cells, c.2 ≠ unlisted := by
  simp [Memory.wf]

theorem mem_cellsInsert {k : Nat} {v : Byte} {c : Host.Cell} {cells : List Host.Cell} :
    c ∈ cellsInsert k v cells ↔ c = (k, v) ∨ c ∈ cells := by
  induction cells with
  | nil => simp [cellsInsert]
  | cons d rest ih =>
    obtain ⟨a, b⟩ := d
    by_cases hk : k < a
    · simp [cellsInsert, hk]
    · simp only [cellsInsert, hk, if_false, List.mem_cons, ih]
      tauto

theorem cellsInsert_pairwise {k : Nat} {v : Byte} {cells : List Host.Cell}
    (h : cells.Pairwise fun x y => x.1 < y.1) (hk : ∀ c ∈ cells, c.1 ≠ k) :
    (cellsInsert k v cells).Pairwise fun x y => x.1 < y.1 := by
  induction cells with
  | nil => simp [cellsInsert]
  | cons d rest ih =>
    obtain ⟨a, b⟩ := d
    rw [List.pairwise_cons] at h
    by_cases hlt : k < a
    · simp only [cellsInsert, hlt, if_true, List.pairwise_cons, List.mem_cons]
      refine ⟨?_, h.1, h.2⟩
      rintro c (rfl | hc)
      · exact hlt
      · exact Nat.lt_trans hlt (h.1 c hc)
    · simp only [cellsInsert, hlt, if_false, List.pairwise_cons]
      refine ⟨?_, ih h.2 fun c hc => hk c (List.mem_cons_of_mem _ hc)⟩
      intro c hc
      rcases mem_cellsInsert.1 hc with rfl | hc
      · have : a ≠ k := hk (a, b) List.mem_cons_self
        simp only
        omega
      · exact h.1 c hc

/-- Writing a byte keeps the canonical form. -/
theorem Memory.setByte_wf {m : Memory} (a : Nat) (v : Byte) (h : m.wf = true) : (m.setByte a v).wf = true := by
  rw [Memory.wf_iff] at h ⊢
  have hf : (m.cells.filter fun c => decide (c.1 ≠ a)).Pairwise fun x y => x.1 < y.1 := h.1.filter _
  by_cases hv : v = unlisted
  · simp only [Memory.setByte, cellsWrite, hv, if_true]
    exact ⟨hf, fun c hc => h.2 c (List.mem_of_mem_filter hc)⟩
  · simp only [Memory.setByte, cellsWrite, hv, if_false]
    refine ⟨cellsInsert_pairwise hf (by simp), fun c hc => ?_⟩
    rcases mem_cellsInsert.1 hc with rfl | hc
    · exact hv
    · exact h.2 c (List.mem_of_mem_filter hc)

end Sys2Proof.Machine
end

