-- ==== Sys2Proof/Laws/Writes.lean ====
section
/-! SUPPORT. What the part writes to book memory: every write is a run of byte writes into the areas the part owns (11.1), which
keeps the canonical form and leaves every other byte alone. -/

namespace Sys2Proof.Machine

/-- `Reach ok m n`: n comes from m by byte writes at addresses for which `ok` holds. -/
inductive Memory.Reach (ok : Nat → Prop) : Memory → Memory → Prop where
  | refl (m : Memory) : Reach ok m m
  | setByte {m n : Memory} (a : Nat) (v : Byte) : Reach ok m n → ok a → Reach ok m (n.setByte a v)

theorem Memory.Reach.trans {ok : Nat → Prop} {a b c : Memory} (h : Reach ok a b) (k : Reach ok b c) : Reach ok a c := by
  induction k with
  | refl => exact h
  | setByte x v _ hx ih => exact .setByte x v ih hx

theorem Memory.Reach.mono {ok ok' : Nat → Prop} (hok : ∀ x, ok x → ok' x) {a b : Memory} (h : Reach ok a b) : Reach ok' a b := by
  induction h with
  | refl => exact .refl _
  | setByte x v _ hx ih => exact .setByte x v ih (hok x hx)

/-- Bytes where `ok` does not hold read as before. -/
theorem Memory.Reach.byte {ok : Nat → Prop} {m n : Memory} (h : Reach ok m n) {a : Nat} (ha : ¬ ok a) : n.byte a = m.byte a := by
  induction h with
  | refl => rfl
  | setByte x v _ hx ih => rw [Memory.byte_setByte_other _ v (fun e => ha (by rw [e]; exact hx)), ih]

/-- The canonical form is kept. -/
theorem Memory.Reach.wf {ok : Nat → Prop} {m n : Memory} (h : Reach ok m n) (hm : m.wf = true) : n.wf = true := by
  induction h with
  | refl => exact hm
  | setByte x v _ _ ih => exact Memory.setByte_wf x v ih

theorem Memory.reach_setBytes {ok : Nat → Prop} (bs : List Byte) :
    ∀ (m : Memory) (a : Nat), (∀ k, a ≤ k → k < a + bs.length → ok k) → Memory.Reach ok m (m.setBytes a bs) := by
  induction bs with
  | nil => intro m a _; exact .refl m
  | cons v rest ih =>
    intro m a h
    simp only [List.length_cons] at h
    exact Memory.Reach.trans (.setByte a v (.refl m) (h a (Nat.le_refl a) (by omega)))
      (ih _ _ fun k h1 h2 => h k (by omega) (by omega))

theorem Memory.reach_setWord {ok : Nat → Prop} (m : Memory) (a v : Nat) (h : ∀ k, a ≤ k → k < a + 4 → ok k) :
    Memory.Reach ok m (m.setWord a v) :=
  Memory.reach_setBytes _ m a (by simpa using h)

theorem Memory.reach_setWords {ok : Nat → Prop} (fields : List (Nat × Nat)) :
    ∀ m : Memory, (∀ x ∈ fields, ∀ k, x.1 ≤ k → k < x.1 + 4 → ok k) → Memory.Reach ok m (m.setWords fields) := by
  induction fields with
  | nil => intro m _; exact .refl m
  | cons x rest ih =>
    intro m h
    exact (Memory.reach_setWord m x.1 x.2 (h x List.mem_cons_self)).trans
      (ih _ fun y hy => h y (List.mem_cons_of_mem _ hy))

/-! ### The areas the part writes (11.1) -/

/-- Every field of a list lies in the status block behind the generation word. -/
def inStatus (fields : List (Nat × Nat)) : Prop := ∀ x ∈ fields, 0x44 ≤ x.1 ∧ x.1 + 4 ≤ 0x200

theorem seqStatus_inStatus (q : Sequencer) : inStatus (seqStatus q) := by
  simp [inStatus, seqStatus]

theorem clockStatus_inStatus (c : Clock) : inStatus (clockStatus c) := by
  simp [inStatus, clockStatus]

theorem journalStatus_inStatus (j : JournalUnit) : inStatus (journalStatus j) := by
  simp [inStatus, journalStatus]

theorem laneStatus_inStatus (i : LaneIx) (l : Lane) : inStatus (laneStatus i l) := by
  have := i.isLt
  intro x hx
  simp only [laneStatus, List.mem_cons, List.not_mem_nil, or_false] at hx
  rcases hx with rfl | rfl | rfl | rfl | rfl | rfl | rfl | rfl <;> simp only <;> omega

theorem inStatus_append {xs ys : List (Nat × Nat)} (h : inStatus xs) (k : inStatus ys) : inStatus (xs ++ ys) :=
  fun x hx => (List.mem_append.1 hx).elim (h x) (k x)

theorem unusedStatus_inStatus : inStatus unusedStatus := by
  intro x hx
  simp only [unusedStatus, List.mem_append, List.mem_map, List.mem_range] at hx
  rcases hx with ⟨k, hk, rfl⟩ | ⟨k, hk, rfl⟩ <;> simp only <;> omega

/-- The status block's bytes. -/
def statusByte (a : Nat) : Prop := 0x40 ≤ a ∧ a < 0x200

theorem statusByte_own {a : Nat} (h : statusByte a) : ownByte a := .inl h

/-- A status word lies in the status block, wherever its index points. -/
theorem Memory.setStatus_reach (m : Memory) (x : Fin 112 × Word) : Memory.Reach statusByte m (m.setStatus x) := by
  have := x.1.isLt
  exact Memory.reach_setWord _ _ _ fun k h1 h2 => by
    simp only [Config.statusAt] at h1 h2
    exact ⟨by omega, by omega⟩

theorem Memory.setStatuses_reach (xs : List (Fin 112 × Word)) :
    ∀ m : Memory, Memory.Reach statusByte m (xs.foldl Memory.setStatus m) := by
  induction xs with
  | nil => intro m; exact .refl m
  | cons x rest ih => intro m; exact (m.setStatus_reach x).trans (ih _)

theorem Part.finishUpdate_status (p : Part) : Memory.Reach statusByte p.mem p.finishUpdate.mem := Memory.setStatuses_reach _ _

theorem Part.writeStatusWord_status (p : Part) : Memory.Reach statusByte p.mem p.writeStatusWord.mem := by
  unfold Part.writeStatusWord
  split
  · exact .refl _
  · exact Memory.setStatus_reach _ _

/-- A status update writes inside the status block. -/
theorem Part.statusWrite_status (p : Part) (fields : List (Nat × Nat)) :
    Memory.Reach statusByte p.mem (p.statusWrite fields).mem :=
  p.finishUpdate_status.trans (Memory.setStatus_reach _ _)

theorem Part.statusWrite_reach (p : Part) (fields : List (Nat × Nat)) :
    Memory.Reach ownByte p.mem (p.statusWrite fields).mem :=
  (p.statusWrite_status fields).mono fun _ => statusByte_own

theorem Part.finishUpdate_reach (p : Part) : Memory.Reach ownByte p.mem p.finishUpdate.mem :=
  p.finishUpdate_status.mono fun _ => statusByte_own

/-- The journal unit's update, whole before the notices of its append, writes inside the status block (R171). -/
theorem Part.journalUpdate_status (p : Part) : Memory.Reach statusByte p.mem p.journalUpdate.mem :=
  (p.statusWrite_status _).trans (Part.finishUpdate_status _)

theorem Part.journalUpdate_reach (p : Part) : Memory.Reach ownByte p.mem p.journalUpdate.mem :=
  p.journalUpdate_status.mono fun _ => statusByte_own

/-- The bytes of a number are those of its low word. -/
theorem leBytes_four (v : Nat) : leBytes 4 (v % 4294967296) = leBytes 4 v := by
  have h : ∀ a b : Nat, a % 256 = b % 256 → BitVec.ofNat 8 a = BitVec.ofNat 8 b := fun a b e => by
    apply BitVec.eq_of_toNat_eq
    simpa using e
  simp only [leBytes, List.cons.injEq, and_true]
  refine ⟨h _ _ (by omega), h _ _ (by omega), h _ _ (by omega), h _ _ (by omega)⟩

/-- A field of the status block written through its index is its word written at its address. -/
theorem Memory.setStatus_index (m : Memory) {a : Nat} (v : Nat) (h1 : 0x40 ≤ a) (h2 : a + 4 ≤ 0x200) (h3 : a % 4 = 0) :
    m.setStatus (statusIndex a, BitVec.ofNat 32 v) = m.setWord a v := by
  have : Config.statusAt + 4 * (statusIndex a).val = a := by
    simp only [statusIndex, Config.statusAt, Fin.ofNat]
    omega
  unfold Memory.setStatus
  simp only [this, Memory.setWord, BitVec.toNat_ofNat, Nat.reducePow, leBytes_four]

/-- The writer's next word is a part of the update it finishes (R182). -/
theorem Part.finish_writeStatusWord (p : Part) : p.writeStatusWord.finishUpdate = p.finishUpdate := by
  unfold Part.writeStatusWord
  split
  · rfl
  · rename_i x rest h
    unfold Part.finishUpdate
    simp only [h, List.foldl_cons, reduceCtorEq, if_false]
    by_cases hr : rest = []
    · simp [hr]
    · simp [hr]
theorem Part.statusIfChanged_reach (p : Part) (old new : List (Nat × Nat)) :
    Memory.Reach ownByte p.mem (p.statusIfChanged old new).mem := by
  unfold Part.statusIfChanged
  split
  · exact .refl _
  · exact p.statusWrite_reach _

theorem recordAt_bounds (n : Word) : 0x42000 ≤ recordAt n ∧ recordAt n + 32 ≤ 0x62000 := by
  simp only [recordAt, Config.journalAt, Config.ringSize]
  omega

theorem Record.bytes_length (r : Record) (time : Nat) : (r.bytes time).length = 28 := by
  simp [Record.bytes]

/-- A record written lies in the ring, and its status update in the status block. -/
theorem Part.writeRecord_reach (p : Part) (r : Record) : Memory.Reach ownByte p.mem (p.writeRecord r).mem := by
  have hb := recordAt_bounds p.journal.w
  have h1 : Memory.Reach ownByte p.mem
      ((p.mem.setBytes (recordAt p.journal.w + 4) (r.bytes p.now)).setWord (recordAt p.journal.w) p.journal.w.toNat) := by
    refine (Memory.reach_setBytes _ p.mem _ ?_).trans (Memory.reach_setWord _ _ _ ?_)
    · intro k h1 h2; rw [Record.bytes_length] at h2; exact .inr (by omega)
    · intro k h1 h2; exact .inr (by omega)
  unfold Part.writeRecord
  simp only
  generalize (p.mem.setBytes (recordAt p.journal.w + 4) (r.bytes p.now)).setWord (recordAt p.journal.w) p.journal.w.toNat = m at h1
  exact h1.trans (Part.journalUpdate_reach { p with mem := m, journal := { p.journal with w := p.journal.w + 1 } })

theorem Part.loseRecord_reach (p : Part) : Memory.Reach ownByte p.mem p.loseRecord.mem :=
  Part.journalUpdate_reach { p with journal := { p.journal with lost := min 4294967295 (p.journal.lost + 1) } }

theorem Part.checkMark_mem (p : Part) : p.checkMark.mem = p.mem := by
  unfold Part.checkMark
  split <;> rfl

theorem Part.writeGap_reach (p : Part) (mark : Word) : Memory.Reach ownByte p.mem (p.writeGap mark).mem := by
  unfold Part.writeGap
  split
  · exact Part.writeRecord_reach { p with journal := { p.journal with lost := 0 } } _
  · exact .refl _

theorem Part.writeOrLose_reach (p : Part) (mark : Word) (r : Record) :
    Memory.Reach ownByte p.mem (p.writeOrLose mark r).mem := by
  unfold Part.writeOrLose
  split
  · exact p.writeRecord_reach r
  · exact p.loseRecord_reach

/-- An append's memory is that of its writes: the notices it sets are not in memory. -/
theorem Part.append_mem (p : Part) (r : Record) :
    (p.append r).mem = ((p.checkMark.writeGap p.markInForce).writeOrLose p.markInForce r).mem := by
  unfold Part.append
  simp only
  generalize (p.checkMark.writeGap p.markInForce).writeOrLose p.markInForce r = q
  split <;> split <;> rfl

/-- An append writes inside the ring and the status block. -/
theorem Part.append_reach (p : Part) (r : Record) : Memory.Reach ownByte p.mem (p.append r).mem := by
  rw [Part.append_mem, ← p.checkMark_mem]
  exact (Part.writeGap_reach _ _).trans (Part.writeOrLose_reach _ _ _)

theorem Part.writeOrLose_update (p : Part) (mark : Word) (r : Record) : (p.writeOrLose mark r).regs.update = [] := by
  unfold Part.writeOrLose
  split <;> rfl

/-- An append leaves no status update under way: its own is whole before its notices are set (R171). -/
theorem Part.append_update (p : Part) (r : Record) : (p.append r).regs.update = [] := by
  have h := Part.writeOrLose_update (p.checkMark.writeGap p.markInForce) p.markInForce r
  unfold Part.append
  simp only
  generalize (p.checkMark.writeGap p.markInForce).writeOrLose p.markInForce r = q at h
  split <;> split <;> exact h

theorem slotAt_bounds (n : SlotIx) : 0x200 ≤ slotAt n ∧ slotAt n + 64 ≤ 0xA00 := by
  have := n.isLt
  simp only [slotAt, Config.slotsAt]
  omega

/-- The take of a slot writes inside it. -/
theorem Part.takeSlot_reach (p : Part) (n : SlotIx) : Memory.Reach (inSlot n) p.mem (p.takeSlot n).mem :=
  Memory.reach_setWord _ _ _ fun k h1 h2 => ⟨h1, by omega⟩

/-- A slot's answer writes inside it. -/
theorem Memory.answer_reach (m : Memory) (n : SlotIx) (tag : Half) (r : Result) (d : List Nat) :
    Memory.Reach (inSlot n) m (m.answer n tag r d) := by
  unfold Memory.answer
  refine (((Memory.Reach.setByte _ _ (.refl m) ⟨by omega, by omega⟩).trans
    (Memory.reach_setBytes _ _ _ ?_)).trans (Memory.reach_setWords _ _ ?_)).trans (Memory.reach_setWord _ _ _ ?_)
  · intro k h1 h2; rw [leBytes_length] at h2; exact ⟨by omega, by omega⟩
  · intro x hx k h1 h2
    simp only [detailWords, List.mem_map, List.mem_range] at hx
    obtain ⟨j, hj, rfl⟩ := hx
    exact ⟨by simp only at h1; omega, by simp only at h2; omega⟩
  · intro k h1 h2; exact ⟨h1, by omega⟩

theorem inSlot_slotByte {n : SlotIx} {a : Nat} (h : inSlot n a) : slotByte a := by
  have := slotAt_bounds n
  exact ⟨by have := h.1; omega, by have := h.2; omega⟩

end Sys2Proof.Machine
end

