-- ==== Sys2Proof/Laws/Events.lean ====
section
/-! SUPPORT. What appends, status updates, the lanes' second look and the end of an event leave alone, said once: they write only
the part's own areas, clear no notice, and keep `Part.kept`. -/

namespace Sys2Proof.Machine

open Sys2Proof (LaneIx SlotIx)

/-- `q` is `p` after writes to the part's own areas, with notices set and only fields outside `Part.kept` changed. -/
structure Part.Keeps (p q : Part) : Prop where
  mem : Memory.Reach ownByte p.mem q.mem
  notices : p.noticesStay q
  kept : q.kept = p.kept

theorem Part.Keeps.refl (p : Part) : p.Keeps p := ⟨.refl _, fun _ h => h, rfl⟩

theorem Part.Keeps.trans {p q r : Part} (h : p.Keeps q) (k : q.Keeps r) : p.Keeps r :=
  ⟨h.mem.trans k.mem, fun n hn => k.notices n (h.notices n hn), k.kept.trans h.kept⟩

/-- A left fold of steps that keep keeps. -/
theorem Part.Keeps.foldl {α : Type} (f : Part → α → Part) (h : ∀ (p : Part) (a : α), p.Keeps (f p a)) (xs : List α) :
    ∀ p : Part, p.Keeps (xs.foldl f p) := by
  induction xs with
  | nil => exact Part.Keeps.refl
  | cons x rest ih => intro p; exact (h p x).trans (ih _)

/-! ### What `kept` says -/

theorem Part.kept_clock {p q : Part} (h : q.kept = p.kept) : q.clock = p.clock :=
  (congrArg (fun x : Part => x.clock) h :)

theorem Part.kept_seq {p q : Part} (h : q.kept = p.kept) : q.seq = p.seq := (congrArg (fun x : Part => x.seq) h :)

theorem Part.kept_scan {p q : Part} (h : q.kept = p.kept) : q.requests.scan = p.requests.scan :=
  (congrArg (fun x : Part => x.requests.scan) h :)

theorem Part.kept_enable {p q : Part} (h : q.kept = p.kept) : q.regs.enable = p.regs.enable :=
  (congrArg (fun x : Part => x.regs.enable) h :)

theorem Part.kept_noticeEn {p q : Part} (h : q.kept = p.kept) : q.regs.noticeEn = p.regs.noticeEn :=
  (congrArg (fun x : Part => x.regs.noticeEn) h :)

theorem Part.kept_timeHi {p q : Part} (h : q.kept = p.kept) : q.regs.timeHi = p.regs.timeHi :=
  (congrArg (fun x : Part => x.regs.timeHi) h :)

theorem Part.kept_readData {p q : Part} (h : q.kept = p.kept) : q.regs.readData = p.regs.readData :=
  (congrArg (fun x : Part => x.regs.readData) h :)

theorem Part.kept_filters {p q : Part} (h : q.kept = p.kept) : q.console.filters = p.console.filters :=
  (congrArg (fun x : Part => x.console.filters) h :)

theorem Part.kept_levels {p q : Part} (h : q.kept = p.kept) : q.console.levels = p.console.levels :=
  (congrArg (fun x : Part => x.console.levels) h :)

theorem Part.kept_lastGo {p q : Part} (h : q.kept = p.kept) : q.console.lastGo = p.console.lastGo :=
  (congrArg (fun x : Part => x.console.lastGo) h :)

theorem Part.kept_alert {p q : Part} (h : q.kept = p.kept) : q.journal.alert = p.journal.alert :=
  (congrArg (fun x : Part => x.journal.alert) h :)

theorem Part.kept_countRecords {p q : Part} (h : q.kept = p.kept) : q.journal.countRecords = p.journal.countRecords :=
  (congrArg (fun x : Part => x.journal.countRecords) h :)

theorem Part.kept_startCause {p q : Part} (h : q.kept = p.kept) : q.journal.startCause = p.journal.startCause :=
  (congrArg (fun x : Part => x.journal.startCause) h :)

theorem Part.lane_map (p : Part) (f : Lane → Lane) (i : LaneIx) : (p.lanes.map f)[i] = f (p.lane i) := by
  simp [Part.lane]

theorem Part.kept_lane {p q : Part} (h : q.kept = p.kept) (i : LaneIx) : (q.lane i).kept = (p.lane i).kept := by
  have := congrArg (fun x : Part => x.lanes[i]) h
  simpa [Part.kept, Part.lane] using this

/-! ### Lanes -/

@[simp] theorem Part.lane_setLane_same (p : Part) (i : LaneIx) (l : Lane) : (p.setLane i l).lane i = l := by
  simp [Part.lane, Part.setLane]

theorem Part.lane_setLane_other (p : Part) {i j : LaneIx} (l : Lane) (h : i ≠ j) : (p.setLane i l).lane j = p.lane j := by
  have : i.val ≠ j.val := fun e => h (Fin.ext e)
  simp only [Part.lane, Part.setLane, Fin.getElem_fin]
  exact Vector.getElem_set_ne _ _ this

/-- Setting a lane to one with the same image under a map changes nothing of the map's image. -/
theorem Part.map_setLane (p : Part) (i : LaneIx) (l : Lane) {α : Type} (f : Lane → α) (h : f l = f (p.lane i)) :
    (p.setLane i l).lanes.map f = p.lanes.map f := by
  apply Vector.ext
  intro j hj
  simp only [Vector.getElem_map]
  by_cases hij : i.val = j
  · subst hij
    simpa [Part.setLane, Part.lane] using h
  · simp only [Part.setLane]
    rw [Vector.getElem_set_ne _ _ hij]

theorem Part.setLane_kept (p : Part) (i : LaneIx) (l : Lane) (h : l.kept = (p.lane i).kept) : (p.setLane i l).kept = p.kept := by
  have := p.map_setLane i l Lane.kept h
  simp only [Part.kept, this]
  rfl

theorem Part.setLane_keeps (p : Part) (i : LaneIx) (l : Lane) (h : l.kept = (p.lane i).kept) : p.Keeps (p.setLane i l) :=
  ⟨.refl _, fun _ hn => hn, p.setLane_kept i l h⟩

theorem Part.modLane_keeps (p : Part) (i : LaneIx) (f : Lane → Lane) (h : ∀ l, (f l).kept = l.kept) : p.Keeps (p.modLane i f) :=
  p.setLane_keeps i _ (h _)

/-! ### Notices and appends -/

theorem Part.setNotice_keeps (p : Part) (n : Notice) : p.Keeps (p.setNotice n) :=
  ⟨.refl _, fun k h => by simp [Part.setNotice, h], rfl⟩

/-- The notice set is set. -/
theorem Part.setNotice_bit (p : Part) (n : Notice) : (p.setNotice n).regs.notice.getLsbD n.bit = true := by
  cases n <;> simp [Part.setNotice, Notice.bit]

theorem Part.statusWrite_keeps (p : Part) (fields : List (Nat × Nat)) : p.Keeps (p.statusWrite fields) :=
  ⟨p.statusWrite_reach fields, fun _ hn => hn, rfl⟩

theorem Part.finishUpdate_keeps (p : Part) : p.Keeps p.finishUpdate := ⟨p.finishUpdate_reach, fun _ hn => hn, rfl⟩

theorem Part.statusIfChanged_keeps (p : Part) (old new : List (Nat × Nat)) : p.Keeps (p.statusIfChanged old new) := by
  unfold Part.statusIfChanged
  split
  · exact .refl p
  · exact p.statusWrite_keeps _

/-- The mark of a REPLACE_SECTION's use. -/
theorem Part.noteUse_keeps (p : Part) : p.Keeps p.noteUse := by
  unfold Part.noteUse
  split
  · exact ⟨.refl _, fun _ hn => hn, rfl⟩
  all_goals exact .refl p

theorem Part.checkMark_keeps (p : Part) : p.Keeps p.checkMark := by
  unfold Part.checkMark
  split
  · exact .refl p
  · exact p.setNotice_keeps _

theorem Part.writeRecord_keeps (p : Part) (r : Record) : p.Keeps (p.writeRecord r) :=
  ⟨p.writeRecord_reach r, fun _ h => h, rfl⟩

theorem Part.loseRecord_keeps (p : Part) : p.Keeps p.loseRecord := ⟨p.loseRecord_reach, fun _ h => h, rfl⟩

theorem Part.writeGap_keeps (p : Part) (mark : Word) : p.Keeps (p.writeGap mark) := by
  unfold Part.writeGap
  split
  · exact ⟨Part.writeRecord_reach { p with journal := { p.journal with lost := 0 } } _, fun _ h => h, rfl⟩
  · exact .refl p

theorem Part.writeOrLose_keeps (p : Part) (mark : Word) (r : Record) : p.Keeps (p.writeOrLose mark r) := by
  unfold Part.writeOrLose
  split
  · exact p.writeRecord_keeps r
  · exact p.loseRecord_keeps

/-- An append writes the ring and the status block, sets notices, and keeps everything else. -/
theorem Part.append_keeps (p : Part) (r : Record) : p.Keeps (p.append r) := by
  have h := (p.checkMark_keeps.trans (Part.writeGap_keeps _ p.markInForce)).trans (Part.writeOrLose_keeps _ p.markInForce r)
  unfold Part.append
  simp only
  generalize (p.checkMark.writeGap p.markInForce).writeOrLose p.markInForce r = q at h
  refine h.trans ?_
  split <;> split
  · exact (Part.setNotice_keeps _ _).trans (Part.setNotice_keeps _ _)
  · exact Part.setNotice_keeps _ _
  · exact Part.setNotice_keeps _ _
  · exact .refl _

theorem Part.appendAll_keeps (p : Part) (rs : List Record) : p.Keeps (p.appendAll rs) :=
  Part.Keeps.foldl Part.append Part.append_keeps rs p

theorem Part.reportClock_keeps (p : Part) (left : ClockState) (cause : ClockCause) : p.Keeps (p.reportClock left cause) := by
  unfold Part.reportClock
  split
  · exact .refl p
  · exact (p.setNotice_keeps _).trans (Part.append_keeps _ _)

theorem Part.reportCount_keeps (p : Part) (o : CountOrigin) (s : Option Nat) : p.Keeps (p.reportCount o s) := by
  unfold Part.reportCount
  split
  · exact p.append_keeps _
  · exact .refl p

theorem Part.reportKey_keeps (p : Part) (k : Key) (src : KeySource) (o : KeyOutcome) (cue : Option Half) :
    p.Keeps (p.reportKey k src o cue) := p.append_keeps _

/-! ### Looking again -/

theorem Lane.setRec_kept (l : Lane) (b : Fin 2) (r : StagingRec) : (l.setRec b r).kept = l.kept := rfl

theorem Lane.freeRec_kept (l : Lane) (b : Fin 2) : (l.freeRec b).kept = l.kept := rfl

theorem Lane.settleObsolete_kept (l : Lane) (b : Fin 2) : (l.settleObsolete b).kept = l.kept := by
  unfold Lane.settleObsolete
  simp only
  split
  · rfl
  · split
    · rfl
    · split <;> rfl
  · split <;> rfl
  · rfl
  · rfl

theorem Lane.startLate_kept (l : Lane) (b : Fin 2) : (l.startLate b).kept = l.kept := by
  unfold Lane.startLate
  split <;> rfl

theorem Lane.foldl_kept {α : Type} (f : Lane → α → Lane) (h : ∀ l a, (f l a).kept = l.kept) (xs : List α) :
    ∀ l, (xs.foldl f l).kept = l.kept := by
  induction xs with
  | nil => intro l; rfl
  | cons x rest ih => intro l; exact (ih _).trans (h l x)

theorem Lane.lookAgain_kept (l : Lane) (i : LaneIx) (window : List Entry) : (l.lookAgain i window).kept = l.kept := by
  unfold Lane.lookAgain
  split
  · rfl
  · simp only
    generalize hx : List.foldl _ l _ = m
    have hm : m.kept = l.kept := by
      rw [← hx]
      apply Lane.foldl_kept
      intro l' b
      split
      · exact l'.settleObsolete_kept b
      · rfl
    rw [← hm]
    split
    · split
      · exact m.startLate_kept _
      · rfl
    · rfl

theorem Part.lookAgain_keeps (p : Part) : p.Keeps p.lookAgain :=
  Part.Keeps.foldl _ (fun q i => q.modLane_keeps i _ fun l => l.lookAgain_kept i _) _ p

/-- Looking again keeps memory, the registers, the clock, the sequencer, the console, the request unit and the journal unit. -/
theorem Part.lookAgain_rest (p : Part) : p.lookAgain = { p with lanes := p.lookAgain.lanes } := by
  unfold Part.lookAgain
  generalize allLanes = xs
  suffices h : ∀ q : Part, q = { p with lanes := q.lanes } →
      xs.foldl (fun q i => q.modLane i fun l => l.lookAgain i q.seq.window) q =
        { p with lanes := (xs.foldl (fun q i => q.modLane i fun l => l.lookAgain i q.seq.window) q).lanes } from h p rfl
  induction xs with
  | nil => intro q hq; exact hq
  | cons i rest ih =>
    intro q hq
    simp only [List.foldl_cons]
    apply ih
    simp only [Part.modLane, Part.setLane]
    rw [hq]

/-! ### The end of an event -/

theorem Part.statusUpdates_keeps (before p : Part) : p.Keeps (Part.statusUpdates before p) := by
  unfold Part.statusUpdates
  extract_lets p1 p2
  have h1 : p.Keeps p1 := p.statusIfChanged_keeps _ _
  have h2 : p1.Keeps p2 := Part.statusIfChanged_keeps _ _ _
  clear_value p1 p2
  exact (h1.trans h2).trans
    (Part.Keeps.foldl _ (fun q _ => q.statusIfChanged_keeps _ _) allLanes _)

theorem Part.outputs_keeps (p : Part) : p.Keeps p.outputs := ⟨.refl _, fun _ h => h, rfl⟩

/-- What an event hands on keeps everything but the staging, its own areas and the writer's count. -/
theorem Part.effects_keeps (before p : Part) : p.Keeps (Part.effects before p) :=
  p.lookAgain_keeps.trans (Part.statusUpdates_keeps before _)

/-- The end of an event. -/
theorem Part.finish_keeps (before p : Part) : p.Keeps (Part.finish before p) :=
  (Part.effects_keeps before p).trans (Part.outputs_keeps _)

/-! ### The outputs -/

theorem lampsOf_kept {p q : Part} (h : q.kept = p.kept) : lampsOf q = lampsOf p := by
  have hs := Part.kept_seq h
  have hc := Part.kept_clock h
  have hl : ∀ i, (q.lane i).cfg = (p.lane i).cfg ∧ (q.lane i).blanked = (p.lane i).blanked ∧
      (q.lane i).link = (p.lane i).link := fun i =>
    ⟨(congrArg (fun l : Lane => l.cfg) (Part.kept_lane h i) :), (congrArg (fun l : Lane => l.blanked) (Part.kept_lane h i) :),
      (congrArg (fun l : Lane => l.link) (Part.kept_lane h i) :)⟩
  have hg : goCase q = goCase p := by unfold goCase; rw [hs, hc]
  unfold lampsOf
  simp only [hg, hc, (hl _).1, (hl _).2.1, (hl _).2.2]

/-- The outputs of a part are at their conditions. -/
theorem Part.outputs_right (p : Part) : p.outputs.regs.noticeLine = noticeLineOf p.outputs.regs ∧
    p.outputs.console.lamps = lampsOf p.outputs :=
  ⟨rfl, (lampsOf_kept p.outputs_keeps.kept).symm⟩

theorem Part.finish_right (before p : Part) : (Part.finish before p).regs.noticeLine = noticeLineOf (Part.finish before p).regs ∧
    (Part.finish before p).console.lamps = lampsOf (Part.finish before p) :=
  Part.outputs_right _

end Sys2Proof.Machine
end

