-- ==== Sys2Proof/Laws/Show.lean ====
section
/-! SUPPORT. What the sequencer's own work leaves alone, said once for each operation: loading, firing, deferring, overtaking,
section ends, BACK, GO and arming write only the part's own areas, clear no notice, and keep `Part.still`. -/

namespace Sys2Proof.Machine

open Sys2Proof (LaneIx SlotIx)

/-- `q` is `p` after writes to the part's own areas, with notices set and only fields outside `Part.still` changed. -/
structure Part.Stills (p q : Part) : Prop where
  mem : Memory.Reach ownByte p.mem q.mem
  notices : p.noticesStay q
  still : q.still = p.still

theorem Part.Stills.refl (p : Part) : p.Stills p := ⟨.refl _, fun _ h => h, rfl⟩

theorem Part.Stills.trans {p q r : Part} (h : p.Stills q) (k : q.Stills r) : p.Stills r :=
  ⟨h.mem.trans k.mem, fun n hn => k.notices n (h.notices n hn), k.still.trans h.still⟩

/-- A left fold of steps that keep keeps. -/
theorem Part.Stills.foldl {α : Type} (f : Part → α → Part) (h : ∀ (p : Part) (a : α), p.Stills (f p a)) (xs : List α) :
    ∀ p : Part, p.Stills (xs.foldl f p) := by
  induction xs with
  | nil => exact Part.Stills.refl
  | cons x rest ih => intro p; exact (h p x).trans (ih _)

/-- `Part.still` from `Part.kept`. -/
theorem Part.still_kept (p : Part) : p.kept.still = p.still := by
  unfold Part.still Part.kept
  simp only [Vector.map_map]
  rfl

theorem Part.Keeps.stills {p q : Part} (h : p.Keeps q) : p.Stills q :=
  ⟨h.mem, h.notices, by rw [← q.still_kept, h.kept, p.still_kept]⟩

/-- A change of fields outside `Part.still` alone. -/
theorem Part.Stills.of {p q : Part} (hm : q.mem = p.mem) (hn : q.regs.notice = p.regs.notice) (hs : q.still = p.still) :
    p.Stills q :=
  ⟨by rw [hm]; exact .refl _, fun k h => by rw [hn]; exact h, hs⟩

/-- The same change before what keeps. -/
theorem Part.Stills.after {p q r : Part} (k : q.Stills r) (hm : q.mem = p.mem) (hn : q.regs.notice = p.regs.notice)
    (hs : q.still = p.still) : p.Stills r :=
  (Part.Stills.of hm hn hs).trans k

/-- A change of the sequencer that leaves the book, the cut map and the last load error. -/
theorem Part.seq_stills (p : Part) (q : Sequencer) (h : q.still = p.seq.still) : p.Stills { p with seq := q } :=
  ⟨.refl _, fun _ hn => hn, by
    show { p.kept with clock := p.clock.still, seq := q.still, lanes := p.lanes.map Lane.still } = p.still
    rw [h]
    rfl⟩

/-- A change of the clock's running fields. -/
theorem Part.clock_stills (p : Part) (c : Clock) (h : c.still = p.clock.still) : p.Stills { p with clock := c } :=
  ⟨.refl _, fun _ hn => hn, by
    show { p.kept with clock := c.still, seq := p.seq.still, lanes := p.lanes.map Lane.still } = p.still
    rw [h]
    rfl⟩

theorem Part.setLane_stills (p : Part) (i : LaneIx) (l : Lane) (h : l.still = (p.lane i).still) : p.Stills (p.setLane i l) :=
  ⟨.refl _, fun _ hn => hn, by
    have := p.map_setLane i l Lane.still h
    show { p.kept with
      clock := p.clock.still, seq := p.seq.still, lanes := (p.setLane i l).lanes.map Lane.still } = p.still
    rw [this]
    rfl⟩

theorem Part.modLane_stills (p : Part) (i : LaneIx) (f : Lane → Lane) (h : ∀ l, (f l).still = l.still) :
    p.Stills (p.modLane i f) :=
  p.setLane_stills i _ (h _)

/-! ### Lanes -/

theorem Lane.still_of_kept {l m : Lane} (h : m.kept = l.kept) : m.still = l.still := by
  unfold Lane.still
  rw [h]

theorem Lane.foldl_still {α : Type} (f : Lane → α → Lane) (h : ∀ l a, (f l a).still = l.still) (xs : List α) :
    ∀ l, (xs.foldl f l).still = l.still := by
  induction xs with
  | nil => intro l; rfl
  | cons x rest ih => intro l; exact (ih _).trans (h l x)

theorem Lane.settleObsolete_still (l : Lane) (b : Fin 2) : (l.settleObsolete b).still = l.still :=
  Lane.still_of_kept (l.settleObsolete_kept b)

theorem Lane.settleShadowRec_kept (l : Lane) (b : Fin 2) : (l.settleShadowRec b).kept = l.kept := by
  unfold Lane.settleShadowRec
  simp only
  split
  · split
    · rfl
    · exact l.settleObsolete_kept b
  · rfl

theorem Lane.entryRemoved_kept (l : Lane) (key : EntryKey) : (l.entryRemoved key).kept = l.kept := by
  unfold Lane.entryRemoved
  split
  · rfl
  · exact l.settleObsolete_kept _

theorem Lane.dropExpress_kept (l : Lane) (x : Express) : (l.dropExpress x).kept = l.kept := by
  unfold Lane.dropExpress
  split
  · rfl
  · simp only
    split
    · split <;> rfl
    · rfl

/-- Removing irrelevant frames changes the express queue and the staging alone. -/
theorem Lane.pruneAll_kept (l : Lane) :
    l.pruneAll.kept = { l.kept with express := l.express.filter fun x => l.relevant x.what } :=
  (Lane.foldl_kept Lane.dropExpress Lane.dropExpress_kept _ _).trans rfl

theorem Lane.pruneFront_kept (l : Lane) :
    l.pruneFront.kept = { l.kept with express := l.express.dropWhile fun x => !l.relevant x.what } :=
  (Lane.foldl_kept Lane.dropExpress Lane.dropExpress_kept _ _).trans rfl

theorem Lane.pruneAll_still (l : Lane) : l.pruneAll.still = l.still := by
  unfold Lane.still
  rw [l.pruneAll_kept]

theorem Lane.atBoundary_still (l : Lane) : l.atBoundary.still = l.still := by
  unfold Lane.atBoundary
  split
  · unfold Lane.still
    rw [l.pruneFront_kept]
  · rfl

theorem Lane.queueExpress_still (l : Lane) (f : Express) : (l.queueExpress f).still = l.still := by
  have h := l.pruneAll_still
  unfold Lane.queueExpress
  simp only
  split
  · exact h
  · split
    · exact h
    · exact (show _ = l.pruneAll.still from rfl).trans h

theorem Lane.queueClear_still (l : Lane) : l.queueClear.still = l.still := l.queueExpress_still _

theorem Lane.queueShow_still (l : Lane) (b : Fin 2) : (l.queueShow b).still = l.still := by
  unfold Lane.queueShow
  simp only
  split
  · exact (Lane.queueExpress_still _ _).trans rfl
  · exact Lane.queueExpress_still _ _

theorem Lane.writeShadow_still (l : Lane) (sh : Shadow) : (l.writeShadow sh).still = l.still := by
  have h := Lane.foldl_kept Lane.settleShadowRec Lane.settleShadowRec_kept bothBuffers l
  unfold Lane.writeShadow
  simp only
  generalize bothBuffers.foldl Lane.settleShadowRec l = m at h
  exact (show _ = m.still from rfl).trans (Lane.still_of_kept h)

theorem Lane.placeLate_kept (l : Lane) (window : List Entry) : (l.placeLate window).kept = l.kept := by
  unfold Lane.placeLate
  split
  · exact l.startLate_kept _
  · split
    · exact (Lane.startLate_kept _ _).trans (l.settleObsolete_kept _)
    · rfl

theorem Lane.showAsAllowed_still (l : Lane) (b : Fin 2) : (l.showAsAllowed b).still = l.still := by
  unfold Lane.showAsAllowed
  split
  · exact l.queueShow_still b
  · exact l.queueShow_still b
  all_goals rfl

theorem Lane.catchUp_still (l : Lane) (window : List Entry) : (l.catchUp window).still = l.still := by
  unfold Lane.catchUp
  split
  · rfl
  · split
    · exact l.queueClear_still
    · split
      · exact l.showAsAllowed_still _
      · exact Lane.still_of_kept (l.placeLate_kept window)

theorem Lane.showTitle_still (l : Lane) (key : Option EntryKey) (window : List Entry) :
    (l.showTitle key window).still = l.still := by
  unfold Lane.showTitle
  split
  · exact (Lane.showAsAllowed_still _ _).trans rfl
  · exact Lane.still_of_kept (l.placeLate_kept window)

theorem Lane.takeTitle_still (l : Lane) (sh : Shadow) (key : Option EntryKey) (window : List Entry) :
    (l.takeTitle sh key window).1.still = l.still := by
  have h := l.writeShadow_still sh
  unfold Lane.takeTitle
  simp only
  generalize l.writeShadow sh = m at h
  rw [← h]
  split
  · rfl
  · split
    · split
      · exact Lane.still_of_kept (m.entryRemoved_kept _)
      · rfl
    · split
      · exact m.showTitle_still key window
      · exact m.queueClear_still

theorem Lane.restore_still (l : Lane) (sh : Shadow) (now : Nat) (window : List Entry) :
    (l.restore sh now window).still = l.still :=
  (Lane.catchUp_still _ _).trans (l.writeShadow_still _)

/-! ### The loader -/

theorem Part.setWindow_stills (p : Part) (w : List Entry) : p.Stills (p.setWindow w) := .of rfl rfl rfl

theorem Part.setCursor_stills (p : Part) (c : Cursor) : p.Stills (p.setCursor c) := .of rfl rfl rfl

theorem Part.recompute_stills (p : Part) : p.Stills p.recompute := .of rfl rfl rfl

theorem Part.append_stills (p : Part) (r : Record) : p.Stills (p.append r) := (p.append_keeps r).stills

theorem Part.appendAll_stills (p : Part) (rs : List Record) : p.Stills (p.appendAll rs) := (p.appendAll_keeps rs).stills

theorem Part.setNotice_stills (p : Part) (n : Notice) : p.Stills (p.setNotice n) := (p.setNotice_keeps n).stills

theorem Part.readCue_stills (p : Part) (pass : Half) (sect offset index left : Nat) (lost : Bool) :
    p.Stills (p.readCue pass sect offset index left lost) := by
  unfold Part.readCue Part.badCue
  simp only
  split
  · exact (p.setCursor_stills _).trans (Part.append_stills _ _)
  · split
    · exact (p.setCursor_stills _).trans (Part.append_stills _ _)
    · split
      · exact (p.setCursor_stills _).trans (Part.append_stills _ _)
      · exact .of rfl rfl rfl

theorem Part.noteUse_stills (p : Part) : p.Stills p.noteUse := p.noteUse_keeps.stills

theorem Part.loadOne_stills {p q : Part} (h : p.loadOne = some q) : p.Stills q := by
  unfold Part.loadOne at h
  split at h
  · cases h
  · split at h
    · cases h; exact p.setCursor_stills _
    · split at h
      · cases h; exact p.readCue_stills ..
      · cases h

theorem Part.refillFor_stills (n : Nat) : ∀ p : Part, p.Stills (p.refillFor n) := by
  induction n with
  | zero => exact Part.noteUse_stills
  | succ n ih =>
    intro p
    unfold Part.refillFor
    split
    · rename_i q hq
      exact (p.noteUse_stills.trans (Part.loadOne_stills hq)).trans (ih q)
    · exact p.noteUse_stills

/-- The refill of the window. -/
theorem Part.refill_stills (p : Part) : p.Stills p.refill := Part.refillFor_stills _ p

theorem Part.entryRemoved_stills (p : Part) (key : EntryKey) :
    p.Stills (allLanes.foldl (fun p i => p.modLane i fun l => l.entryRemoved key) p) := by
  apply Part.Stills.foldl
  intro q i
  exact q.modLane_stills i _ fun l => Lane.still_of_kept (l.entryRemoved_kept key)

theorem Part.reportRemoved_stills (p : Part) (entries : List Entry) : p.Stills (p.reportRemoved entries) := by
  unfold Part.reportRemoved
  apply Part.Stills.foldl
  intro q e
  exact q.entryRemoved_stills e.key

/-! ### Fires -/

theorem Part.handTitles_stills (p : Part) (cue : Cue) (key : Option EntryKey) : p.Stills (p.handTitles cue key).1 := by
  unfold Part.handTitles
  generalize lanesOf cue.mask = lanes
  generalize (0 : BitVec 6) = m
  induction lanes generalizing p m with
  | nil => exact .refl p
  | cons i rest ih =>
    simp only [List.foldl_cons]
    exact (p.setLane_stills i _ (Lane.takeTitle_still _ _ _ _)).trans (ih _ _)

theorem Part.handAll_stills (xs : List (Cue × Option EntryKey)) : ∀ p : Part, p.Stills (p.handAll xs).1 := by
  induction xs with
  | nil => exact Part.Stills.refl
  | cons x rest ih =>
    obtain ⟨cue, key⟩ := x
    intro p
    exact (p.handTitles_stills cue key).trans (ih _)

/-- A fire. -/
theorem Part.fireHead_stills (p : Part) (how : HowFired) : p.Stills (p.fireHead how) := by
  unfold Part.fireHead
  split
  · exact .refl p
  · extract_lets group slip history s1 p1 handed p2 s2 p3 p4
    have h1 : p.Stills p1 := .of rfl rfl rfl
    have h2 : p1.Stills p2 := Part.handAll_stills _ _
    have h3 : p2.Stills p3 := .of rfl rfl rfl
    have h4 : p3.Stills p4 := Part.appendAll_stills _ _
    exact (((h1.trans h2).trans h3).trans h4).trans (Part.refill_stills _)

/-! ### Section ends -/

theorem Clock.enter_still (c : Clock) (b : EndBy) (sec : SectionRec) : (c.enter b sec).still = c.still := by
  unfold Clock.enter
  split
  · rfl
  · rfl
  · split <;> rfl

theorem Part.overtakeAll_stills (p : Part) (cause : OvertakenCause) (gone : List Entry) :
    p.Stills (p.overtakeAll cause gone) := by
  unfold Part.overtakeAll
  refine Part.Stills.foldl _ (fun q g => ?_) _ p
  cases g with
  | nil => exact .refl q
  | cons e rest => exact (q.reportRemoved_stills _).trans (Part.append_stills _ _)

theorem Part.dropDeferral_stills (p : Part) (old : Option EntryKey) : p.Stills (p.dropDeferral old) := by
  unfold Part.dropDeferral
  split
  · exact .refl p
  · exact .of rfl rfl rfl

theorem Part.enterSection_stills (p : Part) (b : EndBy) (s : Nat) (left : ClockState) (own : ClockCause) :
    p.Stills (p.enterSection b s left own) := by
  unfold Part.enterSection
  extract_lets how old from_ leaving p1 p2 p3 p4 pass s1 q q' p5 p6
  have h1 : p.Stills p1 := p.clock_stills _ (Clock.enter_still _ _ _)
  have h2 : p1.Stills p2 := by
    simp only [p2]
    split
    · exact (p1.reportCount_keeps _ _).stills
    · exact .refl _
  have h3 : p2.Stills p3 := p2.setWindow_stills _
  have h4 : p3.Stills p4 := (p3.overtakeAll_stills _ _).trans (Part.dropDeferral_stills _ _)
  have h5 : p4.Stills p5 := (Part.refill_stills _).after rfl rfl rfl
  have h6 : p5.Stills p6 := (p5.setNotice_stills _).trans (Part.append_stills _ _)
  exact (((((h1.trans h2).trans h3).trans h4).trans h5).trans h6).trans
    ((Part.reportClock_keeps _ _ _).stills.trans (Part.recompute_stills _))

theorem Part.endAct_stills (p : Part) (b : EndBy) (left : ClockState) : p.Stills (p.endAct b left) := by
  unfold Part.endAct
  extract_lets old p1 p2 p3 p4 p5 s1 p6
  have h1 : p.Stills p1 := p.clock_stills _ rfl
  have h2 : p1.Stills p2 := by
    simp only [p2]
    split
    · exact (p1.reportCount_keeps _ _).stills
    · exact .refl _
  have h3 : p2.Stills p3 := p2.setWindow_stills _
  have h4 : p3.Stills p4 := p3.overtakeAll_stills _ _
  have h5 : p4.Stills p5 := p4.reportRemoved_stills _
  have h6 : p5.Stills p6 := .of rfl rfl rfl
  exact (((((h1.trans h2).trans h3).trans h4).trans h5).trans h6).trans
    ((p6.setNotice_stills _).trans (Part.reportClock_keeps _ _ _).stills)

/-- A section end. -/
theorem Part.endSection_stills (p : Part) (b : EndBy) (left : ClockState) (own : ClockCause) :
    p.Stills (p.endSection b left own) := by
  unfold Part.endSection
  split
  · exact p.endAct_stills b left
  · exact p.enterSection_stills b _ left own

theorem Part.afterFire_stills (p : Part) : p.Stills p.afterFire := by
  unfold Part.afterFire
  split
  · exact p.endSection_stills ..
  · exact p.recompute_stills

/-! ### The evaluation -/

theorem Part.overtake_stills (p : Part) : p.Stills p.overtake := by
  unfold Part.overtake
  split
  · extract_lets gone s1 p1 p2
    have h1 : p.Stills p1 := .of rfl rfl rfl
    have h2 : p1.Stills p2 := (p1.reportRemoved_stills _).trans (Part.append_stills _ _)
    exact (h1.trans h2).trans ((Part.refill_stills _).trans (Part.recompute_stills _))
  · exact .refl p

theorem Part.setHead_stills (p : Part) (st : EntryState) (t : Option Nat) : p.Stills (p.setHead st t) := .of rfl rfl rfl

theorem Part.dropAbsent_stills (p : Part) : p.Stills p.dropAbsent := by
  unfold Part.dropAbsent
  split
  · exact p.setHead_stills _ _
  · exact .refl _

/-- What drops an absent due time's deferral leaves no DEFERRED head without a due time (R55). -/
theorem Part.dropAbsent_head (p : Part) {e : Entry} (h : p.dropAbsent.seq.window.head? = some e) :
    e.state ≠ .deferred ∨ e.due.isSome = true := by
  unfold Part.dropAbsent at h
  split at h
  · rename_i hd
    left
    cases hw : p.seq.window with
    | nil => simp [hw] at hd
    | cons x rest =>
      simp only [Part.setHead, hw, headGroup, List.map_cons, List.cons_append, List.head?_cons, Option.some.injEq] at h
      rw [← h]
      simp
  · rename_i hd
    rw [h] at hd
    cases hs : e.state <;> cases hu : e.due <;> simp_all

/-- The part an evaluation comes to. -/
def Verdict.part : Verdict → Part
  | .waits p => p
  | .again p => p

theorem Part.evaluate_stills (p : Part) : p.Stills p.evaluate.part := by
  unfold Part.evaluate
  split
  · exact .refl p
  · simp only
    split
    · show p.Stills (if _ then _ else _)
      split
      · exact p.setHead_stills _ _
      · exact .refl p
    · split
      · split
        · exact p.overtake_stills
        · split
          · exact (p.fireHead_stills _).trans (Part.afterFire_stills _)
          · exact .of rfl rfl rfl
      · split
        · exact (p.fireHead_stills _).trans (Part.afterFire_stills _)
        · exact p.setHead_stills _ _

theorem Part.settleFor_stills (n : Nat) : ∀ p : Part, p.Stills (p.settleFor n) := by
  induction n with
  | zero => exact Part.Stills.refl
  | succ n ih =>
    intro p
    unfold Part.settleFor
    split
    · exact .refl p
    · split
      · exact (p.endSection_stills _ _ _).trans (ih _)
      · have h := p.evaluate_stills
        split
        · rename_i q hq
          rw [hq] at h
          exact h
        · rename_i q hq
          rw [hq] at h
          exact h.trans (ih q)

/-- The evaluation that ends an event. -/
theorem Part.settle_stills (p : Part) : p.Stills p.settle := Part.settleFor_stills _ p

/-- Where no group is to fire, defer or be overtaken, the evaluation does nothing. -/
theorem Part.settle_idle (p : Part) (h : p.seq.idleHead) : p.settle = p := by
  show p.settleFor (2097151 + 1) = p
  unfold Part.settleFor
  rcases h with h | ⟨h1, h2⟩
  · simp [h]
  · split
    · rfl
    · simp only [h1, Bool.false_eq_true, if_false]
      unfold Part.evaluate
      cases hw : p.seq.window with
      | nil => rfl
      | cons e rest =>
        obtain ⟨h3, h4⟩ := h2 e (by rw [hw]; rfl)
        simp [Part.heldDeferral, h3, h4]

/-! ### Successors, BACK, GO, arming -/

theorem Part.trim_stills (p : Part) (new : Successor) : p.Stills (p.trim new) := by
  unfold Part.trim
  extract_lets old kept gone p1 p2 s1 p3
  have h1 : p.Stills p1 := p.setWindow_stills _
  have h2 : p1.Stills p2 := (p1.reportRemoved_stills _).trans (Part.dropDeferral_stills _ _)
  have h3 : p2.Stills p3 := .of rfl rfl rfl
  exact ((h1.trans h2).trans h3).trans ((Part.refill_stills _).trans (Part.recompute_stills _))

theorem Part.resolveAgain_stills (p : Part) : p.Stills p.resolveAgain := by
  unfold Part.resolveAgain
  simp only
  split
  · exact .refl p
  · split
    · exact p.trim_stills _
    · split
      · exact ((Part.refill_stills _).trans (Part.recompute_stills _)).after rfl rfl rfl
      · exact .of rfl rfl rfl

theorem Part.makeRoom_stills (n need : Nat) : ∀ p : Part, p.Stills (p.makeRoom n need) := by
  induction n with
  | zero => exact Part.Stills.refl
  | succ n ih =>
    intro p
    unfold Part.makeRoom
    split
    · exact .refl p
    · split
      · exact .refl p
      · exact (((p.setWindow_stills _).trans (Part.reportRemoved_stills _ _)).trans (Part.setCursor_stills _ _)).trans (ih _)

theorem Part.popGroup_stills (p : Part) (g : FiredGroup) (rest : List FiredGroup) : p.Stills (p.popGroup g rest) := by
  unfold Part.popGroup
  extract_lets s1 p1 p2 p3 back s2 p4 p5
  have h1 : p.Stills p1 := .of rfl rfl rfl
  have h2 : p1.Stills p2 := Part.makeRoom_stills _ _ _
  have h3 : p2.Stills p3 := by
    simp only [p3]
    split
    · exact p2.setHead_stills _ _
    · exact .refl _
  have h4 : p3.Stills p4 := (Part.Keeps.stills (Part.lookAgain_keeps _)).after rfl rfl rfl
  have h5 : p4.Stills p5 :=
    Part.Stills.foldl _ (fun q (x : LaneIx × Shadow) => q.modLane_stills x.1 _ fun l => l.restore_still _ _ _) _ p4
  exact ((((h1.trans h2).trans h3).trans h4).trans h5).trans
    (((Part.refill_stills _).trans (Part.recompute_stills _)).trans (Part.settle_stills _))

theorem Part.back_stills (p : Part) : p.Stills p.back.1 := by
  unfold Part.back
  split
  · exact .refl p
  · split
    · exact .refl p
    · exact p.popGroup_stills _ _

theorem Part.fireByGo_stills (p : Part) : p.Stills p.fireByGo := by
  unfold Part.fireByGo
  split
  · exact .refl p
  · exact (p.fireHead_stills _).trans (Part.afterFire_stills _)

theorem Part.go_stills (p : Part) : p.Stills p.go.1 := by
  unfold Part.go
  simp only
  split
  · exact ((Part.resolveAgain_stills _).trans (Part.settle_stills _)).after rfl rfl rfl
  · exact p.fireByGo_stills.trans (Part.settle_stills _)
  · exact ((p.endSection_stills _ _ _).trans (Part.fireByGo_stills _)).trans (Part.settle_stills _)
  · exact .refl p

theorem Part.prime_stills (p : Part) (s : Nat) (place : ListPlace) : p.Stills (p.prime s place).1 := by
  unfold Part.prime
  exact ((p.appendAll_stills _).trans (Part.handAll_stills _ _)).trans (Part.appendAll_stills _ _)

theorem Clock.arm_still (c : Clock) (sec : SectionRec) (count : Nat) : (c.arm sec count).still = c.still := by
  unfold Clock.arm
  split <;> rfl

/-- Arming an act. -/
theorem Part.armAt_stills (p : Part) (s count : Nat) (prime : Bool) (how : HowEntered) (from_ : Option Nat) :
    p.Stills (p.armAt s count prime how from_).1 := by
  unfold Part.armAt
  extract_lets start s1 q q' p1 primed p2 left s2 p3 p4
  have h1 : p.Stills p1 := (Part.refill_stills _).after rfl rfl rfl
  have h2 : p1.Stills p2 := by
    simp only [p2, primed]
    split
    · exact p1.prime_stills _ _
    · exact .refl p1
  have h3 : p2.Stills p3 :=
    ⟨.refl _, fun _ h => h, by
      show { p2.kept with
        clock := (p2.clock.arm (p2.seq.sectionAt s) count).still, seq := p2.seq.still
        lanes := p2.lanes.map Lane.still } = p2.still
      rw [Clock.arm_still]
      rfl⟩
  have h4 : p3.Stills p4 := ((Part.reportClock_keeps _ _ _).stills.trans (Part.setNotice_stills _ _)).trans (Part.append_stills _ _)
  exact (((h1.trans h2).trans h3).trans h4).trans ((Part.recompute_stills _).trans (Part.settle_stills _))

theorem Part.flush_stills (p : Part) : p.Stills p.flush :=
  (Part.reportRemoved_stills _ _).after rfl rfl rfl

theorem Lane.cleared_still (l : Lane) (sh : Shadow) :
    (let m := l.writeShadow sh
     if m.up && !m.blanked then m.queueClear else m).still = l.still := by
  simp only
  split
  · exact (Lane.queueClear_still _).trans (l.writeShadow_still sh)
  · exact l.writeShadow_still sh

theorem Part.clearLane_stills (cause : ClearedCause) (p : Part) (i : LaneIx) : p.Stills (p.clearLane cause i) := by
  unfold Part.clearLane
  extract_lets before p1
  have h1 : p.Stills p1 := p.modLane_stills i _ fun l => l.cleared_still _
  split
  · exact h1.trans (Part.append_stills _ _)
  · exact h1

theorem Part.clearLanes_stills (p : Part) (keep : Bool) (cause : ClearedCause) : p.Stills (p.clearLanes keep cause) := by
  unfold Part.clearLanes
  split
  · exact .refl p
  · exact Part.Stills.foldl _ (Part.clearLane_stills cause) _ p

theorem Part.jump_stills (p : Part) (s count : Nat) (keep prime : Bool) : p.Stills (p.jump s count keep prime).1 := by
  unfold Part.jump
  extract_lets from_ p1 s1 p2
  have h1 : p.Stills p1 := p.flush_stills
  have h2 : p1.Stills p2 := .of rfl rfl rfl
  exact ((h1.trans h2).trans (Part.clearLanes_stills _ _ _)).trans (Part.armAt_stills ..)

theorem Part.stopAct_stills (p : Part) (keep : Bool) : p.Stills (p.stopAct keep) := by
  unfold Part.stopAct
  extract_lets p1 p2 left p3
  have h1 : p.Stills p1 := p.flush_stills
  have h2 : p1.Stills p2 := p1.clearLanes_stills _ _
  have h3 : p2.Stills p3 := .of rfl rfl rfl
  exact ((h1.trans h2).trans h3).trans (Part.reportClock_keeps _ _ _).stills

theorem Part.dueExpiry_stills (p : Part) : p.Stills p.dueExpiry := by
  unfold Part.dueExpiry
  split
  · exact (p.setWindow_stills _).trans (Part.settle_stills _)
  · exact .refl p

theorem Part.deferralExpiry_stills (p : Part) : p.Stills p.deferralExpiry := by
  unfold Part.deferralExpiry
  split
  · exact ((p.fireHead_stills _).trans (Part.afterFire_stills _)).trans (Part.settle_stills _)
  · exact .refl p

theorem Part.maxDwellExpiry_stills (p : Part) (i : LaneIx) : p.Stills (p.maxDwellExpiry i) := by
  unfold Part.maxDwellExpiry
  split
  · exact .refl p
  · split
    · simp only
      exact ((p.modLane_stills i _ fun l => l.cleared_still _).trans (Part.append_stills _ _)).trans (Part.settle_stills _)
    · exact .refl p

end Sys2Proof.Machine
end

