-- ==== Sys2Proof/Laws/Spot.lean ====
section
/-! SUPPORT. Loading, firing, deferring and overtaking leave the clock and the place in the act alone: only a section end moves
them, and the evaluation ends no section that is not CALLED (R66, R75). -/

namespace Sys2Proof.Machine

open Sys2Proof (LaneIx SlotIx)

/-- The sequencer's place in the act. -/
structure Place where
  state : SeqState
  book : Option Book
  current : Option Nat
  pass : Half
  heldNext : Option Successor
  vampExit : Bool
  entryRun : Nat
  lastEntryAt : Option Nat

/-- The place in the act of a sequencer. -/
def Sequencer.place (q : Sequencer) : Place :=
  { state := q.state, book := q.book, current := q.current, pass := q.pass, heldNext := q.heldNext, vampExit := q.vampExit
    entryRun := q.entryRun, lastEntryAt := q.lastEntryAt }

/-- `q` has `p`'s clock and place in the act. -/
structure Part.Stays (p q : Part) : Prop where
  clock : q.clock = p.clock
  place : q.seq.place = p.seq.place

theorem Part.Stays.refl (p : Part) : p.Stays p := ⟨rfl, rfl⟩

theorem Part.Stays.trans {p q r : Part} (h : p.Stays q) (k : q.Stays r) : p.Stays r :=
  ⟨k.clock.trans h.clock, k.place.trans h.place⟩

theorem Part.Stays.after {p q r : Part} (k : q.Stays r) (hc : q.clock = p.clock) (hp : q.seq.place = p.seq.place) : p.Stays r :=
  (Part.Stays.mk hc hp).trans k

theorem Part.Stays.foldl {α : Type} (f : Part → α → Part) (h : ∀ (p : Part) (a : α), p.Stays (f p a)) (xs : List α) :
    ∀ p : Part, p.Stays (xs.foldl f p) := by
  induction xs with
  | nil => exact Part.Stays.refl
  | cons x rest ih => intro p; exact (h p x).trans (ih _)

theorem Part.Keeps.stays {p q : Part} (h : p.Keeps q) : p.Stays q :=
  ⟨Part.kept_clock h.kept, by rw [Part.kept_seq h.kept]⟩

theorem Part.setLane_stays (p : Part) (i : LaneIx) (l : Lane) : p.Stays (p.setLane i l) := ⟨rfl, rfl⟩

theorem Sequencer.state_of_place {q r : Sequencer} (h : q.place = r.place) : q.state = r.state :=
  (congrArg Place.state h :)

theorem Sequencer.current_of_place {q r : Sequencer} (h : q.place = r.place) : q.current = r.current :=
  (congrArg Place.current h :)

theorem Sequencer.book_of_place {q r : Sequencer} (h : q.place = r.place) : q.book = r.book := (congrArg Place.book h :)

theorem Sequencer.pass_of_place {q r : Sequencer} (h : q.place = r.place) : q.pass = r.pass := (congrArg Place.pass h :)

theorem Sequencer.vampExit_of_place {q r : Sequencer} (h : q.place = r.place) : q.vampExit = r.vampExit :=
  (congrArg Place.vampExit h :)

theorem Sequencer.heldNext_of_place {q r : Sequencer} (h : q.place = r.place) : q.heldNext = r.heldNext :=
  (congrArg Place.heldNext h :)

theorem Sequencer.currentRec_of_place {q r : Sequencer} (h : q.place = r.place) : q.currentRec = r.currentRec := by
  unfold Sequencer.currentRec Sequencer.sectionAt
  rw [Sequencer.book_of_place h, Sequencer.current_of_place h]

/-! ### The operations -/

theorem Part.append_stays (p : Part) (r : Record) : p.Stays (p.append r) := (p.append_keeps r).stays

theorem Part.appendAll_stays (p : Part) (rs : List Record) : p.Stays (p.appendAll rs) := (p.appendAll_keeps rs).stays

theorem Part.recompute_stays (p : Part) : p.Stays p.recompute := ⟨rfl, rfl⟩

theorem Part.readCue_stays (p : Part) (pass : Half) (sect offset index left : Nat) (lost : Bool) :
    p.Stays (p.readCue pass sect offset index left lost) := by
  unfold Part.readCue Part.badCue
  simp only
  split
  · exact (Part.append_stays _ _).after rfl rfl
  · split
    · exact (Part.append_stays _ _).after rfl rfl
    · split
      · exact (Part.append_stays _ _).after rfl rfl
      · exact ⟨rfl, rfl⟩

theorem Part.noteUse_stays (p : Part) : p.Stays p.noteUse := p.noteUse_keeps.stays

theorem Part.loadOne_stays {p q : Part} (h : p.loadOne = some q) : p.Stays q := by
  unfold Part.loadOne at h
  split at h
  · cases h
  · split at h
    · cases h; exact ⟨rfl, rfl⟩
    · split at h
      · cases h; exact p.readCue_stays ..
      · cases h

theorem Part.refillFor_stays (n : Nat) : ∀ p : Part, p.Stays (p.refillFor n) := by
  induction n with
  | zero => exact Part.noteUse_stays
  | succ n ih =>
    intro p
    unfold Part.refillFor
    split
    · rename_i q hq
      exact (p.noteUse_stays.trans (Part.loadOne_stays hq)).trans (ih q)
    · exact p.noteUse_stays

theorem Part.refill_stays (p : Part) : p.Stays p.refill := Part.refillFor_stays _ p

theorem Part.reportRemoved_stays (p : Part) (entries : List Entry) : p.Stays (p.reportRemoved entries) := by
  unfold Part.reportRemoved
  apply Part.Stays.foldl
  intro q e
  apply Part.Stays.foldl
  intro r i
  exact r.setLane_stays i _

theorem Part.handTitles_stays (p : Part) (cue : Cue) (key : Option EntryKey) : p.Stays (p.handTitles cue key).1 := by
  unfold Part.handTitles
  generalize lanesOf cue.mask = lanes
  generalize (0 : BitVec 6) = m
  induction lanes generalizing p m with
  | nil => exact .refl p
  | cons i rest ih =>
    simp only [List.foldl_cons]
    exact (p.setLane_stays i _).trans (ih _ _)

theorem Part.handAll_stays (xs : List (Cue × Option EntryKey)) : ∀ p : Part, p.Stays (p.handAll xs).1 := by
  induction xs with
  | nil => exact Part.Stays.refl
  | cons x rest ih =>
    obtain ⟨cue, key⟩ := x
    intro p
    exact (p.handTitles_stays cue key).trans (ih _)

/-- A fire moves neither the clock nor the place. -/
theorem Part.fireHead_stays (p : Part) (how : HowFired) : p.Stays (p.fireHead how) := by
  unfold Part.fireHead
  split
  · exact .refl p
  · extract_lets group slip history s1 p1 handed p2 s2 p3 p4
    have h1 : p.Stays p1 := ⟨rfl, rfl⟩
    have h2 : p1.Stays p2 := Part.handAll_stays _ _
    have h3 : p2.Stays p3 := ⟨rfl, rfl⟩
    have h4 : p3.Stays p4 := Part.appendAll_stays _ _
    exact (((h1.trans h2).trans h3).trans h4).trans (Part.refill_stays _)

theorem Part.overtake_stays (p : Part) : p.Stays p.overtake := by
  unfold Part.overtake
  split
  · extract_lets gone s1 p1 p2
    have h2 : p1.Stays p2 := (p1.reportRemoved_stays _).trans (Part.append_stays _ _)
    exact (h2.trans ((Part.refill_stays _).trans (Part.recompute_stays _))).after rfl rfl
  · exact .refl p

theorem Sequencer.calledOver_kind {q : Sequencer} (h : q.currentRec.kind ≠ .called) : q.calledOver = false := by
  simp [Sequencer.calledOver, h]

/-- A fire in a section that is not CALLED ends no section. -/
theorem Part.afterFire_stays (p : Part) (h : p.seq.currentRec.kind ≠ .called) : p.Stays p.afterFire := by
  unfold Part.afterFire
  rw [Sequencer.calledOver_kind h]
  exact p.recompute_stays

theorem Part.fire_stays (p : Part) (how : HowFired) (h : p.seq.currentRec.kind ≠ .called) :
    p.Stays (p.fireHead how).afterFire := by
  have hf := p.fireHead_stays how
  exact hf.trans (Part.afterFire_stays _ (by rw [Sequencer.currentRec_of_place hf.place]; exact h))

theorem Part.evaluate_stays (p : Part) (h : p.seq.currentRec.kind ≠ .called) : p.Stays p.evaluate.part := by
  unfold Part.evaluate
  split
  · exact .refl p
  · simp only
    split
    · show p.Stays (if _ then _ else _)
      split
      · exact ⟨rfl, rfl⟩
      · exact .refl p
    · split
      · split
        · exact p.overtake_stays
        · split
          · exact p.fire_stays _ h
          · exact ⟨rfl, rfl⟩
      · split
        · exact p.fire_stays _ h
        · exact ⟨rfl, rfl⟩

theorem Part.settleFor_stays (n : Nat) : ∀ p : Part, p.seq.currentRec.kind ≠ .called → p.Stays (p.settleFor n) := by
  induction n with
  | zero => intro p _; exact .refl p
  | succ n ih =>
    intro p hk
    unfold Part.settleFor
    split
    · exact .refl p
    · rw [Sequencer.calledOver_kind hk]
      have h := p.evaluate_stays hk
      simp only [Bool.false_eq_true, if_false]
      split
      · rename_i q hq
        rw [hq] at h
        exact h
      · rename_i q hq
        rw [hq] at h
        have h : p.Stays q := h
        exact h.trans (ih q (by rw [Sequencer.currentRec_of_place h.place]; exact hk))

/-- The evaluation in a section that is not CALLED. -/
theorem Part.settle_stays (p : Part) (h : p.seq.currentRec.kind ≠ .called) : p.Stays p.settle := Part.settleFor_stays _ p h

theorem Part.setNotice_stays (p : Part) (n : Notice) : p.Stays (p.setNotice n) := ⟨rfl, rfl⟩

theorem Part.reportClock_stays (p : Part) (left : ClockState) (cause : ClockCause) : p.Stays (p.reportClock left cause) :=
  (p.reportClock_keeps left cause).stays

theorem Part.reportCount_stays (p : Part) (o : CountOrigin) (s : Option Nat) : p.Stays (p.reportCount o s) :=
  (p.reportCount_keeps o s).stays

theorem Part.reportKey_stays (p : Part) (k : Key) (src : KeySource) (o : KeyOutcome) (cue : Option Half) :
    p.Stays (p.reportKey k src o cue) := p.append_stays _

theorem Part.finish_stays (before p : Part) : p.Stays (Part.finish before p) := (Part.finish_keeps before p).stays

theorem Part.effects_stays (before p : Part) : p.Stays (Part.effects before p) := (Part.effects_keeps before p).stays

end Sys2Proof.Machine
end

