-- ==== Sys2Proof/Laws/State.lean ====
section
/-! SUPPORT. One lemma per field per named update of the part, true by rfl, so that no proof unfolds a record update. -/

namespace Sys2Proof.Machine

open Sys2Proof (LaneIx SlotIx Key)

variable (p : Part)

@[simp] theorem Part.setLane_mem (i : LaneIx) (l : Lane) : (p.setLane i l).mem = p.mem := rfl
@[simp] theorem Part.setLane_regs (i : LaneIx) (l : Lane) : (p.setLane i l).regs = p.regs := rfl
@[simp] theorem Part.setLane_clock (i : LaneIx) (l : Lane) : (p.setLane i l).clock = p.clock := rfl
@[simp] theorem Part.setLane_seq (i : LaneIx) (l : Lane) : (p.setLane i l).seq = p.seq := rfl
@[simp] theorem Part.setLane_console (i : LaneIx) (l : Lane) : (p.setLane i l).console = p.console := rfl
@[simp] theorem Part.setLane_requests (i : LaneIx) (l : Lane) : (p.setLane i l).requests = p.requests := rfl
@[simp] theorem Part.setLane_journal (i : LaneIx) (l : Lane) : (p.setLane i l).journal = p.journal := rfl

@[simp] theorem Part.modLane_mem (i : LaneIx) (f : Lane → Lane) : (p.modLane i f).mem = p.mem := rfl
@[simp] theorem Part.modLane_regs (i : LaneIx) (f : Lane → Lane) : (p.modLane i f).regs = p.regs := rfl
@[simp] theorem Part.modLane_clock (i : LaneIx) (f : Lane → Lane) : (p.modLane i f).clock = p.clock := rfl
@[simp] theorem Part.modLane_seq (i : LaneIx) (f : Lane → Lane) : (p.modLane i f).seq = p.seq := rfl
@[simp] theorem Part.modLane_console (i : LaneIx) (f : Lane → Lane) : (p.modLane i f).console = p.console := rfl
@[simp] theorem Part.modLane_requests (i : LaneIx) (f : Lane → Lane) : (p.modLane i f).requests = p.requests := rfl
@[simp] theorem Part.modLane_journal (i : LaneIx) (f : Lane → Lane) : (p.modLane i f).journal = p.journal := rfl

@[simp] theorem Part.setNotice_mem (n : Notice) : (p.setNotice n).mem = p.mem := rfl
@[simp] theorem Part.setNotice_clock (n : Notice) : (p.setNotice n).clock = p.clock := rfl
@[simp] theorem Part.setNotice_seq (n : Notice) : (p.setNotice n).seq = p.seq := rfl
@[simp] theorem Part.setNotice_lanes (n : Notice) : (p.setNotice n).lanes = p.lanes := rfl
@[simp] theorem Part.setNotice_console (n : Notice) : (p.setNotice n).console = p.console := rfl
@[simp] theorem Part.setNotice_requests (n : Notice) : (p.setNotice n).requests = p.requests := rfl
@[simp] theorem Part.setNotice_journal (n : Notice) : (p.setNotice n).journal = p.journal := rfl

@[simp] theorem Part.setCursor_mem (c : Cursor) : (p.setCursor c).mem = p.mem := rfl
@[simp] theorem Part.setCursor_regs (c : Cursor) : (p.setCursor c).regs = p.regs := rfl
@[simp] theorem Part.setCursor_clock (c : Cursor) : (p.setCursor c).clock = p.clock := rfl
@[simp] theorem Part.setCursor_lanes (c : Cursor) : (p.setCursor c).lanes = p.lanes := rfl
@[simp] theorem Part.setCursor_console (c : Cursor) : (p.setCursor c).console = p.console := rfl
@[simp] theorem Part.setCursor_requests (c : Cursor) : (p.setCursor c).requests = p.requests := rfl
@[simp] theorem Part.setCursor_journal (c : Cursor) : (p.setCursor c).journal = p.journal := rfl

@[simp] theorem Part.setWindow_mem (w : List Entry) : (p.setWindow w).mem = p.mem := rfl
@[simp] theorem Part.setWindow_regs (w : List Entry) : (p.setWindow w).regs = p.regs := rfl
@[simp] theorem Part.setWindow_clock (w : List Entry) : (p.setWindow w).clock = p.clock := rfl
@[simp] theorem Part.setWindow_lanes (w : List Entry) : (p.setWindow w).lanes = p.lanes := rfl
@[simp] theorem Part.setWindow_console (w : List Entry) : (p.setWindow w).console = p.console := rfl
@[simp] theorem Part.setWindow_requests (w : List Entry) : (p.setWindow w).requests = p.requests := rfl
@[simp] theorem Part.setWindow_journal (w : List Entry) : (p.setWindow w).journal = p.journal := rfl

@[simp] theorem Part.setHead_mem (st : EntryState) (t : Option Nat) : (p.setHead st t).mem = p.mem := rfl
@[simp] theorem Part.setHead_regs (st : EntryState) (t : Option Nat) : (p.setHead st t).regs = p.regs := rfl
@[simp] theorem Part.setHead_clock (st : EntryState) (t : Option Nat) : (p.setHead st t).clock = p.clock := rfl
@[simp] theorem Part.setHead_lanes (st : EntryState) (t : Option Nat) : (p.setHead st t).lanes = p.lanes := rfl
@[simp] theorem Part.setHead_console (st : EntryState) (t : Option Nat) : (p.setHead st t).console = p.console := rfl
@[simp] theorem Part.setHead_requests (st : EntryState) (t : Option Nat) : (p.setHead st t).requests = p.requests := rfl
@[simp] theorem Part.setHead_journal (st : EntryState) (t : Option Nat) : (p.setHead st t).journal = p.journal := rfl

@[simp] theorem Part.recompute_mem : (p.recompute).mem = p.mem := rfl
@[simp] theorem Part.recompute_regs : (p.recompute).regs = p.regs := rfl
@[simp] theorem Part.recompute_clock : (p.recompute).clock = p.clock := rfl
@[simp] theorem Part.recompute_lanes : (p.recompute).lanes = p.lanes := rfl
@[simp] theorem Part.recompute_console : (p.recompute).console = p.console := rfl
@[simp] theorem Part.recompute_requests : (p.recompute).requests = p.requests := rfl
@[simp] theorem Part.recompute_journal : (p.recompute).journal = p.journal := rfl

@[simp] theorem Part.setClock_mem (c : Clock) : (p.setClock c).mem = p.mem := rfl
@[simp] theorem Part.setClock_regs (c : Clock) : (p.setClock c).regs = p.regs := rfl
@[simp] theorem Part.setClock_seq (c : Clock) : (p.setClock c).seq = p.seq := rfl
@[simp] theorem Part.setClock_lanes (c : Clock) : (p.setClock c).lanes = p.lanes := rfl
@[simp] theorem Part.setClock_console (c : Clock) : (p.setClock c).console = p.console := rfl
@[simp] theorem Part.setClock_requests (c : Clock) : (p.setClock c).requests = p.requests := rfl
@[simp] theorem Part.setClock_journal (c : Clock) : (p.setClock c).journal = p.journal := rfl

@[simp] theorem Part.setRegs_mem (r : Registers) : (p.setRegs r).mem = p.mem := rfl
@[simp] theorem Part.setRegs_clock (r : Registers) : (p.setRegs r).clock = p.clock := rfl
@[simp] theorem Part.setRegs_seq (r : Registers) : (p.setRegs r).seq = p.seq := rfl
@[simp] theorem Part.setRegs_lanes (r : Registers) : (p.setRegs r).lanes = p.lanes := rfl
@[simp] theorem Part.setRegs_console (r : Registers) : (p.setRegs r).console = p.console := rfl
@[simp] theorem Part.setRegs_requests (r : Registers) : (p.setRegs r).requests = p.requests := rfl
@[simp] theorem Part.setRegs_journal (r : Registers) : (p.setRegs r).journal = p.journal := rfl

@[simp] theorem Part.setKeyFilter_mem (k : Key) (f : KeyFilter) : (p.setKeyFilter k f).mem = p.mem := rfl
@[simp] theorem Part.setKeyFilter_regs (k : Key) (f : KeyFilter) : (p.setKeyFilter k f).regs = p.regs := rfl
@[simp] theorem Part.setKeyFilter_clock (k : Key) (f : KeyFilter) : (p.setKeyFilter k f).clock = p.clock := rfl
@[simp] theorem Part.setKeyFilter_seq (k : Key) (f : KeyFilter) : (p.setKeyFilter k f).seq = p.seq := rfl
@[simp] theorem Part.setKeyFilter_lanes (k : Key) (f : KeyFilter) : (p.setKeyFilter k f).lanes = p.lanes := rfl
@[simp] theorem Part.setKeyFilter_requests (k : Key) (f : KeyFilter) : (p.setKeyFilter k f).requests = p.requests := rfl
@[simp] theorem Part.setKeyFilter_journal (k : Key) (f : KeyFilter) : (p.setKeyFilter k f).journal = p.journal := rfl

@[simp] theorem Part.setKeyLevel_mem (k : Key) (b : Bool) : (p.setKeyLevel k b).mem = p.mem := rfl
@[simp] theorem Part.setKeyLevel_regs (k : Key) (b : Bool) : (p.setKeyLevel k b).regs = p.regs := rfl
@[simp] theorem Part.setKeyLevel_clock (k : Key) (b : Bool) : (p.setKeyLevel k b).clock = p.clock := rfl
@[simp] theorem Part.setKeyLevel_seq (k : Key) (b : Bool) : (p.setKeyLevel k b).seq = p.seq := rfl
@[simp] theorem Part.setKeyLevel_lanes (k : Key) (b : Bool) : (p.setKeyLevel k b).lanes = p.lanes := rfl
@[simp] theorem Part.setKeyLevel_requests (k : Key) (b : Bool) : (p.setKeyLevel k b).requests = p.requests := rfl
@[simp] theorem Part.setKeyLevel_journal (k : Key) (b : Bool) : (p.setKeyLevel k b).journal = p.journal := rfl

@[simp] theorem Part.outputs_mem : (p.outputs).mem = p.mem := rfl
@[simp] theorem Part.outputs_clock : (p.outputs).clock = p.clock := rfl
@[simp] theorem Part.outputs_seq : (p.outputs).seq = p.seq := rfl
@[simp] theorem Part.outputs_lanes : (p.outputs).lanes = p.lanes := rfl
@[simp] theorem Part.outputs_requests : (p.outputs).requests = p.requests := rfl
@[simp] theorem Part.outputs_journal : (p.outputs).journal = p.journal := rfl

@[simp] theorem Part.takeSlot_regs (n : SlotIx) : (p.takeSlot n).regs = p.regs := rfl
@[simp] theorem Part.takeSlot_clock (n : SlotIx) : (p.takeSlot n).clock = p.clock := rfl
@[simp] theorem Part.takeSlot_seq (n : SlotIx) : (p.takeSlot n).seq = p.seq := rfl
@[simp] theorem Part.takeSlot_lanes (n : SlotIx) : (p.takeSlot n).lanes = p.lanes := rfl
@[simp] theorem Part.takeSlot_console (n : SlotIx) : (p.takeSlot n).console = p.console := rfl
@[simp] theorem Part.takeSlot_requests (n : SlotIx) : (p.takeSlot n).requests = p.requests := rfl
@[simp] theorem Part.takeSlot_journal (n : SlotIx) : (p.takeSlot n).journal = p.journal := rfl

@[simp] theorem Part.askScan_mem : (p.askScan).mem = p.mem := rfl
@[simp] theorem Part.askScan_regs : (p.askScan).regs = p.regs := rfl
@[simp] theorem Part.askScan_clock : (p.askScan).clock = p.clock := rfl
@[simp] theorem Part.askScan_seq : (p.askScan).seq = p.seq := rfl
@[simp] theorem Part.askScan_lanes : (p.askScan).lanes = p.lanes := rfl
@[simp] theorem Part.askScan_console : (p.askScan).console = p.console := rfl
@[simp] theorem Part.askScan_journal : (p.askScan).journal = p.journal := rfl

@[simp] theorem Part.scanOn_mem (n : SlotIx) : (p.scanOn n).mem = p.mem := rfl
@[simp] theorem Part.scanOn_regs (n : SlotIx) : (p.scanOn n).regs = p.regs := rfl
@[simp] theorem Part.scanOn_clock (n : SlotIx) : (p.scanOn n).clock = p.clock := rfl
@[simp] theorem Part.scanOn_seq (n : SlotIx) : (p.scanOn n).seq = p.seq := rfl
@[simp] theorem Part.scanOn_lanes (n : SlotIx) : (p.scanOn n).lanes = p.lanes := rfl
@[simp] theorem Part.scanOn_console (n : SlotIx) : (p.scanOn n).console = p.console := rfl
@[simp] theorem Part.scanOn_journal (n : SlotIx) : (p.scanOn n).journal = p.journal := rfl

@[simp] theorem Part.statusWrite_clock (fs : List (Nat × Nat)) : (p.statusWrite fs).clock = p.clock := rfl
@[simp] theorem Part.statusWrite_seq (fs : List (Nat × Nat)) : (p.statusWrite fs).seq = p.seq := rfl
@[simp] theorem Part.statusWrite_lanes (fs : List (Nat × Nat)) : (p.statusWrite fs).lanes = p.lanes := rfl
@[simp] theorem Part.statusWrite_console (fs : List (Nat × Nat)) : (p.statusWrite fs).console = p.console := rfl
@[simp] theorem Part.statusWrite_requests (fs : List (Nat × Nat)) : (p.statusWrite fs).requests = p.requests := rfl
@[simp] theorem Part.statusWrite_journal (fs : List (Nat × Nat)) : (p.statusWrite fs).journal = p.journal := rfl

@[simp] theorem Part.finishUpdate_clock : p.finishUpdate.clock = p.clock := rfl
@[simp] theorem Part.finishUpdate_seq : p.finishUpdate.seq = p.seq := rfl
@[simp] theorem Part.finishUpdate_lanes : p.finishUpdate.lanes = p.lanes := rfl
@[simp] theorem Part.finishUpdate_console : p.finishUpdate.console = p.console := rfl
@[simp] theorem Part.finishUpdate_requests : p.finishUpdate.requests = p.requests := rfl
@[simp] theorem Part.finishUpdate_journal : p.finishUpdate.journal = p.journal := rfl
@[simp] theorem Part.finishUpdate_update : p.finishUpdate.regs.update = [] := rfl
@[simp] theorem Part.finishUpdate_notice : p.finishUpdate.regs.notice = p.regs.notice := rfl

@[simp] theorem Part.journalUpdate_clock : p.journalUpdate.clock = p.clock := rfl
@[simp] theorem Part.journalUpdate_seq : p.journalUpdate.seq = p.seq := rfl
@[simp] theorem Part.journalUpdate_lanes : p.journalUpdate.lanes = p.lanes := rfl
@[simp] theorem Part.journalUpdate_console : p.journalUpdate.console = p.console := rfl
@[simp] theorem Part.journalUpdate_requests : p.journalUpdate.requests = p.requests := rfl
@[simp] theorem Part.journalUpdate_journal : p.journalUpdate.journal = p.journal := rfl
@[simp] theorem Part.journalUpdate_update : p.journalUpdate.regs.update = [] := rfl
@[simp] theorem Part.journalUpdate_notice : p.journalUpdate.regs.notice = p.regs.notice := rfl

@[simp] theorem Part.dropAbsent_mem : p.dropAbsent.mem = p.mem := by unfold Part.dropAbsent; split <;> rfl
@[simp] theorem Part.dropAbsent_regs : p.dropAbsent.regs = p.regs := by unfold Part.dropAbsent; split <;> rfl
@[simp] theorem Part.dropAbsent_clock : p.dropAbsent.clock = p.clock := by unfold Part.dropAbsent; split <;> rfl
@[simp] theorem Part.dropAbsent_lanes : p.dropAbsent.lanes = p.lanes := by unfold Part.dropAbsent; split <;> rfl
@[simp] theorem Part.dropAbsent_console : p.dropAbsent.console = p.console := by unfold Part.dropAbsent; split <;> rfl
@[simp] theorem Part.dropAbsent_requests : p.dropAbsent.requests = p.requests := by unfold Part.dropAbsent; split <;> rfl
@[simp] theorem Part.dropAbsent_journal : p.dropAbsent.journal = p.journal := by unfold Part.dropAbsent; split <;> rfl
@[simp] theorem Part.dropAbsent_state : p.dropAbsent.seq.state = p.seq.state := by unfold Part.dropAbsent; split <;> rfl

@[simp] theorem Part.noteUse_mem : p.noteUse.mem = p.mem := by unfold Part.noteUse; split <;> rfl
@[simp] theorem Part.noteUse_regs : p.noteUse.regs = p.regs := by unfold Part.noteUse; split <;> rfl
@[simp] theorem Part.noteUse_clock : p.noteUse.clock = p.clock := by unfold Part.noteUse; split <;> rfl
@[simp] theorem Part.noteUse_seq : p.noteUse.seq = p.seq := by unfold Part.noteUse; split <;> rfl
@[simp] theorem Part.noteUse_lanes : p.noteUse.lanes = p.lanes := by unfold Part.noteUse; split <;> rfl
@[simp] theorem Part.noteUse_console : p.noteUse.console = p.console := by unfold Part.noteUse; split <;> rfl
@[simp] theorem Part.noteUse_journal : p.noteUse.journal = p.journal := by unfold Part.noteUse; split <;> rfl
@[simp] theorem Part.noteUse_scan : p.noteUse.requests.scan = p.requests.scan := by unfold Part.noteUse; split <;> rfl

@[simp] theorem Part.tick_mem : (p.tick).mem = p.mem := rfl
@[simp] theorem Part.tick_regs : (p.tick).regs = p.regs := rfl
@[simp] theorem Part.tick_seq : (p.tick).seq = p.seq := rfl
@[simp] theorem Part.tick_lanes : (p.tick).lanes = p.lanes := rfl
@[simp] theorem Part.tick_console : (p.tick).console = p.console := rfl
@[simp] theorem Part.tick_requests : (p.tick).requests = p.requests := rfl
@[simp] theorem Part.tick_journal : (p.tick).journal = p.journal := rfl

@[simp] theorem Part.setWindow_window (w : List Entry) : (p.setWindow w).seq.window = w := rfl
@[simp] theorem Part.setWindow_state (w : List Entry) : (p.setWindow w).seq.state = p.seq.state := rfl
@[simp] theorem Part.setWindow_current (w : List Entry) : (p.setWindow w).seq.current = p.seq.current := rfl
@[simp] theorem Part.setWindow_pass (w : List Entry) : (p.setWindow w).seq.pass = p.seq.pass := rfl
@[simp] theorem Part.setWindow_cursor (w : List Entry) : (p.setWindow w).seq.cursor = p.seq.cursor := rfl
@[simp] theorem Part.setCursor_cursor (c : Cursor) : (p.setCursor c).seq.cursor = c := rfl
@[simp] theorem Part.setCursor_window (c : Cursor) : (p.setCursor c).seq.window = p.seq.window := rfl
@[simp] theorem Part.setCursor_state (c : Cursor) : (p.setCursor c).seq.state = p.seq.state := rfl
@[simp] theorem Part.setHead_state (st : EntryState) (t : Option Nat) : (p.setHead st t).seq.state = p.seq.state := rfl
@[simp] theorem Part.setHead_deferAt (st : EntryState) (t : Option Nat) : (p.setHead st t).seq.deferAt = t := rfl
@[simp] theorem Part.recompute_state : p.recompute.seq.state = p.seq.state := rfl
@[simp] theorem Part.recompute_current : p.recompute.seq.current = p.seq.current := rfl
@[simp] theorem Part.recompute_pass : p.recompute.seq.pass = p.seq.pass := rfl
@[simp] theorem Part.recompute_cursor : p.recompute.seq.cursor = p.seq.cursor := rfl
@[simp] theorem Part.recompute_history : p.recompute.seq.history = p.seq.history := rfl
@[simp] theorem Part.recompute_lastFire : p.recompute.seq.lastFire = p.seq.lastFire := rfl
@[simp] theorem Part.setClock_clock (c : Clock) : (p.setClock c).clock = c := rfl
@[simp] theorem Part.setRegs_regs (r : Registers) : (p.setRegs r).regs = r := rfl
@[simp] theorem Part.setKeyFilter_filters (k : Key) (f : KeyFilter) : (p.setKeyFilter k f).console.filters = p.console.filters.set k f := rfl
@[simp] theorem Part.setKeyFilter_levels (k : Key) (f : KeyFilter) : (p.setKeyFilter k f).console.levels = p.console.levels := rfl
@[simp] theorem Part.setKeyFilter_lastGo (k : Key) (f : KeyFilter) : (p.setKeyFilter k f).console.lastGo = p.console.lastGo := rfl
@[simp] theorem Part.setKeyLevel_levels (k : Key) (b : Bool) : (p.setKeyLevel k b).console.levels = p.console.levels.set k b := rfl
@[simp] theorem Part.setKeyLevel_filters (k : Key) (b : Bool) : (p.setKeyLevel k b).console.filters = p.console.filters := rfl
@[simp] theorem Part.outputs_notice : p.outputs.regs.notice = p.regs.notice := rfl
@[simp] theorem Part.outputs_enable : p.outputs.regs.enable = p.regs.enable := rfl
@[simp] theorem Part.outputs_noticeEn : p.outputs.regs.noticeEn = p.regs.noticeEn := rfl
@[simp] theorem Part.outputs_timeHi : p.outputs.regs.timeHi = p.regs.timeHi := rfl
@[simp] theorem Part.outputs_readData : p.outputs.regs.readData = p.regs.readData := rfl
@[simp] theorem Part.outputs_filters : p.outputs.console.filters = p.console.filters := rfl
@[simp] theorem Part.outputs_levels : p.outputs.console.levels = p.console.levels := rfl
@[simp] theorem Part.outputs_lastGo : p.outputs.console.lastGo = p.console.lastGo := rfl
@[simp] theorem Part.setNotice_enable (n : Notice) : (p.setNotice n).regs.enable = p.regs.enable := rfl
@[simp] theorem Part.statusWrite_notice (fs : List (Nat × Nat)) : (p.statusWrite fs).regs.notice = p.regs.notice := rfl
@[simp] theorem Part.statusWrite_enable (fs : List (Nat × Nat)) : (p.statusWrite fs).regs.enable = p.regs.enable := rfl
@[simp] theorem Part.scanOn_scan (n : SlotIx) : (p.scanOn n).requests.scan = .scanning (n.val + 1) := rfl

@[simp] theorem State.withPart_part (s : State) (q : Part) : (s.withPart q).part = q := rfl
@[simp] theorem State.withPart_pending (s : State) (q : Part) : (s.withPart q).pending = s.pending := rfl

@[simp] theorem PerKey.get_set_same {α : Type} (v : PerKey α) (k : Key) (x : α) : (v.set k x).get k = x := by cases k <;> rfl
theorem PerKey.get_set_other {α : Type} (v : PerKey α) {k j : Key} (x : α) (h : j ≠ k) : (v.set k x).get j = v.get j := by
  cases k <;> cases j <;> first | rfl | exact absurd rfl h

@[simp] theorem Lane.rec_setRec_same (l : Lane) (b : Fin 2) (r : StagingRec) : (l.setRec b r).rec_ b = r := by
  simp [Lane.rec_, Lane.setRec]
theorem Lane.rec_setRec_other (l : Lane) {b c : Fin 2} (r : StagingRec) (h : b ≠ c) : (l.setRec b r).rec_ c = l.rec_ c := by
  have : b.val ≠ c.val := fun e => h (Fin.ext e)
  simp only [Lane.rec_, Lane.setRec, Fin.getElem_fin]
  exact Vector.getElem_set_ne _ _ this
@[simp] theorem Lane.setRec_cfg (l : Lane) (b : Fin 2) (r : StagingRec) : (l.setRec b r).cfg = l.cfg := rfl
@[simp] theorem Lane.setRec_link (l : Lane) (b : Fin 2) (r : StagingRec) : (l.setRec b r).link = l.link := rfl
@[simp] theorem Lane.setRec_screen (l : Lane) (b : Fin 2) (r : StagingRec) : (l.setRec b r).screen = l.screen := rfl
@[simp] theorem Lane.setRec_shadow (l : Lane) (b : Fin 2) (r : StagingRec) : (l.setRec b r).shadow = l.shadow := rfl
@[simp] theorem Lane.setRec_blanked (l : Lane) (b : Fin 2) (r : StagingRec) : (l.setRec b r).blanked = l.blanked := rfl
@[simp] theorem Lane.setRec_maxDwellAt (l : Lane) (b : Fin 2) (r : StagingRec) : (l.setRec b r).maxDwellAt = l.maxDwellAt := rfl
@[simp] theorem Lane.setRec_sent (l : Lane) (b : Fin 2) (r : StagingRec) : (l.setRec b r).sent = l.sent := rfl
@[simp] theorem Lane.setRec_acknowledged (l : Lane) (b : Fin 2) (r : StagingRec) : (l.setRec b r).acknowledged = l.acknowledged := rfl
@[simp] theorem Lane.setRec_misses (l : Lane) (b : Fin 2) (r : StagingRec) : (l.setRec b r).misses = l.misses := rfl
@[simp] theorem Lane.setRec_sequence (l : Lane) (b : Fin 2) (r : StagingRec) : (l.setRec b r).sequence = l.sequence := rfl
@[simp] theorem Lane.setRec_tx (l : Lane) (b : Fin 2) (r : StagingRec) : (l.setRec b r).tx = l.tx := rfl
@[simp] theorem Lane.setRec_express (l : Lane) (b : Fin 2) (r : StagingRec) : (l.setRec b r).express = l.express := rfl
@[simp] theorem Lane.setRec_outstanding (l : Lane) (b : Fin 2) (r : StagingRec) : (l.setRec b r).outstanding = l.outstanding := rfl
@[simp] theorem Lane.setRec_late (l : Lane) (b : Fin 2) (r : StagingRec) : (l.setRec b r).late = l.late := rfl
@[simp] theorem Lane.setRec_resends (l : Lane) (b : Fin 2) (r : StagingRec) : (l.setRec b r).resends = l.resends := rfl
@[simp] theorem Lane.setRec_rx (l : Lane) (b : Fin 2) (r : StagingRec) : (l.setRec b r).rx = l.rx := rfl
@[simp] theorem Lane.setRec_missCounter (l : Lane) (b : Fin 2) (r : StagingRec) : (l.setRec b r).missCounter = l.missCounter := rfl

end Sys2Proof.Machine
end

