-- ==== Sys2Proof/Laws/Commands.lean ====
section
/-! SUPPORT. What the shared forms of a command answer, what a completion leaves in its slot, and what an append leaves in the
ring, said once for the statements' proofs to cite. -/

namespace Sys2Proof.Machine

open Sys2Proof (LaneIx SlotIx)

/-! ### The forms of a command -/

theorem State.event_running (s : State) (f : Part → Part) (h : s.part.enabled = true) :
    s.event f = .next { s with part := Part.finish s.part (f s.part) } := by simp [State.event, h]

theorem State.event_halted (s : State) (f : Part → Part) (h : s.part.enabled = false) : s.event f = .next s := by
  simp [State.event, h]

theorem State.request_taken (s : State) (n : SlotIx) (tag : Half) (act : Part → Part × Result × List Nat)
    (h : s.part.takes n = true) :
    s.request n tag act =
      .next (s.withPart (Part.complete s.part (act (s.part.takeSlot n)).1 n tag (act (s.part.takeSlot n)).2.1
        (act (s.part.takeSlot n)).2.2)) := by simp [State.request, h, State.withPart]

theorem State.request_untaken (s : State) (n : SlotIx) (tag : Half) (act : Part → Part × Result × List Nat)
    (h : s.part.takes n = false) : s.request n tag act = .next s := by simp [State.request, h]

/-! ### Reading memory back -/

/-- Equal bytes give equal numbers. -/
theorem Memory.number_congr {m n : Memory} (k : Nat) :
    ∀ a : Nat, (∀ j, a ≤ j → j < a + k → m.byte j = n.byte j) → m.number a k = n.number a k := by
  induction k with
  | zero => intro a _; rfl
  | succ k ih =>
    intro a h
    rw [Memory.number, Memory.number, h a (Nat.le_refl a) (by omega), ih _ fun j h1 h2 => h j (by omega) (by omega)]

/-- Equal bytes give equal runs. -/
theorem Memory.bytes_congr {m n : Memory} (k : Nat) :
    ∀ a : Nat, (∀ j, a ≤ j → j < a + k → m.byte j = n.byte j) → m.bytes a k = n.bytes a k := by
  induction k with
  | zero => intro a _; rfl
  | succ k ih =>
    intro a h
    rw [Memory.bytes, Memory.bytes, h a (Nat.le_refl a) (by omega), ih _ fun j h1 h2 => h j (by omega) (by omega)]

/-- A run of bytes just written reads back. -/
theorem Memory.bytes_setBytes (bs : List Byte) :
    ∀ (m : Memory) (a : Nat), (m.setBytes a bs).bytes a bs.length = bs := by
  induction bs with
  | nil => intro m a; rfl
  | cons v rest ih =>
    intro m a
    rw [Memory.setBytes, List.length_cons, Memory.bytes, ih, Memory.byte_setBytes_other _ _ _ _ (by omega),
      Memory.byte_setByte_same]

theorem Memory.byte_setWord_other (m : Memory) {a k : Nat} (v : Nat) (h : k < a ∨ a + 4 ≤ k) :
    (m.setWord a v).byte k = m.byte k :=
  Memory.byte_setBytes_other _ m a k (by simpa using h)

theorem Memory.byte_setWords_other (fields : List (Nat × Nat)) :
    ∀ (m : Memory) (k : Nat), (∀ x ∈ fields, k < x.1 ∨ x.1 + 4 ≤ k) → (m.setWords fields).byte k = m.byte k := by
  induction fields with
  | nil => intro m k _; rfl
  | cons x rest ih =>
    intro m k h
    rw [Memory.setWords, ih _ _ fun y hy => h y (List.mem_cons_of_mem _ hy),
      Memory.byte_setWord_other _ _ (h x List.mem_cons_self)]

/-! ### A completion (R154) -/

theorem Memory.word_detail (n : SlotIx) (d : List Nat) (m : Memory) {k : Nat} (hk : k < 4) :
    (m.setWords (detailWords n d)).word (slotAt n + 0x30 + 4 * k) = d.getD k 0 % 4294967296 := by
  have h : detailWords n d = [(slotAt n + 0x30, d.getD 0 0), (slotAt n + 0x34, d.getD 1 0), (slotAt n + 0x38, d.getD 2 0),
      (slotAt n + 0x3C, d.getD 3 0)] := rfl
  rw [h]
  simp only [Memory.setWords]
  rcases (show k = 0 ∨ k = 1 ∨ k = 2 ∨ k = 3 by omega) with rfl | rfl | rfl | rfl
  · rw [Memory.word_setWord_other _ _ (by omega), Memory.word_setWord_other _ _ (by omega),
      Memory.word_setWord_other _ _ (by omega), Memory.word_setWord_same]
  · rw [Memory.word_setWord_other _ _ (by omega), Memory.word_setWord_other _ _ (by omega), Memory.word_setWord_same]
  · rw [Memory.word_setWord_other _ _ (by omega), Memory.word_setWord_same]
  · rw [Memory.word_setWord_same]

theorem Memory.byte_detail_low (n : SlotIx) (d : List Nat) (m : Memory) {a : Nat} (h : a < slotAt n + 0x30) :
    (m.setWords (detailWords n d)).byte a = m.byte a := by
  apply Memory.byte_setWords_other
  intro x hx
  simp only [detailWords, List.mem_map, List.mem_range] at hx
  obtain ⟨j, _, rfl⟩ := hx
  simp only
  omega

/-- A slot just answered reads as a completion leaves it. -/
theorem Memory.answer_answered (m : Memory) (n : SlotIx) (tag : Half) (r : Result) (d : List Nat) :
    (m.answer n tag r d).answered n tag r d := by
  unfold Memory.answered Memory.answer
  extract_lets m1
  refine ⟨?_, ?_, ?_, ?_⟩
  · rw [Memory.owner, Memory.word_setWord_same]
    rfl
  · rw [Memory.byte_setWord_other _ _ (by omega), Memory.byte_detail_low _ _ _ (by omega),
      Memory.byte_setBytes_other _ _ _ _ (by omega), Memory.byte_setByte_same]
  · have h : Memory.number ((m1.setWords (detailWords n d)).setWord (slotAt n) ownerDone) (slotAt n + 6) 2 = tag.toNat := by
      rw [Memory.number_congr (n := m1) 2 _ fun j h1 h2 => by
        rw [Memory.byte_setWord_other _ _ (by omega), Memory.byte_detail_low _ _ _ (by omega)]]
      simp only [m1]
      rw [Memory.number_setBytes_same]
      exact Nat.mod_eq_of_lt tag.isLt
    rw [Memory.tag, h]
    simp
  · intro k hk
    rw [Memory.word_setWord_other _ _ (by omega), Memory.word_detail n d m1 hk]

/-- An answer leaves the kind byte and the arguments of its slot. -/
theorem Memory.answer_args (m : Memory) (n : SlotIx) (tag : Half) (r : Result) (d : List Nat) {a : Nat}
    (h : a = slotAt n + 4 ∨ (slotAt n + 8 ≤ a ∧ a < slotAt n + 0x30)) : (m.answer n tag r d).byte a = m.byte a := by
  unfold Memory.answer
  rw [Memory.byte_setWord_other _ _ (by omega), Memory.byte_detail_low _ _ _ (by omega),
    Memory.byte_setBytes_other _ _ _ _ (by rw [leBytes_length]; omega), Memory.byte_setByte_other _ _ (by omega)]

theorem Memory.answer_other (m : Memory) (n : SlotIx) (tag : Half) (r : Result) (d : List Nat) {a : Nat} (h : ¬ inSlot n a) :
    (m.answer n tag r d).byte a = m.byte a :=
  (m.answer_reach n tag r d).byte h

/-- A slot's bytes decide how it was answered. -/
theorem Memory.answered_congr {m k : Memory} {n : SlotIx} {tag : Half} {r : Result} {d : List Nat}
    (h : ∀ a, inSlot n a → k.byte a = m.byte a) (hm : m.answered n tag r d) : k.answered n tag r d := by
  obtain ⟨h1, h2, h3, h4⟩ := hm
  refine ⟨?_, ?_, ?_, ?_⟩
  · rw [← h1]
    exact Memory.number_congr 4 _ fun j h1 h2 => h j ⟨by omega, by omega⟩
  · rw [← h2]
    exact h _ ⟨by omega, by omega⟩
  · rw [← h3]
    unfold Memory.tag
    rw [Memory.number_congr (m := k) (n := m) 2 _ fun j h1 h2 => h j ⟨by omega, by omega⟩]
  · intro i hi
    rw [← h4 i hi]
    exact Memory.number_congr 4 _ fun j h1 h2 => h j ⟨by omega, by omega⟩

/-! ### The end of an event and the ring -/

theorem Part.statusWrite_beyond (p : Part) (fields : List (Nat × Nat)) {a : Nat} (ha : 0x200 ≤ a) :
    (p.statusWrite fields).mem.byte a = p.mem.byte a :=
  (p.statusWrite_status fields).byte fun h => by unfold statusByte at h; omega

theorem Part.journalUpdate_beyond (p : Part) {a : Nat} (ha : 0x200 ≤ a) : p.journalUpdate.mem.byte a = p.mem.byte a :=
  p.journalUpdate_status.byte fun h => by unfold statusByte at h; omega

/-- `q` is `p` after status updates alone: the journal unit and everything from the slots on are as they were. -/
structure Part.Quiet (p q : Part) : Prop where
  journal : q.journal = p.journal
  notice : q.regs.notice = p.regs.notice
  beyond : ∀ a, 0x200 ≤ a → q.mem.byte a = p.mem.byte a

theorem Part.Quiet.refl (p : Part) : p.Quiet p := ⟨rfl, rfl, fun _ _ => rfl⟩

theorem Part.Quiet.trans {p q r : Part} (h : p.Quiet q) (k : q.Quiet r) : p.Quiet r :=
  ⟨k.journal.trans h.journal, k.notice.trans h.notice, fun a ha => (k.beyond a ha).trans (h.beyond a ha)⟩

theorem Part.Quiet.foldl {α : Type} (f : Part → α → Part) (h : ∀ (p : Part) (a : α), p.Quiet (f p a)) (xs : List α) :
    ∀ p : Part, p.Quiet (xs.foldl f p) := by
  induction xs with
  | nil => exact Part.Quiet.refl
  | cons x rest ih => intro p; exact (h p x).trans (ih _)

theorem Part.statusIfChanged_quiet (p : Part) (old new : List (Nat × Nat)) : p.Quiet (p.statusIfChanged old new) := by
  unfold Part.statusIfChanged
  split
  · exact .refl p
  · exact ⟨rfl, rfl, fun a ha => p.statusWrite_beyond _ ha⟩

theorem Part.finishUpdate_quiet (p : Part) : p.Quiet p.finishUpdate :=
  ⟨rfl, rfl, fun _ ha => p.finishUpdate_status.byte fun h => by unfold statusByte at h; omega⟩

theorem Part.effects_quiet (before p : Part) : p.Quiet (Part.effects before p) := by
  have h0 : p.Quiet p.lookAgain := by
    rw [p.lookAgain_rest]
    exact ⟨rfl, rfl, fun _ _ => rfl⟩
  refine h0.trans ?_
  unfold Part.effects
  generalize p.lookAgain = p
  unfold Part.statusUpdates
  extract_lets p1 p2
  have h1 : p.Quiet p1 := p.statusIfChanged_quiet _ _
  have h2 : p1.Quiet p2 := Part.statusIfChanged_quiet _ _ _
  clear_value p1 p2
  exact (h1.trans h2).trans
    (Part.Quiet.foldl _ (fun q _ => q.statusIfChanged_quiet _ _) allLanes _)

/-- The end of an event appends nothing, sets no notice and writes nothing beyond the status block. -/
theorem Part.finish_quiet (before p : Part) : p.Quiet (Part.finish before p) := by
  have h := Part.effects_quiet before p
  exact ⟨h.journal, h.notice, h.beyond⟩

/-! ### Appends with room (R169 to R171) -/

theorem Memory.readMark_congr {p q : Part} (h : ∀ a, 0x30 ≤ a → a < 0x34 → q.mem.byte a = p.mem.byte a) :
    q.readMark = p.readMark := by
  unfold Part.readMark
  rw [show q.mem.word Config.readMarkAt = p.mem.word Config.readMarkAt from
    Memory.number_congr 4 _ fun j h1 h2 => h j (by simpa [Config.readMarkAt] using h1) (by simp only [Config.readMarkAt] at h2; omega)]

/-- The host's read mark stands through what the part writes. -/
theorem Memory.Reach.readMark {p q : Part} (h : Memory.Reach ownByte p.mem q.mem) : q.readMark = p.readMark :=
  Memory.readMark_congr fun a h1 h2 => h.byte (by unfold ownByte; omega)

theorem Part.writeRecord_holds (p : Part) (r : Record) : (p.writeRecord r).mem.holds p.journal.w r p.now := by
  have hb := recordAt_bounds p.journal.w
  have hs : ∀ a, 0x200 ≤ a → (p.writeRecord r).mem.byte a =
      ((p.mem.setBytes (recordAt p.journal.w + 4) (r.bytes p.now)).setWord (recordAt p.journal.w) p.journal.w.toNat).byte a := by
    intro a ha
    unfold Part.writeRecord
    simp only
    generalize (p.mem.setBytes (recordAt p.journal.w + 4) (r.bytes p.now)).setWord (recordAt p.journal.w) p.journal.w.toNat = m
    exact Part.journalUpdate_beyond { p with mem := m, journal := { p.journal with w := p.journal.w + 1 } } ha
  constructor
  · rw [Memory.word, Memory.number_congr 4 _ fun j h1 h2 => hs j (by omega)]
    exact (Memory.word_setWord_same _ _ _).trans (Nat.mod_eq_of_lt p.journal.w.isLt)
  · rw [Memory.bytes_congr 28 _ fun j h1 h2 => hs j (by omega)]
    rw [Memory.bytes_congr (n := p.mem.setBytes (recordAt p.journal.w + 4) (r.bytes p.now)) 28 _ fun j h1 h2 =>
      Memory.byte_setWord_other _ _ (by omega)]
    have := Memory.bytes_setBytes (r.bytes p.now) p.mem (recordAt p.journal.w + 4)
    rw [Record.bytes_length] at this
    exact this

/-- An append with room writes the record at W. -/
theorem Part.append_room (p : Part) (r : Record) (h : p.roomFor 1) :
    (p.append r).journal = { p.journal with w := p.journal.w + 1 } ∧ (p.append r).mem = (p.writeRecord r).mem := by
  obtain ⟨h0, h1⟩ := h
  have hr : Config.ringSize = 4096 := rfl
  have hm : p.checkMark = p := by
    unfold Part.checkMark
    rw [if_pos (by omega)]
  have hf : p.markInForce = p.readMark := by
    unfold Part.markInForce
    rw [if_pos (by omega)]
  have hg : p.gapDue p.readMark = false := by simp [Part.gapDue, h0]
  have hw : (p.checkMark.writeGap p.markInForce).writeOrLose p.markInForce r = p.writeRecord r := by
    rw [hm, hf]
    unfold Part.writeGap
    rw [hg]
    simp only [Bool.false_eq_true, if_false]
    unfold Part.writeOrLose
    rw [if_pos (by omega)]
  constructor
  · unfold Part.append
    simp only
    rw [hw]
    split <;> split <;> rfl
  · rw [Part.append_mem, hw]

theorem Part.append_appended (p : Part) (r : Record) : p.appended (p.append r) [r] := by
  intro h
  obtain ⟨h1, h2⟩ := p.append_room r h
  refine ⟨by rw [h1]; rfl, by rw [h1]; exact h.1, ?_⟩
  intro k hk
  have : k = 0 := by simpa using hk
  subst this
  rw [h2]
  simpa using p.writeRecord_holds r

/-- The records of a part stand through status updates and whatever else leaves the ring and the journal unit alone. -/
theorem Part.appended_quiet {p q r : Part} {rs : List Record} (h : p.appended q rs) (k : q.Quiet r) : p.appended r rs := by
  intro hp
  obtain ⟨h1, h2, h3⟩ := h hp
  refine ⟨by rw [k.journal]; exact h1, by rw [k.journal]; exact h2, fun i hi => ?_⟩
  obtain ⟨ha, hb⟩ := h3 i hi
  have hr := recordAt_bounds (p.journal.w + BitVec.ofNat 32 i)
  constructor
  · rw [← ha]
    exact Memory.number_congr 4 _ fun j h1 h2 => k.beyond j (by omega)
  · rw [← hb]
    exact Memory.bytes_congr 28 _ fun j h1 h2 => k.beyond j (by omega)

/-- A record written leaves the rest of the ring. -/
theorem Part.writeRecord_other (p : Part) (r : Record) {a : Nat} (h : 0x200 ≤ a)
    (ho : a < recordAt p.journal.w ∨ recordAt p.journal.w + 32 ≤ a) : (p.writeRecord r).mem.byte a = p.mem.byte a := by
  have hl := Record.bytes_length r p.now
  unfold Part.writeRecord
  simp only
  rw [show p.mem.byte a = ((p.mem.setBytes (recordAt p.journal.w + 4) (r.bytes p.now)).setWord (recordAt p.journal.w)
      p.journal.w.toNat).byte a by
    rw [Memory.byte_setWord_other _ _ (by omega), Memory.byte_setBytes_other _ _ _ _ (by omega)]]
  generalize (p.mem.setBytes (recordAt p.journal.w + 4) (r.bytes p.now)).setWord (recordAt p.journal.w) p.journal.w.toNat = m
  exact Part.journalUpdate_beyond { p with mem := m, journal := { p.journal with w := p.journal.w + 1 } } h

/-- Places of different records within one ring do not meet. -/
theorem recordAt_apart (w : Word) {i k : Nat} (h : i < k) (hk : k < Config.ringSize) :
    recordAt (w + BitVec.ofNat 32 i) + 32 ≤ recordAt (w + BitVec.ofNat 32 k) ∨
      recordAt (w + BitVec.ofNat 32 k) + 32 ≤ recordAt (w + BitVec.ofNat 32 i) := by
  have hw := w.isLt
  simp only [recordAt, Config.ringSize, BitVec.toNat_add, BitVec.toNat_ofNat] at *
  omega

/-- One more append with room adds one more record. -/
theorem Part.appended_append {p q : Part} {rs : List Record} (r : Record) (h : p.appended q rs) (hn : q.now = p.now)
    (hm : q.readMark = p.readMark) : p.appended (q.append r) (rs ++ [r]) := by
  intro hp
  obtain ⟨hl, hu⟩ := hp
  rw [List.length_append, List.length_singleton] at hu
  obtain ⟨h1, h2, h3⟩ := h ⟨hl, by omega⟩
  have hr : Config.ringSize = 4096 := rfl
  have hq : q.roomFor 1 := by
    refine ⟨h2, ?_⟩
    rw [hm]
    unfold Part.unread at hu ⊢
    rw [h1]
    have hp := p.journal.w.isLt
    have hh := p.readMark.isLt
    simp only [BitVec.toNat_sub, BitVec.toNat_add, BitVec.toNat_ofNat] at hu ⊢
    omega
  obtain ⟨ha, hb⟩ := q.append_room r hq
  refine ⟨?_, by rw [ha]; exact h2, ?_⟩
  · rw [ha, List.length_append, List.length_singleton]
    show q.journal.w + 1 = _
    rw [h1, BitVec.add_assoc]
    congr 1
    rw [show (1 : Word) = BitVec.ofNat 32 1 from rfl, ← BitVec.ofNat_add]
  · intro k hk
    rw [List.length_append, List.length_singleton] at hk
    by_cases hlast : k = rs.length
    · subst hlast
      rw [hb, ← h1, ← hn]
      simpa using q.writeRecord_holds r
    · have hlt : k < rs.length := by omega
      obtain ⟨hc, hd⟩ := h3 k hlt
      rw [List.getElem_append_left hlt]
      have hx := recordAt_bounds (p.journal.w + BitVec.ofNat 32 k)
      have hapart := recordAt_apart p.journal.w hlt (by omega)
      have hb' : ∀ j, recordAt (p.journal.w + BitVec.ofNat 32 k) ≤ j → j < recordAt (p.journal.w + BitVec.ofNat 32 k) + 32 →
          (q.append r).mem.byte j = q.mem.byte j := by
        intro j hj1 hj2
        rw [hb]
        exact q.writeRecord_other r (by omega) (by rw [h1]; omega)
      constructor
      · rw [← hc]
        exact Memory.number_congr 4 _ fun j h1 h2 => hb' j (by omega) (by omega)
      · rw [← hd]
        exact Memory.bytes_congr 28 _ fun j h1 h2 => hb' j (by omega) (by omega)

end Sys2Proof.Machine
end

