-- ==== Sys2Proof/Tests/Slice0.lean ====
section
/-! SUPPORT. The tests of the model: the checks of well-formedness, the manual's worked numbers, and, for each statement with
hypotheses, a concrete state and operands that meet them. -/

namespace Sys2Proof.Tests

open Sys2Proof Sys2Proof.Machine

-- One test after the other: each `decide +kernel` waits for the kernel, and many at once need a thread each.
set_option Elab.async false

/-! ### Well-formedness: each check refuses a command it is there for -/

/-- A word access off its alignment, and smaller ones anywhere (R178). -/
theorem test_wf_alignment :
    Instr.wf (.registerWrite 0x0A .word 0) = false ∧ Instr.wf (.registerWrite 0x0B .half 0) = true ∧
      Instr.wf (.registerWrite 0x1F .byte 0) = true ∧ Instr.wf (.registerWrite 0x1C .word 0) = true := by decide

/-- Reads that run past TIME_LO's last byte, and the last that do not (R178). -/
theorem test_wf_read :
    Instr.wf (.timeLoRead 1 .word) = false ∧ Instr.wf (.timeLoRead 3 .half) = false ∧ Instr.wf (.timeLoRead 3 .byte) = true ∧
      Instr.wf (.timeLoRead 2 .half) = true ∧ Instr.wf (.timeLoRead 0 .word) = true := by decide

/-- Kinds 1 to 16 are requests; 0 and 17 are none (R155). -/
theorem test_wf_kind :
    Instr.wf (.unknown 0 0 1) = false ∧ Instr.wf (.unknown 0 0 16) = false ∧ Instr.wf (.unknown 0 0 0) = true ∧
      Instr.wf (.unknown 0 0 17) = true := by decide

/-- READY's buffers are 1 or 2, its line limit 1 to 120 (R119). -/
theorem test_wf_ready :
    Instr.wf (.ready 0 0 0 120) = false ∧ Instr.wf (.ready 0 0 3 120) = false ∧ Instr.wf (.ready 0 0 1 0) = false ∧
      Instr.wf (.ready 0 0 1 121) = false ∧ Instr.wf (.ready 0 0 2 120) = true := by decide

/-! ### States -/

/-- Slot 31 SUBMITTED, in a memory with nothing else. -/
def submitted : Memory := { cells := [(slotAt 31, 1)] }

/-- A running part with nothing set up but slot 31, SUBMITTED. -/
def on : Part := { Part.reset with mem := submitted, regs := { Registers.reset with enable := true } }

/-- A state with no command waiting. -/
def at_ (p : Part) : State := { part := p, pending := [] }

def pulsed : SectionRec :=
  { kind := .pulsed, vamp := false, length := 4, hint := 500, cueCount := 1, firstCue := 0, successor := .next 1 }
def timed : SectionRec := { pulsed with kind := .timed, length := 3, hint := 0, successor := .next 4 }
def called : SectionRec := { pulsed with kind := .called, length := 0, hint := 0, successor := .stop }
def vamp : SectionRec := { pulsed with vamp := true }

/-- Sections 0 PULSED, 1 TIMED, 2 CALLED, 3 a vamp, 4 TIMED. -/
def book : Book := { sections := [pulsed, timed, called, vamp, timed], usedLength := 1000 }

def loaded : Part := { on with seq := { Sequencer.reset with state := .loaded, book := some book } }

/-- RUNNING in a section with a held next section. -/
def running (sect : Nat) (next : Successor) : Part :=
  { loaded with seq := { loaded.seq with state := .running, current := some sect, heldNext := some next, entryRun := 1 } }

/-- A clock in a state, its count 0 at show time 1,000,000 and P 500,000 (chapter 2's worked tempo). -/
def clockIn (st : ClockState) (now : Nat) : Clock :=
  { Clock.reset with state := st, t0 := 1000000, lastPulse := some 1000000, showTime := now }

/-- Section 0 RUNNING with such a clock. -/
def inPulsed (st : ClockState) (now : Nat) : Part := { running 0 (.next 0) with clock := clockIn st now }

def aText : TextRef := { lane := 0, lines := 1, len1 := 3, len2 := 0, offset := 0 }
def aCue : Cue :=
  { id := 7, trigger := .atPos, priority := false, keep := false, mask := 1, style := 0, lead := 0, when_ := 64
    minDwell := 1000, maxDwell := 0, refs := [aText] }
def aKey : EntryKey := { sect := 0, pass := 0, offset := 0, index := 0 }
def anEntry : Entry := { cue := aCue, key := aKey, state := .waiting, due := some 1500000, reached := false, qe := some 64 }

/-- A part with these entries in the window. -/
def holding (p : Part) (window : List Entry) : Part := { p with seq := { p.seq with window := window } }

/-- Section 0 RUNNING with one entry in the window. -/
def withEntry (st : ClockState) (now : Nat) : Part := holding (inPulsed st now) [anEntry]

/-- A GO cue of the pass after, for section 2. -/
def goEntry : Entry :=
  { anEntry with cue := { aCue with trigger := .go }, key := { sect := 2, pass := 1, offset := 0, index := 0 }, due := none }

/-- A lane up with its configuration enabled. -/
def live : Lane :=
  { Lane.reset with
    cfg := { LaneConfig.default with enable := true }, link := .live, screen := some { buffers := 2, maxLine := 120 } }

/-- The running part with lane 0 so. -/
def withLane (l : Lane) : Part := on.setLane 0 l

/-- A title's record in buffer 0. -/
def aRec (st : RecState) (o : Owner) : StagingRec :=
  { state := st, owner := o, token := 5, cue := 7, text := { style := 0, ref := aText }, showSent := false
    showOpened := false, attempted := false }

/-- A live lane showing a title, with its record. -/
def titled (st : RecState) (o : Owner) : Lane :=
  { live with
    shadow := { text := some { style := 0, ref := aText }, cue := some 7, shown := 1000000, minDwell := 1000, maxDwell := 0 }
    recs := live.recs.set 0 (aRec st o) }

/-- A key pressed 10 ms ago. -/
def pressing (k : Key) (p : Part) : State := at_ (p.setKeyFilter k (.confirmingPress (p.now - 10000)))

/-- The last show time. -/
def lateOn : Part := { on with clock := { Clock.reset with showTime := 281474976710655 } }

/-- A slot being executed by a long request. -/
def executing (job : LongJob) (p : Part) : State := at_ { p with requests := { p.requests with scan := .executing 31 9 job } }

/-! ### The manual's worked numbers -/

/-- 6.3's table: the body 22 05 leaves the register at 0xE5D0, then 0x2D2E; the check bytes are D2 D1 and the receiver accepts. -/
theorem test_check :
    checkRegister [0x22] = 0xE5D0 ∧ checkRegister [0x22, 0x05] = 0x2D2E ∧ checkBytes [0x22, 0x05] = [0xD2, 0xD1] ∧
      checkAccepted [0x22, 0x05, 0xD2, 0xD1] = true := by decide +kernel

/-- 6.3: the CLEAR's frame on the line, and the escaped sequence number 0xF5 (R116). -/
theorem test_frame :
    frameChars [0x22, 0x05] = [0xF5, 0x22, 0x05, 0xD2, 0xD1, 0xFA] ∧
      (frameChars [0x22, 0xF5]).take 4 = [0xF5, 0x22, 0xF7, 0x05] := by decide +kernel

/-- IDENT and FEATURES (11.7). -/
theorem test_constants : State.reset.part.readRegister 0 = 0x56420612 ∧ State.reset.part.readRegister 4 = 0x19220206 := by
  decide +kernel

/-- 2.13's tempo filter: 632,500 and 634,375, and 3.9's 602,500 (R36). -/
theorem test_smooth :
    smooth 16384 640000 630000 = 632500 ∧ smooth 16384 640000 632500 = 634375 ∧ smooth 16384 610000 600000 = 602500 := by
  decide

/-- 2.13's deviations 33, 16, 15 and 298 (2.7). -/
theorem test_deviation :
    deviation 620000 600000 = 33 ∧ deviation 630000 620000 = 16 ∧ deviation 640000 630000 = 15 ∧
      deviation 821000 632500 = 298 := by decide

/-- 2.13's late expiry at 13,342,251 (R35), and the fraction 25 of its hold (R41). -/
theorem test_late :
    ({ Clock.reset with state := .following, t0 := 12520000, period := 632500 } : Clock).lateAt = some 13342251 ∧
      ({ Clock.reset with state := .following, t0 := 20000000, period := 640000, showTime := 20250000 } : Clock).fraction
        = 25 := by decide

/-- A cue at a position with a lead, as 3.9 sets them up. -/
def leadCue (pos lead : Nat) : Entry := { anEntry with cue := { aCue with when_ := pos, lead := lead }, due := none }

/-- 3.9: the lead cue due at 13,150,000, then 13,163,750; the cue at 2752 absent at the first count and due at 13,465,000 at the
second (R50). -/
theorem test_due :
    let first : Clock :=
      { Clock.reset with state := .following, c0 := 40, t0 := 12000000, period := 600000, showTime := 12002000 }
    let second := { first with c0 := 41, t0 := 12610000, period := 602500, showTime := 12612000 }
    first.dueAt (leadCue 2720 350) 2720 = some 13150000 ∧ second.dueAt (leadCue 2720 350) 2720 = some 13163750 ∧
      first.dueAt (leadCue 2752 350) 2752 = none ∧ second.dueAt (leadCue 2752 350) 2752 = some 13465000 := by
  decide

/-- 3.9: a TIMED section entered in the middle, S' −60,000,000 (R52). -/
theorem test_dueTimed :
    dueTimed (leadCue 90400 500) (-60000000) = 29900000 ∧ dueTimed (leadCue 95000 300) (-60000000) = 34700000 := by decide

/-- With one buffer, a SHOW that BLANK removes unsent is queued again at UNBLANK (R95, R110, R125). -/
theorem test_unblank :
    let l := { titled .staged .shadow with cfg := { live.cfg with depth := 1 } }.queueShow 0
    l.blank.express = [{ what := .clear, attempt := 1 }] ∧
      (l.blank.unblank []).express = [{ what := .show_ 0 5 7, attempt := 1 }] := by decide +kernel

/-- With the window full, a cursor at its list's end goes on to the held next section's first cue, and no cue is read (R64). -/
theorem test_cursor_moves :
    let p := holding (running 0 (.next 1)) (List.replicate 8 anEntry)
    let q := (p.setCursor (.reading 0 0 24 1 0 false)).refill
    q.seq.cursor = .reading 1 1 0 0 1 false ∧ q.seq.window = p.seq.window := by decide +kernel

/-! ### Witnesses: the step and the invariants -/

theorem witness_StepTakesFront : ({ State.reset with pending := [.startUp, .halt] } : State).pending = [.startUp, .halt] := rfl

/-- Each clause, the tick also at the last show time, an update at the block's last word. -/
theorem witness_EmptyQueueHoldsOrTicks :
    (State.reset.pending = [] ∧ State.reset.part.enabled = false) ∧
      ((at_ on).pending = [] ∧ (at_ on).part.enabled = true ∧ (at_ on).part.own = .tick) ∧
      ((at_ lateOn).part.enabled = true ∧ (at_ lateOn).part.own = .tick) ∧
      ({ on with regs := { on.regs with update := [(111, 0), (0, 2)] } }.enabled = true) := by decide +kernel

/-- The outputs, memory and list invariants at a running part with a fire behind it, which answers a next state. -/
def invWitness : State := { part := loaded.outputs, pending := [.scan 0] }

theorem witness_StepKeepsOutputs : invWitness.outputsRight ∧ ∃ t, step invWitness = .next t :=
  ⟨by unfold State.outputsRight; decide +kernel, _, rfl⟩

theorem witness_StepKeepsMemoryForm : invWitness.memoryRight ∧ ∃ t, step invWitness = .next t :=
  ⟨by unfold State.memoryRight; decide +kernel, _, rfl⟩

theorem witness_StepKeepsSettings : invWitness.settingsRight ∧ ∃ t, step invWitness = .next t := by
  refine ⟨?_, _, rfl⟩
  unfold State.settingsRight Profile.inRange LaneConfig.inRange
  decide +kernel

theorem witness_StepKeepsLists : invWitness.listsRight ∧ ∃ t, step invWitness = .next t := by
  refine ⟨?_, _, rfl⟩
  unfold State.listsRight
  decide +kernel

theorem witness_BookIsNeverWritten :
    (∃ t, exec .startUp State.reset = .next t) ∧ (Instr.startUp ≠ .powerUpReset) ∧ ¬ ownByte 0x3F ∧ ¬ slotByte 0x1FF ∧
      ¬ ownByte 0xA00 ∧ ¬ slotByte 0xA00 := by
  refine ⟨⟨_, rfl⟩, by decide, ?_⟩
  unfold ownByte slotByte
  decide

/-! ### Witnesses: the register window -/

/-- Slot 5 TAKEN beside slot 31, which a load is executing. -/
def takenSlot : State := executing .load { on with mem := on.mem.setWord (slotAt 5) ownerTaken }

theorem witness_ResetsRestore :
    takenSlot.part.requests.scan = .executing 31 9 .load ∧
      ({ takenSlot with part := { takenSlot.part with requests := RequestUnit.reset } } : State).part.mem.owner 5
        = ownerTaken ∧
      takenSlot.part.mem.owner 6 ≠ ownerTaken := by decide +kernel

theorem witness_StartUpBegins :
    State.reset.part.enabled = false ∧ (State.reset.part.lane 0).cfg.enable = false ∧
      ({ State.reset with part := State.reset.part.setLane 5 live } : State).part.enabled = false ∧
      ((State.reset.part.setLane 5 live).lane 5).cfg.enable = true := by decide +kernel

/-- Each sequencer state, a clock not stopped, and a long request under way. -/
theorem witness_HaltEnds :
    ((at_ (inPulsed .following 0)).part.enabled = true ∧ (inPulsed .following 0).seq.state = .running ∧
      (inPulsed .following 0).clock.state ≠ .stopped) ∧
      ((at_ loaded).part.enabled = true ∧ loaded.seq.state = .loaded ∧ ∀ n tag job, loaded.requests.scan ≠ .executing n tag job) ∧
      (takenSlot.part.enabled = true ∧ takenSlot.part.requests.scan = .executing 31 9 .load) ∧
      (executing .load { on with seq := { Sequencer.reset with state := .loading } }).part.seq.state = .loading := by
  refine ⟨by decide +kernel, ⟨rfl, rfl, fun _ _ _ h => nomatch h⟩, by decide +kernel, rfl⟩

/-- The period falls due at this very show time; a scan at slot 30, which is FREE, at slot 31, which is SUBMITTED, and behind it. -/
theorem witness_ScansAreAskedFor :
    let p := fun k rescan => { on with requests := { RequestUnit.reset with scan := .scanning k, rescan := rescan } }
    (at_ on).part.enabled = true ∧ State.reset.part.enabled = false ∧
      (at_ { on with requests := { RequestUnit.reset with periodAt := some 0 } }).part.requests.periodAt = some 0 ∧
      0 ≤ (at_ on).part.now ∧
      (∀ k ∈ [30, 31, 32], ∀ rescan, (at_ (p k rescan)).pending = [] ∧ (p k rescan).enabled = true ∧
        (p k rescan).regs.update = [] ∧ (p k rescan).expiries = [] ∧ (p k rescan).requests.scan = .scanning k) ∧
      on.mem.owner 31 = ownerSubmitted ∧ on.mem.owner 30 ≠ ownerSubmitted := by decide +kernel

theorem witness_RegisterWritesAct :
    (at_ on.outputs).outputsRight ∧ (at_ on).part.enabled = true ∧ State.reset.outputsRight ∧
      State.reset.part.enabled = false ∧ (0x1F : Fin 32).val % 4 ≠ 0 ∧ (0x09 : Fin 32).val % 4 ≠ 0 := by
  unfold State.outputsRight
  decide +kernel

theorem witness_RegistersRead :
    (at_ lateOn).part.clock.showTime ≤ 281474976710655 ∧ (3 : Fin 4).val + AccessSize.byte.bytes ≤ 4 ∧
      (0 : Fin 4).val + AccessSize.word.bytes ≤ 4 ∧ (0x1C : Fin 32).val % 4 = 0 := by decide +kernel

/-- Show time 0x123456789ABC: bytes 1 and 2 of TIME_LO are 9A 78, and TIME_HI takes 0x1234 (R178, R181). -/
theorem test_time_read :
    let p := Part.readTimeLo { on with clock := { Clock.reset with showTime := 0x123456789ABC } } 1 .half
    p.regs.readData = 0x789A ∧ p.regs.timeHi = 0x1234 := by decide +kernel

/-! ### Witnesses: the clock unit -/

/-- A beat edge of PULSE_A at a show time, confirmed now. -/
def edgeAt (t : Nat) (p : Part) : State :=
  at_ { p with clock := { p.clock with filterA := .confirming t, showTime := t + 2000 } }

theorem edge_ready (t : Nat) (p : Part) (h : p.enabled = true) : (edgeAt t p).pulseReady .a t :=
  ⟨h, rfl, Nat.le_refl _⟩

/-- An input the mode leaves out, a pulse one microsecond inside pulse_min, and a stopped and an untracked clock. -/
theorem witness_PulseDiscarded :
    ((edgeAt 9 { on with clock := { Clock.reset with profile := { Profile.default with inputMode := .b } } }).pulseReady .a 9 ∧
      ¬ goesOn .b .a) ∧
      ((edgeAt 1149999 (inPulsed .locking 0)).pulseReady .a 1149999 ∧
        (edgeAt 1149999 (inPulsed .locking 0)).part.clock.isBounce 1149999) ∧
      ((edgeAt 9 on).pulseReady .a 9 ∧ (edgeAt 9 on).part.seq.idleHead ∧ (edgeAt 9 on).part.clock.state = .stopped) ∧
      ((edgeAt 9 (inPulsed .untracked 0)).pulseReady .a 9 ∧
        (edgeAt 9 (inPulsed .untracked 0)).part.seq.idleHead ∧
        (edgeAt 9 (inPulsed .untracked 0)).part.clock.state = .untracked) := by
  refine ⟨⟨edge_ready _ _ rfl, by unfold goesOn; decide⟩, ⟨edge_ready _ _ rfl, 1000000, rfl, by decide⟩,
    ⟨edge_ready _ _ rfl, .inl (by decide), rfl⟩, ⟨edge_ready _ _ rfl, .inr ⟨by decide +kernel, ?_⟩, rfl⟩⟩
  intro e h
  have none_ : (none : Option Entry) = some e := h
  exact nomatch none_

/-- An accepted pulse at a show time beyond the bounce. -/
theorem accepted (p : Part) (t : Nat) (he : p.enabled = true) (hp : p.clock.profile = Profile.default)
    (hl : p.clock.lastPulse = some 1000000) (hk : p.seq.currentRec.kind = .pulsed) (h : 1150000 ≤ t) :
    (edgeAt t p).pulseAccepted .a t := by
  have profile : (edgeAt t p).part.clock.profile = Profile.default := hp
  have pulse : (edgeAt t p).part.clock.lastPulse = some 1000000 := hl
  refine ⟨edge_ready _ _ he, .inr (.inl ⟨by rw [profile]; rfl, rfl⟩), ?_, hk⟩
  rintro ⟨last, hlast, ht⟩
  rw [pulse] at hlast
  rw [profile] at ht
  cases hlast
  have min_ : Profile.default.pulseMin = 150 := rfl
  omega

/-- ARMED, HELD, and COASTING on both sides of half a period, at its boundary. -/
theorem witness_PulseWithoutInterval :
    ((edgeAt 1150000 (inPulsed .armed 0)).pulseAccepted .a 1150000 ∧ (inPulsed .armed 0).clock.state = .armed) ∧
      ((edgeAt 1150000 (inPulsed .held 0)).pulseAccepted .a 1150000 ∧
        (inPulsed .held 0).clock.c0 + 1 < (inPulsed .held 0).seq.currentRec.length) ∧
      ((edgeAt 1249999 (inPulsed .coasting 0)).pulseAccepted .a 1249999 ∧ ((1249999 : Int) - 1000000) < (500000 / 2 : Nat)) ∧
      ((edgeAt 1250000 (inPulsed .coasting 0)).pulseAccepted .a 1250000 ∧
        (inPulsed .coasting 0).clock.c0 + 1 < (inPulsed .coasting 0).seq.currentRec.length) := by
  refine ⟨⟨accepted _ _ rfl rfl rfl rfl (by decide), rfl⟩, ⟨accepted _ _ rfl rfl rfl rfl (by decide), by decide +kernel⟩,
    ⟨accepted _ _ rfl rfl rfl rfl (by decide), by decide⟩, ⟨accepted _ _ rfl rfl rfl rfl (by decide), by decide +kernel⟩⟩

/-- An interval at pulse_max's boundary and one beyond it, in LOCKING and FOLLOWING. -/
theorem witness_PulseMeasuresInterval :
    ((edgeAt 4000000 (inPulsed .locking 0)).pulseAccepted .a 4000000 ∧
      (edgeAt 4000000 (inPulsed .locking 0)).part.clock.lastPulse = some 1000000) ∧
      ((edgeAt 4000001 (inPulsed .following 0)).pulseAccepted .a 4000001 ∧
        (edgeAt 4000001 (inPulsed .following 0)).part.clock.lastPulse = some 1000000 ∧
        (inPulsed .following 0).clock.c0 + 1 < (inPulsed .following 0).seq.currentRec.length) := by
  exact ⟨⟨accepted _ _ rfl rfl rfl rfl (by decide), rfl⟩, ⟨accepted _ _ rfl rfl rfl rfl (by decide), rfl, by decide +kernel⟩⟩

/-- Section 0 at its last count, with a held next section and a window. -/
def lastCount (st : ClockState) (now : Nat) (next : Successor) (window : List Entry) : Part :=
  { running 0 next with
    clock := { clockIn st now with c0 := 3 }
    seq := { (running 0 next).seq with window := window } }

/-- At its last count, at most 127 entries into its run. -/
def atEnd (p : Part) : Prop := p.clock.c0 + 1 = p.seq.currentRec.length ∧ p.seq.entryRun ≠ 128

theorem goNext_goEntry (st : ClockState) (now : Nat) : (lastCount st now (.next 2) [goEntry]).seq.goNext :=
  ⟨goEntry, [], rfl, rfl, rfl⟩

/-- Each kind of section that follows, and STOP; COASTING at half a period to the microsecond. -/
theorem witness_PulseEndsSection :
    (∀ next w, (edgeAt 1500000 (lastCount .following 0 next w)).pulseAccepted .a 1500000 ∧
      atEnd (lastCount .following 0 next w) ∧ (lastCount .following 0 next w).seq.heldNext = some next) ∧
      ((edgeAt 1250000 (lastCount .coasting 0 .stop [])).pulseAccepted .a 1250000 ∧
        ((500000 / 2 : Nat) : Int) ≤ (1250000 : Int) - 1000000) ∧
      (loaded.seq.sectionAt 0).kind = .pulsed ∧ (loaded.seq.sectionAt 1).kind = .timed ∧
      (loaded.seq.sectionAt 2).kind = .called ∧ (lastCount .following 0 (.next 2) [goEntry]).seq.goNext :=
  ⟨fun _ _ => ⟨accepted _ _ rfl rfl rfl rfl (by decide), ⟨rfl, by show 1 ≠ 128; decide⟩, rfl⟩,
    ⟨accepted _ _ rfl rfl rfl rfl (by decide), by decide⟩, rfl, rfl, rfl, goNext_goEntry _ _⟩

/-- A DEFERRED head whose due time was 1,500,000. -/
def waits : Entry := { anEntry with state := .deferred, due := some 1500000, reached := true }

/-- Section 0's clock following at 1,250,000, the DEFERRED head at position 64 and a dwell on lane 0 to 2,000,000. -/
def waiting : Part := (holding (inPulsed .following 1250000) [waits]).setLane 0 (titled .free .nobody)

/-- The late margin's boundary: not due at t0 + 650,000, due one microsecond on (R35). -/
theorem witness_LateDetectionActs :
    let due := fun (p : Part) => p.clock.t0 + p.clock.period * (1000 + p.clock.profile.lateMargin) / 1000 < p.clock.showTime
    (due (inPulsed .following 1650001) ∧ (inPulsed .following 0).clock.coast < (inPulsed .following 0).clock.profile.coastLimit ∧
        (inPulsed .following 0).clock.c0 + 1 < (inPulsed .following 0).seq.currentRec.length ∧
        (inPulsed .following 0).seq.currentRec.kind = .pulsed ∧ (inPulsed .following 0).enabled = true) ∧
      due (inPulsed .locking 1650001) ∧
      (due { inPulsed .coasting 0 with clock := { clockIn .coasting 1650001 with coast := 2 } } ∧
        (inPulsed .coasting 0).clock.profile.coastLimit ≤ 2) ∧
      (due (lastCount .following 1650001 (.next 2) [goEntry]) ∧
        (lastCount .following 1650001 (.next 2) [goEntry]).clock.c0 + 1 =
          (lastCount .following 1650001 (.next 2) [goEntry]).seq.currentRec.length ∧
        (lastCount .following 1650001 .stop []).seq.heldNext = some .stop ∧
        (lastCount .following 1650001 .stop []).seq.entryRun ≠ 128) ∧
      (due (holding (inPulsed .locking 1650001) [waits]) ∧ waits.state = .deferred ∧ waits.cue.trigger = .atPos ∧
        waits.key.pass = (inPulsed .locking 1650001).seq.pass ∧
        ((inPulsed .locking 0).seq.sectionAt waits.key.sect).kind = .pulsed ∧
        (inPulsed .locking 0).clock.c0 * 64 + 63 < waits.cue.when_) ∧
      ¬ due (inPulsed .following 1650000) := by decide +kernel

/-- Section 1 RUNNING from S = 0, its timer at 30,000 come. -/
def inTimed (next : Successor) : Part :=
  { running 1 next with clock := { Clock.reset with state := .untracked, showTime := 30000 } }

theorem witness_SectionTimerEnds :
    let holds := fun (p : Part) =>
      p.enabled = true ∧ p.clock.state = .untracked ∧ p.seq.current = some 1 ∧ p.seq.currentRec.kind = .timed ∧
        p.clock.start + (p.seq.currentRec.length * 10000 : Nat) ≤ (p.now : Int) ∧ p.seq.entryRun ≠ 128
    (holds (inTimed (.next 4)) ∧ (inTimed (.next 4)).seq.heldNext = some (.next 4) ∧
      ((inTimed (.next 4)).seq.sectionAt 4).kind = .timed ∧ ((inTimed (.next 0)).seq.sectionAt 0).kind = .pulsed) ∧
      (holds (holding (inTimed (.next 2)) [goEntry]) ∧ ((inTimed (.next 2)).seq.sectionAt 2).kind = .called ∧
        (holding (inTimed (.next 2)) [goEntry]).seq.window = [goEntry] ∧ goEntry.key.pass = (inTimed .stop).seq.pass + 1) ∧
      holds (inTimed .stop) ∧ (inTimed .stop).seq.heldNext = some .stop := by decide +kernel

theorem pressing_pressed (k : Key) (p : Part) (he : p.enabled = true) (hn : 10000 ≤ p.now) : (pressing k p).pressed k := by
  refine ⟨he, p.now - 10000, by cases k <;> rfl, ?_⟩
  show p.now - 10000 + 10000 ≤ p.now
  omega

theorem witness_HoldKeyHolds :
    ((pressing .hold (inPulsed .following 1250000)).pressed .hold ∧
      (pressing .hold (inPulsed .following 1250000)).part.clock.state = .following ∧
      (pressing .hold (inPulsed .following 1250000)).part.seq.currentRec.kind = .pulsed) ∧
      ((pressing .hold (inPulsed .held 1250000)).pressed .hold ∧
        (pressing .hold (inPulsed .held 1250000)).part.clock.state = .held) ∧
      ((pressing .hold waiting).pressed .hold ∧ waiting.seq.state = .running ∧ waiting.seq.window = [waits] ∧
        afterHead waiting.seq.window = [] ∧ (waiting.seq.sectionAt waits.key.sect).kind = .pulsed ∧
        waiting.clock.c0 * 64 + min 63 ((waiting.clock.showTime - waiting.clock.t0) * 64 / waiting.clock.period) <
          waits.cue.when_ ∧
        waiting.now < waiting.earliestOf (headGroup waiting.seq.window)) :=
  ⟨⟨pressing_pressed _ _ rfl (by decide), by decide +kernel⟩, ⟨pressing_pressed _ _ rfl (by decide), by decide +kernel⟩,
    ⟨pressing_pressed _ _ rfl (by decide), by decide +kernel⟩⟩

/-- The same DEFERRED head under a late expiry waits for GO (R55), and under the HOLD key keeps its deferral (R146). -/
theorem test_deferral_at_a_hold :
    let held := fun (fh : Nat) => (waiting.setClock (waiting.clock.hold fh)).recompute
    ((held 63).dropAbsent.evaluate.part.seq.deferAt = none ∧
        (held 63).dropAbsent.evaluate.part.seq.window.map Entry.state = [.waiting]) ∧
      (held 32).evaluate.part.seq.deferAt = some 2000000 ∧
        (held 32).evaluate.part.seq.window.map Entry.state = [.deferred] := by decide +kernel

/-! ### Witnesses: the sequencer -/

/-- The entry's due time is now, with no dwell on lane 0, and with one that ends a second later. -/
def dwelling : Part := (withEntry .following 1500000).setLane 0 (titled .free .nobody)

theorem witness_ExpiriesFireOrDefer :
    ((at_ (withEntry .following 1500000)).part.seq.headDue anEntry [] 1500000 ∧
      (withEntry .following 1500000).earliestOf (headGroup (withEntry .following 1500000).seq.window) ≤ 1500000) ∧
      ((at_ dwelling).part.seq.headDue anEntry [] 1500000 ∧ 1500000 < dwelling.earliestOf (headGroup dwelling.seq.window) ∧
        overtaken dwelling.seq.window = false) ∧
      (let p := { dwelling with seq := { dwelling.seq with deferAt := some 1500000 } };
        p.enabled = true ∧ p.seq.deferAt = some 1500000 ∧ 1500000 ≤ p.now ∧ p.seq.window ≠ []) := by
  refine ⟨⟨⟨rfl, rfl, rfl, rfl, by decide +kernel, 1500000, rfl, by decide, by decide⟩, by decide +kernel⟩,
    ⟨⟨rfl, rfl, rfl, rfl, by decide +kernel, 1500000, rfl, by decide, by decide⟩, by decide +kernel⟩, by decide +kernel⟩

/-- Behind that DEFERRED head a group for lane 1 at position 96, whose due time of 1,750,000 has come, and one more. -/
def overtaker : Entry :=
  { anEntry with cue := { aCue with id := 8, mask := 2, when_ := 96 }, due := some 1750000, qe := some 96 }
def overtaking : Part := holding (dwelling.setClock (clockIn .following 1750000)) [waits, overtaker, anEntry]

/-- The overtaker reached, before its expiry and by it. -/
theorem witness_ExpiriesFireOrDefer_overtaken :
    let n := { overtaker with reached := true }
    let p := holding overtaking [waits, n, anEntry]
    (afterHead p.seq.window = [n, anEntry] ∧ p.seq.cursor = .finished ∧ waits.due ≠ none ∧
      (∀ x ∈ headGroup p.seq.window, x.cue.keep = false) ∧ p.roomFor 1) ∧
      (overtaking.enabled = true ∧ overtaking.seq.state = .running ∧ overtaking.seq.currentRec.kind = .pulsed ∧
        afterHead overtaking.seq.window = [overtaker, anEntry] ∧ overtaker.state = .waiting ∧ 1750000 ≤ overtaking.now ∧
        1750000 < Config.maxTime ∧ overtaking.dueOf true n = some 1750000 ∧ afterHead [overtaker, anEntry] ≠ [] ∧
        overtaking.earliestOf (headGroup [overtaker, anEntry]) ≤ overtaking.now ∧
        overtaking.now < overtaking.earliestOf (headGroup overtaking.seq.window)) := by
  unfold Part.roomFor
  decide +kernel

/-- A cue area that begins with a WITH cue whose mask has bit 6 set (11.2). -/
def withMemory : Memory := submitted.setBytes 0x2000 [24, 0, 8, 0, 4, 0, 0, 0x40]

/-- A WITH cue whose group has left the window, and a window that holds another pass's entry alone (R65). -/
theorem witness_FireWritesShadows_left :
    let p := { withEntry .following 1500000 with mem := withMemory }
    (checkExtent (readCueHead p.mem 0) 0 = none ∧ (readCueHead p.mem 0).trigger = 4 ∧
        (∀ e ∈ p.seq.window, e.key.sect = 0 → e.key.pass ≠ 1) ∧ p.roomFor 1) ∧
      checkCueBody p.mem (readCueHead p.mem 0) 0 pulsed 1000 { group := none, previousAt := none } = .error .badLane := by
  unfold Part.roomFor
  refine ⟨by decide +kernel, rfl⟩

theorem witness_FireWritesShadows :
    (withEntry .following 1500000).seq.window ≠ [] ∧ headGroup (withEntry .following 1500000).seq.window = [anEntry] ∧
      anEntry.cue.mask.getLsbD (0 : LaneIx).val = true ∧ (groupMask [anEntry]).getLsbD (5 : LaneIx).val = false := by
  decide +kernel

/-- An entry's record in each state, on a lane up, blanked and down. -/
theorem witness_TitlesReachLanes :
    (∀ st ∈ [RecState.pending, .sending, .sent, .staged], (titled st (.entry aKey)).bufferOf aKey = some 0) ∧
      ((titled .staged (.entry aKey)).up = true ∧ (titled .staged (.entry aKey)).blanked = false) ∧
      ((titleShadow aCue 0 5).text.isSome = true ∧ (titleShadow { aCue with refs := [] } 0 5).text = none) ∧
      (({ titled .sent (.entry aKey) with blanked := true } : Lane).bufferOf aKey = some 0) ∧
      (({ titled .sent (.entry aKey) with link := .sync } : Lane).up = false) := by decide +kernel

/-- A BLANK title, and a title with no record on a lane up, blanked and down, for a window entry and for a priming. -/
theorem witness_TitlesReachLanes_none :
    (∀ k, some aKey = some k → ∀ c, ¬ live.owns c k) ∧ (∀ k, (none : Option EntryKey) = some k → ∀ c, ¬ live.owns c k) ∧
      live.up = true ∧ live.blanked = false ∧ (titleShadow { aCue with refs := [] } 0 5).text = none ∧
      ({ live with blanked := true } : Lane).up = true ∧ ({ live with link := .sync } : Lane).up = false ∧
      ∀ b, (live.rec_ b).state = .free := by
  refine ⟨fun k _ c h => ?_, fun k h => (nomatch h), rfl, rfl, rfl, rfl, rfl, by decide +kernel⟩
  exact h.1 ((by decide +kernel : ∀ c, (live.rec_ c).state = .free) c)

/-- The late path: a FREE record, and none FREE, so that the window's latest entry gives its own, buffer 1's. -/
theorem witness_TitlesReachLanes_late :
    let full := { titled .sent (.entry aKey) with
      recs := #v[aRec .sent (.entry aKey), aRec .staged (.entry { aKey with index := 1 })] }
    let later := { anEntry with key := { aKey with index := 1 } }
    ((live.writeShadow (titleShadow aCue 0 5)).lateRecord [] 0) ∧
      ((full.writeShadow (titleShadow aCue 0 5)).lateRecord [anEntry, later] 1) ∧
      (∀ c, ¬ full.owns c { aKey with index := 2 }) ∧ full.up = true ∧ full.blanked = false := by
  refine ⟨.inl ⟨by decide +kernel, by decide +kernel, fun c h => absurd h (by omega)⟩,
    .inr ⟨by decide +kernel, [anEntry], { anEntry with key := { aKey with index := 1 } }, [], rfl,
      ⟨by decide +kernel, by decide +kernel⟩, ?_, fun x h => nomatch h⟩, ?_, rfl, rfl⟩ <;> unfold Lane.owns <;> decide +kernel

/-- A max dwell expiry at this very show time, with an idle window. -/
def dwelt : Part :=
  { on.setLane 0 { titled .free .nobody with maxDwellAt := some 1500000 } with clock := clockIn .stopped 1500000 }

theorem witness_MaxDwellClears :
    dwelt.enabled = true ∧ (dwelt.lane 0).maxDwellAt = some 1500000 ∧ 1500000 ≤ dwelt.now ∧ dwelt.seq.idleHead ∧
      (dwelt.lane 0).up = true ∧ (dwelt.lane 0).blanked = false ∧ dwelt.roomFor 1 := by
  refine ⟨by decide +kernel, by decide +kernel, by decide +kernel, .inl (by decide), by decide +kernel, by decide +kernel, ?_⟩
  unfold Part.roomFor
  decide +kernel

/-! ### Witnesses: the console -/

/-- A release's 10 ms at its end and one microsecond short of it. -/
theorem witness_KeyInputsFilter :
    let p := fun t => (on.setKeyFilter .go (.confirmingRelease 0)).setClock { Clock.reset with showTime := t }
    ((p 10000).enabled = true ∧ (p 10000).console.filters.get .go = .confirmingRelease 0 ∧ 0 + 10000 ≤ (p 10000).now) ∧
      (p 9999).now < 0 + 10000 := by decide +kernel

/-- The lockout's last microsecond, its end, a sequencer not RUNNING, an empty window, and a vamp not yet left. -/
theorem witness_GoKeyWithoutFire :
    let go := fun (p : Part) (t : Nat) => { p with console := { p.console with lastGo := some t } }
    let inVamp : Part :=
      { running 3 (.next 3) with
        clock := clockIn .following 1250000
        seq := { (running 3 (.next 3)).seq with window := [{ anEntry with key := { aKey with sect := 3 } }] } }
    ((pressing .go (go (inPulsed .following 1250000) 1000001)).pressed .go ∧
      1250000 - 1000001 < (inPulsed .following 1250000).clock.profile.goLockout * 1000) ∧
      ((pressing .go (go (inPulsed .following 1250000) 1000000)).pressed .go ∧
        ¬ 1250000 - 1000000 < (inPulsed .following 1250000).clock.profile.goLockout * 1000 ∧
        (inPulsed .following 1250000).seq.window = []) ∧
      ((pressing .go inVamp).pressed .go ∧ inVamp.console.lastGo = none ∧ inVamp.seq.state = .running ∧ inVamp.seq.window ≠ [] ∧
        inVamp.seq.current = some 3 ∧ inVamp.seq.currentRec.kind = .pulsed ∧ inVamp.seq.currentRec.vamp = true ∧
        inVamp.seq.vampExit = false) ∧
      ((pressing .go (holding (inPulsed .following 1250000) [goEntry])).pressed .go ∧
        goEntry.key.pass ≠ (inPulsed .following 1250000).seq.pass ∧ (inPulsed .following 1250000).clock.state ≠ .held ∧
        (inPulsed .following 1250000).seq.currentRec.vamp = false) := by
  refine ⟨⟨pressing_pressed _ _ rfl (by decide), by decide +kernel⟩, ⟨pressing_pressed _ _ rfl (by decide), by decide +kernel⟩,
    ⟨pressing_pressed _ _ rfl (by decide), by decide +kernel⟩, ⟨pressing_pressed _ _ rfl (by decide), by decide +kernel⟩⟩

/-- The current pass's head group, the next pass's while HELD, and one before a STOP. -/
theorem witness_GoKeyFires :
    let now := withEntry .following 1250000
    let next : Part :=
      { inPulsed .held 1250000 with
        seq := { (inPulsed .held 0).seq with window := [{ anEntry with key := { aKey with pass := 1 } }] } }
    ((pressing .go now).pressed .go ∧ now.console.lastGo = none ∧ now.seq.state = .running ∧ now.seq.window = [anEntry] ∧
      now.seq.currentRec.vamp = false ∧ anEntry.key.pass = now.seq.pass) ∧
      ((pressing .go next).pressed .go ∧ next.console.lastGo = none ∧ next.seq.state = .running ∧
        next.seq.currentRec.vamp = false ∧ ({ aKey with pass := 1 } : EntryKey).pass ≠ next.seq.pass ∧
        next.clock.state = .held ∧ next.seq.heldNext = some (.next 0)) ∧
      (let stop : Part := { next with seq := { next.seq with heldNext := some .stop } };
        (pressing .go stop).pressed .go ∧ stop.clock.state = .held ∧ stop.seq.heldNext = some .stop ∧
          stop.journal.countRecords = false ∧ (∀ x ∈ stop.seq.window, x.key.pass ≠ stop.seq.pass) ∧ stop.seq.currentRec.vamp = false) := by
  refine ⟨⟨pressing_pressed _ _ rfl (by decide), by decide +kernel⟩, ⟨pressing_pressed _ _ rfl (by decide), by decide +kernel⟩,
    ⟨pressing_pressed _ _ rfl (by decide), by decide +kernel⟩⟩

/-- A group behind a fire, with its lane's previous shadow. -/
def aFired : FiredGroup := { entries := [anEntry], previous := [(0, Shadow.reset)] }

theorem witness_BackKeyReturns :
    let p := inPulsed .following 1250000
    let q := { p with seq := { p.seq with history := [aFired] } }
    ((pressing .back p).pressed .back ∧ p.seq.history = []) ∧
      ((pressing .back q).pressed .back ∧ q.seq.state = .running ∧ q.seq.history = [aFired] ∧ aFired.entries ≠ [] ∧
        q.seq.currentRec.kind ≠ .called ∧ (aFired.previous.map Prod.fst).Nodup) := by
  refine ⟨⟨pressing_pressed _ _ rfl (by decide), by decide +kernel⟩, ⟨pressing_pressed _ _ rfl (by decide), by decide +kernel⟩⟩

/-- No enabled lane; one not blanked; all blanked. -/
theorem witness_BlankKeyTurnsLanes :
    let none_ := inPulsed .following 1250000
    let open_ := none_.setLane 0 live
    let shut := none_.setLane 0 { live with blanked := true }
    ((pressing .blank none_).pressed .blank ∧ ∀ i, (none_.lane i).cfg.enable = false) ∧
      ((pressing .blank open_).pressed .blank ∧ (open_.lane 0).cfg.enable = true ∧ (open_.lane 0).blanked = false) ∧
      ((pressing .blank shut).pressed .blank ∧ (shut.lane 0).cfg.enable = true ∧
        ∀ i, ¬ ((shut.lane i).cfg.enable = true ∧ (shut.lane i).blanked = false)) := by
  refine ⟨⟨pressing_pressed _ _ rfl (by decide), by decide +kernel⟩, ⟨pressing_pressed _ _ rfl (by decide), by decide +kernel⟩,
    ⟨pressing_pressed _ _ rfl (by decide), by decide +kernel⟩⟩

/-! ### Witnesses: requests -/

/-- Kinds 0 and 17, and 1 and 16. -/
theorem witness_UnknownIsAnswered :
    (at_ on).part.takes 31 = true ∧ ((0 : Byte).toNat = 0 ∧ 16 < (17 : Byte).toNat) ∧ (1 ≤ (1 : Byte).toNat ∧ (16 : Byte).toNat ≤ 16) := by
  decide +kernel

/-- Every sequencer state. -/
theorem witness_LoadBookIsTaken :
    (on.takes 31 = true ∧ on.seq.state = .empty) ∧ (loaded.takes 31 = true ∧ loaded.seq.state = .loaded) ∧
      ((running 0 .stop).takes 31 = true ∧ (running 0 .stop).seq.state = .running) := by decide +kernel

/-- A header with one TIMED section of length 1, no cues and STOP (11.2). -/
def goodMemory : Memory :=
  (((({ cells := [] } : Memory).setWord 0 0x56424B31).setWord 4 1).setWord 8 1).setBytes 0xA00 [3, 0, 1, 0]

/-- Whether a walk ends well. -/
def walked {α ε : Type} (w : Except ε α) : Bool :=
  match w with
  | .ok _ => true
  | .error _ => false

theorem walked_ok {α ε : Type} (w : Except ε α) (h : walked w = true) : ∃ x, w = .ok x := by
  cases w with
  | ok x => exact ⟨x, rfl⟩
  | error e => simp [walked] at h

theorem walked_error {α ε : Type} (w : Except ε α) (h : walked w = false) : ∃ e, w = .error e := by
  cases w with
  | error e => exact ⟨e, rfl⟩
  | ok x => simp [walked] at h

theorem witness_LoadBookCompletes :
    ((executing .load { on with mem := goodMemory }).part.enabled = true ∧
      ∃ b, walkBook (executing .load { on with mem := goodMemory }).part.mem = .ok b) ∧
      ((executing .load on).part.requests.scan = .executing 31 9 .load ∧
        ∃ e, walkBook (executing .load on).part.mem = .error e) :=
  ⟨⟨rfl, walked_ok _ (by decide +kernel)⟩, rfl, walked_error _ (by decide +kernel)⟩

/-- Arguments that give a PULSED section no cues and STOP. -/
def someArgs (sect length : Word) : ReplaceArgs :=
  { section_ := sect, firstCue := 0, cueCount := 0, length := length, hint := 60, successorCode := 0, successorTarget := 0 }

/-- No book; a section at the count; the current section; one not in use. -/
theorem witness_ReplaceSectionIsTaken :
    (on.takes 31 = true ∧ on.seq.state = .empty) ∧
      (loaded.takes 31 = true ∧ loaded.seq.state = .loaded ∧ loaded.seq.sectionCount ≤ (someArgs 5 4).section_.toNat) ∧
      ((running 0 .stop).takes 31 = true ∧ (running 0 .stop).seq.inUse 0 = true) ∧
      ((running 0 .stop).seq.inUse 4 = false ∧ 4 < (running 0 .stop).seq.sectionCount) := by decide +kernel

theorem witness_ReplaceSectionCompletes :
    ((executing (.replace (someArgs 0 4)) (running 0 .stop)).part.seq.inUse 0 = true ∧
      (executing (.replace (someArgs 0 4)) (running 0 .stop)).part.requests.scan = .executing 31 9 (.replace (someArgs 0 4)) ∧
      (running 0 .stop).seq.state = .running ∧ loaded.seq.state ≠ .running ∧ loaded.requests.replaceUsed = false) ∧
      ((executing (.replace (someArgs 0 0)) loaded).part.seq.inUse 0 = false ∧
        walkReplace loaded.mem (loaded.seq.sectionAt 0) 5 1000 (someArgs 0 0) = .error (.badLength, none)) ∧
      ((executing (.replace (someArgs 0 1)) loaded).part.requests.scan = .executing 31 9 (.replace (someArgs 0 1)) ∧
        ∃ sec, walkReplace loaded.mem (loaded.seq.sectionAt 0) 5 1000 (someArgs 0 1) = .ok sec) :=
  ⟨⟨by decide +kernel, rfl, rfl, by decide, rfl⟩, ⟨by decide +kernel, rfl⟩, rfl, _, rfl⟩

/-- A section that came into use in an act that has ended by the walk's end is replaced all the same (R21; log entry 34). -/
theorem test_replace_after_the_act :
    let used := { loaded with requests := { loaded.requests with replaceUsed := true } }
    (used.endReplace (someArgs 0 1)).2.1 = .ok ∧
      (({ used with seq := { used.seq with state := .running } } : Part).endReplace (someArgs 0 1)).2.1 = .inUse := by
  decide +kernel

/-- A memory whose cue area begins with a GO cue for no lane (11.2). -/
def goMemory : Memory := submitted.setBytes 0x2000 [24, 0, 7, 0, 2]

/-- The three kinds at the last count they take, and the counts beyond. -/
theorem witness_ArmBeginsAct :
    (loaded.takes 31 = true ∧ loaded.seq.state = .loaded ∧ (0 : Nat) < loaded.seq.sectionCount ∧
      goodCount (loaded.seq.sectionAt 0) 3 ∧ ¬ goodCount (loaded.seq.sectionAt 0) 4 ∧ goodCount (loaded.seq.sectionAt 1) 2) ∧
      (({ loaded with mem := goMemory } : Part).takes 31 = true ∧ goodCount (loaded.seq.sectionAt 2) 0 ∧ ¬ goodCount (loaded.seq.sectionAt 2) 1 ∧ loaded.seq.window = [] ∧
        1 ≤ (loaded.seq.sectionAt 2).cueCount ∧
        walkSection ({ loaded with mem := goMemory } : Part).mem (loaded.seq.sectionAt 2) loaded.seq.usedLength = none) ∧
      ((running 0 .stop).takes 31 = true ∧ ¬ ((running 0 .stop).seq.state = .loaded ∨ (running 0 .stop).seq.state = .ended)) := by
  refine ⟨⟨by decide +kernel, rfl, by decide +kernel, ?_, ?_, ?_⟩, ⟨by decide +kernel, rfl, ?_, rfl, by decide +kernel, rfl⟩, by decide +kernel⟩
  · show 3 < 4; decide
  · show ¬ 4 < 4; decide
  · show 2 < 3; decide
  · show ¬ 1 = 0; decide

/-- A list of two AT groups, the first clearing lane 0 and the second at position 64 (11.2): at count 1 the first is the prime group
(R82, R84). -/
def twoMemory : Memory := (submitted.setBytes 0x2000 [24, 0, 7, 0, 1, 0, 0, 1]).setBytes 0x2018 [24, 0, 8, 0, 1, 0, 0, 0, 0, 0, 0, 0, 64]

/-- Section 0 with a list of two cues. -/
def twoBook : Book := { book with sections := { pulsed with cueCount := 2 } :: book.sections.drop 1 }

/-- A PULSED section with a prime group and with none, from an act not begun and from a running one. -/
theorem witness_priming :
    let p := { loaded with mem := twoMemory, seq := { loaded.seq with book := some twoBook } }
    (p.takes 31 = true ∧ (p.seq.sectionAt 0).kind = .pulsed ∧ p.seq.window = [] ∧ goodCount (p.seq.sectionAt 0) 1) ∧
      ((primeCues p.mem p.seq 0 1).map (fun c => (c.id, c.mask)) = [(7, 1)] ∧ primeCues p.mem p.seq 0 0 = []) ∧ p.roomFor 1 ∧
      ({ p with seq := { p.seq with state := .running } } : Part).takes 31 = true := by
  unfold Part.roomFor
  refine ⟨⟨by decide +kernel, rfl, rfl, ?_⟩, by decide +kernel, by decide +kernel, by decide +kernel⟩
  show 1 < 4
  decide

theorem witness_JumpMovesAct :
    ((running 0 .stop).takes 31 = true ∧ (running 0 .stop).seq.state = .running ∧ goodCount ((running 0 .stop).seq.sectionAt 0) 3) ∧
      (({ running 0 .stop with mem := goMemory } : Part).takes 31 = true ∧ goodCount ((running 0 .stop).seq.sectionAt 2) 0 ∧ 1 ≤ ((running 0 .stop).seq.sectionAt 2).cueCount ∧
        walkSection ({ running 0 .stop with mem := goMemory } : Part).mem ((running 0 .stop).seq.sectionAt 2) 1000 = none) ∧
      ¬ (loaded.seq.state = .running ∨ loaded.seq.state = .ended) := by
  refine ⟨⟨by decide +kernel, rfl, ?_⟩, ⟨by decide +kernel, rfl, by decide +kernel, rfl⟩, by decide +kernel⟩
  show 3 < 4
  decide

/-- Keep flags 0, 1 and 2. -/
theorem witness_StopEndsAct :
    ((running 0 .stop).takes 31 = true ∧ (running 0 .stop).seq.state = .running) ∧ (1 : Word).toNat ≤ 1 ∧ 1 < (2 : Word).toNat ∧
      (loaded.takes 31 = true ∧ ¬ (loaded.seq.state = .running ∨ loaded.seq.state = .ended)) := by decide +kernel

/-- The last section, the one past it, a section that is not current, and the current one; the loader in the pass, in the next one, and
finished with a next section held, for a successor that stands and one that differs. -/
theorem witness_CutsAreWritten :
    (on.takes 31 = true ∧ on.seq.state = .empty) ∧
      ((running 0 .stop).takes 31 = true ∧ (4 : Word).toNat < (running 0 .stop).seq.sectionCount ∧
        ¬ (5 : Word).toNat < (running 0 .stop).seq.sectionCount ∧ (running 0 .stop).seq.current ≠ some (4 : Word).toNat ∧
        (running 0 .stop).seq.current = some (0 : Word).toNat ∧ (running 0 .stop).seq.currentRec.kind = .pulsed) ∧
      ((running 0 (.next 1)).seq.heldNext = some ((running 0 (.next 1)).seq.resolvesTo 0)) ∧
      (let q := { (running 0 (.next 2)).seq with cursor := .reading 1 2 0 0 1 false };
        q.current = some 0 ∧ q.heldNext ≠ some (q.resolvesTo 0) ∧ (1 : Half) ≠ q.pass) ∧
      (running 0 (.next 2)).seq.cursor = .finished ∧ (running 0 (.next 2)).seq.heldNext ≠ some .stop := by
  decide +kernel

theorem witness_VampExitArms :
    let v := running 3 (.next 3)
    (v.takes 31 = true ∧ v.seq.state = .running ∧ v.seq.currentRec.vamp = true ∧ v.seq.vampExit = false ∧
      v.seq.currentRec.kind = .pulsed) ∧
      ({ v.seq with vampExit := true } : Sequencer).vampExit = true ∧ (running 0 .stop).seq.currentRec.vamp = false := by
  decide +kernel

theorem witness_ProfileIsReplaced : loaded.takes 31 = true ∧ loaded.seq.currentRec.kind = .called ∧
    (running 0 .stop).takes 31 = true ∧ (running 0 .stop).seq.currentRec.kind ≠ .called := by decide +kernel

/-- Lanes 5 and 6 of a request. -/
theorem witness_LaneIsConfigured : on.takes 31 = true ∧ 6 ≤ (6 : Word).toNat ∧ (5 : LaneIx).val = (5 : Word).toNat := by
  decide +kernel

theorem witness_FaultIsCleared :
    let p := on.setLane 5 { live with link := .fault, screen := none }
    p.takes 31 = true ∧ (p.lane 5).link = .fault ∧ (p.lane 4).link ≠ .fault ∧ p.roomFor 1 := by
  unfold Part.roomFor
  decide +kernel

/-- Masks 63 and 64; a lane up that is not blanked, its window idle. -/
theorem witness_LanesAreBlanked :
    (withLane live).takes 31 = true ∧ (63 : Word).toNat < 64 ∧ 64 ≤ (64 : Word).toNat ∧ ((withLane live).lane 0).up = true ∧
      ((withLane live).lane 0).blanked = false ∧ (withLane live).seq.idleHead :=
  ⟨by decide +kernel, by decide, by decide, by decide +kernel, by decide +kernel, .inl (by decide)⟩

/-- Keys 1 to 3, and 4; for GO a vamp, and the next pass's head in FOLLOWING, and in HELD before a section and before a STOP; for BACK a
group in the history. -/
theorem witness_RemoteKeysAct :
    let w := withEntry .following 1250000
    let p := inPulsed .following 1250000
    (w.takes 31 = true ∧ (1 : Word).toNat = 1 ∧ w.seq.state = .running ∧ w.seq.window = [anEntry] ∧
      anEntry.key.pass = w.seq.pass ∧ w.seq.currentRec.vamp = false) ∧
      (p.takes 31 = true ∧ p.seq.window = [] ∧ p.seq.history = [] ∧ p.clock.state = .following ∧ p.seq.currentRec.kind = .pulsed) ∧
      (loaded.takes 31 = true ∧ loaded.clock.state = .stopped ∧ (4 : Word).toNat ≠ 1 ∧ (4 : Word).toNat ≠ 2 ∧
        (4 : Word).toNat ≠ 3) ∧
      (let v := holding { running 3 (.next 3) with clock := clockIn .following 1250000 } [anEntry];
        v.takes 31 = true ∧ v.seq.state = .running ∧ v.seq.window ≠ [] ∧ v.seq.current = some 3 ∧ v.seq.currentRec.kind = .pulsed ∧
          v.seq.currentRec.vamp = true ∧ v.seq.vampExit = false) ∧
      (∀ next ∈ [.next 2, .stop],
        let h := holding { running 0 next with clock := clockIn .held 1250000 } [goEntry]
        h.takes 31 = true ∧ h.seq.state = .running ∧ h.seq.window = [goEntry] ∧ goEntry.key.pass ≠ h.seq.pass ∧
          h.clock.state = .held ∧ h.seq.currentRec.vamp = false ∧ h.seq.heldNext = some next) ∧
      (let b := { p with seq := { p.seq with history := [aFired] } };
        b.takes 31 = true ∧ b.seq.state = .running ∧ b.seq.history = [aFired] ∧ aFired.entries = [anEntry] ∧
          b.seq.currentRec.kind ≠ .called ∧ (p.clock.state ≠ .held)) := by decide +kernel

/-- A ring with one place left, with nothing and with a record lost, with two places left, and a full one. -/
theorem witness_JournalRequestsAct :
    let p := fun w lost => { on with journal := { on.journal with w := w, lost := lost } }
    let used := fun (q : Part) => q.unread q.markInForce
    ((p 4095 0).takes 31 = true ∧ (p 4095 0).journal.lost = 0 ∧ used (p 4095 0) < 4096) ∧
      ((p 4094 1).takes 31 = true ∧ 0 < (p 4094 1).journal.lost ∧ used (p 4094 1) + 1 < 4096) ∧
      ((p 4095 1).takes 31 = true ∧ used (p 4095 1) + 1 = 4096) ∧ ((p 4096 0).takes 31 = true ∧ used (p 4096 0) = 4096) := by
  decide +kernel

/-! ### Witnesses: the screen link -/

/-- What a lane 0 sends at its boundary in the running part with this window. -/
def chosen (l : Lane) (window : List Entry) : LineChoice := l.atBoundary.choice 0 window

/-- A frame of a kind in flight. -/
def inFlight (k : FrameKind) (seq : Byte) : InFlight := { kind := k, seq := seq, buffer := none, token := 0, left := [0xFA] }

def aResend : Resend := { buffer := 0, token := 5, cue := 7, content := [0, 0, 7, 0, 1, 1, 65] }

/-- Each of R123's and R124's choices comes about, a stale frame at the queue's front too (R125). -/
theorem witness_FrameOpens :
    (on.enabled = true ∧ live.active = true) ∧
      chosen { titled .staged .shadow with express := [{ what := .show_ 0 5 7, attempt := 1 }] } []
        = .openExpress { what := .show_ 0 5 7, attempt := 1 } ∧
      chosen { live with express := [{ what := .clear, attempt := 2 }] } [] = .openExpress { what := .clear, attempt := 2 } ∧
      chosen { live with link := .sync, helloWaiting := true } [] = .openNormal .hello ∧
      chosen { live with drops := live.drops.set 1 true } [] = .openNormal (.drop 1) ∧
      chosen live [anEntry] = .openNormal (.ahead 0 anEntry { style := 0, ref := aText }) ∧
      chosen { titled .pending .shadow with late := [0] } [] = .openNormal (.lateStage 0) ∧
      chosen { titled .pending .shadow with resends := [aResend] } [] = .openNormal (.resend aResend) ∧
      chosen live [] = .fill ∧
      ({ live with express := [{ what := .show_ 0 5 7, attempt := 1 }, { what := .clear, attempt := 1 }] } : Lane).atBoundary.express
        = [{ what := .clear, attempt := 1 }] := by decide +kernel

/-- An outstanding frame, closed or not. -/
def aFrame (k : FrameKind) (seq : Byte) (c : Option Closing) : Outstanding :=
  { kind := k, seq := seq, attempt := 1, buffer := none, token := 0, cue := none, content := [], retry := .resendOnce,
    closing := c }

def aClosing : Closing := { order := 1, time := 0, deadline := 30000 }

/-- A STAGE inside an escape pair with its CANCEL due, and with a CLEAR that can begin: FRAME_CLOSE does nothing, and the CANCEL or the
SUSPEND comes behind the escaped byte (R116, R123). -/
theorem test_close_in_an_escape_pair :
    let f := { inFlight .stage 3 with left := [5, 0xFA] }
    let l := { live with tx := { live.tx with normal := some f, lineOut := some 0xF7 } }
    let due := { l with tx := { l.tx with cancelDue := true } }
    let waits := { l with express := [{ what := .clear, attempt := 1 }] }
    (chosen due [] = .normalChar f ∧ (withLane due).frameClose 0 = withLane due ∧
        chosen ((withLane due).plainChar 0 |>.lane 0) [] = .cancel) ∧
      chosen waits [] = .normalChar f ∧ (withLane waits).frameClose 0 = withLane waits ∧
        chosen ((withLane waits).plainChar 0 |>.lane 0) [] = .suspend := by decide +kernel

/-- The CLOSE of an express frame, of a normal one and of a HELLO. -/
theorem witness_FrameCloses :
    live.active = true ∧
      chosen { live with tx := { live.tx with express := some (inFlight .clear 255) }, outstanding := [aFrame .clear 255 none] } []
        = .expressChar (inFlight .clear 255) ∧
      chosen { live with tx := { live.tx with normal := some (inFlight .drop 0) }, outstanding := [aFrame .drop 0 none] } []
        = .normalChar (inFlight .drop 0) ∧
      chosen { live with link := .sync, tx := { live.tx with normal := some (inFlight .hello 1) } } []
        = .normalChar (inFlight .hello 1) := by decide +kernel

/-- A STAGE in flight with a CLEAR waiting, suspended, and with its CANCEL due. -/
theorem witness_LineIsInterrupted :
    let f := inFlight .stage 3
    let sending := { live with tx := { live.tx with normal := some f }, outstanding := [aFrame .stage 3 none] }
    sending.active = true ∧ chosen { sending with express := [{ what := .clear, attempt := 1 }] } [] = .suspend ∧
      chosen { sending with tx := { sending.tx with suspended := true } } [] = .resume ∧
      chosen { sending with tx := { sending.tx with cancelDue := true } } [] = .cancel ∧ chosen sending [] = .normalChar f := by
  decide +kernel

/-- The HELLO interval and the silence timeout at their very show times. -/
theorem witness_LinkExpiriesAct :
    let p := fun l => { withLane l with clock := clockIn .stopped 1250000 }
    ((p { live with link := .sync, helloAt := some 1250000 }).enabled = true ∧
      ((p { live with link := .sync, helloAt := some 1250000 }).lane 0).helloAt = some 1250000 ∧
      1250000 ≤ (p live).now) ∧
      (let l := { live with lastChar := 1000000 };
        ((p l).lane 0).link = .live ∧ l.lastChar + l.cfg.silenceTimeout * 1000 ≤ (p l).now ∧ (p l).roomFor 1) ∧
      (p live).seq.idleHead := by
  unfold Part.roomFor
  exact ⟨by decide +kernel, by decide +kernel, .inl (by decide)⟩

/-- The fields' boundary values in and out of range, in each link state. -/
theorem witness_ReadyBringsLive :
    (withLane live).enabled = true ∧ (1 ≤ (1 : Byte).toNat ∧ (2 : Byte).toNat ≤ 2 ∧ (120 : Byte).toNat ≤ 120) ∧
      (¬ (3 : Byte).toNat ≤ 2 ∧ ¬ (121 : Byte).toNat ≤ 120) ∧
      (let l := { live with link := .sync, hellos := [4, 3] };
        ((withLane l).lane 0).link = .sync ∧ (3 : Byte) ∈ l.hellos ∧ (5 : Byte) ∉ l.hellos ∧ l.active = true) ∧
      ((withLane live).lane 0).link = .live ∧ ((withLane live).lane 1).link = .off ∧ (withLane live).seq.idleHead :=
  ⟨by decide +kernel, by decide, by decide, by decide +kernel, by decide +kernel, by decide +kernel, .inl (by decide)⟩

theorem witness_AckMatchesFrame :
    let l := { live with outstanding := [aFrame .drop 9 (some aClosing)] }
    (withLane l).enabled = true ∧ ((withLane l).lane 0).link = .live ∧
      aFrame .drop 9 (some aClosing) ∈ l.outstanding ∧ (aFrame .drop 9 (some aClosing)).seq = 9 ∧
      (∀ x ∈ l.outstanding, x.seq = 9 → x.closing ≠ none → x = aFrame .drop 9 (some aClosing)) ∧
      closedBefore l.outstanding aClosing = [] ∧ (∀ x ∈ l.outstanding, x.seq = 10 → x.closing = none) ∧ ((withLane { l with link := .sync }).lane 0).link = .sync := by decide +kernel

theorem witness_BusyFreeAndBad :
    (withLane live).enabled = true ∧ ((withLane live).lane 0).link = .live ∧
      ((withLane { live with link := .paused }).lane 0).link = .paused ∧
      ((withLane { live with link := .sync }).lane 0).link = .sync := by decide +kernel

/-- A first attempt begun under each policy, its deadline now. -/
theorem witness_AckTimesOut :
    let e := aFrame .drop 9 (some aClosing)
    let l := { live with outstanding := [e] }
    let once := { e with retry := .oneTry }
    let p := { withLane l with clock := { Clock.reset with showTime := 30000 } }
    p.enabled = true ∧ (p.lane 0).up = true ∧ e ∈ (p.lane 0).outstanding ∧ e.closing = some aClosing ∧ aClosing.deadline ≤ p.now ∧
      (∀ x ∈ (p.lane 0).outstanding, x.seq = e.seq → x = e) ∧ (e.retry = .resendOnce ∧ e.attempt = 1) ∧
      ¬ (once.retry = .resendOnce ∧ once.attempt = 1) := by decide +kernel

/-- A lane down, a character inside a frame, a bad frame's CLOSE, and each whole reply: their checks are computed. -/
theorem witness_CharactersAreReceived :
    ((withLane live).lane 1).active = false ∧ ((withLane live).lane 0).active = true ∧
      receive live.rx 0xF5 false = (.inFrame [] false, none) ∧
      receive (.inFrame [0x52] false) 0xFA false = (.outside, some .bad) ∧
      receive (.inFrame ([0x52] ++ checkBytes [0x52]) false) 0xFA false = (.outside, some .busy) ∧
      receive (.inFrame ([0x53] ++ checkBytes [0x53]) false) 0xFA false = (.outside, some .free) ∧
      receive (.inFrame ([0x50, 3, 2, 120] ++ checkBytes [0x50, 3, 2, 120]) false) 0xFA false
        = (.outside, some (.ready 3 2 120)) ∧
      receive (.inFrame ([0x51, 3, 2] ++ checkBytes [0x51, 3, 2]) false) 0xFA false = (.outside, some (.ack 3 .refused)) := by
  decide +kernel

/-- FILL after ESC is discarded and the frame is bad (R115, R116). -/
theorem test_fill_after_esc :
    receive (.afterEsc [0x52] false) 0xF4 false = (.inFrame [0x52] true, none) := by decide +kernel

/-- The shortest and the longest body. -/
theorem witness_FramesReadBack :
    (1 ≤ [(0x52 : Byte)].length ∧ (List.replicate 16 (0xF5 : Byte)).length ≤ 16) ∧
      receiveAll .outside (frameChars [0x52]) = (.outside, some .busy) := by decide +kernel

/-! ### The status block's witness, last because its evaluation is the longest -/

/-- A status block as an empty running part's: the absent words and P. -/
def statusCells : List Host.Cell :=
  let absentAt := fun a => [(a, 0xFF), (a + 1, 0xFF), (a + 2, 0xFF), (a + 3, 0xFF)]
  absentAt 0x48 ++ absentAt 0x50 ++ absentAt 0x5C ++ absentAt 0x60 ++ [(0x74, 0x20), (0x75, 0xA1), (0x76, 0x07)] ++
    [0, 1, 2, 3, 4, 5].flatMap fun i => absentAt (0xC8 + 32 * i)

def statusWitness : State := { part := { on with mem := { cells := statusCells } }, pending := [.scan 0] }

theorem witness_StepKeepsStatusBlock :
    statusWitness.part.enabled = true ∧ statusWitness.statusRight ∧ ∃ t, step statusWitness = .next t := by
  refine ⟨rfl, ?_, _, rfl⟩
  unfold State.statusRight Part.statusShown
  decide +kernel

end Sys2Proof.Tests
end

/-! PROOFS. The musical clock (chapter 2): when late detection falls due (R35). -/

section
namespace Sys2Proof.Machine

/-- The three clock states that keep the late detection expiry give it one microsecond past the late threshold (R35). -/
theorem Clock.lateAt_of_follows_beat {c : Clock}
    (follows : c.state = .locking ∨ c.state = .following ∨ c.state = .coasting) :
    c.lateAt = some (c.t0 + c.lateAfter + 1) := by
  obtain h | h | h := follows <;> simp [Clock.lateAt, h]

/-- Entering any other clock state cancels late detection (R35). -/
theorem Clock.lateAt_eq_none {c : Clock}
    (rests : ¬ (c.state = .locking ∨ c.state = .following ∨ c.state = .coasting)) : c.lateAt = none := by
  cases h : c.state with
  | stopped | armed | held | untracked => simp [Clock.lateAt, h]
  | locking | following | coasting => simp [h] at rests

/-- The expiry's time, one microsecond past the threshold, has come just when show time − t0 is greater than the threshold (R35). -/
theorem Clock.lateAt_come_iff {c : Clock}
    (follows : c.state = .locking ∨ c.state = .following ∨ c.state = .coasting) :
    (c.lateAt.any fun t => decide (t ≤ c.showTime)) = true ↔ c.t0 + c.lateAfter < c.showTime := by
  rw [Clock.lateAt_of_follows_beat follows, Option.any_some, decide_eq_true_iff]
  exact Nat.succ_le_iff

/-- Settles O22, by whether the clock's state keeps the expiry. -/
theorem lateDetectionFallsDue : Obligations.LateDetectionFallsDue := by
  intro c
  by_cases follows : c.state = .locking ∨ c.state = .following ∨ c.state = .coasting
  · exact (Clock.lateAt_come_iff follows).trans (and_iff_right follows).symm
  · simp [Clock.lateAt_eq_none follows, follows]

end Sys2Proof.Machine
end

/-! PROOFS. The take and the completion of a request (R152, R154): what they leave of the part, the journal and the ring. -/

section
namespace Sys2Proof.Machine

open Sys2Proof (LaneIx SlotIx Instr)

/-- A record stands where the bytes of its place do. -/
theorem Memory.holds_congr {m k : Memory} {w : Word} {r : Record} {time : Nat}
    (same : ∀ a, recordAt w ≤ a → a < recordAt w + 32 → k.byte a = m.byte a) (held : m.holds w r time) : k.holds w r time := by
  obtain ⟨number, body⟩ := held
  exact ⟨(Memory.number_congr 4 _ fun a h1 h2 => same a h1 (by omega)).trans number,
    (Memory.bytes_congr 28 _ fun a h1 h2 => same a (by omega) (by omega)).trans body⟩

/-! ### The take (R152) -/

theorem Part.takeSlot_byte_other (p : Part) {n : SlotIx} {a : Nat} (outside : ¬ inSlot n a) :
    (p.takeSlot n).mem.byte a = p.mem.byte a :=
  (p.takeSlot_reach n).byte outside

@[simp] theorem Part.takeSlot_readMark (p : Part) (n : SlotIx) : (p.takeSlot n).readMark = p.readMark :=
  Memory.readMark_congr fun a _ below => p.takeSlot_byte_other fun inside => by
    have := slotAt_bounds n
    obtain ⟨above, _⟩ := inside
    omega

@[simp] theorem Part.takeSlot_unread (p : Part) (n : SlotIx) (mark : Word) : (p.takeSlot n).unread mark = p.unread mark := rfl

@[simp] theorem Part.takeSlot_markInForce (p : Part) (n : SlotIx) : (p.takeSlot n).markInForce = p.markInForce := by
  simp [Part.markInForce]

/-- What is appended to a part whose slot has been taken is appended to the part before the take. -/
theorem Part.appended_of_takeSlot {p q : Part} {n : SlotIx} {rs : List Record} (h : (p.takeSlot n).appended q rs) :
    p.appended q rs := fun room =>
  h (by simpa [Part.roomFor] using room)

/-! ### The completion (R154) -/

section
variable {before q : Part} {n : SlotIx} {tag : Half} {r : Result} {d : List Nat}

/-- A completion appends nothing. -/
@[simp] theorem Part.complete_journal : (Part.complete before q n tag r d).journal = q.journal :=
  (Part.effects_quiet before q).journal

/-- A completion writes nothing beyond the slots. -/
theorem Part.complete_byte_beyond {a : Nat} (beyond : 0xA00 ≤ a) :
    (Part.complete before q n tag r d).mem.byte a = q.mem.byte a := by
  have outside : ¬ inSlot n a := fun ⟨_, below⟩ => by
    have := slotAt_bounds n
    omega
  have quiet := (Part.effects_quiet before q).trans (Part.finishUpdate_quiet _)
  exact (Memory.answer_other _ n tag r d outside).trans (quiet.beyond a (by omega))

theorem Part.complete_holds {w : Word} {x : Record} {time : Nat} (held : q.mem.holds w x time) :
    (Part.complete before q n tag r d).mem.holds w x time :=
  Memory.holds_congr (fun _ above _ => Part.complete_byte_beyond (by have := recordAt_bounds w; omega)) held

/-- The records appended by a request's act stand at its completion. -/
theorem Part.complete_appended {p : Part} {rs : List Record} (h : p.appended q rs) :
    p.appended (Part.complete before q n tag r d) rs := fun room => by
  obtain ⟨hw, hlost, held⟩ := h room
  exact ⟨by simpa using hw, by simpa using hlost, fun k hk => Part.complete_holds (held k hk)⟩

end

/-- A completion writes nothing that `kept` shows. -/
theorem Part.complete_kept (before q : Part) (n : SlotIx) (tag : Half) (r : Result) (d : List Nat) :
    (Part.complete before q n tag r d).kept = q.kept := by
  have handed := (Part.effects_keeps before q).trans (Part.finishUpdate_keeps _)
  unfold Part.complete
  generalize (Part.effects before q).finishUpdate = h at handed ⊢
  exact handed.kept

/-- A request whose act, from its take on, writes only the part's own areas and clears no notice is answered as R154 says. -/
theorem Part.complete_answersAs {p q view : Part} (n : SlotIx) (tag : Half) (r : Result) (d : List Nat)
    (mem : Memory.Reach ownByte (p.takeSlot n).mem q.mem) (notices : p.noticesStay q) (hview : q.kept = view.kept) :
    AnswersAs Part.kept n tag r d p view (Part.complete p q n tag r d) := by
  have handed := (Part.effects_keeps p q).trans (Part.finishUpdate_keeps _)
  have own := mem.trans handed.mem
  have argsNotOwn : ∀ a, (a = slotAt n + 4 ∨ (slotAt n + 8 ≤ a ∧ a < slotAt n + 0x30)) → ¬ ownByte a := fun a inArgs => by
    have := slotAt_bounds n
    unfold ownByte
    omega
  exact {
    ends := {
      memory := fun a notOwn outside =>
        ((Memory.answer_other _ n tag r d outside).trans (own.byte notOwn)).trans (p.takeSlot_byte_other outside)
      notices := fun k h => (Part.setNotice_keeps _ .slot).notices k (handed.notices k (notices k h))
      line := (Part.outputs_right _).1
      lamps := (Part.outputs_right _).2
      view := (p.complete_kept q n tag r d).trans hview }
    slot := Memory.answer_answered _ n tag r d
    args := fun a inArgs =>
      ((Memory.answer_args _ n tag r d inArgs).trans (own.byte (argsNotOwn a inArgs))).trans
        (Memory.byte_setWord_other _ _ (by omega))
    notice := Part.setNotice_bit _ .slot }

/-- A request that changes nothing but the journal's ring and notices is answered with the part as it was. -/
theorem Part.Keeps.answersAs {p q : Part} {n : SlotIx} (h : (p.takeSlot n).Keeps q) (tag : Half) (r : Result) (d : List Nat) :
    AnswersAs Part.kept n tag r d p p (Part.complete p q n tag r d) :=
  Part.complete_answersAs n tag r d h.mem h.notices h.kept

/-- A request refused by its checks changes nothing but its slot. -/
theorem State.request_refused {s : State} {n : SlotIx} {tag : Half} {r : Result} {c : Instr}
    {act : Part → Part × Result × List Nat} (meaning : exec c s = s.request n tag act) (takes : s.part.takes n = true)
    (refuses : act (s.part.takeSlot n) = (s.part.takeSlot n, r, [])) :
    Answers c s n tag r [] Part.kept s.part nothingMore := by
  refine ⟨_, meaning.trans (s.request_taken n tag act takes), rfl, ?_, trivial⟩
  rw [refuses]
  exact (Part.Keeps.refl _).answersAs tag r []

end Sys2Proof.Machine
end

/-! PROOFS. CLEAR_FAULT (R138, R164). -/

section
namespace Sys2Proof.Machine

open Sys2Proof (LaneIx SlotIx Instr)

/-! ### A lane replaced, as `kept` shows it -/

/-- Replacing a lane is seen through `kept` by what `kept` shows of the lane. -/
theorem Part.setLane_kept_congr (p : Part) (i : LaneIx) {l m : Lane} (h : l.kept = m.kept) :
    (p.setLane i l).kept = (p.setLane i m).kept := by
  have twice : (p.setLane i m).setLane i l = p.setLane i l := by simp [Part.setLane]
  rw [← twice]
  exact (p.setLane i m).setLane_kept i l (by rw [Part.lane_setLane_same, h])

/-- A part that `kept` shows as another with one lane replaced is that other with the part's own lane in its place. -/
theorem Part.kept_setLane_own {p t : Part} {i : LaneIx} {l : Lane} (h : t.kept = (p.setLane i l).kept) :
    t.kept = (p.setLane i (t.lane i)).kept :=
  h.trans (p.setLane_kept_congr i (by rw [Part.kept_lane h i, Part.lane_setLane_same])).symm

/-! ### Entry to SYNC (R133, R134) -/

theorem Part.enterSync_kept (p : Part) (i : LaneIx) (cause : LaneCause) :
    (p.enterSync i cause).kept = (p.setLane i ((p.lane i).toSync p.now)).kept :=
  (Part.append_keeps (p.modLane i fun l => l.toSync p.now) _).kept

theorem Part.enterSync_reach (p : Part) (i : LaneIx) (cause : LaneCause) :
    Memory.Reach ownByte p.mem (p.enterSync i cause).mem :=
  Part.append_reach (p.modLane i fun l => l.toSync p.now) _

theorem Part.enterSync_notices (p : Part) (i : LaneIx) (cause : LaneCause) : p.noticesStay (p.enterSync i cause) :=
  (Part.append_keeps (p.modLane i fun l => l.toSync p.now) _).notices

theorem Part.enterSync_appended (p : Part) (i : LaneIx) (cause : LaneCause) :
    p.appended (p.enterSync i cause) [laneRecord cause i (p.lane i).link .sync none none] :=
  Part.append_appended (p.modLane i fun l => l.toSync p.now) _

/-- What R134 says of a lane that has entered SYNC stands wherever `kept` is the same. -/
theorem Lane.synced_of_kept {l m : Lane} {now : Nat} (h : m.kept = (l.toSync now).kept) :
    m.link = .sync ∧ m.missCounter = 0 ∧ m.screen = none ∧ m.helloWaiting = true ∧ m.outstanding = [] ∧
      m.shadow = l.shadow ∧ m.cfg = l.cfg :=
  ⟨congrArg Lane.link h, congrArg Lane.missCounter h, congrArg Lane.screen h, congrArg Lane.helloWaiting h,
    congrArg Lane.outstanding h, (congrArg Lane.shadow h :), (congrArg Lane.cfg h :)⟩

/-! ### The request -/

/-- What CLEAR_FAULT does to the part whose slot has been taken. -/
def Part.clearFault (p : Part) (lane : Word) : Part × Result × List Nat :=
  match laneOf lane with
  | none => (p, .badArg, [])
  | some i =>
    if (p.lane i).link = .fault then (p.enterSync i .clearFault, .ok, [(p.lane i).missCounter]) else (p, .state, [])

theorem exec_clearFault (s : State) (n : SlotIx) (tag : Half) (lane : Word) :
    exec (.clearFault n tag lane) s = s.request n tag fun p => p.clearFault lane := rfl

theorem laneOf_beyond {w : Word} (h : 6 ≤ w.toNat) : laneOf w = none := dif_neg (by omega)

theorem laneOf_lane {w : Word} {i : LaneIx} (h : i.val = w.toNat) : laneOf w = some i := by
  have below : w.toNat < 6 := h ▸ i.isLt
  rw [laneOf, dif_pos below]
  exact congrArg some (Fin.ext h.symm)

theorem Part.clearFault_beyond (p : Part) {lane : Word} (h : 6 ≤ lane.toNat) : p.clearFault lane = (p, .badArg, []) := by
  rw [Part.clearFault, laneOf_beyond h]

theorem Part.clearFault_no_fault (p : Part) {lane : Word} {i : LaneIx} (names : i.val = lane.toNat)
    (h : (p.lane i).link ≠ .fault) : p.clearFault lane = (p, .state, []) := by
  rw [Part.clearFault, laneOf_lane names]
  exact if_neg h

theorem Part.clearFault_fault (p : Part) {lane : Word} {i : LaneIx} (names : i.val = lane.toNat)
    (h : (p.lane i).link = .fault) :
    p.clearFault lane = (p.enterSync i .clearFault, .ok, [(p.lane i).missCounter]) := by
  rw [Part.clearFault, laneOf_lane names]
  exact if_pos h

/-- Settles O47, by the request's checks in their order: the lane, then its link state. -/
theorem faultIsCleared : Obligations.FaultIsCleared := by
  intro s n tag lane takes
  refine ⟨fun beyond => State.request_refused (exec_clearFault s n tag lane) takes (Part.clearFault_beyond _ beyond),
    fun i names => ⟨fun noFault => State.request_refused (exec_clearFault s n tag lane) takes
      (Part.clearFault_no_fault _ names noFault), fun fault => ?_⟩⟩
  have runs := (exec_clearFault s n tag lane).trans (s.request_taken n tag _ takes)
  rw [Part.clearFault_fault (s.part.takeSlot n) names fault] at runs
  generalize hq : (s.part.takeSlot n).enterSync i .clearFault = q at runs
  have kept : q.kept = (s.part.setLane i ((s.part.lane i).toSync s.part.now)).kept :=
    hq ▸ Part.enterSync_kept (s.part.takeSlot n) i .clearFault
  have records : s.part.appended q [laneRecord .clearFault i .fault .sync none none] :=
    hq ▸ fault ▸ Part.appended_of_takeSlot (Part.enterSync_appended (s.part.takeSlot n) i .clearFault)
  have completed := (Part.complete_kept s.part q n tag .ok [(s.part.lane i).missCounter]).trans kept
  obtain ⟨link, misses, screen, hello, outstanding, shadow, cfg⟩ :=
    Lane.synced_of_kept ((Part.kept_lane completed i).trans (by rw [Part.lane_setLane_same]))
  refine ⟨_, runs, rfl, ?_, link, misses, screen, hello, outstanding, shadow, cfg,
    Part.complete_appended records⟩
  refine Part.complete_answersAs n tag _ _ ?_ ?_ ?_
  · exact hq ▸ Part.enterSync_reach (s.part.takeSlot n) i .clearFault
  · exact hq ▸ Part.enterSync_notices (s.part.takeSlot n) i .clearFault
  · exact (Part.complete_kept s.part q n tag _ _).symm.trans (Part.kept_setLane_own completed)

end Sys2Proof.Machine
end

/-! PROOFS. The append told by the room in the ring and the lost count (R169, R170), then SET_JOURNAL and NOTE (R162). -/

section
namespace Sys2Proof.Machine

open Sys2Proof (SlotIx Instr)

/-! ### The parts of an append -/

@[simp] theorem Part.writeRecord_journal (p : Part) (r : Record) :
    (p.writeRecord r).journal = { p.journal with w := p.journal.w + 1 } := rfl

@[simp] theorem Part.writeRecord_now (p : Part) (r : Record) : (p.writeRecord r).now = p.now := rfl

@[simp] theorem Part.loseRecord_journal (p : Part) :
    p.loseRecord.journal = { p.journal with lost := min 4294967295 (p.journal.lost + 1) } := rfl

@[simp] theorem Part.checkMark_journal (p : Part) : p.checkMark.journal = p.journal := by
  unfold Part.checkMark
  split <;> rfl

@[simp] theorem Part.checkMark_now (p : Part) : p.checkMark.now = p.now := by
  unfold Part.checkMark
  split <;> rfl

@[simp] theorem Part.checkMark_unread (p : Part) (mark : Word) : p.checkMark.unread mark = p.unread mark := by
  rw [Part.unread, Part.checkMark_journal, Part.unread]

@[simp] theorem Part.setJournal_journal (p : Part) (j : JournalUnit) : (p.setJournal j).journal = j := rfl

@[simp] theorem Part.setJournal_now (p : Part) (j : JournalUnit) : (p.setJournal j).now = p.now := rfl

/-- A record lost leaves the ring. -/
theorem Part.loseRecord_holds {p : Part} {w : Word} {r : Record} {time : Nat} (held : p.mem.holds w r time) :
    p.loseRecord.mem.holds w r time :=
  Memory.holds_congr (fun _ above _ => Part.journalUpdate_beyond
    (p.setJournal { p.journal with lost := min 4294967295 (p.journal.lost + 1) })
    (by have := recordAt_bounds w; omega)) held

/-- The record just before W stands when the next is written. -/
theorem Part.writeRecord_holds_last {p : Part} {w : Word} (next : p.journal.w = w + 1) (r : Record) {x : Record} {time : Nat}
    (held : p.mem.holds w x time) : (p.writeRecord r).mem.holds w x time := by
  have apart : recordAt w + 32 ≤ recordAt (w + 1) ∨ recordAt (w + 1) + 32 ≤ recordAt w := by
    simpa using recordAt_apart w (i := 0) (k := 1) (by decide) (by decide)
  have bounds := recordAt_bounds w
  exact Memory.holds_congr (fun a above below => p.writeRecord_other r (by omega) (by rw [next]; omega)) held

/-- One record written takes one place more of the unread ones, where the ring had one. -/
theorem Part.unread_next {p q : Part} {mark : Word} (next : q.journal.w = p.journal.w + 1)
    (room : p.unread mark < Config.ringSize) : q.unread mark = p.unread mark + 1 := by
  simp only [Part.unread, next, Config.ringSize] at *
  bv_omega

theorem Part.writeGap_not_due {p : Part} {mark : Word} (h : p.journal.lost = 0 ∨ Config.ringSize ≤ p.unread mark) :
    p.writeGap mark = p :=
  if_neg (by simp only [Part.gapDue, Bool.and_eq_true, decide_eq_true_eq]; omega)

theorem Part.writeGap_due {p : Part} {mark : Word} (lost : 0 < p.journal.lost) (room : p.unread mark < Config.ringSize) :
    p.writeGap mark = (p.setJournal { p.journal with lost := 0 }).writeRecord (gapRecord p.journal.lost) :=
  if_pos (by simp [Part.gapDue, lost, room])

theorem Part.writeOrLose_room {p : Part} {mark : Word} (r : Record) (room : p.unread mark < Config.ringSize) :
    p.writeOrLose mark r = p.writeRecord r := if_pos room

theorem Part.writeOrLose_full {p : Part} {mark : Word} (r : Record) (full : Config.ringSize ≤ p.unread mark) :
    p.writeOrLose mark r = p.loseRecord := if_neg (by omega)

/-- An append's journal is that of its writes: it sets notices besides. -/
theorem Part.append_journal (p : Part) (r : Record) :
    (p.append r).journal = ((p.checkMark.writeGap p.markInForce).writeOrLose p.markInForce r).journal := by
  unfold Part.append
  simp only
  generalize (p.checkMark.writeGap p.markInForce).writeOrLose p.markInForce r = q
  split <;> split <;> rfl

/-! ### The four outcomes of an append (R170) -/

/-- Nothing lost and room: the record at W. -/
theorem Part.append_written (p : Part) (r : Record) (lost : p.journal.lost = 0)
    (room : p.unread p.markInForce < Config.ringSize) :
    (p.append r).journal.w = p.journal.w + 1 ∧ (p.append r).journal.lost = 0 ∧
      (p.append r).mem.holds p.journal.w r p.now := by
  rw [p.append_journal, p.append_mem, Part.writeGap_not_due (.inl (by simpa using lost)),
    Part.writeOrLose_room r (by simpa using room)]
  exact ⟨by simp, by simpa using lost, by simpa using p.checkMark.writeRecord_holds r⟩

/-- The GAP of an append to a part that has lost records: at W, where it leaves nothing lost and one place less. -/
theorem Part.checkMark_writeGap (p : Part) {mark : Word} (lost : 0 < p.journal.lost)
    (room : p.unread mark < Config.ringSize) :
    let q := p.checkMark.writeGap mark
    q.journal.w = p.journal.w + 1 ∧ q.journal.lost = 0 ∧ q.now = p.now ∧ q.unread mark = p.unread mark + 1 ∧
      q.mem.holds p.journal.w (gapRecord p.journal.lost) p.now := by
  rw [Part.writeGap_due (by simpa using lost) (by simpa using room)]
  refine ⟨by simp, by simp, by simp, Part.unread_next (by simp) room, ?_⟩
  simpa using Part.writeRecord_holds (p.checkMark.setJournal { p.journal with lost := 0 }) (gapRecord p.journal.lost)

/-- Records lost and room for two: the GAP at W and the record behind it. -/
theorem Part.append_behind_gap (p : Part) (r : Record) (lost : 0 < p.journal.lost)
    (room : p.unread p.markInForce + 1 < Config.ringSize) :
    (p.append r).journal.w = p.journal.w + 1 + 1 ∧ (p.append r).journal.lost = 0 ∧
      (p.append r).mem.holds p.journal.w (gapRecord p.journal.lost) p.now ∧
      (p.append r).mem.holds (p.journal.w + 1) r p.now := by
  obtain ⟨next, cleared, now, unread, gap⟩ := p.checkMark_writeGap lost (by omega : p.unread p.markInForce < Config.ringSize)
  rw [p.append_journal, p.append_mem, Part.writeOrLose_room r (by omega)]
  exact ⟨by simp [next], by simpa using cleared, Part.writeRecord_holds_last next r gap,
    by simpa [next, now] using (p.checkMark.writeGap p.markInForce).writeRecord_holds r⟩

/-- Records lost and room for one: the GAP at W takes it, and the record is the first lost behind it. -/
theorem Part.append_gap_alone (p : Part) (r : Record) (lost : 0 < p.journal.lost)
    (room : p.unread p.markInForce + 1 = Config.ringSize) :
    (p.append r).journal.w = p.journal.w + 1 ∧ (p.append r).journal.lost = 1 ∧
      (p.append r).mem.holds p.journal.w (gapRecord p.journal.lost) p.now := by
  obtain ⟨next, cleared, -, unread, gap⟩ := p.checkMark_writeGap lost (by omega : p.unread p.markInForce < Config.ringSize)
  rw [p.append_journal, p.append_mem, Part.writeOrLose_full r (by omega)]
  exact ⟨by simpa using next, by simp [cleared], Part.loseRecord_holds gap⟩

/-- A full ring: the record is lost. -/
theorem Part.append_lost (p : Part) (r : Record) (full : p.unread p.markInForce = Config.ringSize) :
    (p.append r).journal.w = p.journal.w ∧ (p.append r).journal.lost = min 4294967295 (p.journal.lost + 1) := by
  rw [p.append_journal, Part.writeGap_not_due (.inr (by simpa using full.ge)),
    Part.writeOrLose_full r (by simpa using full.ge)]
  simp

/-! ### SET_JOURNAL -/

/-- What SET_JOURNAL does to the part whose slot has been taken. -/
def Part.journalSet (p : Part) (level option : Word) : Part × Result × List Nat :=
  (p.setJournal { p.journal with alert := alertLevel level.toNat, countRecords := yesOf option.toNat },
    if 4096 < level.toNat ∨ yesMoved option.toNat then .okClamped else .ok,
    [alertLevel level.toNat, if yesOf option.toNat then 1 else 0])

theorem exec_setJournal (s : State) (n : SlotIx) (tag : Half) (level option : Word) :
    exec (.setJournal n tag level option) s = s.request n tag fun p => p.journalSet level option := rfl

/-- The level in range, a 0 taken as 1 (R162). -/
theorem alertLevel_eq (v : Nat) : alertLevel v = if v = 0 then 1 else min 4096 v := by
  unfold alertLevel
  split <;> omega

/-- What SET_JOURNAL does in R162's words: the level and the option in range, and whether a value was moved. -/
theorem Part.journalSet_eq (p : Part) (level option : Word) :
    p.journalSet level option =
      (p.setJournal { p.journal with
          alert := if level.toNat = 0 then 1 else min 4096 level.toNat, countRecords := decide (option.toNat ≠ 0) },
        if 4096 < level.toNat ∨ 1 < option.toNat then .okClamped else .ok,
        [if level.toNat = 0 then 1 else min 4096 level.toNat, if option.toNat = 0 then 0 else 1]) := by
  simp [Part.journalSet, alertLevel_eq, yesOf, yesMoved, ite_not]

theorem setJournal_answers (s : State) (n : SlotIx) (tag : Half) (level option : Word) (takes : s.part.takes n = true) :
    let alert := if level.toNat = 0 then 1 else min 4096 level.toNat
    Answers (.setJournal n tag level option) s n tag (if 4096 < level.toNat ∨ 1 < option.toNat then .okClamped else .ok)
      [alert, if option.toNat = 0 then 0 else 1] Part.kept
      (s.part.setJournal { s.part.journal with alert := alert, countRecords := decide (option.toNat ≠ 0) }) fun t =>
        t.journal.w = s.part.journal.w ∧ t.journal.lost = s.part.journal.lost := by
  intro alert
  have runs := (exec_setJournal s n tag level option).trans (s.request_taken n tag _ takes)
  rw [Part.journalSet_eq] at runs
  refine ⟨_, runs, rfl, Part.complete_answersAs n tag _ _ (.refl _) (fun _ h => h) rfl, ?_⟩
  simp

/-! ### NOTE -/

/-- What NOTE does to the part whose slot has been taken. -/
def Part.note (p : Part) (r : Record) : Part × Result × List Nat := (p.append r, .ok, noteDetail (p.append r))

theorem exec_note (s : State) (n : SlotIx) (tag : Half) (w0 w1 w2 w3 : Word) :
    exec (.note n tag w0 w1 w2 w3) s = s.request n tag fun p => p.note (noteRecord tag w0 w1 w2 w3) := rfl

/-- With nothing lost behind the append the detail carries the number just below W, and 1. -/
theorem noteDetail_written {p : Part} {w : Word} (lost : p.journal.lost = 0) (next : p.journal.w = w + 1) :
    noteDetail p = [w.toNat, 1] := by
  simp [noteDetail, lost, next]

/-- With a record lost the number is absent. -/
theorem noteDetail_lost {p : Part} (lost : 0 < p.journal.lost) : noteDetail p = [absent, 0] :=
  if_neg lost.ne'

/-- A NOTE is answered OK with its append's detail, and the part is as the append leaves its journal and ring. -/
theorem note_answers {s : State} {n : SlotIx} {tag : Half} {w0 w1 w2 w3 : Word} {d : List Nat} {q : Part}
    {post : Part → Prop} (takes : s.part.takes n = true)
    (appends : (s.part.takeSlot n).append (noteRecord tag w0 w1 w2 w3) = q) (detail : noteDetail q = d)
    (done : post (Part.complete s.part q n tag .ok d)) :
    Answers (.note n tag w0 w1 w2 w3) s n tag .ok d Part.kept s.part post := by
  have runs := (exec_note s n tag w0 w1 w2 w3).trans (s.request_taken n tag _ takes)
  rw [Part.note, appends, detail] at runs
  exact ⟨_, runs, rfl, Part.Keeps.answersAs (appends ▸ Part.append_keeps _ _) tag .ok d, done⟩

/-- Settles O50: SET_JOURNAL by its clamps, NOTE by the four outcomes of its append. -/
theorem journalRequestsAct : Obligations.JournalRequestsAct := by
  refine ⟨setJournal_answers, fun s n tag w0 w1 w2 w3 takes => ?_⟩
  extract_lets j used r answers
  have mark : (s.part.takeSlot n).unread (s.part.takeSlot n).markInForce = used := by simp [used]
  have written := (s.part.takeSlot n).append_written r
  have behindGap := (s.part.takeSlot n).append_behind_gap r
  have gapAlone := (s.part.takeSlot n).append_gap_alone r
  have isLost := (s.part.takeSlot n).append_lost r
  rw [mark, Part.takeSlot_journal] at written behindGap gapAlone isLost
  generalize hq : (s.part.takeSlot n).append r = q at written behindGap gapAlone isLost
  refine ⟨fun noLoss room => ?_, fun loss room => ?_, fun loss room => ?_, fun full => ?_⟩
  · obtain ⟨w, lost, held⟩ := written noLoss room
    exact note_answers takes hq (noteDetail_written lost w) ⟨by simpa using w, by simpa using lost, Part.complete_holds held⟩
  · obtain ⟨w, lost, gap, held⟩ := behindGap loss room
    exact note_answers takes hq (noteDetail_written lost w)
      ⟨by simpa [BitVec.add_assoc] using w, by simpa using lost, Part.complete_holds gap, Part.complete_holds held⟩
  · obtain ⟨w, lost, gap⟩ := gapAlone loss room
    exact note_answers takes hq (noteDetail_lost (by omega)) ⟨by simpa using w, by simpa using lost, Part.complete_holds gap⟩
  · obtain ⟨w, lost⟩ := isLost full
    exact note_answers takes hq (noteDetail_lost (by omega)) ⟨by simpa using w, by simpa using lost⟩

end Sys2Proof.Machine
end

/-! PROOFS. The status block (R182, 11.5): what the words of an update read once it is whole. -/

section
namespace Sys2Proof.Machine

open Sys2Proof (LaneIx)

/-- Book memory shows a list of words, each at its address. -/
def Memory.shows (m : Memory) (fields : List (Nat × Nat)) : Prop := ∀ x ∈ fields, m.word x.1 = x.2 % 4294967296

/-- The words of an update: on word boundaries behind the generation word, no two at one address. -/
def isBlock (fields : List (Nat × Nat)) : Prop :=
  (fields.map Prod.fst).Nodup ∧ ∀ x ∈ fields, x.1 % 4 = 0 ∧ 0x44 ≤ x.1 ∧ x.1 + 4 ≤ 0x200

/-! ### Words on word boundaries -/

theorem Memory.word_congr {m n : Memory} {a : Nat} (same : ∀ k, a ≤ k → k < a + 4 → n.byte k = m.byte k) :
    n.word a = m.word a := Memory.number_congr 4 a same

/-- Of two words on word boundaries, a write of the one leaves the other. -/
theorem Memory.word_setWord_apart (m : Memory) {a k : Nat} (v : Nat) (ha : a % 4 = 0) (hk : k % 4 = 0) (h : k ≠ a) :
    (m.setWord a v).word k = m.word k :=
  Memory.word_setWord_other m v (by omega)

theorem Memory.word_setWords_apart (fields : List (Nat × Nat)) :
    ∀ (m : Memory) {a : Nat}, a % 4 = 0 → (∀ x ∈ fields, x.1 % 4 = 0 ∧ a ≠ x.1) → (m.setWords fields).word a = m.word a := by
  induction fields with
  | nil => intros; rfl
  | cons x rest ih =>
    intro m a ha apart
    obtain ⟨aligned, differs⟩ := apart x List.mem_cons_self
    exact (ih (m.setWord x.1 x.2) ha fun y hy => apart y (List.mem_cons_of_mem _ hy)).trans
      (m.word_setWord_apart x.2 aligned ha differs)

theorem Memory.setWords_shows {fields : List (Nat × Nat)} (block : isBlock fields) :
    ∀ m : Memory, (m.setWords fields).shows fields := by
  obtain ⟨distinct, inBlock⟩ := block
  induction fields with
  | nil => intro m x hx; cases hx
  | cons x rest ih =>
    intro m
    rw [List.map_cons, List.nodup_cons] at distinct
    obtain ⟨fresh, distinct⟩ := distinct
    have aligned := fun y (hy : y ∈ x :: rest) => (inBlock y hy).1
    rintro y (_ | ⟨_, hy⟩)
    · refine (Memory.word_setWords_apart rest (m.setWord x.1 x.2) (aligned x List.mem_cons_self) fun z hz =>
        ⟨aligned z (List.mem_cons_of_mem _ hz), fun same => fresh ?_⟩).trans (Memory.word_setWord_same _ _ _)
      exact same ▸ List.mem_map_of_mem hz
    · exact ih distinct (fun z hz => inBlock z (List.mem_cons_of_mem _ hz)) (m.setWord x.1 x.2) y hy

/-! ### The blocks' addresses (11.5) -/

theorem seqStatus_address {q : Sequencer} {x : Nat × Nat} (h : x ∈ seqStatus q) : 0x44 ≤ x.1 ∧ x.1 ≤ 0x60 := by
  simp only [seqStatus, List.mem_cons, List.not_mem_nil, or_false] at h
  rcases h with rfl | rfl | rfl | rfl | rfl | rfl | rfl | rfl <;> simp

theorem clockStatus_address {c : Clock} {x : Nat × Nat} (h : x ∈ clockStatus c) :
    (0x64 ≤ x.1 ∧ x.1 ≤ 0x7C) ∨ (0x88 ≤ x.1 ∧ x.1 ≤ 0x90) := by
  simp only [clockStatus, List.mem_cons, List.not_mem_nil, or_false] at h
  rcases h with rfl | rfl | rfl | rfl | rfl | rfl | rfl | rfl | rfl | rfl <;> simp

theorem journalStatus_address {j : JournalUnit} {x : Nat × Nat} (h : x ∈ journalStatus j) : 0x80 ≤ x.1 ∧ x.1 ≤ 0x84 := by
  simp only [journalStatus, List.mem_cons, List.not_mem_nil, or_false] at h
  rcases h with rfl | rfl <;> simp

theorem laneStatus_address {i : LaneIx} {l : Lane} {x : Nat × Nat} (h : x ∈ laneStatus i l) :
    0xC0 + 32 * i.val ≤ x.1 ∧ x.1 < 0xC0 + 32 * i.val + 32 := by
  simp only [laneStatus, List.mem_cons, List.not_mem_nil, or_false] at h
  rcases h with rfl | rfl | rfl | rfl | rfl | rfl | rfl | rfl <;> simp only <;> omega

theorem seqStatus_block (q : Sequencer) : isBlock (seqStatus q) := by
  simp [isBlock, seqStatus]

theorem clockStatus_block (c : Clock) : isBlock (clockStatus c) := by
  simp [isBlock, clockStatus]

theorem journalStatus_block (j : JournalUnit) : isBlock (journalStatus j) := by
  simp [isBlock, journalStatus]

theorem laneStatus_block (i : LaneIx) (l : Lane) : isBlock (laneStatus i l) := by
  have := i.isLt
  refine ⟨by simp [laneStatus], fun x hx => ⟨?_, laneStatus_inStatus i l x hx⟩⟩
  simp only [laneStatus, List.mem_cons, List.not_mem_nil, or_false] at hx
  rcases hx with rfl | rfl | rfl | rfl | rfl | rfl | rfl | rfl <;> simp only <;> omega

theorem isBlock.append {xs ys : List (Nat × Nat)} (h : isBlock xs) (k : isBlock ys)
    (apart : ∀ x ∈ xs, ∀ y ∈ ys, x.1 ≠ y.1) : isBlock (xs ++ ys) := by
  refine ⟨?_, fun x hx => (List.mem_append.1 hx).elim (h.2 x) (k.2 x)⟩
  rw [List.map_append, List.nodup_append]
  refine ⟨h.1, k.1, fun a ha b hb => ?_⟩
  obtain ⟨x, hx, rfl⟩ := List.mem_map.1 ha
  obtain ⟨y, hy, rfl⟩ := List.mem_map.1 hb
  exact apart x hx y hy

/-! ### An update written whole -/

/-- The words of an update written in turn are its fields written at their addresses. -/
theorem Memory.foldl_setStatus {fields : List (Nat × Nat)} (block : ∀ x ∈ fields, x.1 % 4 = 0 ∧ 0x44 ≤ x.1 ∧ x.1 + 4 ≤ 0x200) :
    ∀ m : Memory, (fields.map fun x => (statusIndex x.1, BitVec.ofNat 32 x.2)).foldl Memory.setStatus m = m.setWords fields := by
  induction fields with
  | nil => intro m; rfl
  | cons x rest ih =>
    intro m
    obtain ⟨aligned, low, high⟩ := block x List.mem_cons_self
    rw [List.map_cons, List.foldl_cons, Memory.setStatus_index m x.2 (by omega) high aligned,
      ih fun y hy => block y (List.mem_cons_of_mem _ hy)]
    rfl

theorem Memory.setStatus_zero (m : Memory) (g : Word) : m.setStatus (0, g) = m.setWord 0x40 g.toNat := rfl

/-- What an update leaves once it is whole: the fields written between the odd and the even generation word (R182). -/
theorem Part.statusWrite_whole (p : Part) {fields : List (Nat × Nat)} (block : isBlock fields) :
    (p.statusWrite fields).finishUpdate.mem =
      (((p.finishUpdate.mem.setWord 0x40 (p.finishUpdate.regs.generation + 1).toNat).setWords fields).setWord 0x40
        (p.finishUpdate.regs.generation + 2).toNat) := by
  show List.foldl Memory.setStatus _ (List.map _ fields ++ _) = _
  rw [List.foldl_append, Memory.foldl_setStatus block.2]
  rfl

theorem Part.statusWrite_generation (p : Part) (fields : List (Nat × Nat)) :
    (p.statusWrite fields).finishUpdate.regs.generation = p.finishUpdate.regs.generation + 2 := by
  show (if List.map _ fields ++ _ = [] then _ else p.finishUpdate.regs.generation + 1 + 1) = _
  rw [if_neg (by simp), BitVec.add_assoc]
  rfl

theorem Part.statusWrite_word_generation (p : Part) {fields : List (Nat × Nat)} (block : isBlock fields) :
    (p.statusWrite fields).finishUpdate.mem.word 0x40 = (p.statusWrite fields).finishUpdate.regs.generation.toNat := by
  rw [p.statusWrite_whole block, p.statusWrite_generation, Memory.word_setWord_same]
  exact Nat.mod_eq_of_lt (BitVec.isLt _)

theorem Part.statusWrite_shows (p : Part) {fields : List (Nat × Nat)} (block : isBlock fields) :
    (p.statusWrite fields).finishUpdate.mem.shows fields := fun x hx => by
  obtain ⟨aligned, low, -⟩ := block.2 x hx
  rw [p.statusWrite_whole block, Memory.word_setWord_apart _ _ (by omega) aligned (by omega)]
  exact Memory.setWords_shows block _ x hx

/-- The words of other blocks stand. -/
theorem Part.statusWrite_shows_other (p : Part) {fields others : List (Nat × Nat)} (block : isBlock fields)
    (otherBlock : isBlock others) (apart : ∀ x ∈ others, ∀ y ∈ fields, x.1 ≠ y.1) (shown : p.finishUpdate.mem.shows others) :
    (p.statusWrite fields).finishUpdate.mem.shows others := fun x hx => by
  obtain ⟨aligned, low, -⟩ := otherBlock.2 x hx
  rw [p.statusWrite_whole block, Memory.word_setWord_apart _ _ (by omega) aligned (by omega),
    Memory.word_setWords_apart fields _ aligned fun y hy => ⟨(block.2 y hy).1, apart x hx y hy⟩,
    Memory.word_setWord_apart _ _ (by omega) aligned (by omega)]
  exact shown x hx

/-! ### The block against the words it is to show -/

/-- The generation word is odd just while an update is under way (R182). -/
def Part.updateParity (p : Part) : Prop := p.regs.generation.toNat % 2 = (if p.regs.update = [] then 0 else 1)

/-- The status block, once the update under way is whole, shows these blocks of the part and the writer's count. -/
structure Part.statusAs (p : Part) (q : Sequencer) (c : Clock) (j : JournalUnit) (ls : LaneIx → Lane) : Prop where
  generation : p.finishUpdate.mem.word 0x40 = p.finishUpdate.regs.generation.toNat
  seq : p.finishUpdate.mem.shows (seqStatus q)
  clock : p.finishUpdate.mem.shows (clockStatus c)
  journal : p.finishUpdate.mem.shows (journalStatus j)
  lane : ∀ i, p.finishUpdate.mem.shows (laneStatus i (ls i))

theorem Part.statusShown_iff (p : Part) :
    p.finishUpdate.statusShown ↔ p.statusAs p.seq p.clock p.journal p.lane := by
  simp only [Part.statusShown, List.mem_append, or_imp, forall_and]
  exact ⟨fun ⟨g, ⟨⟨q, c⟩, j⟩, l⟩ => ⟨g, q, c, j, l⟩, fun ⟨g, q, c, j, l⟩ => ⟨g, ⟨⟨q, c⟩, j⟩, l⟩⟩

theorem State.statusRight_iff (s : State) :
    s.statusRight ↔ s.part.updateParity ∧
      (s.part.enabled = true → s.part.statusAs s.part.seq s.part.clock s.part.journal s.part.lane) := by
  rw [← Part.statusShown_iff]
  rfl

theorem Part.finishUpdate_parity {p : Part} (h : p.updateParity) : p.finishUpdate.regs.generation.toNat % 2 = 0 := by
  unfold Part.updateParity at h
  show (if p.regs.update = [] then p.regs.generation else p.regs.generation + 1).toNat % 2 = 0
  split
  · next none => simpa [none] using h
  · next some =>
    rw [if_neg some] at h
    bv_omega

theorem Part.statusWrite_parity {p : Part} (h : p.updateParity) (fields : List (Nat × Nat)) :
    (p.statusWrite fields).updateParity := by
  have even := Part.finishUpdate_parity h
  show (p.finishUpdate.regs.generation + 1).toNat % 2 = (if List.map _ fields ++ _ = [] then 0 else 1)
  rw [if_neg (by simp)]
  bv_omega

theorem Part.finishUpdate_updateParity {p : Part} (h : p.updateParity) : p.finishUpdate.updateParity :=
  Part.finishUpdate_parity h

/-- The status writer's words depend on the bytes of the status block alone. -/
theorem Memory.foldl_setStatus_congr (xs : List (Fin 112 × Word)) :
    ∀ {m n : Memory} {a : Nat}, n.byte a = m.byte a →
      (xs.foldl Memory.setStatus n).byte a = (xs.foldl Memory.setStatus m).byte a := by
  induction xs with
  | nil => intro m n a h; exact h
  | cons x rest ih =>
    intro m n a h
    refine ih ?_
    unfold Memory.setStatus
    by_cases inside : Config.statusAt + 4 * x.1.val ≤ a ∧ a < Config.statusAt + 4 * x.1.val + 4
    · obtain ⟨k, hk, rfl⟩ : ∃ k, k < 4 ∧ a = Config.statusAt + 4 * x.1.val + k :=
        ⟨a - (Config.statusAt + 4 * x.1.val), by omega, by omega⟩
      unfold Memory.setWord
      rw [Memory.byte_setBytes_same _ _ _ _ (by simpa using hk), Memory.byte_setBytes_same _ _ _ _ (by simpa using hk)]
    · rw [Memory.byte_setWord_other _ _ (by omega), Memory.byte_setWord_other _ _ (by omega), h]

/-- What the block shows depends on its bytes and the update under way alone. -/
theorem Part.statusAs.congr {p r : Part} {q : Sequencer} {c : Clock} {j : JournalUnit} {ls : LaneIx → Lane}
    (h : p.statusAs q c j ls) (hm : ∀ a, statusByte a → r.mem.byte a = p.mem.byte a)
    (hu : r.regs.update = p.regs.update) (hg : r.regs.generation = p.regs.generation) : r.statusAs q c j ls := by
  have words : ∀ a, 0x40 ≤ a → a + 4 ≤ 0x200 → r.finishUpdate.mem.word a = p.finishUpdate.mem.word a := fun a low high =>
    Memory.word_congr fun k h1 h2 => by
      show (r.regs.update.foldl Memory.setStatus r.mem).byte k = _
      rw [hu]
      exact Memory.foldl_setStatus_congr _ (hm k ⟨by omega, by omega⟩)
  have counts : r.finishUpdate.regs.generation = p.finishUpdate.regs.generation := by
    show (if r.regs.update = [] then r.regs.generation else r.regs.generation + 1) = _
    rw [hu, hg]
    rfl
  have shows : ∀ {fields}, inStatus fields → p.finishUpdate.mem.shows fields → r.finishUpdate.mem.shows fields :=
    fun inBlock shown x hx => (words x.1 (by have := inBlock x hx; omega) (inBlock x hx).2).trans (shown x hx)
  exact {
    generation := by rw [words _ (by omega) (by omega), counts]; exact h.generation
    seq := shows (seqStatus_inStatus q) h.seq
    clock := shows (clockStatus_inStatus c) h.clock
    journal := shows (journalStatus_inStatus j) h.journal
    lane := fun i => shows (laneStatus_inStatus i _) (h.lane i) }

theorem Part.statusAs.finish {p : Part} {q : Sequencer} {c : Clock} {j : JournalUnit} {ls : LaneIx → Lane}
    (h : p.statusAs q c j ls) : p.finishUpdate.statusAs q c j ls :=
  ⟨h.generation, h.seq, h.clock, h.journal, h.lane⟩

/-! ### The blocks' updates -/

section
variable {p : Part} {q : Sequencer} {c : Clock} {j : JournalUnit} {ls : LaneIx → Lane}

theorem Part.statusAs.write_seq (h : p.statusAs q c j ls) (q' : Sequencer) :
    (p.statusWrite (seqStatus q')).statusAs q' c j ls := by
  have block := seqStatus_block q'
  refine ⟨p.statusWrite_word_generation block, p.statusWrite_shows block, ?_, ?_, fun i => ?_⟩
  · exact p.statusWrite_shows_other block (clockStatus_block c) (fun x hx y hy => by
      have := clockStatus_address hx; have := seqStatus_address hy; omega) h.clock
  · exact p.statusWrite_shows_other block (journalStatus_block j) (fun x hx y hy => by
      have := journalStatus_address hx; have := seqStatus_address hy; omega) h.journal
  · exact p.statusWrite_shows_other block (laneStatus_block i _) (fun x hx y hy => by
      have := laneStatus_address hx; have := seqStatus_address hy; omega) (h.lane i)

theorem Part.statusAs.write_clock (h : p.statusAs q c j ls) (c' : Clock) :
    (p.statusWrite (clockStatus c')).statusAs q c' j ls := by
  have block := clockStatus_block c'
  refine ⟨p.statusWrite_word_generation block, ?_, p.statusWrite_shows block, ?_, fun i => ?_⟩
  · exact p.statusWrite_shows_other block (seqStatus_block q) (fun x hx y hy => by
      have := seqStatus_address hx; have := clockStatus_address hy; omega) h.seq
  · exact p.statusWrite_shows_other block (journalStatus_block j) (fun x hx y hy => by
      have := journalStatus_address hx; have := clockStatus_address hy; omega) h.journal
  · exact p.statusWrite_shows_other block (laneStatus_block i _) (fun x hx y hy => by
      have := laneStatus_address hx; have := clockStatus_address hy; omega) (h.lane i)

theorem Part.statusAs.write_journal (h : p.statusAs q c j ls) (j' : JournalUnit) :
    (p.statusWrite (journalStatus j')).statusAs q c j' ls := by
  have block := journalStatus_block j'
  refine ⟨p.statusWrite_word_generation block, ?_, ?_, p.statusWrite_shows block, fun i => ?_⟩
  · exact p.statusWrite_shows_other block (seqStatus_block q) (fun x hx y hy => by
      have := seqStatus_address hx; have := journalStatus_address hy; omega) h.seq
  · exact p.statusWrite_shows_other block (clockStatus_block c) (fun x hx y hy => by
      have := clockStatus_address hx; have := journalStatus_address hy; omega) h.clock
  · exact p.statusWrite_shows_other block (laneStatus_block i _) (fun x hx y hy => by
      have := laneStatus_address hx; have := journalStatus_address hy; omega) (h.lane i)

theorem Part.statusAs.write_lane (h : p.statusAs q c j ls) (i : LaneIx) (l : Lane) :
    (p.statusWrite (laneStatus i l)).statusAs q c j (Function.update ls i l) := by
  have block := laneStatus_block i l
  refine ⟨p.statusWrite_word_generation block, ?_, ?_, ?_, fun k => ?_⟩
  · exact p.statusWrite_shows_other block (seqStatus_block q) (fun x hx y hy => by
      have := seqStatus_address hx; have := laneStatus_address hy; omega) h.seq
  · exact p.statusWrite_shows_other block (clockStatus_block c) (fun x hx y hy => by
      have := clockStatus_address hx; have := laneStatus_address hy; omega) h.clock
  · exact p.statusWrite_shows_other block (journalStatus_block j) (fun x hx y hy => by
      have := journalStatus_address hx; have := laneStatus_address hy; omega) h.journal
  · by_cases same : k = i
    · subst same
      rw [Function.update_self]
      exact p.statusWrite_shows block
    · rw [Function.update_of_ne same]
      have := Fin.val_ne_of_ne same
      exact p.statusWrite_shows_other block (laneStatus_block k _) (fun x hx y hy => by
        have := laneStatus_address hx; have := laneStatus_address hy; omega) (h.lane k)

/-- The journal unit's own update at an append (R171). -/
theorem Part.statusAs.journalUpdate (h : p.statusAs q c j ls) : p.journalUpdate.statusAs q c p.journal ls :=
  (h.write_journal p.journal).finish

theorem Part.statusIfChanged_parity (h : p.updateParity) (old new : List (Nat × Nat)) :
    (p.statusIfChanged old new).updateParity := by
  unfold Part.statusIfChanged
  split
  · exact h
  · exact Part.statusWrite_parity h new

/-- The sequencer's update where its words changed: the block shows the new ones. -/
theorem Part.statusAs.change_seq (h : p.statusAs q c j ls) (q' : Sequencer) :
    (p.statusIfChanged (seqStatus q) (seqStatus q')).statusAs q' c j ls := by
  unfold Part.statusIfChanged
  split
  · next same => exact ⟨h.generation, same ▸ h.seq, h.clock, h.journal, h.lane⟩
  · exact h.write_seq q'

theorem Part.statusAs.change_clock (h : p.statusAs q c j ls) (c' : Clock) :
    (p.statusIfChanged (clockStatus c) (clockStatus c')).statusAs q c' j ls := by
  unfold Part.statusIfChanged
  split
  · next same => exact ⟨h.generation, h.seq, same ▸ h.clock, h.journal, h.lane⟩
  · exact h.write_clock c'

theorem Part.statusAs.change_lane (h : p.statusAs q c j ls) (i : LaneIx) (l : Lane) :
    (p.statusIfChanged (laneStatus i (ls i)) (laneStatus i l)).statusAs q c j (Function.update ls i l) := by
  unfold Part.statusIfChanged
  split
  · next same =>
    refine ⟨h.generation, h.seq, h.clock, h.journal, fun k => ?_⟩
    by_cases this : k = i
    · subst this
      rw [Function.update_self, ← same]
      exact h.lane k
    · rw [Function.update_of_ne this]
      exact h.lane k
  · exact h.write_lane i l

end

@[simp] theorem Part.statusIfChanged_lanes (p : Part) (old new : List (Nat × Nat)) :
    (p.statusIfChanged old new).lanes = p.lanes := by
  unfold Part.statusIfChanged
  split <;> rfl

@[simp] theorem Part.statusIfChanged_lane (p : Part) (old new : List (Nat × Nat)) (i : LaneIx) :
    (p.statusIfChanged old new).lane i = p.lane i := by
  simp only [Part.lane, Part.statusIfChanged_lanes]

@[simp] theorem Part.statusIfChanged_seq (p : Part) (old new : List (Nat × Nat)) :
    (p.statusIfChanged old new).seq = p.seq := by
  unfold Part.statusIfChanged
  split <;> rfl

@[simp] theorem Part.statusIfChanged_clock (p : Part) (old new : List (Nat × Nat)) :
    (p.statusIfChanged old new).clock = p.clock := by
  unfold Part.statusIfChanged
  split <;> rfl

@[simp] theorem Part.statusIfChanged_journal (p : Part) (old new : List (Nat × Nat)) :
    (p.statusIfChanged old new).journal = p.journal := by
  unfold Part.statusIfChanged
  split <;> rfl

/-- The lanes' updates in turn: each lane of the list is shown as it is now, every other as before. -/
theorem Part.statusAs.change_lanes {q : Sequencer} {c : Clock} {j : JournalUnit} (before : LaneIx → Lane) (xs : List LaneIx) :
    ∀ {p : Part} {ls : LaneIx → Lane}, xs.Nodup → (∀ i ∈ xs, ls i = before i) → p.statusAs q c j ls →
      (xs.foldl (fun r i => r.statusIfChanged (laneStatus i (before i)) (laneStatus i (r.lane i))) p).statusAs q c j
        fun i => if i ∈ xs then p.lane i else ls i := by
  induction xs with
  | nil => intro p ls _ _ h; simpa using h
  | cons i rest ih =>
    intro p ls distinct same h
    obtain ⟨fresh, distinct⟩ := List.nodup_cons.1 distinct
    have first := h.change_lane i (p.lane i)
    rw [same i List.mem_cons_self] at first
    have others : ∀ k ∈ rest, Function.update ls i (p.lane i) k = before k := fun k hk => by
      rw [Function.update_of_ne (ne_of_mem_of_not_mem hk fresh)]
      exact same k (List.mem_cons_of_mem _ hk)
    have done := ih distinct others first
    have shown : (fun k => if k ∈ i :: rest then p.lane k else ls k) = fun k =>
        if k ∈ rest then (p.statusIfChanged (laneStatus i (before i)) (laneStatus i (p.lane i))).lane k
        else Function.update ls i (p.lane i) k := by
      funext k
      rw [Part.statusIfChanged_lane]
      by_cases hk : k = i
      · subst hk; simp [fresh]
      · simp [hk]
    rw [shown]
    exact done

theorem allLanes_nodup : allLanes.Nodup := by decide

theorem mem_allLanes (i : LaneIx) : i ∈ allLanes := by
  revert i
  decide

theorem Part.statusUpdates_parity {p : Part} (before : Part) (h : p.updateParity) : (Part.statusUpdates before p).updateParity := by
  unfold Part.statusUpdates
  exact List.foldlRecOn allLanes _ (Part.statusIfChanged_parity (Part.statusIfChanged_parity h _ _) _ _)
    fun r hr i _ => Part.statusIfChanged_parity hr _ _

/-- The updates of an event leave the block showing the part, where it showed the part before the event and the journal (R182). -/
theorem Part.statusAs.updates {before p : Part} (h : p.statusAs before.seq before.clock p.journal before.lane) :
    (Part.statusUpdates before p).statusAs p.seq p.clock p.journal p.lane := by
  unfold Part.statusUpdates
  have done := Part.statusAs.change_lanes before.lane allLanes allLanes_nodup (fun _ _ => rfl)
    ((h.change_seq p.seq).change_clock p.clock)
  simpa only [mem_allLanes, if_true, Part.statusIfChanged_lane, Part.statusIfChanged_clock] using done

end Sys2Proof.Machine
end

/-! PROOFS. What every act of the running part keeps sound: its writes lie in the part's own areas, the status block shows what it
showed and the journal as it is now, and the settings and the lists keep their ranges and sizes. Here the sequencer's acts. -/

section
namespace Sys2Proof.Machine

open Sys2Proof (LaneIx)

/-! ### The invariants, of a part -/

/-- Every setting of a part lies in its range (R22, R27, R89, R170, R172). -/
def Part.settingsIn (p : Part) : Prop :=
  p.clock.showTime ≤ Config.maxTime ∧ p.clock.profile.inRange ∧ (∀ i, (p.lane i).cfg.inRange) ∧
    1 ≤ p.journal.alert ∧ p.journal.alert ≤ 4096 ∧ p.journal.lost ≤ 4294967295

/-- The window and the history keep their sizes (R63, R79). -/
def Sequencer.fits (q : Sequencer) : Prop :=
  q.window.length ≤ 8 ∧ q.history.length ≤ 4 ∧ ∀ g ∈ q.history, g.entries.length ≤ 8

/-- The sequencer's lists and the outstanding lists keep their sizes (R63, R79, R128). -/
def Part.listsFit (p : Part) : Prop := p.seq.fits ∧ ∀ i, (p.lane i).outstanding.length ≤ 6

theorem State.listsRight_iff (s : State) : s.listsRight ↔ s.part.listsFit := by
  simp only [State.listsRight, Part.listsFit, Sequencer.fits, and_assoc]

/-- From `l` to `m` a lane's configuration stays in its ranges and its outstanding list within its size. -/
def Lane.Within (l m : Lane) : Prop :=
  (l.cfg.inRange → m.cfg.inRange) ∧ (l.outstanding.length ≤ 6 → m.outstanding.length ≤ 6)

theorem Lane.within_of_eq {l m : Lane} (hc : m.cfg = l.cfg) (ho : m.outstanding = l.outstanding) : l.Within m :=
  ⟨fun h => hc ▸ h, fun h => ho ▸ h⟩

theorem Lane.within_of_still {l m : Lane} (h : m.still = l.still) : l.Within m :=
  Lane.within_of_eq (congrArg (fun x : Lane => x.cfg) h :) (congrArg (fun x : Lane => x.outstanding) h :)

theorem Lane.within_of_kept {l m : Lane} (h : m.kept = l.kept) : l.Within m := Lane.within_of_still (Lane.still_of_kept h)

theorem Lane.Within.trans {l m n : Lane} (h : l.Within m) (k : m.Within n) : l.Within n :=
  ⟨k.1 ∘ h.1, k.2 ∘ h.2⟩

/-- What an act that leads from `p` to `q` keeps sound. -/
structure Part.Sound (p q : Part) : Prop where
  mem : Memory.Reach ownByte p.mem q.mem
  enable : q.regs.enable = p.regs.enable
  parity : p.updateParity → q.updateParity
  status : ∀ {x : Sequencer} {c : Clock} {ls : LaneIx → Lane}, p.statusAs x c p.journal ls → q.statusAs x c q.journal ls
  settings : p.settingsIn → q.settingsIn
  lists : p.listsFit → q.listsFit

theorem Part.Sound.refl (p : Part) : p.Sound p := ⟨.refl _, rfl, id, id, id, id⟩

theorem Part.Sound.trans {p q r : Part} (h : p.Sound q) (k : q.Sound r) : p.Sound r :=
  ⟨h.mem.trans k.mem, k.enable.trans h.enable, k.parity ∘ h.parity, fun x => k.status (h.status x), k.settings ∘ h.settings,
    k.lists ∘ h.lists⟩

theorem Part.Sound.foldl {α : Type} (f : Part → α → Part) (h : ∀ (p : Part) (a : α), p.Sound (f p a)) (xs : List α) :
    ∀ p : Part, p.Sound (xs.foldl f p) := by
  induction xs with
  | nil => exact Part.Sound.refl
  | cons x rest ih => intro p; exact (h p x).trans (ih _)

/-! ### The elements of an act -/

/-- An act that leaves book memory, the status writer and the journal alone is sound where it keeps the settings and the lists. -/
theorem Part.Sound.silent {p q : Part} (hm : q.mem = p.mem) (he : q.regs.enable = p.regs.enable)
    (hu : q.regs.update = p.regs.update) (hg : q.regs.generation = p.regs.generation) (hj : q.journal = p.journal)
    (settings : p.settingsIn → q.settingsIn) (lists : p.listsFit → q.listsFit) : p.Sound q where
  mem := hm ▸ .refl _
  enable := he
  parity h := by unfold Part.updateParity; rw [hu, hg]; exact h
  status h := hj ▸ h.congr (fun _ _ => by rw [hm]) hu hg
  settings := settings
  lists := lists

theorem Part.setNotice_sound (p : Part) (n : Notice) : p.Sound (p.setNotice n) := .silent rfl rfl rfl rfl rfl id id

theorem Part.seq_sound (p : Part) (q : Sequencer) (h : p.seq.fits → q.fits) : p.Sound { p with seq := q } :=
  .silent rfl rfl rfl rfl rfl id fun ⟨fits, lanes⟩ => ⟨h fits, lanes⟩

/-- The sequencer replaced behind an act, where the lists fit in the part before the act. -/
theorem Part.Sound.withSeq {p q : Part} (h : p.Sound q) (x : Sequencer) (fits : p.listsFit → x.fits) :
    p.Sound { q with seq := x } where
  mem := h.mem
  enable := h.enable
  parity := h.parity
  status k := (h.status k).congr (fun _ _ => rfl) rfl rfl
  settings := h.settings
  lists k := ⟨fits k, (h.lists k).2⟩

theorem Part.console_sound (p : Part) (c : Console) : p.Sound { p with console := c } := .silent rfl rfl rfl rfl rfl id id

theorem Part.requests_sound (p : Part) (u : RequestUnit) : p.Sound { p with requests := u } :=
  .silent rfl rfl rfl rfl rfl id id

theorem Part.clock_sound (p : Part) (c : Clock) (time : c.showTime = p.clock.showTime)
    (profile : p.clock.profile.inRange → c.profile.inRange) : p.Sound { p with clock := c } :=
  .silent rfl rfl rfl rfl rfl
    (fun ⟨h1, h2, h3, h4, h5, h6⟩ => ⟨time ▸ h1, profile h2, h3, h4, h5, h6⟩) id

theorem Part.setLane_sound (p : Part) (i : LaneIx) (l : Lane) (h : (p.lane i).Within l) : p.Sound (p.setLane i l) := by
  have each : ∀ {P : Lane → Prop}, (P (p.lane i) → P l) → (∀ k, P (p.lane k)) → ∀ k, P ((p.setLane i l).lane k) := by
    intro P keep all k
    by_cases same : i = k
    · subst same; rw [Part.lane_setLane_same]; exact keep (all i)
    · rw [Part.lane_setLane_other p l same]; exact all k
  exact .silent rfl rfl rfl rfl rfl
    (fun ⟨h1, h2, h3, h4, h5, h6⟩ => ⟨h1, h2, each (P := fun m => m.cfg.inRange) h.1 h3, h4, h5, h6⟩)
    fun ⟨fits, lanes⟩ => ⟨fits, each (P := fun m => m.outstanding.length ≤ 6) h.2 lanes⟩

theorem Part.modLane_sound (p : Part) (i : LaneIx) (f : Lane → Lane) (h : ∀ l : Lane, l.Within (f l)) : p.Sound (p.modLane i f) :=
  p.setLane_sound i _ (h _)

/-! ### Appends (R169 to R171) -/

theorem Part.lane_of_lanes {p q : Part} (h : q.lanes = p.lanes) (i : LaneIx) : q.lane i = p.lane i := by
  simp only [Part.lane, h]

/-- A change of the ring and of the journal's counts, with the update that shows it. -/
theorem Part.journalUpdate_sound {p q : Part} (hm : Memory.Reach (fun a => 0x42000 ≤ a ∧ a < 0x62000) p.mem q.mem)
    (hr : q.regs = p.regs) (hc : q.clock = p.clock) (hs : q.seq = p.seq) (hl : q.lanes = p.lanes)
    (ha : q.journal.alert = p.journal.alert) (lost : p.journal.lost ≤ 4294967295 → q.journal.lost ≤ 4294967295) :
    p.Sound q.journalUpdate where
  mem := (hm.mono fun _ => .inr).trans q.journalUpdate_reach
  enable := (congrArg (fun r : Registers => r.enable) hr :)
  parity h := Part.finishUpdate_updateParity (Part.statusWrite_parity (by unfold Part.updateParity; rw [hr]; exact h) _)
  status h := (h.congr (fun a ha => hm.byte (by unfold statusByte at ha; omega)) (by rw [hr]) (by rw [hr])).journalUpdate
  settings := fun ⟨h1, h2, h3, h4, h5, h6⟩ =>
    ⟨(hc ▸ h1 : q.clock.showTime ≤ _), (hc ▸ h2 : q.clock.profile.inRange), fun i => Part.lane_of_lanes hl i ▸ h3 i,
      (ha ▸ h4 : 1 ≤ q.journal.alert), (ha ▸ h5 : q.journal.alert ≤ 4096), lost h6⟩
  lists := fun ⟨fits, lanes⟩ => ⟨(hs ▸ fits : q.seq.fits), fun i => Part.lane_of_lanes hl i ▸ lanes i⟩

/-- A record's bytes and number lie in the ring. -/
theorem Memory.record_reach (m : Memory) (w : Word) (r : Record) (time : Nat) :
    Memory.Reach (fun a => 0x42000 ≤ a ∧ a < 0x62000) m
      ((m.setBytes (recordAt w + 4) (r.bytes time)).setWord (recordAt w) w.toNat) := by
  have hb := recordAt_bounds w
  refine (Memory.reach_setBytes _ m _ ?_).trans (Memory.reach_setWord _ _ _ ?_)
  · intro k h1 h2; rw [Record.bytes_length] at h2; omega
  · intro k h1 h2; omega

theorem Part.writeRecord_sound (p : Part) (r : Record) : p.Sound (p.writeRecord r) :=
  Part.journalUpdate_sound (p.mem.record_reach _ r _) rfl rfl rfl rfl rfl id

theorem Part.loseRecord_sound (p : Part) : p.Sound p.loseRecord :=
  Part.journalUpdate_sound (.refl _) rfl rfl rfl rfl rfl fun _ => Nat.min_le_left _ _

theorem Part.checkMark_sound (p : Part) : p.Sound p.checkMark := by
  unfold Part.checkMark
  split
  · exact .refl p
  · exact p.setNotice_sound _

/-- The GAP is written with the lost count 0, which its own update shows. -/
theorem Part.writeGap_sound (p : Part) (mark : Word) : p.Sound (p.writeGap mark) := by
  unfold Part.writeGap
  split
  · exact Part.journalUpdate_sound (p.mem.record_reach _ _ _) rfl rfl rfl rfl rfl fun _ => Nat.zero_le _
  · exact .refl p

theorem Part.writeOrLose_sound (p : Part) (mark : Word) (r : Record) : p.Sound (p.writeOrLose mark r) := by
  unfold Part.writeOrLose
  split
  · exact p.writeRecord_sound r
  · exact p.loseRecord_sound

theorem Part.append_sound (p : Part) (r : Record) : p.Sound (p.append r) := by
  have written := (p.checkMark_sound.trans (Part.writeGap_sound _ p.markInForce)).trans (Part.writeOrLose_sound _ p.markInForce r)
  unfold Part.append
  simp only
  generalize (p.checkMark.writeGap p.markInForce).writeOrLose p.markInForce r = q at written ⊢
  have notice : ∀ {q : Part} (b : Bool) (n : Notice), p.Sound q → p.Sound (if b then q.setNotice n else q) := by
    intro q b n h
    split
    · exact h.trans (q.setNotice_sound n)
    · exact h
  exact notice _ _ (by simpa using notice (decide (q.journal.alert ≤ q.unread p.markInForce)) .journal written)

theorem Part.appendAll_sound (p : Part) (rs : List Record) : p.Sound (p.appendAll rs) := .foldl _ Part.append_sound _ p

theorem Part.reportClock_sound (p : Part) (left : ClockState) (cause : ClockCause) : p.Sound (p.reportClock left cause) := by
  unfold Part.reportClock
  split
  · exact .refl p
  · exact (p.setNotice_sound _).trans (Part.append_sound _ _)

theorem Part.reportCount_sound (p : Part) (o : CountOrigin) (s : Option Nat) : p.Sound (p.reportCount o s) := by
  unfold Part.reportCount
  split
  · exact p.append_sound _
  · exact .refl p

theorem Part.reportKey_sound (p : Part) (k : Key) (src : KeySource) (o : KeyOutcome) (cue : Option Half) :
    p.Sound (p.reportKey k src o cue) := p.append_sound _

/-! ### The window -/

theorem Sequencer.fits.shorter {q r : Sequencer} (h : q.fits) (hw : r.window.length ≤ q.window.length)
    (hh : r.history = q.history) : r.fits :=
  ⟨hw.trans h.1, hh ▸ h.2.1, hh ▸ h.2.2⟩

theorem headGroup_append_afterHead (w : List Entry) : headGroup w ++ afterHead w = w := by
  cases w with
  | nil => rfl
  | cons e rest => exact congrArg (e :: ·) List.takeWhile_append_dropWhile

theorem headGroup_length_le (w : List Entry) : (headGroup w).length ≤ w.length := by
  have := congrArg List.length (headGroup_append_afterHead w)
  rw [List.length_append] at this
  omega

theorem afterHead_length_le (w : List Entry) : (afterHead w).length ≤ w.length := by
  have := congrArg List.length (headGroup_append_afterHead w)
  rw [List.length_append] at this
  omega

theorem Part.setWindow_sound (p : Part) {w : List Entry} (h : w.length ≤ p.seq.window.length) : p.Sound (p.setWindow w) :=
  p.seq_sound _ fun fits => fits.shorter h rfl

theorem Part.setCursor_sound (p : Part) (c : Cursor) : p.Sound (p.setCursor c) := p.seq_sound _ id

/-- The window after a recomputation has the entries it had. -/
theorem Part.recompute_length (p : Part) : p.recompute.seq.window.length = p.seq.window.length := by
  show (match p.seq.window with
    | [] => []
    | e :: rest => p.refreshEntry true e :: rest.map (p.refreshEntry false)).length = _
  split <;> simp_all

theorem Part.recompute_sound (p : Part) : p.Sound p.recompute :=
  p.seq_sound _ fun fits => fits.shorter p.recompute_length.le rfl

theorem Part.setHead_sound (p : Part) (st : EntryState) (t : Option Nat) : p.Sound (p.setHead st t) :=
  p.seq_sound _ fun fits => fits.shorter (by
    show (List.map _ _ ++ _).length ≤ _
    rw [List.length_append, List.length_map, ← List.length_append, headGroup_append_afterHead]) rfl

theorem Part.dropAbsent_sound (p : Part) : p.Sound p.dropAbsent := by
  unfold Part.dropAbsent
  split
  · exact p.setHead_sound _ _
  · exact .refl p

theorem Part.dropDeferral_sound (p : Part) (old : Option EntryKey) : p.Sound (p.dropDeferral old) := by
  unfold Part.dropDeferral
  split
  · exact .refl p
  · exact p.seq_sound _ id

/-! ### The loader -/

theorem Part.badCue_sound (p : Part) (code : LoadCode) (sect : Nat) (pass : Half) (offset : Nat) (cue : Option Half) :
    p.Sound (p.badCue code sect pass offset cue) := p.append_sound _

/-- A cue is read where the window has room for it (R64). -/
theorem Part.readCue_sound (p : Part) (pass : Half) (sect offset index left : Nat) (lost : Bool)
    (room : p.seq.window.length < Config.windowSize) : p.Sound (p.readCue pass sect offset index left lost) := by
  unfold Part.readCue
  simp only
  split
  · exact (p.setCursor_sound _).trans (Part.badCue_sound ..)
  · split
    · exact (p.setCursor_sound _).trans (Part.badCue_sound ..)
    · split
      · exact (p.setCursor_sound _).trans (Part.badCue_sound ..)
      · refine p.seq_sound _ fun ⟨_, history, groups⟩ => ⟨?_, history, groups⟩
        rw [List.length_append]
        exact room

theorem Part.noteUse_sound (p : Part) : p.Sound p.noteUse := by
  unfold Part.noteUse
  split
  · exact p.requests_sound _
  all_goals exact .refl p

theorem Part.loadOne_sound {p q : Part} (h : p.loadOne = some q) : p.Sound q := by
  unfold Part.loadOne at h
  split at h
  · cases h
  · split at h
    · cases h; exact p.setCursor_sound _
    · split at h
      · next room => cases h; exact p.readCue_sound _ _ _ _ _ _ room
      · cases h

theorem Part.refillFor_sound (n : Nat) : ∀ p : Part, p.Sound (p.refillFor n) := by
  induction n with
  | zero => exact Part.noteUse_sound
  | succ n ih =>
    intro p
    unfold Part.refillFor
    split
    · next q hq => exact (p.noteUse_sound.trans (Part.loadOne_sound hq)).trans (ih q)
    · exact p.noteUse_sound

theorem Part.refill_sound (p : Part) : p.Sound p.refill := Part.refillFor_sound _ p

theorem Part.entryRemoved_sound (p : Part) (key : EntryKey) :
    p.Sound (allLanes.foldl (fun p i => p.modLane i fun l => l.entryRemoved key) p) := by
  apply Part.Sound.foldl
  intro q i
  exact q.modLane_sound i _ fun l => Lane.within_of_kept (l.entryRemoved_kept key)

theorem Part.reportRemoved_sound (p : Part) (entries : List Entry) : p.Sound (p.reportRemoved entries) := by
  unfold Part.reportRemoved
  apply Part.Sound.foldl
  intro q e
  exact q.entryRemoved_sound e.key

/-! ### Fires and section ends -/

theorem Part.handTitles_sound (p : Part) (cue : Cue) (key : Option EntryKey) : p.Sound (p.handTitles cue key).1 := by
  unfold Part.handTitles
  generalize lanesOf cue.mask = lanes
  generalize (0 : BitVec 6) = m
  induction lanes generalizing p m with
  | nil => exact .refl p
  | cons i rest ih =>
    simp only [List.foldl_cons]
    exact (p.setLane_sound i _ (Lane.within_of_still (Lane.takeTitle_still _ _ _ _))).trans (ih _ _)

theorem Part.handAll_sound (xs : List (Cue × Option EntryKey)) : ∀ p : Part, p.Sound (p.handAll xs).1 := by
  induction xs with
  | nil => exact Part.Sound.refl
  | cons x rest ih =>
    obtain ⟨cue, key⟩ := x
    intro p
    exact (p.handTitles_sound cue key).trans (ih _)

/-- A group of the window joins the history, which keeps its size (R79). -/
theorem pushHistory_fits {q : Sequencer} (h : q.fits) {group : List Entry} (previous : List (LaneIx × Shadow))
    (hg : group.length ≤ q.window.length) :
    (pushHistory q.history group previous).length ≤ 4 ∧ ∀ g ∈ pushHistory q.history group previous, g.entries.length ≤ 8 := by
  obtain ⟨window, history, groups⟩ := h
  unfold pushHistory
  split
  · exact ⟨history, groups⟩
  · refine ⟨List.length_take_le _ _, fun g hgm => ?_⟩
    rcases List.mem_cons.1 (List.mem_of_mem_take hgm) with rfl | old
    · exact hg.trans window
    · exact groups g old

theorem Part.fireHead_sound (p : Part) (how : HowFired) : p.Sound (p.fireHead how) := by
  unfold Part.fireHead
  split
  · exact .refl p
  · next e rest hgroup =>
    extract_lets group slip history s1 p1 handed p2 s2 p3 p4
    have h1 : p.Sound p1 := p.seq_sound _ fun fits =>
      ⟨(afterHead_length_le _).trans fits.1,
        pushHistory_fits fits _ (hgroup ▸ headGroup_length_le p.seq.window : (e :: rest).length ≤ _)⟩
    have h2 : p1.Sound p2 := Part.handAll_sound _ _
    have h3 : p2.Sound p3 := p2.seq_sound _ id
    exact (((h1.trans h2).trans h3).trans (Part.appendAll_sound _ _)).trans (Part.refill_sound _)

theorem Part.overtakeAll_sound (p : Part) (cause : OvertakenCause) (gone : List Entry) : p.Sound (p.overtakeAll cause gone) := by
  refine Part.Sound.foldl _ (fun q g => ?_) _ p
  cases g with
  | nil => exact .refl q
  | cons e rest => exact (q.reportRemoved_sound _).trans (Part.append_sound _ _)

theorem Clock.enter_rest (c : Clock) (b : EndBy) (sec : SectionRec) :
    (c.enter b sec).showTime = c.showTime ∧ (c.enter b sec).profile = c.profile := by
  unfold Clock.enter
  split
  · exact ⟨rfl, rfl⟩
  · exact ⟨rfl, rfl⟩
  · split <;> exact ⟨rfl, rfl⟩

/-- A COUNT record where the end of a section has an origin. -/
theorem Part.reportOrigin_sound (p : Part) (o : Option CountOrigin) (s : Option Nat) :
    p.Sound (match o with
      | some o => p.reportCount o s
      | none => p) := by
  cases o with
  | none => exact .refl p
  | some o => exact p.reportCount_sound o s

theorem Part.enterSection_sound (p : Part) (b : EndBy) (s : Nat) (left : ClockState) (own : ClockCause) :
    p.Sound (p.enterSection b s left own) := by
  unfold Part.enterSection
  extract_lets how old from_ leaving p1 p2 p3 p4 pass s1 q q' p5 p6
  obtain ⟨time, profile⟩ := p.clock.enter_rest b (p.seq.sectionAt s)
  have h1 : p.Sound p1 := p.clock_sound _ time fun h => profile.symm ▸ h
  have h2 : p1.Sound p2 := p1.reportOrigin_sound _ _
  have stands : p2.seq = p.seq := by
    simp only [p2]
    split
    · exact Part.kept_seq (p := p1) (p1.reportCount_keeps _ _).kept
    · rfl
  have h3 : p2.Sound p3 := p2.setWindow_sound (by rw [stands]; exact List.length_filter_le _ _)
  have h4 : p3.Sound p4 := (p3.overtakeAll_sound _ _).trans (Part.dropDeferral_sound _ _)
  have entered : p4.Sound { p4 with seq := { q' with cursor := q'.entryCursor s } } :=
    p4.seq_sound _ fun ⟨window, history, groups⟩ =>
      ⟨window, (List.length_filter_le _ _).trans history, fun g hg => groups g (List.mem_of_mem_filter hg)⟩
  have h5 : p4.Sound p5 := entered.trans (Part.refill_sound _)
  have h6 : p5.Sound p6 := (p5.setNotice_sound _).trans (Part.append_sound _ _)
  exact (((((h1.trans h2).trans h3).trans h4).trans h5).trans h6).trans
    ((Part.reportClock_sound _ _ _).trans (Part.recompute_sound _))

theorem Part.endAct_sound (p : Part) (b : EndBy) (left : ClockState) : p.Sound (p.endAct b left) := by
  unfold Part.endAct
  extract_lets old p1 p2 p3 p4 p5 s1 p6
  have h1 : p.Sound p1 := p.clock_sound _ rfl id
  have h2 : p1.Sound p2 := p1.reportOrigin_sound _ _
  have h3 : p2.Sound p3 := p2.setWindow_sound (Nat.zero_le _)
  have h4 : p3.Sound p5 := (p3.overtakeAll_sound _ _).trans (Part.reportRemoved_sound _ _)
  have h6 : p5.Sound p6 := p5.seq_sound _ fun fits => ⟨fits.1, Nat.zero_le _, fun g hg => absurd hg List.not_mem_nil⟩
  exact ((((h1.trans h2).trans h3).trans h4).trans h6).trans ((p6.setNotice_sound _).trans (Part.reportClock_sound _ _ _))

theorem Part.endSection_sound (p : Part) (b : EndBy) (left : ClockState) (own : ClockCause) : p.Sound (p.endSection b left own) := by
  unfold Part.endSection
  split
  · exact p.endAct_sound b left
  · exact p.enterSection_sound b _ left own

theorem Part.afterFire_sound (p : Part) : p.Sound p.afterFire := by
  unfold Part.afterFire
  split
  · exact p.endSection_sound ..
  · exact p.recompute_sound

/-! ### The evaluation -/

theorem Part.overtake_sound (p : Part) : p.Sound p.overtake := by
  unfold Part.overtake
  split
  · next e tail n rest hw hn =>
    extract_lets gone s1 p1 p2
    have h1 : p.Sound p1 := p.seq_sound _ fun fits => fits.shorter (hn ▸ afterHead_length_le p.seq.window) rfl
    have h2 : p1.Sound p2 := (p1.reportRemoved_sound _).trans (Part.append_sound _ _)
    exact (h1.trans h2).trans ((Part.refill_sound _).trans (Part.recompute_sound _))
  · exact .refl p

theorem Part.evaluate_sound (p : Part) : p.Sound p.evaluate.part := by
  unfold Part.evaluate
  split
  · exact .refl p
  · simp only
    split
    · show p.Sound (if _ then _ else _)
      split
      · exact p.setHead_sound _ _
      · exact .refl p
    · split
      · split
        · exact p.overtake_sound
        · split
          · exact (p.fireHead_sound _).trans (Part.afterFire_sound _)
          · exact p.seq_sound _ id
      · split
        · exact (p.fireHead_sound _).trans (Part.afterFire_sound _)
        · exact p.setHead_sound _ _

theorem Part.settleFor_sound (n : Nat) : ∀ p : Part, p.Sound (p.settleFor n) := by
  induction n with
  | zero => exact Part.Sound.refl
  | succ n ih =>
    intro p
    unfold Part.settleFor
    split
    · exact .refl p
    · split
      · exact (p.endSection_sound _ _ _).trans (ih _)
      · have h := p.evaluate_sound
        split
        · next q hq => rw [hq] at h; exact h
        · next q hq => rw [hq] at h; exact h.trans (ih q)

theorem Part.settle_sound (p : Part) : p.Sound p.settle := Part.settleFor_sound _ p

/-! ### Expiries -/

theorem markReached_length (now : Nat) (w : List Entry) : (markReached now w).length = w.length := by
  induction w with
  | nil => rfl
  | cons e rest ih =>
    unfold markReached
    split
    · rfl
    · rw [List.length_cons, ih, List.length_cons]

theorem Part.dueExpiry_sound (p : Part) : p.Sound p.dueExpiry := by
  unfold Part.dueExpiry
  split
  · exact (p.setWindow_sound (markReached_length _ _).le).trans (Part.settle_sound _)
  · exact .refl p

theorem Part.deferralExpiry_sound (p : Part) : p.Sound p.deferralExpiry := by
  unfold Part.deferralExpiry
  split
  · exact ((p.fireHead_sound _).trans (Part.afterFire_sound _)).trans (Part.settle_sound _)
  · exact .refl p

theorem Part.maxDwellExpiry_sound (p : Part) (i : LaneIx) : p.Sound (p.maxDwellExpiry i) := by
  unfold Part.maxDwellExpiry
  split
  · exact .refl p
  · split
    · exact ((p.modLane_sound i _ fun l => Lane.within_of_still (l.cleared_still _)).trans (Part.append_sound _ _)).trans
        (Part.settle_sound _)
    · exact .refl p

/-! ### Successors -/

theorem Part.reportRemoved_seq (p : Part) (entries : List Entry) : (p.reportRemoved entries).seq = p.seq := by
  unfold Part.reportRemoved
  refine List.foldlRecOn entries _ (motive := fun q : Part => q.seq = p.seq) rfl fun q hq e _ => ?_
  exact List.foldlRecOn allLanes _ (motive := fun r : Part => r.seq = p.seq) hq fun r hr i _ => hr

theorem Part.trim_sound (p : Part) (new : Successor) : p.Sound (p.trim new) := by
  unfold Part.trim
  extract_lets old kept gone p1 p2 s1 p3
  have h1 : p.Sound p1 := p.setWindow_sound (List.length_filter_le _ _)
  have h2 : p1.Sound p2 := (p1.reportRemoved_sound _).trans (Part.dropDeferral_sound _ _)
  have h3 : p2.Sound p3 := p2.seq_sound _ id
  exact ((h1.trans h2).trans h3).trans ((Part.refill_sound _).trans (Part.recompute_sound _))

theorem Part.resolveAgain_sound (p : Part) : p.Sound p.resolveAgain := by
  unfold Part.resolveAgain
  simp only
  split
  · exact .refl p
  · split
    · exact p.trim_sound _
    · split
      · have moved : p.Sound { p with seq := { p.seq with
            heldNext := some p.seq.resolve, cursor := p.seq.nextPassCursor (some p.seq.resolve) } } := p.seq_sound _ id
        exact moved.trans ((Part.refill_sound _).trans (Part.recompute_sound _))
      · exact p.seq_sound _ id

/-! ### BACK (R80) -/

theorem tailGroup_ne_nil {w : List Entry} (h : w ≠ []) : tailGroup w ≠ [] := by
  intro none
  unfold tailGroup at none
  obtain ⟨last, withs⟩ := List.append_eq_nil_iff.1 none
  rw [List.reverse_eq_nil_iff] at withs
  simp [withs, h] at last

/-- Where the window is within its size, the groups removed from the tail leave room for the group brought back. -/
theorem Part.makeRoom_room (need : Nat) (hneed : need ≤ Config.windowSize) :
    ∀ (n : Nat) (p : Part), p.seq.window.length ≤ n → (p.makeRoom n need).seq.window.length + need ≤ Config.windowSize := by
  intro n
  induction n with
  | zero =>
    intro p h
    have : p.seq.window.length = 0 := by omega
    show p.seq.window.length + need ≤ _
    omega
  | succ n ih =>
    intro p h
    unfold Part.makeRoom
    split
    · assumption
    · split
      · next full _ none =>
        have : p.seq.window = [] := by
          by_contra some
          exact tailGroup_ne_nil some none
        rw [this, List.length_nil] at full
        omega
      · next e rest tail =>
        refine ih _ ?_
        show (Part.reportRemoved _ _).seq.window.length ≤ n
        rw [Part.reportRemoved_seq]
        show (List.take _ _).length ≤ n
        rw [List.length_take, List.length_cons]
        omega

theorem Part.makeRoom_sound (n need : Nat) : ∀ p : Part, p.Sound (p.makeRoom n need) := by
  induction n with
  | zero => exact Part.Sound.refl
  | succ n ih =>
    intro p
    unfold Part.makeRoom
    split
    · exact .refl p
    · split
      · exact .refl p
      · extract_lets kept q
        have h1 : p.Sound q := (p.setWindow_sound (List.length_take_le' _ _)).trans (Part.reportRemoved_sound _ _)
        exact (h1.trans (Part.setCursor_sound _ _)).trans (ih _)

theorem Part.makeRoom_history (n need : Nat) : ∀ p : Part, (p.makeRoom n need).seq.history = p.seq.history := by
  induction n with
  | zero => intro p; rfl
  | succ n ih =>
    intro p
    unfold Part.makeRoom
    split
    · rfl
    · split
      · rfl
      · refine (ih _).trans ?_
        show (Part.reportRemoved _ _).seq.history = _
        rw [Part.reportRemoved_seq]
        rfl

theorem Part.lookAgain_sound (p : Part) : p.Sound p.lookAgain :=
  .foldl _ (fun q i => q.modLane_sound i _ fun l => Lane.within_of_kept (l.lookAgain_kept i _)) _ p

/-- A group of the history back at the head of the window: the room made for it keeps the window within its size. -/
theorem Part.popGroup_sound (p : Part) {g : FiredGroup} {rest : List FiredGroup} (top : p.seq.history = g :: rest) :
    p.Sound (p.popGroup g rest) := by
  unfold Part.popGroup
  extract_lets s1 p1 p2 p3 back s2 p4 p5
  have h1 : p.Sound p1 := p.seq_sound _ fun ⟨window, history, groups⟩ => by
    rw [top] at history groups
    exact ⟨window, (Nat.le_succ _).trans history, fun x hx => groups x (List.mem_cons_of_mem _ hx)⟩
  have h2 : p1.Sound p2 := Part.makeRoom_sound _ _ _
  have h3 : p2.Sound p3 := by
    simp only [p3]
    split
    · exact p2.setHead_sound _ _
    · exact .refl p2
  have length : p3.seq.window.length = p2.seq.window.length := by
    simp only [p3]
    split
    · show (List.map _ _ ++ _).length = _
      rw [List.length_append, List.length_map, ← List.length_append, headGroup_append_afterHead]
    · rfl
  have cleared := (h1.trans h2).trans h3
  have h4 : p.Sound { p3 with seq := { p3.seq with window := back ++ p3.seq.window, deferAt := none } } :=
    cleared.withSeq _ fun fit => by
      obtain ⟨⟨_, history, groups⟩, -⟩ := cleared.lists fit
      have room := Part.makeRoom_room g.entries.length (fit.1.2.2 g (top ▸ List.mem_cons_self)) Config.windowSize p1 fit.1.1
      have fills : (back ++ p3.seq.window).length ≤ Config.windowSize := by
        rw [List.length_append, List.length_map, length, Nat.add_comm]
        exact room
      exact ⟨fills, history, groups⟩
  have h5 : p4.Sound p5 := by
    refine Part.Sound.foldl _ (fun q (x : LaneIx × Shadow) => ?_) _ p4
    exact q.modLane_sound x.1 _ fun l => Lane.within_of_still (l.restore_still _ _ _)
  exact ((h4.trans (Part.lookAgain_sound _)).trans h5).trans
    (((Part.refill_sound _).trans (Part.recompute_sound _)).trans (Part.settle_sound _))

theorem Part.back_sound (p : Part) : p.Sound p.back.1 := by
  unfold Part.back
  split
  · exact .refl p
  · split
    · exact .refl p
    · next g rest top => exact p.popGroup_sound top

/-! ### GO, arming and STOP -/

theorem Part.fireByGo_sound (p : Part) : p.Sound p.fireByGo := by
  unfold Part.fireByGo
  split
  · exact .refl p
  · exact (p.fireHead_sound _).trans (Part.afterFire_sound _)

theorem Part.go_sound (p : Part) : p.Sound p.go.1 := by
  unfold Part.go
  simp only
  split
  · exact ((p.seq_sound { p.seq with vampExit := true } id).trans (Part.resolveAgain_sound _)).trans (Part.settle_sound _)
  · exact p.fireByGo_sound.trans (Part.settle_sound _)
  · exact ((p.endSection_sound _ _ _).trans (Part.fireByGo_sound _)).trans (Part.settle_sound _)
  · exact .refl p

theorem Part.prime_sound (p : Part) (s : Nat) (place : ListPlace) : p.Sound (p.prime s place).1 := by
  unfold Part.prime
  exact ((p.appendAll_sound _).trans (Part.handAll_sound _ _)).trans (Part.appendAll_sound _ _)

theorem Clock.arm_rest (c : Clock) (sec : SectionRec) (count : Nat) :
    (c.arm sec count).showTime = c.showTime ∧ (c.arm sec count).profile = c.profile := by
  unfold Clock.arm
  split <;> exact ⟨rfl, rfl⟩

theorem Part.armAt_sound (p : Part) (s count : Nat) (prime : Bool) (how : HowEntered) (from_ : Option Nat) :
    p.Sound (p.armAt s count prime how from_).1 := by
  unfold Part.armAt
  extract_lets start s1 q q' p1 primed p2 left s2 p3 p4
  have h1 : p.Sound p1 := (p.seq_sound q' fun fits => ⟨fits.1, Nat.zero_le _, fun g hg => absurd hg List.not_mem_nil⟩).trans
    (Part.refill_sound _)
  have h2 : p1.Sound p2 := by
    simp only [p2, primed]
    split
    · exact p1.prime_sound _ _
    · exact .refl p1
  obtain ⟨time, profile⟩ := p2.clock.arm_rest (p2.seq.sectionAt s) count
  have h3 : p2.Sound p3 := (p2.clock_sound _ time fun h => profile.symm ▸ h).withSeq _ fun fit => fit.1
  have h4 : p3.Sound p4 := ((Part.reportClock_sound _ _ _).trans (Part.setNotice_sound _ _)).trans (Part.append_sound _ _)
  exact (((h1.trans h2).trans h3).trans h4).trans ((Part.recompute_sound _).trans (Part.settle_sound _))

theorem Part.flush_sound (p : Part) : p.Sound p.flush :=
  (p.seq_sound { p.seq with window := [], deferAt := none } fun fits => fits.shorter (Nat.zero_le _) rfl).trans
    (Part.reportRemoved_sound _ _)

theorem Part.clearLane_sound (cause : ClearedCause) (p : Part) (i : LaneIx) : p.Sound (p.clearLane cause i) := by
  unfold Part.clearLane
  extract_lets before p1
  have h1 : p.Sound p1 := p.modLane_sound i _ fun l => Lane.within_of_still (l.cleared_still _)
  split
  · exact h1.trans (Part.append_sound _ _)
  · exact h1

theorem Part.clearLanes_sound (p : Part) (keep : Bool) (cause : ClearedCause) : p.Sound (p.clearLanes keep cause) := by
  unfold Part.clearLanes
  split
  · exact .refl p
  · exact .foldl _ (Part.clearLane_sound cause) _ p

theorem Part.jump_sound (p : Part) (s count : Nat) (keep prime : Bool) : p.Sound (p.jump s count keep prime).1 := by
  unfold Part.jump
  extract_lets from_ p1 s1 p2
  have h2 : p1.Sound p2 := p1.seq_sound _ fun fits => ⟨fits.1, Nat.zero_le _, fun g hg => absurd hg List.not_mem_nil⟩
  exact ((p.flush_sound.trans h2).trans (Part.clearLanes_sound _ _ _)).trans (Part.armAt_sound ..)

theorem Sequencer.fits_of_empty {q : Sequencer} (hw : q.window = []) (hh : q.history = []) : q.fits := by
  simp [Sequencer.fits, hw, hh]

theorem Part.stopAct_sound (p : Part) (keep : Bool) : p.Sound (p.stopAct keep) := by
  unfold Part.stopAct
  extract_lets p1 p2 left p3
  have h3 : p2.Sound p3 := (p2.clock_sound p2.clock.stopped rfl id).trans
    (Part.seq_sound _ p2.seq.rest fun _ => Sequencer.fits_of_empty rfl rfl)
  exact ((p.flush_sound.trans (Part.clearLanes_sound _ _ _)).trans h3).trans (Part.reportClock_sound _ _ _)

end Sys2Proof.Machine
end

/-! PROOFS. The acts of the screen links, the clock unit, the console and the requests keep the part sound. -/

section
namespace Sys2Proof.Machine

open Sys2Proof (LaneIx SlotIx BeatInput Key AckOutcome)

/-! ### The screen link: a lane's acts -/

theorem Lane.atBoundary_within (l : Lane) : l.Within l.atBoundary := Lane.within_of_still l.atBoundary_still

/-- An express frame begins only where the outstanding list has room (R123). -/
theorem Lane.expressReady_room {l : Lane} {f : Express} (h : l.expressReady = some f) : l.outstanding.length < 6 := by
  unfold Lane.expressReady at h
  split at h
  · assumption
  · cases h

/-- A normal frame opens only where the outstanding list has room (R124). -/
theorem Lane.nextNormal_room {l : Lane} {i : LaneIx} {window : List Entry} {n : NormalChoice}
    (h : l.nextNormal i window = some n) : l.outstanding.length < 6 := by
  unfold Lane.nextNormal at h
  split at h
  · next room => exact room.1
  · cases h

/-- An express frame is chosen only where one can begin (R123). -/
theorem Lane.choice_openExpress {l : Lane} {i : LaneIx} {window : List Entry} {f : Express}
    (h : l.choice i window = .openExpress f) : l.expressReady = some f := by
  unfold Lane.choice at h
  split at h
  · cases h
  · split at h
    · split at h
      · cases h; assumption
      · cases h
    · split at h
      · split at h
        · cases h
        · split at h
          · cases h
          · split at h <;> cases h
      · split at h
        · cases h; assumption
        · split at h <;> cases h

/-- A normal frame is opened only where one is waiting (R123, R124). -/
theorem Lane.choice_openNormal {l : Lane} {i : LaneIx} {window : List Entry} {n : NormalChoice}
    (h : l.choice i window = .openNormal n) : l.nextNormal i window = some n := by
  unfold Lane.choice at h
  split at h
  · cases h
  · split at h
    · split at h <;> cases h
    · split at h
      · split at h
        · cases h
        · split at h
          · cases h
          · split at h <;> cases h
      · split at h
        · cases h
        · split at h
          · cases h; assumption
          · cases h

theorem Lane.openFrame_within {l m : Lane} (h : l.Within m) (room : l.outstanding.length ≤ 6 → m.outstanding.length < 6) (now : Nat)
    (kind : FrameKind) (buffer : Option (Fin 2)) (token : Nat) (cue : Option Half) (content : List Byte) (attempt : Nat) :
    l.Within (m.openFrame now kind buffer token cue content attempt) := by
  refine ⟨h.1, fun k => ?_⟩
  have room := room k
  show (if kind = .hello then m.outstanding else m.outstanding ++ [_]).length ≤ 6
  split
  · omega
  · rw [List.length_append]
    exact room

theorem Lane.setRec_within (l : Lane) (b : Fin 2) (r : StagingRec) : l.Within (l.setRec b r) := Lane.within_of_eq rfl rfl

theorem Lane.markShown_kept (l : Lane) (b : Fin 2) (token : Nat) : (l.markShown b token).kept = l.kept := by
  unfold Lane.markShown
  split <;> rfl

theorem Lane.openExpress_within (l : Lane) (now : Nat) (f : Express) (room : l.outstanding.length < 6) :
    l.Within (l.openExpress now f) := by
  unfold Lane.openExpress
  simp only
  split
  · next _ b token cue _ =>
    have same := Lane.markShown_kept { l with express := l.express.drop 1 } b token
    have outstanding : (Lane.markShown { l with express := l.express.drop 1 } b token).outstanding = l.outstanding :=
      (congrArg (fun x : Lane => x.outstanding) same :)
    exact Lane.openFrame_within ((Lane.within_of_eq rfl rfl : l.Within { l with express := l.express.drop 1 }).trans
      (Lane.within_of_kept same)) (fun _ => by rw [outstanding]; exact room) ..
  · exact Lane.openFrame_within (Lane.within_of_eq rfl rfl) (fun _ => room) now ..

theorem Lane.openStage_within {l m : Lane} (hc : m.cfg = l.cfg) (ho : m.outstanding = l.outstanding)
    (room : l.outstanding.length < 6) (now : Nat) (mem : Memory) (b : Fin 2) : l.Within (m.openStage now mem b) :=
  Lane.openFrame_within (now := now) (Lane.within_of_eq hc ho) (fun _ => ho ▸ room) ..

theorem Lane.markClosed_within (l : Lane) (now : Nat) (seq : Byte) : l.Within (l.markClosed now seq) :=
  ⟨id, fun h => (List.length_map _).trans_le h⟩

theorem Lane.stageClosed_still (l : Lane) (b : Fin 2) (token : Nat) : (l.stageClosed b token).still = l.still := by
  unfold Lane.stageClosed
  simp only
  split
  · split
    · exact (Lane.queueShow_still _ _).trans rfl
    · rfl
  · rfl

theorem Lane.closeFrame_within (l : Lane) (now : Nat) (f : InFlight) : l.Within (l.closeFrame now f) := by
  unfold Lane.closeFrame
  extract_lets tx l1 tx' l2 l3
  have h2 : l.Within l2 := Lane.within_of_eq rfl rfl
  have h3 : l2.Within l3 := by
    simp only [l3]
    split
    · exact Lane.within_of_eq rfl rfl
    · exact l2.markClosed_within now f.seq
  refine (h2.trans h3).trans ?_
  split
  · exact Lane.within_of_still (Lane.stageClosed_still _ _ _)
  all_goals exact Lane.within_of_eq rfl rfl

/-- An entry to SYNC, OFF, FAULT or LIVE empties the outstanding list and keeps the configuration (R133). -/
theorem Lane.within_of_cleared {l m : Lane} (hc : m.cfg = l.cfg) (ho : m.outstanding = []) : l.Within m :=
  ⟨fun h => hc ▸ h, fun _ => by rw [ho]; exact Nat.zero_le _⟩

theorem Lane.freeMissed_kept (l : Lane) (e : Outstanding) : (l.freeMissed e).kept = l.kept := by
  unfold Lane.freeMissed Lane.freeTitle
  split
  · split
    · split <;> rfl
    · rfl
  · split
    · split <;> rfl
    · rfl
  all_goals rfl

theorem Lane.resendOrDrop_still (l : Lane) (e : Outstanding) : (l.resendOrDrop e).still = l.still := by
  unfold Lane.resendOrDrop
  split
  · simp only
    split <;> rfl
  · simp only
    split
    · exact Lane.queueExpress_still _ _
    · split <;> rfl
  · split
    · exact Lane.queueExpress_still _ _
    · rfl
  · rfl

theorem Lane.acked_within (l : Lane) (e : Outstanding) (outcome : AckOutcome) : l.Within (l.acked e outcome) := by
  unfold Lane.acked
  extract_lets m
  have same : l.Within m := by
    simp only [m]
    split
    · split
      · cases outcome <;> exact Lane.within_of_eq rfl rfl
      · exact Lane.within_of_eq rfl rfl
    · split <;> exact Lane.within_of_eq rfl rfl
    · exact Lane.within_of_eq rfl rfl
  split
  · exact same.trans (Lane.within_of_eq rfl rfl)
  · exact same

theorem Lane.heard_still_eq (l : Lane) (now : Nat) : (l.heard now).cfg = l.cfg ∧ (l.heard now).outstanding = l.outstanding := by
  unfold Lane.heard
  split <;> exact ⟨rfl, rfl⟩

/-! ### The screen link: a part's acts -/

/-- A STAGE opened behind its TRUNCATED records. -/
theorem Part.stageOpened_sound (p : Part) (i : LaneIx) (records : List Record) {m : Lane} (hc : m.cfg = (p.lane i).cfg)
    (ho : m.outstanding = (p.lane i).outstanding) (room : (p.lane i).outstanding.length < 6) (now : Nat) (mem : Memory)
    (b : Fin 2) : p.Sound ((p.appendAll records).setLane i (m.openStage now mem b)) := by
  have same : ((p.appendAll records).lane i).kept = (p.lane i).kept := Part.kept_lane (p.appendAll_keeps _).kept i
  have cfg := (congrArg (fun x : Lane => x.cfg) same :)
  have outstanding := (congrArg (fun x : Lane => x.outstanding) same :)
  exact (p.appendAll_sound records).trans (Part.setLane_sound _ i _
    (Lane.openStage_within (hc.trans cfg.symm) (ho.trans outstanding.symm) (outstanding.symm ▸ room) ..))

theorem Part.openNormal_sound (p : Part) (i : LaneIx) (n : NormalChoice) (room : (p.lane i).outstanding.length < 6) :
    p.Sound (p.openNormal i n) := by
  unfold Part.openNormal
  cases n with
  | drop b => exact p.setLane_sound i _ (Lane.openFrame_within (Lane.within_of_eq rfl rfl) (fun _ => room) ..)
  | lateStage b => exact p.stageOpened_sound i _ (by rfl) (by rfl) room ..
  | ahead b e t => exact p.stageOpened_sound i _ (by rfl) (by rfl) room ..
  | resend r => exact p.setLane_sound i _ (Lane.openFrame_within (Lane.within_of_eq rfl rfl) (fun _ => room) p.now ..)
  | hello =>
    have opened := Lane.openFrame_within (Lane.within_of_eq (m := p.lane i) rfl rfl) (fun _ => room) p.now .hello none 0 none
      (helloContent (p.lane i) i) 1
    exact p.setLane_sound i _ (opened.trans (Lane.within_of_eq rfl rfl))

theorem Part.frameOpen_sound (p : Part) (i : LaneIx) : p.Sound (p.frameOpen i) := by
  unfold Part.frameOpen
  extract_lets l
  have bounded : (p.lane i).Within l := Lane.atBoundary_within _
  split
  · exact .refl p
  · split
    · next f chosen =>
      exact p.setLane_sound i _ (bounded.trans (l.openExpress_within _ _ (Lane.expressReady_room (Lane.choice_openExpress chosen))))
    · next n chosen =>
      refine (p.setLane_sound i l bounded).trans (Part.openNormal_sound _ i n ?_)
      rw [Part.lane_setLane_same]
      exact Lane.nextNormal_room (Lane.choice_openNormal chosen)
    all_goals exact .refl p

theorem Part.frameClose_sound (p : Part) (i : LaneIx) : p.Sound (p.frameClose i) := by
  unfold Part.frameClose
  extract_lets l
  have closes : ∀ f, p.Sound (p.setLane i (l.closeFrame p.now f)) := fun f =>
    p.setLane_sound i _ ((Lane.atBoundary_within _).trans (l.closeFrame_within _ f))
  split
  · exact .refl p
  · split
    · exact closes _
    · split
      · exact .refl p
      · exact closes _
    all_goals exact .refl p

theorem Part.suspend_sound (p : Part) (i : LaneIx) : p.Sound (p.suspend i) := by
  unfold Part.suspend
  extract_lets l
  split
  · exact p.setLane_sound i _ ((Lane.atBoundary_within _).trans (Lane.within_of_eq rfl rfl))
  · exact .refl p

theorem Part.resume_sound (p : Part) (i : LaneIx) : p.Sound (p.resume i) := by
  unfold Part.resume
  extract_lets l
  split
  · exact p.setLane_sound i _ ((Lane.atBoundary_within _).trans (Lane.within_of_eq rfl rfl))
  · exact .refl p

theorem Part.cancel_sound (p : Part) (i : LaneIx) : p.Sound (p.cancel i) := by
  unfold Part.cancel
  extract_lets l
  split
  · exact p.setLane_sound i _ ((Lane.atBoundary_within _).trans
      ⟨id, fun h => (List.length_filter_le _ _).trans h⟩)
  · exact .refl p

theorem Part.plainChar_sound (p : Part) (i : LaneIx) : p.Sound (p.plainChar i) := by
  unfold Part.plainChar
  extract_lets l
  have sends : ∀ m : Lane, m.cfg = l.cfg → m.outstanding = l.outstanding → p.Sound (p.setLane i m) := fun m hc ho =>
    p.setLane_sound i _ ((Lane.atBoundary_within _).trans (Lane.within_of_eq hc ho))
  split <;> exact sends _ rfl rfl

/-- A change of one lane, with the record that says so. -/
theorem Part.modLane_append_sound (p : Part) (i : LaneIx) (f : Lane → Lane) (r : Record) (h : ∀ l : Lane, l.Within (f l)) :
    p.Sound ((p.modLane i f).append r) :=
  (p.modLane_sound i f h).trans (Part.append_sound _ r)

theorem Lane.toSync_within (l : Lane) (now : Nat) : l.Within (l.toSync now) := Lane.within_of_cleared rfl rfl

theorem Lane.toOff_within (l : Lane) : l.Within l.toOff := Lane.within_of_cleared rfl rfl

theorem Lane.toFault_within (l : Lane) : l.Within l.toFault := Lane.within_of_cleared rfl rfl

theorem Part.enterSync_sound (p : Part) (i : LaneIx) (cause : LaneCause) : p.Sound (p.enterSync i cause) := by
  unfold Part.enterSync
  exact p.modLane_append_sound i _ _ fun l => l.toSync_within _

theorem Part.enterOff_sound (p : Part) (i : LaneIx) (cause : LaneCause) : p.Sound (p.enterOff i cause) := by
  unfold Part.enterOff
  exact p.modLane_append_sound i _ _ Lane.toOff_within

theorem Part.enterFault_sound (p : Part) (i : LaneIx) : p.Sound (p.enterFault i) := by
  unfold Part.enterFault
  exact (p.setLane_sound i _ (Lane.toFault_within _)).trans (Part.append_sound _ _)

theorem Part.miss_sound (p : Part) (i : LaneIx) (e : Outstanding) : p.Sound (p.miss i e) := by
  unfold Part.miss
  extract_lets p1 l p2
  have h1 : p.Sound p1 := p.modLane_sound i _ fun l => (Lane.within_of_kept (l.freeMissed_kept e)).trans (Lane.within_of_eq rfl rfl)
  have h2 : p1.Sound p2 := p1.append_sound _
  split
  · exact (h1.trans h2).trans (Part.enterFault_sound _ i)
  · exact h1.trans h2

theorem Part.removeEntry_sound (p : Part) (i : LaneIx) (e : Outstanding) :
    p.Sound (p.modLane i fun l => { l with outstanding := l.outstanding.filter fun x => decide (x ≠ e) }) :=
  p.modLane_sound i _ fun _ => ⟨id, fun h => (List.length_filter_le _ _).trans h⟩

theorem Part.timeOut_sound (p : Part) (i : LaneIx) (e : Outstanding) : p.Sound (p.timeOut i e) := by
  have removed := p.removeEntry_sound i e
  unfold Part.timeOut
  simp only
  split
  · exact removed.trans (Part.modLane_sound _ i _ fun l => Lane.within_of_still (l.resendOrDrop_still e))
  · exact removed.trans (Part.miss_sound _ i e)

theorem Part.ackTimeout_sound (p : Part) (i : LaneIx) (seq : Byte) : p.Sound (p.ackTimeout i seq) := by
  unfold Part.ackTimeout
  simp only
  split
  · exact .refl p
  · split
    · exact .refl p
    · exact p.timeOut_sound i _

theorem Part.stray_sound (p : Part) (i : LaneIx) (kind echo : Byte) : p.Sound (p.stray i kind echo) := by
  unfold Part.stray
  exact p.modLane_append_sound i _ _ fun _ => Lane.within_of_eq rfl rfl

theorem Part.ackMatched_sound (p : Part) (i : LaneIx) (e : Outstanding) (c : Closing) (outcome : AckOutcome) :
    p.Sound (p.ackMatched i e c outcome) := by
  unfold Part.ackMatched
  extract_lets earlier p1 p2 p3
  have h1 : p.Sound p1 := p.modLane_sound i _ fun _ => ⟨id, fun h => (List.length_filter_le _ _).trans h⟩
  have h2 : p1.Sound p2 := Part.Sound.foldl _ (fun q x => by
    split
    · exact q.timeOut_sound i x
    · exact .refl q) _ _
  have h3 : p2.Sound p3 := p2.modLane_sound i _ fun l => l.acked_within e outcome
  split
  · exact ((h1.trans h2).trans h3).trans (Part.append_sound _ _)
  · exact (h1.trans h2).trans h3

theorem Part.takeAck_sound (p : Part) (i : LaneIx) (echo : Byte) (outcome : AckOutcome) : p.Sound (p.takeAck i echo outcome) := by
  have matched : p.Sound (match (p.lane i).matchAck echo with
      | some (e, c) => p.ackMatched i e c outcome
      | none => p.stray i 0x51 echo) := by
    split
    · exact p.ackMatched_sound ..
    · exact p.stray_sound ..
  unfold Part.takeAck
  simp only
  split
  · exact matched
  · exact matched
  · exact p.stray_sound ..
  · exact .refl p
  · exact .refl p

theorem Part.comeLive_sound (p : Part) (i : LaneIx) (cause : LaneCause) (echo buffers maxLine : Byte) :
    p.Sound (p.comeLive i cause echo buffers maxLine) := by
  unfold Part.comeLive
  extract_lets left p1 p2
  have h1 : p.Sound p1 := p.modLane_sound i _ fun _ => Lane.within_of_cleared rfl rfl
  have h2 : p1.Sound p2 := p1.append_sound _
  exact (h1.trans h2).trans (Part.modLane_sound _ i _ fun l => Lane.within_of_still (l.catchUp_still _))

theorem Part.takeReady_sound (p : Part) (i : LaneIx) (echo buffers maxLine : Byte) : p.Sound (p.takeReady i echo buffers maxLine) := by
  unfold Part.takeReady
  split
  · split
    · exact p.comeLive_sound ..
    · exact p.stray_sound ..
  · exact p.comeLive_sound ..
  · exact p.comeLive_sound ..
  · exact .refl p
  · exact .refl p

theorem Part.takeBusy_sound (p : Part) (i : LaneIx) : p.Sound (p.takeBusy i) := by
  unfold Part.takeBusy
  split
  · exact p.modLane_append_sound i _ _ fun _ => Lane.within_of_eq rfl rfl
  · exact .refl p

theorem Part.takeFree_sound (p : Part) (i : LaneIx) : p.Sound (p.takeFree i) := by
  unfold Part.takeFree
  split
  · exact p.modLane_append_sound i _ _ fun _ => Lane.within_of_eq rfl rfl
  · exact .refl p

theorem Part.takeBad_sound (p : Part) (i : LaneIx) : p.Sound (p.takeBad i) :=
  p.modLane_sound i _ fun _ => Lane.within_of_eq rfl rfl

theorem Part.takeReply_sound (p : Part) (i : LaneIx) (r : Reply) : p.Sound (p.takeReply i r) := by
  cases r with
  | ready echo buffers maxLine => exact p.takeReady_sound ..
  | ack echo outcome => exact p.takeAck_sound ..
  | busy => exact p.takeBusy_sound i
  | free => exact p.takeFree_sound i
  | bad => exact p.takeBad_sound i

theorem Part.setReceiver_sound (p : Part) (i : LaneIx) (rx : Receiver) : p.Sound (p.setReceiver i rx) :=
  p.modLane_sound i _ fun l => Lane.within_of_eq (l.heard_still_eq p.now).1 (l.heard_still_eq p.now).2

theorem Part.receiveChar_sound (p : Part) (i : LaneIx) (b : Byte) (framingError : Bool) :
    p.Sound (p.receiveChar i b framingError) := by
  unfold Part.receiveChar
  simp only
  split
  · exact .refl p
  · split
    · exact p.setReceiver_sound i _
    · split
      · exact (p.setReceiver_sound i _).trans (Part.takeBad_sound _ i)
      · exact (p.setReceiver_sound i _).trans (Part.takeReply_sound _ i _)

theorem Part.wholeReply_sound (p : Part) (i : LaneIx) (r : Reply) : p.Sound (p.wholeReply i r) := by
  unfold Part.wholeReply
  split
  · exact (p.setReceiver_sound i _).trans (Part.takeReply_sound _ i _)
  · exact .refl p

theorem Part.silence_sound (p : Part) (i : LaneIx) : p.Sound (p.silence i) := by
  unfold Part.silence
  split
  · exact p.enterSync_sound i _
  · exact .refl p

theorem Part.helloExpiry_sound (p : Part) (i : LaneIx) : p.Sound (p.helloExpiry i) := by
  unfold Part.helloExpiry
  simp only
  split
  · exact p.setLane_sound i _ (Lane.within_of_eq rfl rfl)
  · exact .refl p

/-! ### The clock unit -/

theorem Part.advance_sound (p : Part) (t : Nat) (origin : CountOrigin) (left : ClockState) (own : ClockCause) :
    p.Sound (p.advance t origin left own) := by
  unfold Part.advance
  split
  · extract_lets c q
    have moved : p.Sound q := p.clock_sound { p.clock with c0 := p.clock.c0 + 1, t0 := t } rfl id
    exact ((moved.trans (Part.reportCount_sound _ _ _)).trans (Part.reportClock_sound _ _ _)).trans (Part.recompute_sound _)
  · exact p.endSection_sound ..

theorem Part.standingCount_sound (p : Part) (origin : CountOrigin) (left : ClockState) : p.Sound (p.standingCount origin left) :=
  ((p.reportCount_sound _ _).trans (Part.reportClock_sound _ _ _)).trans (Part.recompute_sound _)

theorem Clock.pulseLocking_rest (c : Clock) (t : Nat) :
    (c.pulseLocking t).1.showTime = c.showTime ∧ (c.pulseLocking t).1.profile = c.profile := by
  unfold Clock.pulseLocking
  split <;> exact ⟨rfl, rfl⟩

theorem Clock.pulseFollowing_rest (c : Clock) (t : Nat) :
    (c.pulseFollowing t).1.showTime = c.showTime ∧ (c.pulseFollowing t).1.profile = c.profile := by
  unfold Clock.pulseFollowing
  split
  · exact ⟨rfl, rfl⟩
  · split <;> exact ⟨rfl, rfl⟩

theorem Part.setClock_sound (p : Part) {c : Clock} (h : c.showTime = p.clock.showTime ∧ c.profile = p.clock.profile) :
    p.Sound (p.setClock c) := p.clock_sound c h.1 fun k => h.2.symm ▸ k

/-- The clock set, and the count on it. -/
theorem Part.setClock_advance_sound (p : Part) {c : Clock} (h : c.showTime = p.clock.showTime ∧ c.profile = p.clock.profile)
    (t : Nat) (origin : CountOrigin) (left : ClockState) (own : ClockCause) :
    p.Sound ((p.setClock c).advance t origin left own) := (p.setClock_sound h).trans (Part.advance_sound ..)

theorem Part.setClock_standing_sound (p : Part) {c : Clock} (h : c.showTime = p.clock.showTime ∧ c.profile = p.clock.profile)
    (origin : CountOrigin) (left : ClockState) : p.Sound ((p.setClock c).standingCount origin left) :=
  (p.setClock_sound h).trans (Part.standingCount_sound ..)

/-- The clock put into HELD, with the record that says so. -/
theorem Part.setHeld_sound (p : Part) (fh : Nat) (left : ClockState) (cause : ClockCause) :
    p.Sound ((p.setClock (p.clock.hold fh)).reportClock left cause).recompute :=
  ((p.setClock_sound (by exact ⟨rfl, rfl⟩)).trans (Part.reportClock_sound _ _ _)).trans (Part.recompute_sound _)

theorem Part.acceptPulse_sound (p : Part) (t : Nat) : p.Sound (p.acceptPulse t) := by
  unfold Part.acceptPulse
  extract_lets c
  split
  · exact .refl p
  · exact .refl p
  · exact p.setClock_standing_sound (by exact ⟨rfl, rfl⟩) _ _
  · exact p.setClock_advance_sound (c.pulseLocking_rest t) _ _ _ _
  · exact p.setClock_advance_sound (c.pulseFollowing_rest t) _ _ _ _
  · split
    · exact p.setClock_standing_sound (by exact ⟨rfl, rfl⟩) _ _
    · exact p.setClock_advance_sound (by exact ⟨rfl, rfl⟩) _ _ _ _
  · exact p.setClock_advance_sound (by exact ⟨rfl, rfl⟩) _ _ _ _

theorem Part.takePulse_sound (p : Part) (t : Nat) : p.Sound (p.takePulse t) := by
  unfold Part.takePulse
  split
  · exact .refl p
  · exact (p.acceptPulse_sound t).trans (Part.settle_sound _)

theorem Clock.setFilter_rest (c : Clock) (i : BeatInput) (f : BeatFilter) :
    (c.setFilter i f).showTime = c.showTime ∧ (c.setFilter i f).profile = c.profile := by
  cases i <;> exact ⟨rfl, rfl⟩

theorem Part.pulse_sound (p : Part) (i : BeatInput) : p.Sound (p.pulse i) := by
  unfold Part.pulse
  split
  · split
    · extract_lets q
      have waiting : p.Sound q := p.setClock_sound (p.clock.setFilter_rest i .waiting)
      split
      · exact waiting.trans (q.takePulse_sound _)
      · exact waiting
    · exact .refl p
  all_goals exact .refl p

theorem Part.lateDetection_sound (p : Part) : p.Sound p.lateDetection := by
  unfold Part.lateDetection
  split
  · extract_lets c
    split
    · exact (p.setClock_advance_sound (by exact ⟨rfl, rfl⟩) _ _ _ _).trans (Part.settle_sound _)
    · exact ((p.setHeld_sound 63 _ _).trans (Part.dropAbsent_sound _)).trans (Part.settle_sound _)
  · exact .refl p

theorem Part.sectionTimer_sound (p : Part) : p.Sound p.sectionTimer := by
  unfold Part.sectionTimer
  split
  · split
    · exact (p.endSection_sound ..).trans (Part.settle_sound _)
    · exact .refl p
  · exact .refl p

theorem Part.hold_sound (p : Part) : p.Sound p.hold.1 := by
  have held : p.Sound ((((p.setClock (p.clock.hold p.clock.fraction)).reportClock p.clock.state .hold).recompute).settle) :=
    (p.setHeld_sound _ _ _).trans (Part.settle_sound _)
  unfold Part.hold
  split
  · exact held
  · exact held
  · exact held
  all_goals exact .refl p

theorem Part.applyProfile_sound (p : Part) (f : Profile) (h : f.inRange) : p.Sound (p.applyProfile f) := by
  unfold Part.applyProfile
  extract_lets c period q
  have set : p.Sound q := p.clock_sound { c with profile := f, period := period } rfl fun _ => h
  split
  · exact set
  · exact (set.trans (Part.recompute_sound _)).trans (Part.settle_sound _)

/-! ### The console -/

theorem Part.setKeyFilter_sound (p : Part) (k : Key) (f : KeyFilter) : p.Sound (p.setKeyFilter k f) := p.console_sound _

theorem Part.pressGo_sound (p : Part) : p.Sound p.pressGo := by
  unfold Part.pressGo
  split
  · exact p.reportKey_sound ..
  · exact ((p.console_sound { p.console with lastGo := some p.now }).trans (Part.go_sound _)).trans (Part.reportKey_sound ..)

theorem Part.pressBack_sound (p : Part) : p.Sound p.pressBack := p.back_sound.trans (Part.reportKey_sound ..)

theorem Part.pressHold_sound (p : Part) : p.Sound p.pressHold := p.hold_sound.trans (Part.reportKey_sound ..)

theorem Lane.blank_within (l : Lane) : l.Within l.blank := by
  unfold Lane.blank
  split
  · exact Lane.within_of_eq rfl rfl
  · simp only
    split
    · exact Lane.Within.trans (m := { l with blanked := true, catchUpWaiting := false }) (Lane.within_of_eq rfl rfl)
        (Lane.within_of_still (Lane.queueClear_still _))
    · exact Lane.within_of_eq rfl rfl

theorem Lane.unblank_within (l : Lane) (window : List Entry) : l.Within (l.unblank window) := by
  unfold Lane.unblank
  split
  · exact Lane.Within.trans (m := { l with blanked := false }) (Lane.within_of_eq rfl rfl)
      (Lane.within_of_still (Lane.catchUp_still _ _))
  · exact Lane.within_of_eq rfl rfl

theorem Part.blankLanes_sound (p : Part) (lanes : List LaneIx) : p.Sound (p.blankLanes lanes) := by
  unfold Part.blankLanes
  apply Part.Sound.foldl
  intro q i
  exact q.modLane_sound i _ Lane.blank_within

theorem Part.unblankLanes_sound (p : Part) (lanes : List LaneIx) : p.Sound (p.unblankLanes lanes) := by
  unfold Part.unblankLanes
  apply Part.Sound.foldl
  intro q i
  exact q.modLane_sound i _ fun l => l.unblank_within _

theorem Part.pressBlank_sound (p : Part) : p.Sound p.pressBlank := by
  unfold Part.pressBlank
  extract_lets lanes
  split
  · exact p.reportKey_sound ..
  · split
    · exact ((p.blankLanes_sound _).trans (Part.settle_sound _)).trans (Part.reportKey_sound ..)
    · exact ((p.unblankLanes_sound _).trans (Part.settle_sound _)).trans (Part.reportKey_sound ..)

theorem Part.takePress_sound (p : Part) (k : Key) {press : Part → Part} (h : ∀ q : Part, q.Sound (press q)) :
    p.Sound (p.takePress k press) := by
  unfold Part.takePress
  split
  · exact (p.setKeyFilter_sound k _).trans (h _)
  · exact .refl p

/-! ### Requests -/

theorem Part.scanPeriod_sound (p : Part) : p.Sound p.scanPeriod := by
  unfold Part.scanPeriod
  split
  · exact .refl p
  · split
    · exact p.requests_sound _
    · exact .refl p

theorem Part.beginLoad_sound (p : Part) : p.Sound p.beginLoad :=
  p.flush_sound.trans (Part.seq_sound _ _ fun _ => Sequencer.fits_of_empty rfl rfl)

theorem Part.endLoad_sound (p : Part) : p.Sound p.endLoad.1 := by
  unfold Part.endLoad
  split
  · exact (p.seq_sound _ (by exact fun fits => fits.shorter le_rfl rfl)).trans (Part.append_sound _ _)
  · exact (p.seq_sound _ (by exact fun fits => fits.shorter le_rfl rfl)).trans (Part.append_sound _ _)

theorem Part.reportReplace_sound (p : Part) (s : Nat) (result : Result) (e : LoadError) : p.Sound (p.reportReplace s result e) :=
  (p.seq_sound _ (by exact fun fits => fits.shorter le_rfl rfl)).trans (Part.append_sound _ _)

theorem Part.endReplace_sound (p : Part) (a : ReplaceArgs) : p.Sound (p.endReplace a).1 := by
  unfold Part.endReplace
  extract_lets s
  split
  · exact p.reportReplace_sound ..
  · split
    · exact p.reportReplace_sound ..
    · exact (p.seq_sound _ (by exact fun fits => fits.shorter le_rfl rfl)).trans (Part.reportReplace_sound ..)

theorem Part.requestArm_sound (p : Part) (sect count prime : Nat) : p.Sound (p.requestArm sect count prime).1 := by
  unfold Part.requestArm
  split
  · exact .refl p
  · split
    · exact .refl p
    · exact p.armAt_sound ..

theorem Part.requestJump_sound (p : Part) (sect count keep prime : Nat) : p.Sound (p.requestJump sect count keep prime).1 := by
  unfold Part.requestJump
  split
  · exact .refl p
  · split
    · exact .refl p
    · exact p.jump_sound ..

theorem Part.requestStop_sound (p : Part) (keep : Nat) : p.Sound (p.requestStop keep).1 := by
  unfold Part.requestStop
  split
  · exact .refl p
  · split
    · exact .refl p
    · exact p.stopAct_sound _

theorem Part.writeCut_sound (p : Part) (sect : Nat) (target : Option Nat) : p.Sound (p.writeCut sect target) := by
  unfold Part.writeCut
  extract_lets cuts q
  have set : p.Sound q := p.seq_sound _ fun fits => fits.shorter le_rfl rfl
  split
  · exact (set.trans (Part.resolveAgain_sound _)).trans (Part.settle_sound _)
  · exact set

theorem Part.requestCut_sound (p : Part) (sect : Nat) (target : Option Nat) : p.Sound (p.requestCut sect target).1 := by
  unfold Part.requestCut
  split
  · exact .refl p
  · split
    · exact .refl p
    · exact p.writeCut_sound _ _

theorem Part.requestVampExit_sound (p : Part) : p.Sound p.requestVampExit.1 := by
  unfold Part.requestVampExit
  split
  · exact .refl p
  · split
    · exact .refl p
    · exact ((p.seq_sound { p.seq with vampExit := true } fun fits => fits.shorter le_rfl rfl).trans
        (Part.resolveAgain_sound _)).trans (Part.settle_sound _)

/-- The journal unit's settings replaced, W and the lost count standing. -/
theorem Part.setJournal_sound (p : Part) (j : JournalUnit) (hw : j.w = p.journal.w) (hl : j.lost = p.journal.lost)
    (ha : 1 ≤ p.journal.alert ∧ p.journal.alert ≤ 4096 → 1 ≤ j.alert ∧ j.alert ≤ 4096) : p.Sound (p.setJournal j) where
  mem := .refl _
  enable := rfl
  parity := id
  status h := by
    have shown := h.congr (r := p.setJournal j) (fun _ _ => rfl) rfl rfl
    refine ⟨shown.generation, shown.seq, shown.clock, ?_, shown.lane⟩
    have same : journalStatus (p.setJournal j).journal = journalStatus p.journal := by
      show journalStatus j = _
      simp only [journalStatus, hw, hl]
    rw [same]
    exact shown.journal
  settings := fun ⟨h1, h2, h3, h4, h5, h6⟩ => ⟨h1, h2, h3, (ha ⟨h4, h5⟩).1, (ha ⟨h4, h5⟩).2, (hl ▸ h6 : j.lost ≤ _)⟩
  lists := id

theorem clampTo_bounds {low high v : Nat} (h : low ≤ high) : low ≤ clampTo low high v ∧ clampTo low high v ≤ high := by
  unfold clampTo
  omega

/-- SET_PROFILE's values lie in their ranges (R27). -/
theorem clampProfile_inRange (a : ProfileArgs) : (clampProfile a).1.inRange := by
  have low := clampTo_bounds (low := 60) (high := 1000) (v := a.pulseMin.toNat) (by decide)
  have high := clampTo_bounds (low := 1000) (high := 6000) (v := a.pulseMax.toNat) (by decide)
  have lockIn := clampTo_bounds (low := 10) (high := 500) (v := a.lockIn.toNat) (by decide)
  have lockOut := clampTo_bounds (low := clampTo 10 500 a.lockIn.toNat) (high := 900) (v := a.lockOut.toNat) (by omega)
  have wt := clampTo_bounds (low := 1) (high := 65536) (v := a.wt.toNat) (by decide)
  have lockRun := clampTo_bounds (low := 1) (high := 8) (v := a.lockRun.toNat) (by decide)
  have lateMargin := clampTo_bounds (low := 100) (high := 900) (v := a.lateMargin.toNat) (by decide)
  have coastLimit := clampTo_bounds (low := 0) (high := 8) (v := a.coastLimit.toNat) (by decide)
  have horizon := clampTo_bounds (low := 1) (high := 16) (v := a.horizon.toNat) (by decide)
  have goLockout := clampTo_bounds (low := 0) (high := 2000) (v := a.goLockout.toNat) (by decide)
  simp only [Profile.inRange, clampProfile, crossMax]
  split <;> omega

/-- SET_LANE's values lie in their ranges (R89). -/
theorem clampLane_inRange (a : LaneArgs) : (clampLane a).1.inRange := by
  have depth := clampTo_bounds (low := 1) (high := 2) (v := a.depth.toNat) (by decide)
  have faultLimit := clampTo_bounds (low := 1) (high := 15) (v := a.faultLimit.toNat) (by decide)
  have ackTimeout := clampTo_bounds (low := 5) (high := 250) (v := a.ackTimeout.toNat) (by decide)
  have silenceTimeout := clampTo_bounds (low := 50) (high := 2000) (v := a.silenceTimeout.toNat) (by decide)
  exact ⟨depth.1, depth.2, faultLimit.1, faultLimit.2, ackTimeout.1, ackTimeout.2, silenceTimeout.1, silenceTimeout.2⟩

theorem Part.setProfile_sound (p : Part) (f : Profile) (option : Bool) (h : f.inRange) : p.Sound (p.setProfile f option) :=
  (p.setJournal_sound { p.journal with countRecords := option } rfl rfl id).trans (Part.applyProfile_sound _ f h)

theorem Part.configureLane_sound (p : Part) (i : LaneIx) (c : LaneConfig) (h : c.inRange) : p.Sound (p.configureLane i c) := by
  unfold Part.configureLane
  extract_lets old q
  have set : p.Sound q := by
    refine p.setLane_sound i _ (Lane.Within.trans ⟨fun _ => h, id⟩ (m := { p.lane i with cfg := c }) ?_)
    exact Lane.within_of_kept (Lane.lookAgain_kept _ i _)
  split
  · exact set.trans (Part.enterOff_sound _ _ _)
  · split
    · exact set.trans (Part.enterSync_sound _ _ _)
    · split
      · exact set.trans (Part.enterSync_sound _ _ _)
      · exact set

theorem Part.requestKey_sound (p : Part) (k : Key) {act : Part → Part × KeyOutcome × Option Half}
    (h : ∀ q : Part, q.Sound (act q).1) : p.Sound (p.requestKey k act).1 :=
  (h p).trans (Part.reportKey_sound ..)

end Sys2Proof.Machine
end

/-! PROOFS. What every step keeps: the acts of the links, the clock unit, the console and the requests are sound, and so is the way a
command ends, with its updates, its slot and its outputs. -/

section
namespace Sys2Proof.Machine

open Sys2Proof (LaneIx SlotIx BeatInput Key Instr AccessSize LaneArgs)

/-! ### Acts that write slots too -/

/-- What an act that may write slots too leads to: as a sound act, over the wider area. -/
structure Part.Behaves (p q : Part) : Prop where
  mem : Memory.Reach (fun a => ownByte a ∨ slotByte a) p.mem q.mem
  parity : p.updateParity → q.updateParity
  status : ∀ {x : Sequencer} {c : Clock} {ls : LaneIx → Lane}, p.statusAs x c p.journal ls → q.statusAs x c q.journal ls
  settings : p.settingsIn → q.settingsIn
  lists : p.listsFit → q.listsFit

theorem Part.Behaves.trans {p q r : Part} (h : p.Behaves q) (k : q.Behaves r) : p.Behaves r :=
  ⟨h.mem.trans k.mem, k.parity ∘ h.parity, fun x => k.status (h.status x), k.settings ∘ h.settings, k.lists ∘ h.lists⟩

theorem Part.Sound.behaves {p q : Part} (h : p.Sound q) : p.Behaves q :=
  ⟨h.mem.mono fun _ => .inl, h.parity, h.status, h.settings, h.lists⟩

theorem Part.behaves_refl (p : Part) : p.Behaves p := (Part.Sound.refl p).behaves

/-- A write of slots alone. -/
theorem Part.slots_behaves (p : Part) {m : Memory} (h : Memory.Reach slotByte p.mem m) : p.Behaves { p with mem := m } where
  mem := h.mono fun _ => .inr
  parity := id
  status k := k.congr (fun a ha => h.byte (by unfold slotByte; unfold statusByte at ha; omega)) rfl rfl
  settings := id
  lists := id

theorem Part.takeSlot_behaves (p : Part) (n : SlotIx) : p.Behaves (p.takeSlot n) :=
  p.slots_behaves ((p.takeSlot_reach n).mono fun _ => inSlot_slotByte)

theorem Part.answer_behaves (p : Part) (n : SlotIx) (tag : Half) (r : Result) (d : List Nat) : p.Behaves (p.answer n tag r d) :=
  (p.slots_behaves ((p.mem.answer_reach n tag r d).mono fun _ => inSlot_slotByte)).trans (Part.setNotice_sound _ _).behaves

theorem Part.abortLong_behaves (p : Part) : p.Behaves p.abortLong := by
  unfold Part.abortLong
  split
  · exact p.answer_behaves ..
  · exact p.behaves_refl
  · exact p.behaves_refl

theorem Part.finishUpdate_behaves (p : Part) : p.Behaves p.finishUpdate :=
  ⟨p.finishUpdate_reach.mono fun _ => .inl, Part.finishUpdate_updateParity, Part.statusAs.finish, id, id⟩

theorem Part.outputs_sound (p : Part) : p.Sound p.outputs := .silent rfl rfl rfl rfl rfl id id

/-! ### The end of an event -/

theorem Part.statusUpdates_lane (before p : Part) (i : LaneIx) : (Part.statusUpdates before p).lane i = p.lane i := by
  unfold Part.statusUpdates
  refine List.foldlRecOn allLanes _ (motive := fun r : Part => r.lane i = p.lane i) (by simp) fun r hr k _ => ?_
  rw [Part.statusIfChanged_lane, hr]

theorem Part.statusUpdates_journal (before p : Part) : (Part.statusUpdates before p).journal = p.journal := by
  unfold Part.statusUpdates
  refine List.foldlRecOn allLanes _ (motive := fun r : Part => r.journal = p.journal) (by simp) fun r hr k _ => ?_
  rw [Part.statusIfChanged_journal, hr]

theorem Part.statusUpdates_clock (before p : Part) : (Part.statusUpdates before p).clock = p.clock :=
  Part.kept_clock (Part.statusUpdates_keeps before p).kept

theorem Part.statusUpdates_seq (before p : Part) : (Part.statusUpdates before p).seq = p.seq :=
  Part.kept_seq (Part.statusUpdates_keeps before p).kept

theorem Part.statusUpdates_settings {before p : Part} (h : p.settingsIn) : (Part.statusUpdates before p).settingsIn := by
  unfold Part.settingsIn
  simp only [Part.statusUpdates_lane, Part.statusUpdates_journal, Part.statusUpdates_clock]
  exact h

theorem Part.statusUpdates_lists {before p : Part} (h : p.listsFit) : (Part.statusUpdates before p).listsFit := by
  unfold Part.listsFit
  simp only [Part.statusUpdates_lane, Part.statusUpdates_seq]
  exact h

/-- The status block of a running part shows it once the update under way is whole. -/
def Part.statusHolds (p : Part) : Prop :=
  p.updateParity ∧ (p.enabled = true → p.statusAs p.seq p.clock p.journal p.lane)

/-- The notice line and the lamps are at their conditions. -/
def Part.lit (p : Part) : Prop := p.regs.noticeLine = noticeLineOf p.regs ∧ p.console.lamps = lampsOf p

/-- What a step keeps, from `p` to `t`: each invariant, and every byte outside the part's areas. -/
structure Part.Safe (p t : Part) : Prop where
  lit : p.lit → t.lit
  mem : Memory.Reach (fun a => ownByte a ∨ slotByte a) p.mem t.mem
  status : p.statusHolds → t.statusHolds
  settings : p.settingsIn → t.settingsIn
  lists : p.listsFit → t.listsFit

theorem Part.Safe.refl (p : Part) : p.Safe p := ⟨id, .refl _, id, id, id⟩

theorem Part.Safe.trans {p q r : Part} (h : p.Safe q) (k : q.Safe r) : p.Safe r :=
  ⟨k.lit ∘ h.lit, h.mem.trans k.mem, k.status ∘ h.status, k.settings ∘ h.settings, k.lists ∘ h.lists⟩

theorem Part.outputs_lit (p : Part) : p.outputs.lit := p.outputs_right

/-- An act that leaves each block's status words alone, with the line and the lamps kept at their conditions. -/
theorem Part.Behaves.safe {p t : Part} (h : p.Behaves t) (lit : p.lit → t.lit) (enable : t.enabled = p.enabled)
    (seq : t.seq = p.seq) (clock : clockStatus t.clock = clockStatus p.clock) (lanes : t.lanes = p.lanes) : p.Safe t := by
  refine ⟨lit, h.mem, fun ⟨parity, shown⟩ => ⟨h.parity parity, fun on => ?_⟩, h.settings, h.lists⟩
  have shown := h.status (shown (enable ▸ on))
  refine ⟨shown.generation, seq ▸ shown.seq, clock ▸ shown.clock, shown.journal, fun i => ?_⟩
  rw [Part.lane_of_lanes lanes]
  exact shown.lane i

/-- An act that leaves each block's status words alone, and its outputs. -/
theorem Part.Behaves.outputs_safe {p q : Part} (h : p.Behaves q) (enable : q.enabled = p.enabled)
    (seq : q.seq = p.seq) (clock : clockStatus q.clock = clockStatus p.clock) (lanes : q.lanes = p.lanes) :
    p.Safe q.outputs :=
  (h.trans q.outputs_sound.behaves).safe (fun _ => q.outputs_lit) enable seq clock lanes

/-- The part after an event's updates: the block shows it, and the settings and lists are as the act left them. -/
theorem Part.effects_status {p q : Part} (h : p.Behaves q) (holds : p.statusAs p.seq p.clock p.journal p.lane) :
    (Part.effects p q).statusAs (Part.effects p q).seq (Part.effects p q).clock (Part.effects p q).journal
      (Part.effects p q).lane := by
  have shown := (q.lookAgain_sound.status (h.status holds)).updates
  have lanes : (Part.effects p q).lane = q.lookAgain.lane := funext (Part.statusUpdates_lane p _)
  have journal : (Part.effects p q).journal = q.lookAgain.journal := Part.statusUpdates_journal ..
  have clock : (Part.effects p q).clock = q.lookAgain.clock := Part.statusUpdates_clock ..
  have seq : (Part.effects p q).seq = q.lookAgain.seq := Part.statusUpdates_seq ..
  rw [lanes, journal, clock, seq]
  exact shown

theorem Part.effects_reach {p q : Part} (h : p.Behaves q) :
    Memory.Reach (fun a => ownByte a ∨ slotByte a) p.mem (Part.effects p q).mem :=
  h.mem.trans ((Part.effects_keeps p q).mem.mono fun _ => .inl)

theorem Part.effects_parity {p q : Part} (h : p.Behaves q) (holds : p.updateParity) : (Part.effects p q).updateParity :=
  Part.statusUpdates_parity p (q.lookAgain_sound.parity (h.parity holds))

theorem Part.effects_settings {p q : Part} (h : p.Behaves q) (holds : p.settingsIn) : (Part.effects p q).settingsIn :=
  Part.statusUpdates_settings (q.lookAgain_sound.settings (h.settings holds))

theorem Part.effects_lists {p q : Part} (h : p.Behaves q) (holds : p.listsFit) : (Part.effects p q).listsFit :=
  Part.statusUpdates_lists (q.lookAgain_sound.lists (h.lists holds))

/-- Behind an event's updates, acts that leave each block alone. -/
theorem Part.effects_then {p q t : Part} (h : p.Behaves q) (on : p.enabled = true) (k : (Part.effects p q).Behaves t)
    (seq : t.seq = (Part.effects p q).seq) (clock : t.clock = (Part.effects p q).clock)
    (lanes : t.lanes = (Part.effects p q).lanes) : p.Safe t.outputs where
  lit _ := t.outputs_lit
  mem := (Part.effects_reach h).trans k.mem
  status := fun ⟨parity, shown⟩ => by
    refine ⟨k.parity (Part.effects_parity h parity), fun _ => ?_⟩
    have shown := t.outputs_sound.status (k.status (Part.effects_status h (shown on)))
    rw [← seq, ← clock, ← funext (Part.lane_of_lanes lanes)] at shown
    exact shown
  settings x := k.settings (Part.effects_settings h x)
  lists x := k.lists (Part.effects_lists h x)

theorem Part.finish_safe {p q : Part} (h : p.Behaves q) (on : p.enabled = true) : p.Safe (Part.finish p q) :=
  Part.effects_then h on (Part.behaves_refl _) rfl rfl rfl

theorem Part.complete_safe {p q : Part} (h : p.Behaves q) (on : p.enabled = true) (n : SlotIx) (tag : Half) (r : Result)
    (d : List Nat) : p.Safe (Part.complete p q n tag r d) :=
  Part.effects_then h on ((Part.finishUpdate_behaves _).trans (Part.answer_behaves _ n tag r d)) rfl rfl rfl

/-- The request unit has no lamp, no notice and no status word. -/
theorem Part.requests_safe (p : Part) (u : RequestUnit) : p.Safe { p with requests := u } :=
  (p.requests_sound u).behaves.safe id rfl rfl rfl rfl

/-! ### The resets, the start-up and the halt -/

theorem Profile.default_inRange : Profile.default.inRange := by unfold Profile.inRange; decide

theorem LaneConfig.default_inRange : LaneConfig.default.inRange := by unfold LaneConfig.inRange; decide

theorem Part.resetWith_lane (mem : Memory) (levels : PerKey Bool) (cause : StartCause) (i : LaneIx) :
    (Part.resetWith mem levels cause).lane i = Lane.reset := by
  simp [Part.lane, Part.resetWith]

theorem Part.resetWith_settings (mem : Memory) (levels : PerKey Bool) (cause : StartCause) :
    (Part.resetWith mem levels cause).settingsIn :=
  ⟨Nat.zero_le _, Profile.default_inRange, fun i => by rw [Part.resetWith_lane]; exact LaneConfig.default_inRange,
    (le_rfl : 1 ≤ 1), (by decide : 1 ≤ 4096), Nat.zero_le _⟩

theorem Part.resetWith_lists (mem : Memory) (levels : PerKey Bool) (cause : StartCause) :
    (Part.resetWith mem levels cause).listsFit :=
  ⟨Sequencer.fits_of_empty rfl rfl, fun i => by rw [Part.resetWith_lane]; exact Nat.zero_le _⟩

theorem Part.resetWith_status (mem : Memory) (levels : PerKey Bool) (cause : StartCause) :
    (Part.resetWith mem levels cause).statusHolds :=
  ⟨rfl, fun on => nomatch on⟩

theorem Memory.abortTaken_reach (m : Memory) : Memory.Reach slotByte m m.abortTaken := by
  unfold Memory.abortTaken
  refine List.foldlRecOn allSlots _ (.refl m) fun k hk n _ => hk.trans ?_
  split
  · exact (k.answer_reach n _ _ _).mono fun _ => inSlot_slotByte
  · exact .refl k

theorem Part.resetMemory_reach (p : Part) : Memory.Reach slotByte p.mem p.resetMemory := by
  unfold Part.resetMemory
  split
  · exact ((Memory.answer_reach _ _ _ _ _).mono fun _ => inSlot_slotByte).trans (Memory.abortTaken_reach _)
  · exact p.mem.abortTaken_reach
  · exact p.mem.abortTaken_reach

theorem Part.softReset_safe (p : Part) : p.Safe p.softReset.outputs where
  lit _ := Part.outputs_lit _
  mem := p.resetMemory_reach.mono fun _ => .inr
  status _ := ⟨rfl, fun on => nomatch on⟩
  settings _ := Part.resetWith_settings p.resetMemory p.console.levels .soft
  lists _ := Part.resetWith_lists p.resetMemory p.console.levels .soft

theorem Part.startLane_sound (p : Part) (i : LaneIx) : p.Sound (p.startLane i) := by
  unfold Part.startLane
  have shadow : p.Sound (p.modLane i Lane.restartShadow) := p.modLane_sound i _ fun _ => Lane.within_of_eq rfl rfl
  simp only
  split
  · exact shadow.trans (Part.enterSync_sound _ _ _)
  · exact shadow

theorem Part.runStarted_sound (p q : Part) : q.Sound (p.runStarted q) := by
  unfold Part.runStarted
  extract_lets q1 j q2
  have h2 : q1.Sound q2 := q1.setJournal_sound { j with startCause := .resume } rfl rfl id
  exact ((q.append_sound _).trans h2).trans (Part.Sound.foldl _ Part.startLane_sound _ _)

theorem unusedStatus_block : isBlock unusedStatus := by
  unfold isBlock unusedStatus
  decide

/-- Every word of the block, as the whole-block write has them (R183). -/
def Part.allStatus (p : Part) : List (Nat × Nat) :=
  seqStatus p.seq ++ clockStatus p.clock ++ journalStatus p.journal ++ (allLanes.flatMap fun i => laneStatus i (p.lane i)) ++
    unusedStatus

theorem unusedStatus_address {x : Nat × Nat} (h : x ∈ unusedStatus) : (0x94 ≤ x.1 ∧ x.1 < 0xC0) ∨ 0x180 ≤ x.1 := by
  revert x
  unfold unusedStatus
  decide

theorem lanesStatus_block (p : Part) (xs : List LaneIx) (distinct : xs.Nodup) :
    isBlock (xs.flatMap fun i => laneStatus i (p.lane i)) := by
  induction xs with
  | nil => exact ⟨List.nodup_nil, fun x hx => nomatch hx⟩
  | cons i rest ih =>
    obtain ⟨fresh, distinct⟩ := List.nodup_cons.1 distinct
    refine (laneStatus_block i _).append (ih distinct) fun x hx y hy => ?_
    obtain ⟨k, hk, hy⟩ := List.mem_flatMap.1 hy
    have apart := Fin.val_ne_of_ne (ne_of_mem_of_not_mem hk fresh)
    have := laneStatus_address hx
    have := laneStatus_address hy
    omega

theorem lanesStatus_address {p : Part} {x : Nat × Nat} (h : x ∈ allLanes.flatMap fun i => laneStatus i (p.lane i)) :
    0xC0 ≤ x.1 ∧ x.1 < 0x180 := by
  obtain ⟨k, -, hx⟩ := List.mem_flatMap.1 h
  have := laneStatus_address hx
  have := k.isLt
  omega

theorem Part.allStatus_block (p : Part) : isBlock p.allStatus := by
  refine ((((seqStatus_block _).append (clockStatus_block _) ?_).append (journalStatus_block _) ?_).append
    (lanesStatus_block p _ allLanes_nodup) ?_).append unusedStatus_block ?_
  all_goals
    intro x hx y hy
    try simp only [List.mem_append] at hx
  · have := seqStatus_address hx
    have := clockStatus_address hy
    omega
  · have := journalStatus_address hy
    rcases hx with hx | hx
    · have := seqStatus_address hx; omega
    · have := clockStatus_address hx; omega
  · have := lanesStatus_address hy
    rcases hx with (hx | hx) | hx
    · have := seqStatus_address hx; omega
    · have := clockStatus_address hx; omega
    · have := journalStatus_address hx; omega
  · have := unusedStatus_address hy
    rcases hx with ((hx | hx) | hx) | hx
    · have := seqStatus_address hx; omega
    · have := clockStatus_address hx; omega
    · have := journalStatus_address hx; omega
    · have := lanesStatus_address hx; omega

/-- After the whole-block write the block shows the part (R183). -/
theorem Part.statusWhole_status (p : Part) : p.statusWhole.statusAs p.seq p.clock p.journal p.lane := by
  have shown : (p.statusWrite p.allStatus).finishUpdate.mem.shows p.allStatus := p.statusWrite_shows p.allStatus_block
  have part : ∀ {fields}, (∀ x ∈ fields, x ∈ p.allStatus) → (p.statusWrite p.allStatus).finishUpdate.mem.shows fields :=
    fun sub x hx => shown x (sub x hx)
  refine Part.statusAs.finish (p := p.statusWrite p.allStatus) ?_
  refine ⟨p.statusWrite_word_generation p.allStatus_block, part ?_, part ?_, part ?_, fun i => part ?_⟩
  · exact fun x hx => by simp only [Part.allStatus, List.mem_append, hx, true_or]
  · exact fun x hx => by simp only [Part.allStatus, List.mem_append, hx, true_or, or_true]
  · exact fun x hx => by simp only [Part.allStatus, List.mem_append, hx, true_or, or_true]
  · exact fun x hx => List.mem_append_left _ (List.mem_append_right _ (List.mem_flatMap.2 ⟨i, mem_allLanes i, hx⟩))

/-- The part at a start-up, as its status block is to show it. -/
def Part.restarting (p : Part) : Part :=
  { p with
    regs := { p.regs with enable := true }
    clock := { p.clock with showTime := 0 }
    console := p.console.startUp
    requests := { scan := .scanning 0, rescan := false, replaceUsed := false, periodAt := some Config.scanPeriod }
    journal := p.journal.startUp p.readMark }

theorem Part.restarted_eq (p : Part) : p.restarted = p.restarting.statusWhole := rfl

theorem Part.startUp_safe (p : Part) : p.Safe p.startUp.outputs := by
  unfold Part.startUp
  split
  · exact p.behaves_refl.outputs_safe rfl rfl rfl rfl
  · rw [Part.restarted_eq]
    have begun := p.runStarted_sound p.restarting.statusWhole
    have finished := Part.finish_safe begun.behaves rfl
    have reach : Memory.Reach statusByte p.mem p.restarting.statusWhole.mem :=
      (p.restarting.statusWrite_status _).trans (Part.finishUpdate_status _)
    have done := finished.trans ((Part.behaves_refl _).outputs_safe (q := Part.finish _ _) rfl rfl rfl rfl)
    refine ⟨fun _ => Part.outputs_lit _, (reach.mono fun _ h => .inl (.inl h)).trans done.mem, fun ⟨parity, _⟩ => ?_, fun h => ?_,
      fun h => ?_⟩
    · exact done.status ⟨Part.finishUpdate_updateParity (Part.statusWrite_parity (p := p.restarting) parity _),
        fun _ => p.restarting.statusWhole_status⟩
    · obtain ⟨-, profile, lanes, low, high, -⟩ := h
      exact done.settings ⟨Nat.zero_le _, profile, lanes, low, high, Nat.zero_le _⟩
    · exact done.lists h

/-- Every block at a halt, before the CLOCK record. -/
def Part.halting (p : Part) : Part :=
  { p with clock := p.clock.halt, seq := p.seq.halt, lanes := p.lanes.map Lane.halt, console := p.console.halt }

theorem Part.halting_lane (p : Part) (i : LaneIx) : p.halting.lane i = (p.lane i).halt := p.lane_map Lane.halt i

theorem Sequencer.halt_fits {q : Sequencer} (h : q.fits) : q.halt.fits := by
  unfold Sequencer.halt
  split
  · exact Sequencer.fits_of_empty rfl rfl
  · exact Sequencer.fits_of_empty rfl rfl
  all_goals exact h

theorem Part.halting_sound (p : Part) : p.Sound p.halting := by
  refine .silent rfl rfl rfl rfl rfl (fun ⟨h1, h2, h3, h4, h5, h6⟩ => ⟨h1, h2, fun i => ?_, h4, h5, h6⟩)
    fun ⟨fits, _⟩ => ⟨Sequencer.halt_fits fits, fun i => ?_⟩
  · rw [Part.halting_lane]
    exact h3 i
  · rw [Part.halting_lane]
    exact Nat.zero_le 6

theorem Part.haltBlocks_sound (p : Part) : p.Sound p.haltBlocks :=
  p.halting_sound.trans (Part.reportClock_sound p.halting p.clock.state .halt)

theorem Part.halt_safe (p : Part) : p.Safe p.halt.outputs := by
  unfold Part.halt
  split
  · have blocks := p.haltBlocks_sound.behaves
    have ended := (Part.finishUpdate_behaves (Part.effects p p.haltBlocks)).trans (Part.abortLong_behaves _)
    exact {
      lit := fun _ => Part.outputs_lit _
      mem := (Part.effects_reach blocks).trans ended.mem
      status := fun ⟨parity, _⟩ => ⟨ended.parity (Part.effects_parity blocks parity), fun on => nomatch on⟩
      settings := fun h => ended.settings (Part.effects_settings blocks h)
      lists := fun h => ended.lists (Part.effects_lists blocks h) }
  · exact p.behaves_refl.outputs_safe rfl rfl rfl rfl

/-! ### Every command -/

theorem State.event_safe {s : State} {f : Part → Part} (h : ∀ p : Part, p.Sound (f p)) {t : State}
    (run : s.event f = .next t) : s.part.Safe t.part := by
  cases run
  show s.part.Safe (if _ then _ else _)
  split
  · next on => exact Part.finish_safe (h _).behaves on
  · exact .refl _

theorem Part.takes_enabled {p : Part} {n : SlotIx} (h : p.takes n = true) : p.enabled = true := by
  simp only [Part.takes, Bool.and_eq_true] at h
  exact h.1.1

theorem State.request_safe {s : State} {n : SlotIx} {tag : Half} {act : Part → Part × Result × List Nat}
    (h : ∀ p : Part, p.Sound (act p).1) {t : State} (run : s.request n tag act = .next t) : s.part.Safe t.part := by
  cases run
  show s.part.Safe (if _ then _ else _)
  split
  · next takes => exact Part.complete_safe ((s.part.takeSlot_behaves n).trans (h _).behaves) (Part.takes_enabled takes) n ..
  · exact .refl _

theorem State.longRequest_safe {s : State} {n : SlotIx} {tag : Half} {job : LongJob}
    {refusal : Part → Option (Result × List Nat)} {begin_ : Part → Part} (h : ∀ p : Part, p.Sound (begin_ p)) {t : State}
    (run : s.longRequest n tag job refusal begin_ = .next t) : s.part.Safe t.part := by
  cases run
  have taken := s.part.takeSlot_behaves n
  show s.part.Safe (if _ then _ else _)
  split
  · next takes =>
    have on := Part.takes_enabled takes
    simp only
    split
    · exact Part.complete_safe taken on n ..
    · exact Part.finish_safe (taken.trans ((h _).trans (Part.requests_sound _ _)).behaves) on
  · exact .refl _

/-- A long request's walk at its end. -/
theorem Part.walked_safe {p q : Part} (h : p.Sound q) (on : p.enabled = true) (n : SlotIx) (tag : Half) (r : Result)
    (d : List Nat) : p.Safe ((Part.complete p q n tag r d).scanOn n) :=
  (Part.complete_safe h.behaves on n tag r d).trans (Part.requests_safe _ _)

/-- An access that leaves each block's status words alone. -/
theorem State.access_safe {s : State} {f : Part → Part} (h : s.part.Safe (f s.part).outputs) {t : State}
    (run : s.access f = .next t) : s.part.Safe t.part := by
  cases run
  exact h

theorem Part.beatEdge_safe (p : Part) (i : BeatInput) : p.Safe (if p.enabled then p.beatEdge i else p).outputs := by
  have filtered : ∀ f, p.Safe (p.setClock (p.clock.setFilter i f)).outputs := fun f =>
    (p.setClock_sound (p.clock.setFilter_rest i f)).behaves.outputs_safe rfl rfl (by cases i <;> rfl) rfl
  have same : p.Safe p.outputs := p.behaves_refl.outputs_safe rfl rfl rfl rfl
  split
  · unfold Part.beatEdge
    split
    · exact filtered _
    all_goals exact same
  · exact same

theorem Part.beatRelease_safe (p : Part) (i : BeatInput) : p.Safe (if p.enabled then p.beatRelease i else p).outputs := by
  split
  · exact (p.setClock_sound (p.clock.setFilter_rest i .idle)).behaves.outputs_safe rfl rfl (by cases i <;> rfl) rfl
  · exact p.behaves_refl.outputs_safe rfl rfl rfl rfl

/-- The console and the request unit have no status word. -/
theorem Part.console_safe (p : Part) (c : Console) : p.Safe (p.setConsole c).outputs :=
  (p.console_sound c).behaves.outputs_safe rfl rfl rfl rfl

theorem Part.outputs_safe (p : Part) : p.Safe p.outputs := p.behaves_refl.outputs_safe rfl rfl rfl rfl

theorem Part.keyAsserted_safe (p : Part) (k : Key) : p.Safe (p.keyAsserted k).outputs := by
  unfold Part.keyAsserted
  simp only
  split <;> exact p.console_safe _

theorem Part.keyReleased_safe (p : Part) (k : Key) : p.Safe (p.keyReleased k).outputs := by
  unfold Part.keyReleased
  simp only
  split <;> exact p.console_safe _

theorem Part.keyReleaseConfirmed_safe (p : Part) (k : Key) :
    p.Safe (if p.enabled then p.keyReleaseConfirmed k else p).outputs := by
  unfold Part.keyReleaseConfirmed
  split
  · split
    · split
      · exact p.console_safe _
      · exact p.outputs_safe
    all_goals exact p.outputs_safe
  · exact p.outputs_safe

/-- The registers but the enable and the status writer's. -/
theorem Part.setRegs_safe (p : Part) (r : Registers) (he : r.enable = p.regs.enable) (hu : r.update = p.regs.update)
    (hg : r.generation = p.regs.generation) : p.Safe (p.setRegs r).outputs :=
  (Part.Sound.silent (p := p) (q := p.setRegs r) rfl he hu hg rfl id id).behaves.outputs_safe he rfl rfl rfl

theorem Part.writeScan_safe (p : Part) : p.Safe p.writeScan.outputs := by
  unfold Part.writeScan
  split
  · exact (p.requests_sound p.requests.ask).behaves.outputs_safe rfl rfl rfl rfl
  · exact p.outputs_safe

theorem Part.hostWrite_safe (p : Part) (offset : Nat) (size : AccessSize) (value : Word) :
    p.Safe (p.hostWrite offset size value).outputs := by
  unfold Part.hostWrite
  split
  · unfold Part.writeRegister
    split
    · unfold Part.writeControl
      split
      · exact p.softReset_safe
      · split
        · exact p.startUp_safe
        · exact p.halt_safe
    · exact p.writeScan_safe
    · exact p.setRegs_safe _ rfl rfl rfl
    · exact p.setRegs_safe _ rfl rfl rfl
    · exact p.outputs_safe
  all_goals exact p.outputs_safe

theorem exec_loadBookComplete_safe {s t : State} (run : execLoadBookComplete s = .next t) : s.part.Safe t.part := by
  cases run
  dsimp only
  split
  · next on _ => exact Part.walked_safe s.part.endLoad_sound on ..
  · exact .refl _

theorem exec_replaceSectionComplete_safe {s t : State} (run : execReplaceSectionComplete s = .next t) : s.part.Safe t.part := by
  cases run
  dsimp only
  split
  · next on _ => exact Part.walked_safe (s.part.endReplace_sound _) on ..
  · exact .refl _

/-- BLANK carried out (R94, R165). -/
def Part.blankMask (p : Part) (mask : Word) : Part × Result × List Nat :=
  if 64 ≤ mask.toNat then (p, .badArg, [])
  else ((p.blankLanes (p.lanesToChange mask true)).settle, .ok, [(laneMask (p.lanesToChange mask true)).toNat])

/-- UNBLANK carried out (R95, R165). -/
def Part.unblankMask (p : Part) (mask : Word) : Part × Result × List Nat :=
  if 64 ≤ mask.toNat then (p, .badArg, [])
  else ((p.unblankLanes (p.lanesToChange mask false)).settle, .ok, [(laneMask (p.lanesToChange mask false)).toNat])

theorem exec_blank (s : State) (n : SlotIx) (tag : Half) (mask : Word) :
    exec (.blank n tag mask) s = s.request n tag fun p => p.blankMask mask := rfl

theorem exec_unblank (s : State) (n : SlotIx) (tag : Half) (mask : Word) :
    exec (.unblank n tag mask) s = s.request n tag fun p => p.unblankMask mask := rfl

theorem Part.blankMask_sound (p : Part) (mask : Word) : p.Sound (p.blankMask mask).1 := by
  unfold Part.blankMask
  split
  · exact .refl p
  · exact (p.blankLanes_sound _).trans (Part.settle_sound _)

theorem Part.unblankMask_sound (p : Part) (mask : Word) : p.Sound (p.unblankMask mask).1 := by
  unfold Part.unblankMask
  split
  · exact .refl p
  · exact (p.unblankLanes_sound _).trans (Part.settle_sound _)

theorem Part.clearFault_sound (p : Part) (lane : Word) : p.Sound (p.clearFault lane).1 := by
  unfold Part.clearFault
  split
  · exact .refl p
  · split
    · exact p.enterSync_sound _ _
    · exact .refl p

/-- SET_LANE carried out. -/
def Part.laneSet (p : Part) (lane : Word) (args : LaneArgs) : Part × Result × List Nat :=
  match laneOf lane with
  | none => (p, .badArg, [])
  | some i => ((p.configureLane i (clampLane args).1).settle, clampResult (clampLane args).2, [(clampLane args).2])

theorem exec_setLane (s : State) (n : SlotIx) (tag : Half) (lane : Word) (args : LaneArgs) :
    exec (.setLane n tag lane args) s = s.request n tag fun p => p.laneSet lane args := rfl

theorem Part.laneSet_sound (p : Part) (lane : Word) (args : LaneArgs) : p.Sound (p.laneSet lane args).1 := by
  unfold Part.laneSet
  split
  · exact .refl p
  · exact (p.configureLane_sound _ _ (clampLane_inRange args)).trans (Part.settle_sound _)

/-- A remote key carried out, by its code (R166). -/
def Part.remoteKey (p : Part) (key : Word) : Part × Result × List Nat :=
  match key.toNat with
  | 1 => p.requestKey .go Part.go
  | 2 => p.requestKey .back Part.back
  | 3 => p.requestKey .hold fun p => (p.hold.1, p.hold.2, none)
  | _ => (p, .badArg, [])

theorem exec_remoteKey (s : State) (n : SlotIx) (tag : Half) (key : Word) :
    exec (.remoteKey n tag key) s = s.request n tag fun p => p.remoteKey key := rfl

theorem Part.remoteKey_sound (p : Part) (key : Word) : p.Sound (p.remoteKey key).1 := by
  unfold Part.remoteKey
  split
  · exact p.requestKey_sound _ Part.go_sound
  · exact p.requestKey_sound _ Part.back_sound
  · exact p.requestKey_sound _ Part.hold_sound
  · exact .refl p

theorem alertLevel_bounds (v : Nat) : 1 ≤ alertLevel v ∧ alertLevel v ≤ 4096 := by
  unfold alertLevel
  omega

theorem Part.journalSet_sound (p : Part) (level option : Word) : p.Sound (p.journalSet level option).1 :=
  p.setJournal_sound _ rfl rfl fun _ => alertLevel_bounds _

/-- A command but the power-up reset leaves the part safe. -/
theorem exec_safe {c : Instr} {s t : State} (other : c ≠ .powerUpReset) (run : exec c s = .next t) : s.part.Safe t.part := by
  cases c with
  | powerUpReset => exact absurd rfl other
  | softReset => exact State.access_safe s.part.softReset_safe run
  | pcieBusReset => exact State.access_safe s.part.softReset_safe run
  | startUp => exact State.access_safe s.part.startUp_safe run
  | halt => exact State.access_safe s.part.halt_safe run
  | scan value => exact State.access_safe s.part.writeScan_safe run
  | noticeClear value => exact State.access_safe (f := fun p => p.clearNotice value) (s.part.setRegs_safe _ rfl rfl rfl) run
  | noticeEnWrite value => exact State.access_safe (f := fun p => p.writeNoticeEn value) (s.part.setRegs_safe _ rfl rfl rfl) run
  | timeLoRead byte size => exact State.access_safe (f := fun p => p.readTimeLo byte size) (s.part.setRegs_safe _ rfl rfl rfl) run
  | registerWrite offset size value =>
    exact State.access_safe (f := fun p => p.hostWrite offset.val size value) (s.part.hostWrite_safe ..) run
  | beatInputEdge input =>
    exact State.access_safe (f := fun p => if p.enabled then p.beatEdge input else p) (s.part.beatEdge_safe input) run
  | beatInputRelease input =>
    exact State.access_safe (f := fun p => if p.enabled then p.beatRelease input else p) (s.part.beatRelease_safe input) run
  | pulse input => exact State.event_safe (f := fun p => p.pulse input) (fun p => p.pulse_sound input) run
  | lateDetection => exact State.event_safe Part.lateDetection_sound run
  | sectionTimer => exact State.event_safe Part.sectionTimer_sound run
  | dueExpiry => exact State.event_safe Part.dueExpiry_sound run
  | deferralExpiry => exact State.event_safe Part.deferralExpiry_sound run
  | maxDwellExpiry lane => exact State.event_safe (f := fun p => p.maxDwellExpiry lane) (fun p => p.maxDwellExpiry_sound lane) run
  | keyInputAsserted key => exact State.access_safe (f := fun p => p.keyAsserted key) (s.part.keyAsserted_safe key) run
  | keyInputReleased key => exact State.access_safe (f := fun p => p.keyReleased key) (s.part.keyReleased_safe key) run
  | keyReleaseConfirmed key =>
    exact State.access_safe (f := fun p => if p.enabled then p.keyReleaseConfirmed key else p)
      (s.part.keyReleaseConfirmed_safe key) run
  | goKey =>
    exact State.event_safe (f := fun p => p.takePress .go Part.pressGo) (fun p => p.takePress_sound _ Part.pressGo_sound) run
  | backKey =>
    exact State.event_safe (f := fun p => p.takePress .back Part.pressBack) (fun p => p.takePress_sound _ Part.pressBack_sound) run
  | holdKey =>
    exact State.event_safe (f := fun p => p.takePress .hold Part.pressHold) (fun p => p.takePress_sound _ Part.pressHold_sound) run
  | blankKey =>
    exact State.event_safe (f := fun p => p.takePress .blank Part.pressBlank)
      (fun p => p.takePress_sound _ Part.pressBlank_sound) run
  | scanPeriodExpiry => exact State.event_safe Part.scanPeriod_sound run
  | unknown slot tag kind =>
    replace run : (if knownKind kind then _ else _) = Host.Outcome.next t := run
    split at run
    · cases run
    · exact State.request_safe (act := fun p => (p, .unknown, [])) Part.Sound.refl run
  | loadBook slot tag =>
    exact State.longRequest_safe
      (refusal := fun p => if p.seq.state = .running ∨ p.seq.state = .loading then some (.state, []) else none)
      Part.beginLoad_sound run
  | loadBookComplete => exact exec_loadBookComplete_safe run
  | replaceSection slot tag args => exact State.longRequest_safe (refusal := fun p => p.replaceRefusal args) (begin_ := id) Part.Sound.refl run
  | replaceSectionComplete => exact exec_replaceSectionComplete_safe run
  | arm slot tag sect count prime =>
    exact State.request_safe (act := fun p => p.requestArm sect.toNat count.toNat prime.toNat) (fun p => p.requestArm_sound ..) run
  | jump slot tag sect count keep prime =>
    exact State.request_safe (act := fun p => p.requestJump sect.toNat count.toNat keep.toNat prime.toNat)
      (fun p => p.requestJump_sound ..) run
  | stop slot tag keep =>
    exact State.request_safe (act := fun p => p.requestStop keep.toNat) (fun p => p.requestStop_sound _) run
  | setCut slot tag sect target =>
    exact State.request_safe (act := fun p => p.requestCut sect.toNat (some target.toNat)) (fun p => p.requestCut_sound ..) run
  | clearCut slot tag sect =>
    exact State.request_safe (act := fun p => p.requestCut sect.toNat none) (fun p => p.requestCut_sound ..) run
  | vampExit slot tag => exact State.request_safe Part.requestVampExit_sound run
  | setProfile slot tag args =>
    exact State.request_safe (act := fun p => (p.setProfile (clampProfile args).1 (clampProfile args).2.1,
      clampResult (clampProfile args).2.2, [(clampProfile args).2.2]))
      (fun p => p.setProfile_sound _ _ (clampProfile_inRange args)) run
  | setLane slot tag lane args =>
    exact State.request_safe (act := fun p => p.laneSet lane args) (fun p => p.laneSet_sound lane args) run
  | clearFault slot tag lane =>
    exact State.request_safe (act := fun p => p.clearFault lane) (fun p => p.clearFault_sound lane) run
  | blank slot tag mask => exact State.request_safe (act := fun p => p.blankMask mask) (fun p => p.blankMask_sound mask) run
  | unblank slot tag mask => exact State.request_safe (act := fun p => p.unblankMask mask) (fun p => p.unblankMask_sound mask) run
  | remoteKey slot tag key =>
    exact State.request_safe (act := fun p => p.remoteKey key) (fun p => p.remoteKey_sound key) run
  | setJournal slot tag level option =>
    exact State.request_safe (act := fun p => p.journalSet level option) (fun p => p.journalSet_sound level option) run
  | note slot tag w0 w1 w2 w3 =>
    exact State.request_safe (act := fun p => p.note (noteRecord tag w0 w1 w2 w3)) (fun p => p.append_sound _) run
  | frameOpen lane => exact State.event_safe (f := fun p => p.frameOpen lane) (fun p => p.frameOpen_sound lane) run
  | frameClose lane => exact State.event_safe (f := fun p => p.frameClose lane) (fun p => p.frameClose_sound lane) run
  | suspend lane => exact State.event_safe (f := fun p => p.suspend lane) (fun p => p.suspend_sound lane) run
  | resume lane => exact State.event_safe (f := fun p => p.resume lane) (fun p => p.resume_sound lane) run
  | cancel lane => exact State.event_safe (f := fun p => p.cancel lane) (fun p => p.cancel_sound lane) run
  | helloInterval lane => exact State.event_safe (f := fun p => p.helloExpiry lane) (fun p => p.helloExpiry_sound lane) run
  | ready lane echo buffers maxLine =>
    exact State.event_safe
      (f := fun p => (p.wholeReply lane (if readyInRange buffers maxLine then .ready echo buffers maxLine else .bad)).settle)
      (fun p => (p.wholeReply_sound lane _).trans (Part.settle_sound _)) run
  | ack lane echo outcome =>
    exact State.event_safe (f := fun p => (p.wholeReply lane (.ack echo outcome)).settle)
      (fun p => (p.wholeReply_sound lane _).trans (Part.settle_sound _)) run
  | busy lane => exact State.event_safe (f := fun p => p.wholeReply lane .busy) (fun p => p.wholeReply_sound lane _) run
  | free lane => exact State.event_safe (f := fun p => p.wholeReply lane .free) (fun p => p.wholeReply_sound lane _) run
  | badReply lane => exact State.event_safe (f := fun p => p.wholeReply lane .bad) (fun p => p.wholeReply_sound lane _) run
  | ackTimeout lane seq =>
    exact State.event_safe (f := fun p => (p.ackTimeout lane seq).settle)
      (fun p => (p.ackTimeout_sound lane seq).trans (Part.settle_sound _)) run
  | silenceExpiry lane =>
    exact State.event_safe (f := fun p => (p.silence lane).settle)
      (fun p => (p.silence_sound lane).trans (Part.settle_sound _)) run
  | characterReceived lane char framingError =>
    exact State.event_safe (f := fun p => (p.receiveChar lane char framingError).settle)
      (fun p => (p.receiveChar_sound lane char framingError).trans (Part.settle_sound _)) run

/-! ### The part's own steps -/

/-- One word of the update under way (R182). -/
theorem Part.writeStatusWord_safe (p : Part) : p.Safe p.writeStatusWord := by
  have rest : p.writeStatusWord.lanes = p.lanes ∧ p.writeStatusWord.seq = p.seq ∧ p.writeStatusWord.clock = p.clock ∧
      p.writeStatusWord.journal = p.journal ∧ p.writeStatusWord.enabled = p.enabled ∧
      p.writeStatusWord.console = p.console ∧ p.writeStatusWord.regs.noticeLine = p.regs.noticeLine ∧
      noticeLineOf p.writeStatusWord.regs = noticeLineOf p.regs := by
    unfold Part.writeStatusWord
    split <;> exact ⟨rfl, rfl, rfl, rfl, rfl, rfl, rfl, rfl⟩
  obtain ⟨lanes, seq, clock, journal, enable, console, line, lineOf⟩ := rest
  have kept : p.writeStatusWord.kept = p.kept := by
    unfold Part.writeStatusWord
    split <;> rfl
  have parity : p.updateParity → p.writeStatusWord.updateParity := by
    unfold Part.writeStatusWord
    split
    · exact id
    · next x left update =>
      intro odd
      unfold Part.updateParity at odd ⊢
      rw [update, if_neg (List.cons_ne_nil _ _)] at odd
      by_cases last : left = []
      · simp only [if_pos last]
        bv_omega
      · simpa only [if_neg last] using odd
  have behaves : p.Behaves p.writeStatusWord := by
    refine ⟨p.writeStatusWord_status.mono fun _ h => .inl (.inl h), parity, fun {x c ls} h => ?_, fun h => ?_, fun h => ?_⟩
    · obtain ⟨g, q, k, j, l⟩ := h
      rw [← p.finish_writeStatusWord] at g q k j l
      exact ⟨g, q, k, journal ▸ j, l⟩
    · simpa only [Part.settingsIn, Part.lane_of_lanes lanes, clock, journal] using h
    · simpa only [Part.listsFit, Part.lane_of_lanes lanes, seq] using h
  refine behaves.safe (fun h => ?_) enable seq (by rw [clock]) lanes
  unfold Part.lit
  rw [line, lineOf, console]
  exact ⟨h.1, h.2.trans (lampsOf_kept kept).symm⟩

/-- One microsecond (R22). -/
theorem Part.tick_safe (p : Part) : p.Safe p.tick := by
  refine Part.Behaves.safe (Part.Sound.silent (p := p) (q := p.tick) rfl rfl rfl rfl rfl (fun h => ?_) id).behaves id rfl rfl rfl rfl
  obtain ⟨-, others⟩ := h
  exact ⟨Nat.min_le_left _ _, others⟩

theorem Part.scanRead_safe (p : Part) (n : Nat) : p.Safe (p.scanRead n).1 := by
  unfold Part.scanRead
  split <;> exact p.requests_safe _

/-- From `p` to `t` each invariant is kept. -/
structure Part.Preserves (p t : Part) : Prop where
  lit : p.lit → t.lit
  form : p.mem.wf = true → t.mem.wf = true
  status : p.statusHolds → t.statusHolds
  settings : p.settingsIn → t.settingsIn
  lists : p.listsFit → t.listsFit

theorem Part.Safe.preserves {p t : Part} (h : p.Safe t) : p.Preserves t := ⟨h.lit, h.mem.wf, h.status, h.settings, h.lists⟩

theorem Part.powerUp_preserves (p : Part) : p.Preserves p.powerUp.outputs where
  lit _ := Part.outputs_lit _
  form _ := rfl
  status _ := ⟨rfl, fun on => nomatch on⟩
  settings _ := Part.resetWith_settings { cells := [] } p.console.levels .power
  lists _ := Part.resetWith_lists { cells := [] } p.console.levels .power

theorem exec_preserves {c : Instr} {s t : State} (run : exec c s = .next t) : s.part.Preserves t.part := by
  by_cases power : c = .powerUpReset
  · subst power
    cases run
    exact s.part.powerUp_preserves
  · exact (exec_safe power run).preserves

theorem Part.Safe.then {p q r : Part} (h : p.Safe q) (k : q.Preserves r) : p.Preserves r :=
  ⟨k.lit ∘ h.lit, k.form ∘ h.mem.wf, k.status ∘ h.status, k.settings ∘ h.settings, k.lists ∘ h.lists⟩

theorem ownStep_preserves {s t : State} (on : s.part.enabled = true) (run : ownStep s = .next t) :
    s.part.Preserves t.part := by
  unfold ownStep at run
  split at run
  · exact exec_preserves run
  · cases run
    exact s.part.writeStatusWord_safe.preserves
  · next n _ =>
    have read := s.part.scanRead_safe n
    split at run
    · next p c scanned =>
      rw [scanned] at read
      exact read.then (exec_preserves (s := s.withPart p) run)
    · next p scanned =>
      rw [scanned] at read
      cases run
      exact read.preserves
  · cases run
    exact (Part.finish_safe (s.part.plainChar_sound _).behaves on).preserves
  · cases run
    exact s.part.tick_safe.preserves

theorem step_preserves {s t : State} (run : step s = .next t) : s.part.Preserves t.part := by
  unfold step at run
  split at run
  · next c rest _ => exact exec_preserves (s := { s with pending := rest }) run
  · split at run
    · next on => exact ownStep_preserves on run
    · cases run
      exact (Part.Safe.refl _).preserves

/-! ### The invariants -/

/-- Settles O4: an event, an access and a completion end with the outputs, and the part's own steps leave them right. -/
theorem stepKeepsOutputs : Obligations.StepKeepsOutputs := fun _ _ h run => (step_preserves run).lit h

/-- Settles O5: every write of book memory is a write of a byte, which keeps the canonical form. -/
theorem stepKeepsMemoryForm : Obligations.StepKeepsMemoryForm := fun _ _ h run => (step_preserves run).form h

/-- Settles O6: the block shows the part before an event and the journal throughout it, and the updates at its end bring it to the
part as it is then. -/
theorem stepKeepsStatusBlock : Obligations.StepKeepsStatusBlock := fun s t h run =>
  t.statusRight_iff.2 ((step_preserves run).status (s.statusRight_iff.1 h))

/-- Settles O7: the settings change by clamped requests, resets and ticks alone. -/
theorem stepKeepsSettings : Obligations.StepKeepsSettings := fun _ _ h run => (step_preserves run).settings h

/-- Settles O8: what joins the window, the history or an outstanding list does so where there is room. -/
theorem stepKeepsLists : Obligations.StepKeepsLists := fun s t h run =>
  t.listsRight_iff.2 ((step_preserves run).lists (s.listsRight_iff.1 h))

/-- Settles O9: every other command's writes lie in the status block, the ring and the slots. -/
theorem bookIsNeverWritten : Obligations.BookIsNeverWritten := fun _ _ _ other run _ own slot =>
  (exec_safe other run).mem.byte fun inside => inside.elim own slot

end Sys2Proof.Machine
end

/-! PROOFS. How an event's end meets the statements, and the statements of tier 1: the step, the machine after reset, the scans, the
registers and the input filters. -/

section
namespace Sys2Proof.Machine

open Sys2Proof (LaneIx SlotIx BeatInput Key Instr AccessSize ProfileArgs ReplaceArgs)

/-! ### The end of an event, as the statements say it -/

/-- An event's end seen through a view, where the act's writes lie in the part's own areas. -/
theorem Part.finish_endsAs {p q r : Part} {view : Part → Part} (mem : Memory.Reach ownByte p.mem q.mem)
    (notices : p.noticesStay q) (seen : view (Part.finish p q) = view r) : EndsAs view noByte p r (Part.finish p q) where
  memory _ own _ := (mem.trans (Part.finish_keeps p q).mem).byte own
  notices := fun k hk => (Part.finish_keeps p q).notices k (notices k hk)
  line := (Part.finish_right p q).1
  lamps := (Part.finish_right p q).2
  view := seen

/-- An event of the running part, seen as its act left the part but for what its end writes. -/
theorem Runs.kept {c : Instr} {s : State} {f : Part → Part} {q : Part} {post : Part → Prop} (meaning : exec c s = s.event f)
    (on : s.part.enabled = true) (mem : Memory.Reach ownByte s.part.mem (f s.part).mem)
    (notices : s.part.noticesStay (f s.part)) (seen : (f s.part).kept = q.kept)
    (after : post (Part.finish s.part (f s.part))) : Runs c s Part.kept q post :=
  ⟨_, meaning.trans (s.event_running f on), rfl,
    Part.finish_endsAs mem notices ((Part.finish_keeps s.part _).kept.trans seen), after⟩

/-- An event of the running part, seen less what the evaluation of the head group may change. -/
theorem Runs.still {c : Instr} {s : State} {f : Part → Part} {q : Part} {post : Part → Prop} (meaning : exec c s = s.event f)
    (on : s.part.enabled = true) (mem : Memory.Reach ownByte s.part.mem (f s.part).mem)
    (notices : s.part.noticesStay (f s.part)) (seen : (f s.part).still = q.still)
    (after : post (Part.finish s.part (f s.part))) : Runs c s Part.still q post :=
  ⟨_, meaning.trans (s.event_running f on), rfl,
    Part.finish_endsAs mem notices ((Part.finish_keeps s.part _).stills.still.trans seen), after⟩

/-! ### The queue and the step -/

/-- Settles O1: by definition of the step on a queue that is not empty. -/
theorem stepTakesFront : Obligations.StepTakesFront := by
  intro s c rest front
  unfold step
  rw [front]

/-- A running part with no command waiting does what is its own to do. -/
theorem step_own {s : State} (empty : s.pending = []) (on : s.part.enabled = true) : step s = ownStep s := by
  simp [step, empty, on]

/-- Settles O2: the empty queue leaves the halted part's hold, the status word first of all the part's own steps, and the tick. -/
theorem emptyQueueHoldsOrTicks : Obligations.EmptyQueueHoldsOrTicks := by
  intro s empty
  refine ⟨fun off => ?_, fun k v rest on update => ?_, fun on ticks => ?_⟩
  · simp [step, empty, off]
  · have writes : s.part.own = .statusWord := by simp [Part.own, update]
    rw [step_own empty on, ownStep, writes]
    simp only [Part.writeStatusWord, update] <;> rfl
  · rw [step_own empty on, ownStep, ticks] <;> rfl

/-- Settles O3: the reset values are in range, the lists empty, the part halted. -/
theorem resetMeetsInvariants : Obligations.ResetMeetsInvariants :=
  ⟨⟨rfl, by decide⟩, rfl, ⟨rfl, fun on => nomatch on⟩, Part.resetWith_settings _ _ _,
    (State.listsRight_iff _).2 (Part.resetWith_lists _ _ _)⟩

/-! ### Scans (R151) -/

theorem RequestUnit.ask_eq (u : RequestUnit) :
    u.ask = if u.scan = .idle then { u with scan := .scanning 0 } else { u with rescan := true } := by
  unfold RequestUnit.ask
  split <;> simp_all

/-- Of a request in a slot that is not SUBMITTED nothing is taken (R150). -/
theorem Part.takes_unsubmitted {p : Part} {n : SlotIx} (h : p.mem.owner n ≠ ownerSubmitted) : p.takes n = false := by
  simp [Part.takes, h]

theorem State.longRequest_untaken {s : State} {n : SlotIx} (tag : Half) (job : LongJob)
    (refusal : Part → Option (Result × List Nat)) (begin_ : Part → Part) (h : s.part.takes n = false) :
    s.longRequest n tag job refusal begin_ = .next s := by simp [State.longRequest, h]

theorem knownKind_iff (kind : Byte) : knownKind kind = true ↔ 1 ≤ kind.toNat ∧ kind.toNat ≤ 16 := by
  simp [knownKind]

theorem exec_unknown (s : State) (n : SlotIx) (tag : Half) {kind : Byte} (h : knownKind kind = false) :
    exec (.unknown n tag kind) s = s.request n tag fun p => (p, .unknown, []) := by
  show (if knownKind kind then _ else _) = _
  rw [if_neg (Bool.not_eq_true _ ▸ h)]

theorem exec_loadBook (s : State) (n : SlotIx) (tag : Half) :
    exec (.loadBook n tag) s = s.longRequest n tag .load
      (fun p => if p.seq.state = .running ∨ p.seq.state = .loading then some (.state, []) else none) Part.beginLoad := rfl

theorem exec_replaceSection (s : State) (n : SlotIx) (tag : Half) (args : ReplaceArgs) :
    exec (.replaceSection n tag args) s = s.longRequest n tag (.replace args) (fun p => p.replaceRefusal args) id := rfl

theorem exec_arm (s : State) (n : SlotIx) (tag : Half) (sect count prime : Word) :
    exec (.arm n tag sect count prime) s = s.request n tag fun p => p.requestArm sect.toNat count.toNat prime.toNat := rfl

theorem exec_jump (s : State) (n : SlotIx) (tag : Half) (sect count keep prime : Word) :
    exec (.jump n tag sect count keep prime) s =
      s.request n tag fun p => p.requestJump sect.toNat count.toNat keep.toNat prime.toNat := rfl

theorem exec_stop (s : State) (n : SlotIx) (tag : Half) (keep : Word) :
    exec (.stop n tag keep) s = s.request n tag fun p => p.requestStop keep.toNat := rfl

theorem exec_setCut (s : State) (n : SlotIx) (tag : Half) (sect target : Word) :
    exec (.setCut n tag sect target) s = s.request n tag fun p => p.requestCut sect.toNat (some target.toNat) := rfl

theorem exec_clearCut (s : State) (n : SlotIx) (tag : Half) (sect : Word) :
    exec (.clearCut n tag sect) s = s.request n tag fun p => p.requestCut sect.toNat none := rfl

theorem exec_vampExit (s : State) (n : SlotIx) (tag : Half) :
    exec (.vampExit n tag) s = s.request n tag Part.requestVampExit := rfl

theorem exec_setProfile (s : State) (n : SlotIx) (tag : Half) (args : ProfileArgs) :
    exec (.setProfile n tag args) s = s.request n tag fun p =>
      (p.setProfile (clampProfile args).1 (clampProfile args).2.1, clampResult (clampProfile args).2.2,
        [(clampProfile args).2.2]) := rfl

/-- A request command whose slot the unit does not take changes nothing (R150). -/
theorem exec_requestIn_untaken {s : State} {n : SlotIx} (m : Memory) (h : s.part.takes n = false) :
    exec (m.requestIn n) s = .next s := by
  have short := fun tag act => State.request_untaken s n tag act h
  have long := fun tag job refusal begin_ => State.longRequest_untaken tag job refusal begin_ h
  unfold Memory.requestIn
  extract_lets w t
  split
  case h_17 other =>
    rw [exec_unknown, short]
    rw [← Bool.not_eq_true, knownKind_iff]
    intro ⟨low, high⟩
    generalize (m.byte (slotAt n + 4)).toNat = kind at *
    interval_cases kind <;> simp_all
  all_goals
    simp only [exec_loadBook, exec_replaceSection, exec_arm, exec_jump, exec_stop, exec_setCut, exec_clearCut, exec_vampExit,
      exec_setProfile, exec_setLane, exec_clearFault, exec_blank, exec_unblank, exec_remoteKey, exec_setJournal, exec_note,
      short, long]

/-- A running part with no update under way and no expiry due reads the next slot of its scan. -/
theorem State.own_scanRead {s : State} {k : Nat} (update : s.part.regs.update = []) (due : s.part.expiries = [])
    (scan : s.part.requests.scan = .scanning k) : s.part.own = .scanRead k := by
  simp [Part.own, update, due, scan]

/-- Settles O13: each ask and each read is one branch of the request unit's own step; an untaken slot's command is refused before it acts. -/
theorem scansAreAskedFor : Obligations.ScansAreAskedFor := by
  intro s v asked
  have ask : ∀ u : RequestUnit, u.ask = asked u := RequestUnit.ask_eq
  refine ⟨fun on => ?_, fun off => ?_, fun on t period come => ?_, fun k empty on update due scan => ⟨?_, ?_, ?_⟩, fun n m free => ?_⟩
  · show Host.Outcome.next (s.withPart (s.part.writeScan).outputs) = _
    rw [Part.writeScan, if_pos on, ← ask]
    rfl
  · show Host.Outcome.next (s.withPart (s.part.writeScan).outputs) = _
    rw [Part.writeScan, if_neg (by simp [off])]
  · have act : s.part.scanPeriod = s.part.setRequests (asked { s.part.requests with periodAt := some (t + 5000) }) := by
      unfold Part.scanPeriod
      rw [period, ← ask]
      exact if_pos come
    have quiet := Part.finish_quiet s.part s.part.scanPeriod
    refine Runs.kept (f := Part.scanPeriod) rfl on ?_ ?_ (by rw [act]) ⟨?_, ?_⟩
    · rw [act]; exact .refl _
    · rw [act]; exact fun _ h => h
    · rw [quiet.journal, act]; rfl
    · rw [quiet.notice, act]; rfl
  · intro n hn on'
    rw [step_own empty on, ownStep, State.own_scanRead update due scan]
    subst hn
    simp only [Part.scanRead, n.isLt, dite_true]
    refine ⟨fun submitted => ?_, fun other => ?_⟩
    · rw [if_pos submitted]
      rfl
    · rw [if_neg other]
      rfl
  · intro high rescan
    rw [step_own empty on, ownStep, State.own_scanRead update due scan]
    simp only [Part.scanRead, Nat.not_lt.2 high, dite_false, RequestUnit.endScan, rescan, if_true] <;> rfl
  · intro high rescan
    rw [step_own empty on, ownStep, State.own_scanRead update due scan]
    simp only [Part.scanRead, Nat.not_lt.2 high, dite_false, RequestUnit.endScan, rescan, Bool.false_eq_true, if_false] <;> rfl
  · exact exec_requestIn_untaken m (Part.takes_unsubmitted free)

/-! ### The register window -/

/-- Settles O14: both writes end with the outputs recomputed. -/
theorem noticeRegistersWrite : Obligations.NoticeRegistersWrite := fun _ _ => ⟨rfl, rfl⟩

/-- What a read returns is the bytes it addresses of the register's word. -/
theorem Part.hostRead_toNat (p : Part) (offset : Nat) (size : AccessSize) :
    (p.hostRead offset size).toNat =
      (p.readRegister (offset / 4 * 4)).toNat / 256 ^ (offset % 4) % 256 ^ size.bytes := by
  have shifted : (p.readRegister (offset / 4 * 4) >>> (8 * (offset % 4))).toNat =
      (p.readRegister (offset / 4 * 4)).toNat / 256 ^ (offset % 4) := by
    rw [BitVec.toNat_ushiftRight, Nat.shiftRight_eq_div_pow, Nat.pow_mul]
  have bound : ∀ k, (p.readRegister (offset / 4 * 4)).toNat / k < 4294967296 := fun k =>
    (Nat.div_le_self _ _).trans_lt (BitVec.isLt _)
  unfold Part.hostRead
  cases size
  all_goals
    simp only [AccessSize.bytes, BitVec.toNat_setWidth, shifted]
  · omega
  · omega
  · exact (Nat.mod_eq_of_lt (bound _)).symm

/-- TIME_LO's word and the bytes a read of it returns (R181). -/
theorem Part.timeLo_toNat (p : Part) (byte : Fin 4) (size : AccessSize) (inside : byte.val + size.bytes ≤ 4) :
    (p.hostRead (0x18 + byte.val) size).toNat = p.clock.showTime / 256 ^ byte.val % 256 ^ size.bytes := by
  have b := byte.isLt
  rw [Part.hostRead_toNat, show (0x18 + byte.val) / 4 * 4 = 0x18 by omega, show (0x18 + byte.val) % 4 = byte.val by omega]
  show (BitVec.ofNat 32 p.clock.showTime).toNat / _ % _ = _
  rw [BitVec.toNat_ofNat]
  have split : (2 : Nat) ^ 32 = 256 ^ byte.val * 256 ^ (4 - byte.val) := by
    rw [← Nat.pow_add, show byte.val + (4 - byte.val) = 4 by omega]
    rfl
  rw [split, Nat.mod_mul_right_div_self, Nat.mod_mod_of_dvd]
  exact Nat.pow_dvd_pow _ (by omega)

/-- Settles O16: each register's value fits its field, and a TIME_LO read copies the top bits first. -/
theorem registersRead : Obligations.RegistersRead := by
  intro s
  refine ⟨⟨rfl, rfl, rfl, rfl, ?_, ?_, ?_⟩, fun o => ⟨?_, ?_, fun aligned => ?_⟩, fun byte size inside time => ?_⟩
  · show (s.part.regs.notice.setWidth 32).toNat = _
    exact BitVec.toNat_setWidth_of_le (by decide)
  · show (s.part.regs.noticeEn.setWidth 32).toNat = _
    exact BitVec.toNat_setWidth_of_le (by decide)
  · show (s.part.regs.timeHi.setWidth 32).toNat = _
    exact BitVec.toNat_setWidth_of_le (by decide)
  · exact s.part.hostRead_toNat o .byte
  · exact s.part.hostRead_toNat o .half
  · apply BitVec.eq_of_toNat_eq
    rw [Part.hostRead_toNat, show o.val / 4 * 4 = o.val by omega, aligned, Nat.pow_zero, Nat.div_one]
    exact Nat.mod_eq_of_lt (BitVec.isLt _)
  · have low := s.part.timeLo_toNat byte size inside
    have high : ((BitVec.ofNat 16 (s.part.clock.showTime / 4294967296)).setWidth 32).toNat =
        s.part.clock.showTime / 4294967296 := by
      rw [BitVec.toNat_setWidth_of_le (by decide), BitVec.toNat_ofNat]
      exact Nat.mod_eq_of_lt (by omega)
    refine ⟨_, rfl, rfl, low, fun word => ?_, high, rfl⟩
    show ((BitVec.ofNat 16 (s.part.clock.showTime / 4294967296)).setWidth 32).toNat * 4294967296 +
      (s.part.hostRead (0x18 + byte.val) size).toNat = _
    subst word
    have first : byte.val = 0 := by
      simp only [AccessSize.bytes] at inside
      omega
    rw [high, low, first, Nat.pow_zero, Nat.div_one]
    exact Nat.div_add_mod' _ _

/-! ### The input filters -/

/-- Settles O17: an edge and a release write the filter alone. -/
theorem beatInputsFilter : Obligations.BeatInputsFilter := by
  intro s i
  refine ⟨?_, ?_⟩
  · show Host.Outcome.next (s.withPart (if s.part.enabled then s.part.beatEdge i else s.part).outputs) = _
    unfold Part.beatEdge
    cases s.part.enabled <;> cases s.part.clock.filter i <;> rfl
  · show Host.Outcome.next (s.withPart (if s.part.enabled then s.part.beatRelease i else s.part).outputs) = _
    cases s.part.enabled <;> rfl

/-- Settles O30: a press and a release each write the filter alone, and the confirmed release waits for its time. -/
theorem keyInputsFilter : Obligations.KeyInputsFilter := by
  intro s k
  dsimp only
  refine ⟨?_, ?_, fun t on releasing => ⟨fun come => ?_, fun early => ?_⟩⟩
  · show Host.Outcome.next (s.withPart (s.part.keyAsserted k).outputs) = _
    unfold Part.keyAsserted KeyFilter.asserted
    cases s.part.enabled <;> cases s.part.console.filters.get k <;> rfl
  · show Host.Outcome.next (s.withPart (s.part.keyReleased k).outputs) = _
    unfold Part.keyReleased KeyFilter.released
    cases s.part.enabled <;> cases s.part.console.filters.get k <;> rfl
  all_goals
    show Host.Outcome.next (s.withPart (if s.part.enabled then s.part.keyReleaseConfirmed k else s.part).outputs) = _
    rw [if_pos on, Part.keyReleaseConfirmed, releasing]
  · exact congrArg (fun q : Part => Host.Outcome.next (s.withPart q.outputs)) (if_pos come)
  · exact congrArg (fun q : Part => Host.Outcome.next (s.withPart q.outputs)) (if_neg (Nat.not_le.2 early))

/-! ### UNKNOWN (R155) -/

/-- Settles O35: an unknown kind is answered without an act, and one known is refused by the model. -/
theorem unknownIsAnswered : Obligations.UnknownIsAnswered := by
  intro s n tag kind
  refine ⟨fun takes other => ?_, fun low high => ?_⟩
  · have code : knownKind kind = false := by
      rw [← Bool.not_eq_true, knownKind_iff]
      omega
    exact State.request_refused (exec_unknown s n tag code) takes rfl
  · show (if knownKind kind then _ else _) = _
    rw [if_pos ((knownKind_iff kind).2 ⟨low, high⟩)]

end Sys2Proof.Machine
end

/-! PROOFS. The resets, the start-up and the halt (R184 to R187), and the register writes that begin them (R178, R179). -/

section
namespace Sys2Proof.Machine

open Sys2Proof (LaneIx SlotIx Instr AccessSize)

/-! ### The slots a reset answers (R167) -/

theorem inSlot_unique {n k : SlotIx} {a : Nat} (hn : inSlot n a) (hk : inSlot k a) : n = k := by
  unfold inSlot slotAt at hn hk
  exact Fin.ext (by omega)

theorem Memory.owner_congr {m k : Memory} {n : SlotIx} (same : ∀ a, inSlot n a → k.byte a = m.byte a) :
    k.owner n = m.owner n :=
  Memory.number_congr 4 _ fun a h1 h2 => same a ⟨h1, by omega⟩

theorem Memory.tag_congr {m k : Memory} {n : SlotIx} (same : ∀ a, inSlot n a → k.byte a = m.byte a) : k.tag n = m.tag n := by
  unfold Memory.tag
  rw [Memory.number_congr (m := k) (n := m) 2 _ fun a h1 h2 => same a ⟨by omega, by omega⟩]

/-- A slot found TAKEN answered ABORTED. -/
def Memory.abortSlot (m : Memory) (n : SlotIx) : Memory :=
  if m.owner n = ownerTaken then m.answer n (m.tag n) .aborted [] else m

theorem Memory.abortTaken_eq (m : Memory) : m.abortTaken = allSlots.foldl Memory.abortSlot m := rfl

theorem Memory.abortSlot_other (m : Memory) {n k : SlotIx} (h : n ≠ k) {a : Nat} (inside : inSlot k a) :
    (m.abortSlot n).byte a = m.byte a := by
  unfold Memory.abortSlot
  split
  · exact m.answer_other n _ _ _ fun both => h (inSlot_unique both inside)
  · rfl

theorem Memory.abortSlots_other (xs : List SlotIx) {k : SlotIx} (h : k ∉ xs) {a : Nat} (inside : inSlot k a) :
    ∀ m : Memory, (xs.foldl Memory.abortSlot m).byte a = m.byte a := by
  induction xs with
  | nil => exact fun _ => rfl
  | cons n rest ih =>
    intro m
    obtain ⟨apart, others⟩ := not_or.1 (List.mem_cons.not.1 h)
    exact (ih others _).trans (m.abortSlot_other (Ne.symm apart) inside)

/-- What becomes of the slots of a list (R167): answered where found TAKEN, as they were elsewhere. -/
theorem Memory.abortSlots_slot (xs : List SlotIx) (distinct : xs.Nodup) {k : SlotIx} (h : k ∈ xs) :
    ∀ m : Memory,
      (m.owner k = ownerTaken → (xs.foldl Memory.abortSlot m).answered k (m.tag k) .aborted []) ∧
        (m.owner k ≠ ownerTaken → ∀ a, inSlot k a → (xs.foldl Memory.abortSlot m).byte a = m.byte a) := by
  induction xs with
  | nil => exact nomatch h
  | cons n rest ih =>
    intro m
    obtain ⟨fresh, distinct⟩ := List.nodup_cons.1 distinct
    by_cases first : n = k
    · subst first
      have rest_stands : ∀ a, inSlot n a → (rest.foldl Memory.abortSlot (m.abortSlot n)).byte a = (m.abortSlot n).byte a :=
        fun a inside => Memory.abortSlots_other rest fresh inside _
      refine ⟨fun taken => Memory.answered_congr rest_stands ?_, fun free a inside => (rest_stands a inside).trans ?_⟩
      · rw [Memory.abortSlot, if_pos taken]
        exact m.answer_answered n _ _ _
      · rw [Memory.abortSlot, if_neg free]
    · have later : k ∈ rest := (List.mem_cons.1 h).resolve_left (Ne.symm first)
      have stands : ∀ a, inSlot k a → (m.abortSlot n).byte a = m.byte a := fun a => m.abortSlot_other first
      obtain ⟨answers, keeps⟩ := ih distinct later (m.abortSlot n)
      rw [Memory.owner_congr stands, Memory.tag_congr stands] at answers
      rw [Memory.owner_congr stands] at keeps
      exact ⟨answers, fun free a inside => (keeps free a inside).trans (stands a inside)⟩

theorem Memory.abortTaken_slot (m : Memory) (n : SlotIx) :
    (m.owner n = ownerTaken → m.abortTaken.answered n (m.tag n) .aborted []) ∧
      (m.owner n ≠ ownerTaken → ∀ a, inSlot n a → m.abortTaken.byte a = m.byte a) :=
  Memory.abortSlots_slot allSlots (List.nodup_finRange 32) (List.mem_finRange n) m

/-! ### The resets (R184, R185) -/

/-- A machine after reset has its line and lamps dark. -/
theorem Part.resetWith_outputs (mem : Memory) (levels : PerKey Bool) (cause : StartCause) :
    (Part.resetWith mem levels cause).outputs = Part.resetWith mem levels cause := by
  have dark : lampsOf (Part.resetWith mem levels cause) = { go := false, hold := false, blank := false, fault := false } := by
    simp only [lampsOf, Part.resetWith_lane]
    rfl
  have quiet : noticeLineOf (Part.resetWith mem levels cause).regs = false := by
    simp [noticeLineOf, Part.resetWith, Registers.reset]
  unfold Part.outputs
  rw [dark, quiet]
  rfl

theorem Sequencer.cutOf_reset (s : Nat) : Sequencer.reset.cutOf s = none := by
  unfold Sequencer.cutOf Sequencer.reset
  by_cases h : s < 128 <;> simp [h]

/-- Where a slot is not the one being executed, a reset's memory is made of one that has the slot as it was. -/
theorem Part.resetMemory_other {p : Part} {n : SlotIx} (h : ∀ tag job, p.requests.scan ≠ .executing n tag job) :
    ∃ m, p.resetMemory = Memory.abortTaken m ∧ ∀ a, inSlot n a → m.byte a = p.mem.byte a := by
  unfold Part.resetMemory
  split
  · next k tag job scan =>
    have apart : n ≠ k := fun same => h tag job (same ▸ scan)
    exact ⟨_, rfl, fun a inside => Memory.answer_other _ _ _ _ _ fun both => apart (inSlot_unique inside both)⟩
  · exact ⟨_, rfl, fun _ _ => rfl⟩
  · exact ⟨_, rfl, fun _ _ => rfl⟩

theorem Part.resetMemory_executing {p : Part} {n : SlotIx} {tag : Half} {job : LongJob}
    (h : p.requests.scan = .executing n tag job) : p.resetMemory = (p.mem.answer n tag .aborted []).abortTaken := by
  unfold Part.resetMemory
  rw [h]

/-- Settles O10: the reset values, and the sweep over the slots for those found TAKEN. -/
theorem resetsRestore : Obligations.ResetsRestore := by
  refine ⟨fun mem levels cause => ?_, fun s => ?_, fun c s soft => ?_⟩
  · dsimp only
    refine ⟨rfl, rfl, rfl, rfl, rfl, rfl, rfl, rfl, rfl, rfl, rfl, rfl, rfl, Sequencer.cutOf_reset, rfl, fun i => ?_, rfl, rfl, rfl,
      rfl, rfl, rfl⟩
    rw [Part.resetWith_lane]
    exact ⟨rfl, rfl, rfl, rfl, rfl, rfl, rfl, rfl, rfl, rfl, rfl, rfl, rfl⟩
  · show Host.Outcome.next (s.withPart (Part.resetWith _ _ _).outputs) = _
    rw [Part.resetWith_outputs]
  · have runs : exec c s = .next (s.withPart s.part.softReset.outputs) := by
      rcases soft with rfl | rfl <;> rfl
    have memory : s.part.softReset.outputs.mem = s.part.resetMemory := rfl
    refine ⟨_, runs, rfl, Part.resetWith_outputs _ _ _, fun a outside => ?_, fun n => ⟨fun tag job scan => ?_, fun idle => ?_⟩⟩
    · exact s.part.resetMemory_reach.byte outside
    · rw [State.withPart_part, memory, Part.resetMemory_executing scan]
      have answered := s.part.mem.answer_answered n tag .aborted []
      have done : (s.part.mem.answer n tag .aborted []).owner n ≠ ownerTaken := by
        rw [answered.1]
        decide
      exact Memory.answered_congr ((Memory.abortTaken_slot _ n).2 done) answered
    · obtain ⟨m, reset, stands⟩ := Part.resetMemory_other idle
      obtain ⟨answers, keeps⟩ := m.abortTaken_slot n
      rw [Memory.owner_congr stands, Memory.tag_congr stands] at answers
      rw [Memory.owner_congr stands] at keeps
      rw [State.withPart_part, memory, reset]
      exact ⟨answers, fun free a inside => (keeps free a inside).trans (stands a inside)⟩

/-! ### Register writes (R178, R179) -/

theorem Part.outputs_eq {p : Part} (h : p.lit) : p.outputs = p := by
  obtain ⟨line, lamps⟩ := h
  unfold Part.outputs
  rw [← line, ← lamps]

/-- The registers that act are CONTROL, SCAN, NOTICE and NOTICE_EN. -/
theorem Part.writeRegister_other (p : Part) {offset : Nat} (value : Word)
    (h : offset ≠ 0x08 ∧ offset ≠ 0x0C ∧ offset ≠ 0x10 ∧ offset ≠ 0x14) : p.writeRegister offset value = p := by
  obtain ⟨control, scan, notice, enable⟩ := h
  unfold Part.writeRegister
  split
  · exact absurd rfl control
  · exact absurd rfl scan
  · exact absurd rfl notice
  · exact absurd rfl enable
  · rfl

/-- Settles O15: a write that is no aligned word is ignored, and each register's word is its own command. -/
theorem registerWritesAct : Obligations.RegisterWritesAct := by
  intro s v right
  have same : Host.Outcome.next (s.withPart s.part.outputs) = (.next s : Host.Outcome State Fault Refusal) := by
    rw [Part.outputs_eq right]
    rfl
  have ignored : ∀ o : Fin 32, (o.val ≠ 0x08 ∧ o.val ≠ 0x0C ∧ o.val ≠ 0x10 ∧ o.val ≠ 0x14) →
      exec (.registerWrite o .word v) s = .next s := fun o other => by
    show Host.Outcome.next (s.withPart (s.part.writeRegister o.val v).outputs) = _
    rw [s.part.writeRegister_other v other, same]
  refine ⟨?_, rfl, rfl, rfl, fun o fixed => ignored o ?_, fun o => ⟨same, same⟩, fun o off => ignored o (by omega),
    fun on => ?_, fun off => ?_⟩
  · show Host.Outcome.next (s.withPart (s.part.writeControl v).outputs) = _
    unfold Part.writeControl
    split
    · rfl
    · split <;> rfl
  · rcases fixed with rfl | rfl | rfl | rfl <;> decide
  · show Host.Outcome.next (s.withPart s.part.startUp.outputs) = _
    rw [Part.startUp, if_pos on, same]
  · show Host.Outcome.next (s.withPart s.part.halt.outputs) = _
    rw [Part.halt, if_neg (by simp [off]), same]

/-! ### The halt (R187) -/

/-- Records stand where the journal unit and everything beyond the slots do. -/
theorem Part.appended_beyond {p q r : Part} {rs : List Record} (h : p.appended q rs) (journal : r.journal = q.journal)
    (beyond : ∀ a, 0xA00 ≤ a → r.mem.byte a = q.mem.byte a) : p.appended r rs := fun room => by
  obtain ⟨w, lost, held⟩ := h room
  rw [← journal] at w lost
  exact ⟨w, lost, fun k hk => Memory.holds_congr
    (fun a above _ => beyond a (by have := recordAt_bounds (p.journal.w + BitVec.ofNat 32 k); omega)) (held k hk)⟩

/-- An answer leaves every block but book memory and NOTICE alone. -/
theorem Part.answer_rest (p : Part) (n : SlotIx) (tag : Half) (r : Result) (d : List Nat) :
    (p.answer n tag r d).clock = p.clock ∧ (p.answer n tag r d).seq = p.seq ∧ (p.answer n tag r d).lanes = p.lanes ∧
      (p.answer n tag r d).console = p.console ∧ (p.answer n tag r d).journal = p.journal ∧
      (p.answer n tag r d).regs.noticeEn = p.regs.noticeEn ∧ (p.answer n tag r d).regs.timeHi = p.regs.timeHi ∧
      (p.answer n tag r d).regs.update = p.regs.update :=
  ⟨rfl, rfl, rfl, rfl, rfl, rfl, rfl, rfl⟩

theorem Part.answer_notices (p : Part) (n : SlotIx) (tag : Half) (r : Result) (d : List Nat) :
    p.noticesStay (p.answer n tag r d) :=
  (Part.setNotice_keeps { p with mem := p.mem.answer n tag r d } .slot).notices

theorem Part.abortLong_rest (p : Part) :
    p.abortLong.clock = p.clock ∧ p.abortLong.seq = p.seq ∧ p.abortLong.lanes = p.lanes ∧ p.abortLong.console = p.console ∧
      p.abortLong.journal = p.journal ∧ p.abortLong.regs.noticeEn = p.regs.noticeEn ∧ p.abortLong.regs.timeHi = p.regs.timeHi ∧
      p.abortLong.regs.update = p.regs.update := by
  unfold Part.abortLong
  split
  · exact p.answer_rest ..
  all_goals exact ⟨rfl, rfl, rfl, rfl, rfl, rfl, rfl, rfl⟩

theorem Part.abortLong_notices (p : Part) : p.noticesStay p.abortLong := by
  unfold Part.abortLong
  split
  · exact p.answer_notices _ _ _ _
  all_goals exact fun _ h => h

theorem Part.abortLong_executing {p : Part} {n : SlotIx} {tag : Half} {job : LongJob} (h : p.requests.scan = .executing n tag job) :
    p.abortLong = p.answer n tag .aborted [] := by
  unfold Part.abortLong
  rw [h]

theorem Part.abortLong_idle {p : Part} (h : ∀ n tag job, p.requests.scan ≠ .executing n tag job) : p.abortLong = p := by
  unfold Part.abortLong
  split
  · next n tag job scan => exact absurd scan (h n tag job)
  · rfl
  · rfl

theorem Part.abortLong_beyond (p : Part) {a : Nat} (ha : 0xA00 ≤ a) : p.abortLong.mem.byte a = p.mem.byte a := by
  unfold Part.abortLong
  split
  · next n tag _ _ =>
    exact Memory.answer_other _ n tag _ _ fun inside => by
      have := slotAt_bounds n
      obtain ⟨_, below⟩ := inside
      omega
  all_goals rfl

/-- The part at a halt before the request unit and ENABLE change: every block halted, the updates and the CLOCK record written. -/
def Part.halted (p : Part) : Part := (Part.effects p p.haltBlocks).finishUpdate

theorem Part.halt_eq {p : Part} (on : p.enabled = true) :
    p.halt = Part.outputs { p.halted.abortLong with
      requests := { scan := .idle, rescan := false, replaceUsed := false, periodAt := none }
      regs := { p.halted.abortLong.regs with enable := false } } := by
  unfold Part.halt
  rw [if_pos on]
  rfl

theorem Part.halted_keeps (p : Part) : p.halting.Keeps p.halted :=
  ((Part.reportClock_keeps p.halting p.clock.state .halt).trans (Part.effects_keeps p p.haltBlocks)).trans
    (Part.finishUpdate_keeps _)

/-- The CLOCK record of a halt (R45). -/
theorem Part.halted_appended {p : Part} (h : p.clock.state ≠ .stopped) :
    p.appended p.halted [clockRecord .halt p.clock.state p.halting.clock] ∧ p.halted.regs.notice.getLsbD 3 = true := by
  have report : p.haltBlocks =
      (p.halting.setNotice .clock).append (clockRecord .halt p.clock.state p.halting.clock) := if_neg (Ne.symm h)
  have quiet := (Part.effects_quiet p p.haltBlocks).trans (Part.finishUpdate_quiet _)
  refine ⟨Part.appended_quiet ?_ quiet, ?_⟩
  · rw [report]
    exact Part.append_appended (p.halting.setNotice .clock) _
  · rw [show p.halted.regs.notice = _ from quiet.notice, report]
    exact (Part.append_keeps _ _).notices _ (Part.setNotice_bit p.halting .clock)

/-- A lane at a halt, as what the end of the halt keeps shows it (R91). -/
theorem Lane.halt_of_kept {l m : Lane} (h : m.kept = l.halt.kept) :
    m.link = .off ∧ m.screen = none ∧ m.outstanding = [] ∧ m.express = [] ∧ m.maxDwellAt = none ∧ m.missCounter = 0 ∧
      m.cfg = l.cfg ∧ m.shadow = l.shadow ∧ m.blanked = l.blanked ∧ m.sequence = l.sequence ∧ m.sent = l.sent ∧
      m.acknowledged = l.acknowledged ∧ m.misses = l.misses ∧ m.badReplies = l.badReplies ∧ m.strays = l.strays :=
  ⟨congrArg Lane.link h, congrArg Lane.screen h, congrArg Lane.outstanding h, congrArg Lane.express h,
    congrArg Lane.maxDwellAt h, congrArg Lane.missCounter h, (congrArg Lane.cfg h :), (congrArg Lane.shadow h :),
    (congrArg Lane.blanked h :), (congrArg Lane.sequence h :), (congrArg Lane.sent h :), (congrArg Lane.acknowledged h :),
    (congrArg Lane.misses h :), (congrArg Lane.badReplies h :), (congrArg Lane.strays h :)⟩

theorem Sequencer.halt_act {q : Sequencer} (h : q.state = .running ∨ q.state = .ended) : q.halt = { q.rest with pass := 0 } := by
  unfold Sequencer.halt
  rcases h with h | h <;> rw [h]

theorem Sequencer.halt_loading {q : Sequencer} (h : q.state = .loading) :
    q.halt = { q with state := .empty, book := none, lastError := LoadError.none } := by
  unfold Sequencer.halt
  rw [h]

theorem Sequencer.halt_idle {q : Sequencer} (h : q.state = .empty ∨ q.state = .loaded) : q.halt = q := by
  unfold Sequencer.halt
  rcases h with h | h <;> rw [h]

/-- Settles O12: the halt's steps in their order, of which only the aborted request and the CLOCK record write memory. -/
theorem haltEnds : Obligations.HaltEnds := by
  intro s on
  have keeps := s.part.halted_keeps
  obtain ⟨clock, seq, lanes, console, journal, noticeEn, timeHi, update⟩ := s.part.halted.abortLong_rest
  have clock : s.part.halted.abortLong.clock = s.part.clock.halt := clock.trans (Part.kept_clock keeps.kept)
  have seq : s.part.halted.abortLong.seq = s.part.seq.halt := seq.trans (Part.kept_seq keeps.kept)
  have scan : s.part.halted.requests.scan = s.part.requests.scan := Part.kept_scan (p := s.part.halting) keeps.kept
  have lane : ∀ i, (s.part.halted.abortLong.lane i).kept = (s.part.lane i).halt.kept := fun i => by
    rw [Part.lane_of_lanes lanes, Part.kept_lane keeps.kept i, Part.halting_lane]
  have noticeEn := noticeEn.trans (Part.kept_noticeEn (p := s.part.halting) keeps.kept)
  have timeHi := timeHi.trans (Part.kept_timeHi (p := s.part.halting) keeps.kept)
  have levels := (congrArg Console.levels console).trans (Part.kept_levels (p := s.part.halting) keeps.kept)
  have alert := (congrArg JournalUnit.alert journal).trans (Part.kept_alert (p := s.part.halting) keeps.kept)
  have cause := (congrArg JournalUnit.startCause journal).trans (Part.kept_startCause (p := s.part.halting) keeps.kept)
  have notices : s.part.noticesStay s.part.halted.abortLong := fun k h =>
    s.part.halted.abortLong_notices k (keeps.notices k h)
  have runs : exec .halt s = .next (s.withPart s.part.halt.outputs) := rfl
  rw [Part.halt_eq on] at runs
  refine ⟨_, runs, rfl, notices, Part.outputs_right _, rfl, noticeEn, timeHi, clock, fun act => seq.trans (Sequencer.halt_act act),
    fun loading => seq.trans (Sequencer.halt_loading loading), fun idle => seq.trans (Sequencer.halt_idle idle),
    fun i => Lane.halt_of_kept (lane i), ?_, ?_, levels, rfl, update, alert, cause, fun moving => ?_, fun n tag job executing => ?_,
    fun idle a own => ?_⟩
  · exact (congrArg Console.filters console).trans (Part.kept_filters keeps.kept)
  · exact (congrArg Console.lastGo console).trans (Part.kept_lastGo keeps.kept)
  · obtain ⟨recorded, set⟩ := Part.halted_appended moving
    refine ⟨?_, s.part.halted.abortLong_notices 3 set⟩
    rw [show s.part.halting.clock = s.part.halted.abortLong.clock from clock.symm] at recorded
    exact Part.appended_beyond recorded journal fun a beyond => s.part.halted.abortLong_beyond beyond
  · have answered := Part.abortLong_executing (scan.trans executing)
    have mem : s.part.halted.abortLong.mem = s.part.halted.mem.answer n tag .aborted [] := by
      rw [answered]
      rfl
    refine ⟨?_, ?_, fun a own outside => ?_⟩
    · show s.part.halted.abortLong.mem.answered n tag .aborted []
      rw [mem]
      exact Memory.answer_answered _ n tag .aborted []
    · show s.part.halted.abortLong.regs.notice.getLsbD 0 = true
      rw [answered]
      exact Part.setNotice_bit _ .slot
    · show s.part.halted.abortLong.mem.byte a = _
      rw [mem, Memory.answer_other _ n tag .aborted [] outside]
      exact keeps.mem.byte own
  · show s.part.halted.abortLong.mem.byte a = _
    rw [Part.abortLong_idle fun n tag job => scan ▸ idle n tag job]
    exact keeps.mem.byte own

/-! ### The start-up (R186) -/

/-- A lane at a start-up (R91). -/
def Lane.started (l : Lane) (now : Nat) : Lane :=
  if l.cfg.enable then l.restartShadow.toSync now else l.restartShadow

theorem Lane.started_kept_congr {l m : Lane} (now : Nat) (h : l.kept = m.kept) :
    (l.started now).kept = (m.started now).kept := by
  have cfg : l.cfg = m.cfg := (congrArg Lane.cfg h :)
  have restarted : l.restartShadow.kept = m.restartShadow.kept := congrArg Lane.restartShadow h
  have through : ∀ x : Lane, (x.kept.restartShadow.toSync now).kept = (x.restartShadow.toSync now).kept := fun _ => rfl
  have synced : (l.restartShadow.toSync now).kept = (m.restartShadow.toSync now).kept := by
    rw [← through l, h, through m]
  unfold Lane.started
  rw [cfg]
  split
  · exact synced
  · exact restarted

theorem Part.startLane_kept (p : Part) (i : LaneIx) :
    (p.startLane i).kept = (p.setLane i ((p.lane i).started p.now)).kept := by
  have restarted : (p.modLane i Lane.restartShadow).lane i = (p.lane i).restartShadow := Part.lane_setLane_same ..
  have cfg : (p.lane i).restartShadow.cfg = (p.lane i).cfg := rfl
  unfold Part.startLane Lane.started
  simp only [restarted, cfg]
  by_cases enabled : (p.lane i).cfg.enable = true
  · rw [if_pos enabled, if_pos enabled, Part.enterSync_kept, restarted]
    simp only [Part.modLane, Part.setLane, Vector.set_set]
    rfl
  · rw [if_neg enabled, if_neg enabled]
    rfl

theorem Part.startLane_now (p : Part) (i : LaneIx) : (p.startLane i).now = p.now :=
  congrArg Clock.showTime (Part.kept_clock (p := p.setLane i ((p.lane i).started p.now)) (p.startLane_kept i))

/-- A start-up's step for one lane: its writes, its notices, and the lane record of an enabled one (R91). -/
theorem Part.startLane_appended {p q : Part} {rs : List Record} (i : LaneIx) (h : p.appended q rs) (now : q.now = p.now)
    (mark : q.readMark = p.readMark) :
    ∃ more, p.appended (q.startLane i) (rs ++ more) ∧ more.length = if (q.lane i).cfg.enable then 1 else 0 := by
  have restarted : (q.modLane i Lane.restartShadow).lane i = (q.lane i).restartShadow := Part.lane_setLane_same ..
  have cfg : (q.lane i).restartShadow.cfg = (q.lane i).cfg := rfl
  unfold Part.startLane
  simp only [restarted, cfg]
  split
  · exact ⟨[laneRecord .start i ((q.modLane i Lane.restartShadow).lane i).link .sync none none],
      Part.appended_append (q := (q.modLane i Lane.restartShadow).modLane i fun l => l.toSync _) _ h now mark, rfl⟩
  · exact ⟨[], by rw [List.append_nil]; exact h, rfl⟩

theorem Part.startLane_memory (p : Part) (i : LaneIx) : Memory.Reach ownByte p.mem (p.startLane i).mem := (p.startLane_sound i).mem

theorem Part.startLane_notices (p : Part) (i : LaneIx) : p.noticesStay (p.startLane i) := by
  unfold Part.startLane
  simp only
  split
  · exact Part.enterSync_notices (p.modLane i Lane.restartShadow) i .start
  · exact fun _ h => h

/-- What the start-up of a list of lanes leaves: each lane of it started, every other as it was, and a record for each enabled one. -/
theorem Part.startLanes (xs : List LaneIx) (distinct : xs.Nodup) :
    ∀ q : Part,
      (∀ i, ((xs.foldl Part.startLane q).lane i).kept = (if i ∈ xs then (q.lane i).started q.now else q.lane i).kept) ∧
      ({ (xs.foldl Part.startLane q).kept with lanes := q.lanes } = { q.kept with lanes := q.lanes }) ∧
      q.noticesStay (xs.foldl Part.startLane q) ∧
      ∀ (p : Part) (rs : List Record), p.appended q rs → q.now = p.now → q.readMark = p.readMark →
        ∃ more, p.appended (xs.foldl Part.startLane q) (rs ++ more) ∧
          more.length = (xs.filter fun i => (q.lane i).cfg.enable).length := by
  induction xs with
  | nil => exact fun q => ⟨fun i => rfl, rfl, fun _ h => h, fun p rs h _ _ => ⟨[], by rw [List.append_nil]; exact h, rfl⟩⟩
  | cons i rest ih =>
    intro q
    obtain ⟨fresh, distinct⟩ := List.nodup_cons.1 distinct
    obtain ⟨lanes, others, notices, records⟩ := ih distinct (q.startLane i)
    have seen := q.startLane_kept i
    have lane : ∀ k, ((q.startLane i).lane k).kept = (if k = i then (q.lane i).started q.now else q.lane k).kept := by
      intro k
      rw [Part.kept_lane seen k]
      split
      · next same => rw [same, Part.lane_setLane_same]
      · next other => rw [Part.lane_setLane_other _ _ (Ne.symm other)]
    have cfg : ∀ k, k ≠ i → ((q.startLane i).lane k).cfg = (q.lane k).cfg := fun k other => by
      have := lane k
      rw [if_neg other] at this
      exact (congrArg Lane.cfg this :)
    refine ⟨fun k => (lanes k).trans ?_, ?_, fun b h => notices b (q.startLane_notices i b h), fun p rs h now mark => ?_⟩
    · rw [q.startLane_now i]
      by_cases same : k = i
      · subst same
        rw [if_neg fresh, if_pos List.mem_cons_self, lane k, if_pos rfl]
      · have here := lane k
        rw [if_neg same] at here
        by_cases later : k ∈ rest
        · rw [if_pos later, if_pos (List.mem_cons_of_mem _ later)]
          exact Lane.started_kept_congr _ here
        · rw [if_neg later, if_neg (List.not_mem_cons_of_ne_of_not_mem same later)]
          exact here
    · have first : { (q.startLane i).kept with lanes := q.lanes } = { q.kept with lanes := q.lanes } := by
        rw [seen]
        rfl
      exact (congrArg (fun x : Part => { x with lanes := q.lanes }) others).trans first
    · obtain ⟨one, h1, length1⟩ := Part.startLane_appended i h now mark
      obtain ⟨more, h2, length2⟩ := records p (rs ++ one) h1 ((q.startLane_now i).trans now)
        ((Memory.Reach.readMark (q.startLane_memory i)).trans mark)
      refine ⟨one ++ more, by rw [← List.append_assoc]; exact h2, ?_⟩
      have same : (rest.filter fun k => ((q.startLane i).lane k).cfg.enable) = rest.filter fun k => (q.lane k).cfg.enable :=
        List.filter_congr fun k hk => by rw [cfg k (ne_of_mem_of_not_mem hk fresh)]
      rw [List.length_append, length1, length2, same, List.filter_cons]
      by_cases enabled : (q.lane i).cfg.enable = true
      · rw [if_pos enabled, if_pos enabled, List.length_cons, Nat.add_comm]
      · rw [if_neg enabled, if_neg enabled, Nat.zero_add]

/-- What a lane started shows of the lane before (R91). -/
theorem Lane.started_of_kept {l m : Lane} (h : m.kept = (l.started 0).kept) :
    m.cfg = l.cfg ∧ m.blanked = l.blanked ∧ m.sequence = l.sequence ∧ m.sent = l.sent ∧
      m.shadow = { l.shadow with shown := 0 } ∧ (l.cfg.enable = false → m.link = l.link) ∧
      (l.cfg.enable = true →
        m.link = .sync ∧ m.screen = none ∧ m.helloWaiting = true ∧ m.outstanding = [] ∧ m.express = [] ∧ m.missCounter = 0) := by
  unfold Lane.started at h
  split at h
  · next enabled =>
    refine ⟨(congrArg Lane.cfg h :), (congrArg Lane.blanked h :), (congrArg Lane.sequence h :), (congrArg Lane.sent h :),
      (congrArg Lane.shadow h :), fun disabled => absurd enabled (by simp [disabled]), fun _ => ?_⟩
    exact ⟨congrArg Lane.link h, congrArg Lane.screen h, congrArg Lane.helloWaiting h, congrArg Lane.outstanding h,
      congrArg Lane.express h, congrArg Lane.missCounter h⟩
  · next disabled =>
    exact ⟨(congrArg Lane.cfg h :), (congrArg Lane.blanked h :), (congrArg Lane.sequence h :), (congrArg Lane.sent h :),
      (congrArg Lane.shadow h :), fun _ => (congrArg Lane.link h :), fun enabled => absurd enabled disabled⟩

/-- The START record of a start-up (R173). -/
def Part.starting (p : Part) : Record :=
  startRecord p.journal.startCause p.journal.w.toNat p.readMark.toNat p.journal.lost

/-- A part at a start-up with the START record, before its lanes enter SYNC. -/
def Part.withStart (q : Part) (r : Record) : Part := (q.append r).setJournal { (q.append r).journal with startCause := .resume }

theorem Part.runStarted_eq (p q : Part) : p.runStarted q = allLanes.foldl Part.startLane (q.withStart p.starting) := by
  unfold Part.runStarted
  rfl

theorem Part.withStart_kept (q : Part) (r : Record) :
    (q.withStart r).kept = (q.setJournal { q.journal with startCause := .resume }).kept := by
  have through : ∀ x : Part, (x.setJournal { x.journal with startCause := .resume }).kept =
      x.kept.setJournal { x.kept.journal with startCause := .resume } := fun _ => rfl
  unfold Part.withStart
  rw [through, (q.append_keeps r).kept, through]

theorem Part.withStart_now (q : Part) (r : Record) : (q.withStart r).now = q.now :=
  congrArg Clock.showTime (Part.kept_clock (p := q.setJournal { q.journal with startCause := .resume }) (q.withStart_kept r))

theorem Part.withStart_lane (q : Part) (r : Record) (i : LaneIx) : ((q.withStart r).lane i).kept = (q.lane i).kept :=
  Part.kept_lane (p := q.setJournal { q.journal with startCause := .resume }) (q.withStart_kept r) i

theorem Part.withStart_appended (q : Part) (r : Record) : q.appended (q.withStart r) [r] := fun room =>
  q.append_appended r room

theorem Part.withStart_reach (q : Part) (r : Record) : Memory.Reach ownByte q.mem (q.withStart r).mem := q.append_reach r

theorem Part.withStart_notices (q : Part) (r : Record) : q.noticesStay (q.withStart r) := (q.append_keeps r).notices

theorem Part.restarted_keeps (p : Part) : p.restarting.Keeps p.restarted :=
  (p.restarting.statusWrite_keeps _).trans (Part.finishUpdate_keeps _)

theorem Part.restarted_readMark (p : Part) : p.restarted.readMark = p.readMark :=
  Memory.Reach.readMark (p := p) p.restarted_keeps.mem

theorem Part.restarted_journal (p : Part) : p.restarted.journal = { p.journal with w := p.readMark, lost := 0 } := rfl

theorem Part.restarted_now (p : Part) : p.restarted.now = 0 := rfl

/-- Right after a start-up's W is set the ring has room for every record it has (R168). -/
theorem Part.restarted_room (p : Part) {k : Nat} (h : k ≤ 4096) : p.restarted.roomFor k := by
  unfold Part.roomFor Part.unread
  rw [Part.restarted_journal, Part.restarted_readMark, BitVec.sub_self]
  refine ⟨rfl, ?_⟩
  exact (Nat.zero_add k).trans_le h

/-- What a start-up runs to, from the part with its status block whole. -/
theorem Part.runStarted_leaves (p q : Part) :
    (∀ i, ((p.runStarted q).lane i).kept = ((q.lane i).started q.now).kept) ∧
      ({ (p.runStarted q).kept with lanes := p.lanes } =
        { (q.setJournal { q.journal with startCause := .resume }).kept with lanes := p.lanes }) ∧
      q.noticesStay (p.runStarted q) ∧
      ∃ more, q.appended (p.runStarted q) ([p.starting] ++ more) ∧
        more.length = (allLanes.filter fun i => (q.lane i).cfg.enable).length := by
  rw [Part.runStarted_eq]
  obtain ⟨lanes, others, notices, records⟩ := Part.startLanes allLanes allLanes_nodup (q.withStart p.starting)
  obtain ⟨more, recorded, count⟩ := records q [p.starting] (q.withStart_appended p.starting) (q.withStart_now _)
    (Memory.Reach.readMark (q.withStart_reach p.starting))
  generalize allLanes.foldl Part.startLane (q.withStart p.starting) = started at *
  refine ⟨fun i => ?_, ?_, fun k h => notices k (q.withStart_notices p.starting k h), more, recorded, count.trans ?_⟩
  · rw [lanes i, if_pos (mem_allLanes i), Part.withStart_now]
    exact Lane.started_kept_congr _ (q.withStart_lane _ i)
  · rw [← q.withStart_kept p.starting]
    exact congrArg (fun x : Part => { x with lanes := p.lanes }) others
  · refine congrArg List.length (List.filter_congr fun i _ => ?_)
    exact (congrArg (fun l : Lane => l.cfg.enable) (q.withStart_lane p.starting i) :)

/-- Settles O11: the start's steps in their order, of which only the START record writes memory. -/
theorem startUpBegins : Obligations.StartUpBegins := by
  intro s off
  have ready := s.part.restarted_keeps
  obtain ⟨lanes, others, notices, more, recorded, count⟩ := s.part.runStarted_leaves s.part.restarted
  have sound := s.part.runStarted_sound s.part.restarted
  have runs : exec .startUp s =
      .next (s.withPart (Part.finish s.part.restarted (s.part.runStarted s.part.restarted)).outputs) := by
    show Host.Outcome.next (s.withPart s.part.startUp.outputs) = _
    rw [Part.startUp, if_neg (by simp [off])]
  have room := fun k => s.part.restarted_room (k := k)
  have now := s.part.restarted_now
  have journal := s.part.restarted_journal
  have lanesBefore : ∀ i, ((s.part.restarted).lane i).kept = (s.part.lane i).kept :=
    Part.kept_lane (p := s.part.restarting) ready.kept
  have seen := ready.kept
  generalize s.part.restarted = q at *
  generalize s.part.runStarted q = u at *
  have quiet := Part.finish_quiet q u
  have keeps := Part.finish_keeps q u
  have lane : ∀ i, ((Part.finish q u).lane i).kept = ((s.part.lane i).started 0).kept := fun i => by
    rw [Part.kept_lane keeps.kept i, lanes i, now]
    exact Lane.started_kept_congr 0 (lanesBefore i)
  rw [List.filter_congr fun i _ => show (q.lane i).cfg.enable = (s.part.lane i).cfg.enable from
    (congrArg (fun l : Lane => l.cfg.enable) (lanesBefore i) :)] at count
  obtain ⟨w, lost, held⟩ := Part.appended_quiet recorded quiet (room _ (by
    have : more.length ≤ allLanes.length := count ▸ List.length_filter_le _ _
    rw [List.length_append]
    exact (Nat.add_le_add_left this 1).trans (by decide)))
  rw [journal] at w held
  refine ⟨_, runs, rfl, ?_, lost, ?_, ?_, fun i => Lane.started_of_kept (lane i)⟩
  · exact {
      memory := fun a own _ => ((sound.mem.trans keeps.mem).byte own).trans (ready.mem.byte own)
      notices := fun k h => keeps.notices k (notices k (ready.notices k h))
      line := (Part.outputs_right _).1
      lamps := (Part.outputs_right _).2
      view := by
        have shown : { (Part.finish q u).kept with lanes := s.part.lanes } =
            { (q.setJournal { q.journal with startCause := .resume }).kept with lanes := s.part.lanes } := by
          rw [keeps.kept]
          exact others
        refine Eq.trans shown ?_
        exact congrArg (fun x : Part => { (x.setJournal { x.journal with startCause := .resume }) with lanes := s.part.lanes })
          seen }
  · refine Eq.trans w ?_
    rw [List.length_append, count, BitVec.ofNat_add, ← BitVec.add_assoc]
    rfl
  · have first := held 0 (by simp)
    rw [now] at first
    exact (by simpa using first : (Part.finish q u).mem.holds s.part.readMark s.part.starting 0)

end Sys2Proof.Machine
end

/-! PROOFS. The characters and frames of the screen link: the check's residue, the escape's round trip, and the receiver on a frame that
was sent whole. -/

section
namespace Sys2Proof.Machine

/-! ### The check (R120) -/

/-- The check register is linear in what it holds and what it is fed. -/
theorem checkBit_xor (a b : BitVec 16) (x y : Bool) : checkBit (a ^^^ b) (x ^^ y) = checkBit a x ^^^ checkBit b y := by
  unfold checkBit
  simp only [BitVec.getLsbD_xor, BitVec.shiftLeft_xor_distrib]
  have swap : b <<< 1 ^^^ 0x1021#16 = 0x1021#16 ^^^ b <<< 1 := BitVec.xor_comm _ _
  cases a.getLsbD 15 <;> cases b.getLsbD 15 <;> cases x <;> cases y <;> simp [BitVec.xor_assoc, swap]

theorem checkByte_xor (a b : BitVec 16) (x y : Byte) : checkByte (a ^^^ b) (x ^^^ y) = checkByte a x ^^^ checkByte b y := by
  simp only [checkByte, List.foldl_cons, List.foldl_nil, BitVec.getLsbD_xor, checkBit_xor]

/-- A register that has been fed its own highest bits and is fed the next of them shifts. -/
theorem checkBit_next (r : BitVec 16) {n : Nat} (h : n ≤ 15) : checkBit (r <<< n) (r.getLsbD (15 - n)) = r <<< (n + 1) := by
  have highest : (r <<< n).getLsbD 15 = r.getLsbD (15 - n) := by
    rw [BitVec.getLsbD_shiftLeft]
    simp [h]
  rw [checkBit, highest, BitVec.shiftLeft_add]
  simp

/-- A register fed its own high byte shifts by a byte. -/
theorem checkByte_highest {r : BitVec 16} {x : Byte} (h : ∀ k, k < 8 → x.getLsbD k = r.getLsbD (8 + k)) :
    checkByte r x = r <<< 8 := by
  have none_ : r = r <<< 0 := (BitVec.shiftLeft_zero r).symm
  simp only [checkByte, List.foldl_cons, List.foldl_nil, h 7 (by decide), h 6 (by decide), h 5 (by decide), h 4 (by decide),
    h 3 (by decide), h 2 (by decide), h 1 (by decide), h 0 (by decide)]
  calc _ = checkBit (checkBit (checkBit (checkBit (checkBit (checkBit (checkBit (checkBit (r <<< 0) _) _) _) _) _) _) _) _ := by
          rw [← none_]
    _ = r <<< 8 := by
      rw [checkBit_next r (n := 0) (by decide), checkBit_next r (n := 1) (by decide), checkBit_next r (n := 2) (by decide),
        checkBit_next r (n := 3) (by decide), checkBit_next r (n := 4) (by decide), checkBit_next r (n := 5) (by decide),
        checkBit_next r (n := 6) (by decide), checkBit_next r (n := 7) (by decide)]

/-- A register fed its own two bytes is cleared, and fed their complement comes to the receiver's constant. -/
theorem check_residue (r : BitVec 16) :
    checkByte (checkByte r ((~~~ r).extractLsb' 8 8)) ((~~~ r).extractLsb' 0 8) = 0x1D0F := by
  have complement : ∀ k, (~~~ r).extractLsb' k 8 = r.extractLsb' k 8 ^^^ (0xFFFF : BitVec 16).extractLsb' k 8 := fun k => by
    rw [← BitVec.extractLsb'_xor]
    congr 1
    exact (BitVec.xor_allOnes (x := r)).symm
  have own : checkByte (checkByte r (r.extractLsb' 8 8)) (r.extractLsb' 0 8) = 0 := by
    rw [checkByte_highest (r := r) fun k hk => by simp [hk],
      checkByte_highest fun k hk => by
        rw [BitVec.getLsbD_shiftLeft]
        simp [hk, show 8 + k < 16 by omega],
      ← BitVec.shiftLeft_add]
    exact BitVec.shiftLeft_eq_zero (by decide)
  have ones : checkByte (checkByte 0 ((0xFFFF : BitVec 16).extractLsb' 8 8)) ((0xFFFF : BitVec 16).extractLsb' 0 8) = 0x1D0F := by
    simp [checkByte, checkBit]
  calc checkByte (checkByte r ((~~~ r).extractLsb' 8 8)) ((~~~ r).extractLsb' 0 8)
      = checkByte (checkByte (r ^^^ 0) (r.extractLsb' 8 8 ^^^ (0xFFFF : BitVec 16).extractLsb' 8 8))
          (r.extractLsb' 0 8 ^^^ (0xFFFF : BitVec 16).extractLsb' 0 8) := by rw [complement, complement, show r ^^^ 0 = r from BitVec.xor_zero]
    _ = 0 ^^^ 0x1D0F := by rw [checkByte_xor, checkByte_xor, own, ones]
    _ = 0x1D0F := BitVec.zero_xor

theorem checkRegister_append (xs ys : List Byte) : checkRegister (xs ++ ys) = ys.foldl checkByte (checkRegister xs) :=
  List.foldl_append

/-- The receiver accepts a body with its check bytes. -/
theorem checkAccepted_checkBytes (body : List Byte) : checkAccepted (body ++ checkBytes body) = true := by
  rw [checkAccepted, checkRegister_append]
  exact decide_eq_true (check_residue _)

/-! ### The receiver on a frame (R115, R116, R121) -/

/-- What the receiver holds after some characters. -/
def received (r : Receiver) (chars : List Byte) : Receiver := chars.foldl (fun r b => (receive r b false).1) r

theorem receiveAll_concat (chars : List Byte) (last : Byte) :
    ∀ r : Receiver, receiveAll r (chars ++ [last]) = receive (received r chars) last false := by
  induction chars with
  | nil => intro r; rfl
  | cons b rest ih =>
    intro r
    obtain ⟨x, more, shape⟩ : ∃ x more, rest ++ [last] = x :: more := by cases rest <;> exact ⟨_, _, rfl⟩
    show receiveAll r (b :: (rest ++ [last])) = _
    rw [shape, receiveAll]
    · rw [← shape]
      exact ih _
    · simp

theorem receive_inFrame_plain {bytes : List Byte} {b : Byte} (plain : mustEscape b = false) :
    (receive (.inFrame bytes false) b false).1 = .inFrame (takeByte bytes b) false := by
  have other : ∀ {c : Byte}, mustEscape c = true → b ≠ c := fun special same => by
    rw [same, special] at plain
    cases plain
  have control : ¬ (b = Config.chSuspend ∨ b = Config.chResume ∨ b = Config.chCancel) := by
    rintro (h | h | h) <;> exact other rfl h
  have unused : ¬ (b = 0xF6 ∨ b = 0xF8) := by
    rintro (h | h) <;> exact other rfl h
  rw [receive, if_neg Bool.false_ne_true, if_neg (other rfl), receiveInFrame, if_neg (other rfl), if_neg (other rfl),
    if_neg (other rfl), if_neg control, if_neg unused]

theorem receive_inFrame_esc (bytes : List Byte) :
    (receive (.inFrame bytes false) Config.chEsc false).1 = .afterEsc bytes false := rfl

theorem receive_afterEsc {bytes : List Byte} {b : Byte} (special : mustEscape b = true) :
    (receive (.afterEsc bytes false) (b - 0xF0) false).1 = .inFrame (takeByte bytes b) false := by
  have range : 0xF4 ≤ b.toNat ∧ b.toNat ≤ 0xFC := by simpa [mustEscape] using special
  have low : (b - 0xF0).toNat = b.toNat - 0xF0 := by
    bv_omega
  have fill : b - 0xF0 ≠ Config.chFill := fun h => by
    have := congrArg BitVec.toNat h
    rw [low, show Config.chFill.toNat = 0xF4 from rfl] at this
    omega
  have back : b - 0xF0 + 0xF0 = b := BitVec.sub_add_cancel _ _
  have digit : 0x04 ≤ (b - 0xF0).toNat ∧ (b - 0xF0).toNat ≤ 0x0C := by omega
  rw [receive]
  simp only [Bool.false_eq_true, if_false, if_neg fill, if_pos digit, back]

/-- An escaped byte is received as itself. -/
theorem received_escapeByte (bytes : List Byte) (b : Byte) :
    received (.inFrame bytes false) (escapeByte b) = .inFrame (takeByte bytes b) false := by
  unfold escapeByte
  split
  · next special => exact receive_afterEsc special
  · next plain => exact receive_inFrame_plain (Bool.not_eq_true _ ▸ plain)

theorem received_escaped (xs : List Byte) :
    ∀ bytes : List Byte, bytes.length + xs.length ≤ 18 →
      received (.inFrame bytes false) (xs.flatMap escapeByte) = .inFrame (bytes ++ xs) false := by
  induction xs with
  | nil => intro bytes _; rw [List.append_nil]; rfl
  | cons b rest ih =>
    intro bytes room
    rw [List.length_cons] at room
    have taken : takeByte bytes b = bytes ++ [b] := if_neg (by omega)
    have first := received_escapeByte bytes b
    rw [List.flatMap_cons, received, List.foldl_append, ← received, ← received, first, taken,
      ih _ (by rw [List.length_append, List.length_singleton]; omega), List.append_assoc]
    rfl

/-- A frame's bytes with their check are judged by the reply they spell. -/
theorem judge_checked {body : List Byte} (some : 1 ≤ body.length) (few : body.length ≤ 16) :
    judge (body ++ checkBytes body) false = replyOf body := by
  have length : (body ++ checkBytes body).length = body.length + 2 := by rw [List.length_append]; rfl
  unfold judge
  rw [if_neg (by rw [length, checkAccepted_checkBytes]; simp; omega), length, Nat.add_sub_cancel, List.take_left']
  rfl

/-- Settles O60: by induction over the escaped body, with the receiver's state behind each byte. -/
theorem framesReadBack : Obligations.FramesReadBack := by
  intro body some few
  have length : (checkBytes body).length = 2 := rfl
  have open_ : received .outside [Config.chOpen] = .inFrame [] false := rfl
  unfold frameChars
  rw [receiveAll_concat, received, List.foldl_append, ← received, ← received, open_,
    received_escaped _ _ (by rw [List.length_append, length, List.length_nil]; omega), List.nil_append]
  show (Receiver.outside, Option.some (judge _ _)) = _
  rw [judge_checked some few]

end Sys2Proof.Machine
end

/-! PROOFS. The transmitter (R123 to R128): its choice at a character boundary, and the frames that open, close and are broken there. -/

section
namespace Sys2Proof.Machine

open Sys2Proof (LaneIx Instr)

/-! ### A lane changed in the part -/

/-- A lane replaced, as `kept` shows it. -/
theorem Part.setLane_kept_eq (p : Part) (i : LaneIx) (l : Lane) : (p.setLane i l).kept = p.kept.setLane i l.kept := by
  have lanes : (p.lanes.set i l).map Lane.kept = (p.lanes.map Lane.kept).set i l.kept := by
    ext j hj
    simp only [Vector.getElem_map, Vector.getElem_set]
    split <;> rfl
  simp only [Part.kept, Part.setLane, lanes]

theorem Part.setLane_kept_of {p q : Part} {i : LaneIx} {l m : Lane} (part : q.kept = p.kept) (lane : l.kept = m.kept) :
    (q.setLane i l).kept = (p.setLane i m).kept := by
  rw [Part.setLane_kept_eq, Part.setLane_kept_eq, part, lane]

@[simp] theorem Part.setLane_setLane (p : Part) (i : LaneIx) (l m : Lane) : (p.setLane i l).setLane i m = p.setLane i m := by
  simp [Part.setLane]

@[simp] theorem Part.setLane_lane (p : Part) (i : LaneIx) : p.setLane i (p.lane i) = p := by
  simp [Part.setLane, Part.lane]

@[simp] theorem Part.setLane_now (p : Part) (i : LaneIx) (l : Lane) : (p.setLane i l).now = p.now := rfl

/-- `q` is `p` with one lane changed, and what an append writes. -/
def Part.Serves (i : LaneIx) (p q : Part) : Prop := (p.setLane i (q.lane i)).Keeps q

theorem Part.Serves.of {i : LaneIx} {p q : Part} {l : Lane} (h : (p.setLane i l).Keeps q) : p.Serves i q :=
  ⟨h.mem, h.notices, Part.kept_setLane_own h.kept⟩

theorem Part.Serves.refl (i : LaneIx) (p : Part) : p.Serves i p := by
  rw [Part.Serves, p.setLane_lane]
  exact .refl p

theorem Part.Keeps.serves {p q : Part} (i : LaneIx) (h : p.Keeps q) : p.Serves i q :=
  .of (l := p.lane i) (by rwa [p.setLane_lane])

theorem Part.Serves.trans {i : LaneIx} {p q r : Part} (h : p.Serves i q) (k : q.Serves i r) : p.Serves i r where
  mem := h.mem.trans k.mem
  notices n hn := k.notices n (h.notices n hn)
  kept := by
    rw [k.kept, Part.setLane_kept_eq, h.kept, Part.setLane_kept_eq, Part.setLane_kept_eq]
    exact Part.setLane_setLane _ _ _ _

theorem Part.setLane_serves (p : Part) (i : LaneIx) (l : Lane) : p.Serves i (p.setLane i l) := .of (l := l) (.refl _)

theorem Part.modLane_serves (p : Part) (i : LaneIx) (f : Lane → Lane) : p.Serves i (p.modLane i f) := p.setLane_serves i _

theorem Part.Serves.foldl {α : Type} {i : LaneIx} (f : Part → α → Part) (h : ∀ (p : Part) (a : α), p.Serves i (f p a))
    (xs : List α) : ∀ p : Part, p.Serves i (xs.foldl f p) := by
  induction xs with
  | nil => exact fun p => .refl i p
  | cons x rest ih => exact fun p => (h p x).trans (ih _)

theorem Part.Serves.clock {i : LaneIx} {p q : Part} (h : p.Serves i q) : q.clock = p.clock := (Part.kept_clock h.kept).trans rfl

theorem Part.Serves.seq {i : LaneIx} {p q : Part} (h : p.Serves i q) : q.seq = p.seq := (Part.kept_seq h.kept).trans rfl

@[simp] theorem Part.lane_modLane_same (p : Part) (i : LaneIx) (f : Lane → Lane) : (p.modLane i f).lane i = f (p.lane i) :=
  p.lane_setLane_same i _

theorem Part.append_lane (p : Part) (r : Record) (i : LaneIx) : ((p.append r).lane i).kept = (p.lane i).kept :=
  Part.kept_lane (p.append_keeps r).kept i

/-- An event of the running part that changes one lane, seen through `kept`. -/
theorem Runs.of_serves {c : Instr} {s : State} {f : Part → Part} {i : LaneIx} {l : Lane} {post : Part → Prop}
    (meaning : exec c s = s.event f) (on : s.part.enabled = true) (h : s.part.Serves i (f s.part))
    (lane : ((f s.part).lane i).kept = l.kept) (after : post (Part.finish s.part (f s.part))) :
    Runs c s Part.kept (s.part.setLane i l) post :=
  Runs.kept meaning on h.mem h.notices (h.kept.trans (s.part.setLane_kept_congr i lane)) after

/-! ### The removal of what is no longer relevant (R125) -/

theorem Lane.relevant_iff (l : Lane) (x : Express) : l.relevant x.what = true ↔ l.wants x := by
  unfold Lane.relevant Lane.wants StagingRec.holds StagingRec.inUse
  cases x.what <;> simp [and_assoc]

theorem Lane.dropExpress_tx (l : Lane) (x : Express) : (l.dropExpress x).tx = l.tx := by
  unfold Lane.dropExpress
  split
  · rfl
  · simp only
    split
    · split <;> rfl
    · rfl

theorem Lane.foldl_tx {α : Type} (f : Lane → α → Lane) (h : ∀ l a, (f l a).tx = l.tx) (xs : List α) :
    ∀ l, (xs.foldl f l).tx = l.tx := by
  induction xs with
  | nil => exact fun _ => rfl
  | cons x rest ih => exact fun l => (ih _).trans (h l x)

theorem Lane.pruneFront_tx (l : Lane) : l.pruneFront.tx = l.tx := Lane.foldl_tx _ Lane.dropExpress_tx _ _

theorem Lane.pruneAll_tx (l : Lane) : l.pruneAll.tx = l.tx := Lane.foldl_tx _ Lane.dropExpress_tx _ _

/-- Where the transmitter is about to open an express frame (R125). -/
def Lane.opening (l : Lane) : Bool := l.tx.express.isNone && (l.tx.suspended || l.tx.normal.isNone) && l.expressReady.isSome

theorem Lane.atBoundary_opening {l : Lane} (h : l.opening = true) : l.atBoundary = l.pruneFront := if_pos h

theorem Lane.atBoundary_standing {l : Lane} (h : l.opening = false) : l.atBoundary = l := if_neg (by exact Bool.not_eq_true _ ▸ h)

theorem Lane.atBoundary_kept (l : Lane) : l.atBoundary.kept = { l.kept with express := l.atBoundary.express } := by
  by_cases h : l.opening = true
  · have queue : l.pruneFront.express = _ := (congrArg Lane.express l.pruneFront_kept :)
    rw [Lane.atBoundary_opening h, queue]
    exact l.pruneFront_kept
  · rw [Lane.atBoundary_standing (Bool.not_eq_true _ ▸ h)]
    rfl

theorem Lane.atBoundary_tx (l : Lane) : l.atBoundary.tx = l.tx := by
  unfold Lane.atBoundary
  split
  · exact l.pruneFront_tx
  · rfl

theorem Lane.atBoundary_link (l : Lane) : l.atBoundary.link = l.link := (congrArg Lane.link l.atBoundary_kept :)

theorem Lane.atBoundary_active (l : Lane) : l.atBoundary.active = l.active := by
  unfold Lane.active
  rw [l.atBoundary_link]

theorem Lane.expressReady_cons {l : Lane} {x : Express} {rest : List Express} (queue : l.express = x :: rest)
    (room : l.outstanding.length < 6) : l.expressReady = some x := by
  rw [Lane.expressReady, queue]
  exact if_pos room

theorem Lane.expressReady_none {l : Lane} (h : ¬ l.expressCan) : l.expressReady = none := by
  unfold Lane.expressReady
  split
  · next room =>
    cases queue : l.express with
    | nil => rfl
    | cons x rest => exact absurd ⟨by simp [queue], room⟩ h
  · rfl

theorem Lane.expressReady_isSome {l : Lane} : l.expressReady.isSome = true ↔ l.expressCan := by
  refine ⟨fun h => ?_, fun ⟨queue, room⟩ => ?_⟩
  · by_contra none_
    rw [Lane.expressReady_none none_] at h
    cases h
  · obtain ⟨x, rest, shape⟩ := List.exists_cons_of_ne_nil queue
    rw [Lane.expressReady_cons shape room]
    rfl

theorem dropWhile_front {α : Type} {p : α → Bool} {gone left : List α} (all : ∀ x ∈ gone, p x = true)
    (front : ∀ x, left.head? = some x → p x = false) : (gone ++ left).dropWhile p = left := by
  rw [List.dropWhile_append_of_pos all]
  cases left with
  | nil => rfl
  | cons x rest => exact List.dropWhile_cons_of_neg (by simp [front x rfl])

theorem Lane.removesStale_holds (l : Lane) : l.removesStale := by
  have kept := l.atBoundary_kept
  refine ⟨fun standing => ?_, ?_, l.atBoundary_tx, (congrArg Lane.outstanding kept :), (congrArg Lane.shadow kept :),
    (congrArg Lane.cfg kept :), l.atBoundary_link⟩
  · apply Lane.atBoundary_standing
    rw [← Bool.not_eq_true, Lane.opening]
    intro h
    simp only [Bool.and_eq_true, Bool.or_eq_true, Option.isNone_iff_eq_none, Lane.expressReady_isSome] at h
    obtain ⟨⟨express, between⟩, _, room⟩ := h
    exact standing ⟨express, between, room⟩
  · intro ⟨express, between, room⟩ gone left queue stale front
    have after : ∀ x, l.relevant x.what = false ↔ ¬ l.wants x := fun x => by rw [← l.relevant_iff, Bool.not_eq_true]
    have removed : l.express.dropWhile (fun x => !l.relevant x.what) = left := by
      rw [queue]
      refine dropWhile_front (fun x hx => ?_) fun x hx => ?_
      · rw [(after x).2 (stale x hx)]
        rfl
      · rw [(l.relevant_iff x).2 (front x hx)]
        rfl
    by_cases some : l.expressCan
    · rw [Lane.atBoundary_opening (by simp [Lane.opening, express, Lane.expressReady_isSome.2 some, between]), ← removed]
      exact (congrArg Lane.express l.pruneFront_kept :)
    · have empty : l.express = [] := by
        by_contra h
        exact some ⟨h, room⟩
      rw [Lane.atBoundary_standing (by simp [Lane.opening, Lane.expressReady_none some]), ← removed, empty]
      rfl

/-! ### The choice (R123, R124) -/

theorem Lane.sendsInOrder_holds (l : Lane) (i : LaneIx) (window : List Entry) : l.sendsInOrder i window := by
  refine ⟨fun f express => ?_, fun express suspended => ⟨fun x rest queue room => ?_, fun none_ => ?_⟩,
    fun f express running normal => ⟨fun whole => ?_, fun more due => ?_, fun more due some => ?_, fun more due none_ => ?_⟩,
    fun express running normal => ⟨fun x rest queue room => ?_, fun none_ => ?_⟩⟩
  · simp only [Lane.choice, express]
  · simp only [Lane.choice, express, suspended, if_true, Lane.expressReady_cons queue room]
  · simp only [Lane.choice, express, suspended, if_true, Lane.expressReady_none none_]
  · simp only [Lane.choice, express, running, Bool.false_eq_true, if_false, normal]
    exact if_pos whole
  · simp only [Lane.choice, express, running, Bool.false_eq_true, if_false, normal, due, if_true]
    exact if_neg more
  · simp only [Lane.choice, express, running, Bool.false_eq_true, if_false, normal, due, Lane.expressReady_isSome.2 some, if_true]
    exact if_neg more
  · simp [Lane.choice, express, running, normal, due, Lane.expressReady_none none_]
  · simp only [Lane.choice, express, running, Bool.false_eq_true, if_false, normal, Lane.expressReady_cons queue room]
  · cases waits : l.nextNormal i window <;>
      simp only [Lane.choice, express, running, Bool.false_eq_true, if_false, normal, Lane.expressReady_none none_, waits]

/-- A record of the lane that holds a title (R97). -/
theorem StagingRec.inUse_iff (r : StagingRec) : r.inUse = true ↔ r.state ≠ .free := decide_eq_true_iff

theorem mem_bothBuffers (b : Fin 2) : b ∈ bothBuffers := by
  revert b
  decide

theorem Lane.bufferOf_eq_none {l : Lane} {key : EntryKey} : l.bufferOf key = none ↔ ∀ c, ¬ l.owns c key := by
  unfold Lane.bufferOf Lane.owns
  simp only [List.find?_eq_none, mem_bothBuffers, true_implies, Bool.and_eq_true, StagingRec.inUse_iff, decide_eq_true_eq]

theorem Lane.bufferOf_isSome {l : Lane} {key : EntryKey} : (l.bufferOf key).isNone = false ↔ ∃ c, l.owns c key := by
  rw [← not_iff_not, Bool.not_eq_false, Option.isNone_iff_eq_none, Lane.bufferOf_eq_none, not_exists]

/-- The first buffer of the two for which a condition holds. -/
theorem find_bothBuffers {p : Fin 2 → Bool} {b : Fin 2} (here : p b = true) (before : ∀ c, c < b → p c = false) :
    bothBuffers.find? p = some b := by
  match b with
  | 0 => simp [bothBuffers, here]
  | 1 => simp [bothBuffers, here, before 0 (by decide)]

theorem Lane.freeBuffer_eq_some {l : Lane} {b : Fin 2} (free : (l.rec_ b).state = .free) (limit : b.val < l.limit)
    (before : ∀ c, c < b → (l.rec_ c).state ≠ .free) : l.freeBuffer = some b :=
  find_bothBuffers (by simp [limit, StagingRec.inUse, free]) fun c hc => by
    simp [(StagingRec.inUse_iff _).2 (before c hc)]

theorem Lane.freeBuffer_eq_none {l : Lane} (used : ∀ c : Fin 2, c.val < l.limit → (l.rec_ c).state ≠ .free) :
    l.freeBuffer = none := by
  refine List.find?_eq_none.2 fun c _ => ?_
  intro h
  simp only [Bool.and_eq_true, decide_eq_true_eq, Bool.not_eq_true'] at h
  obtain ⟨limit, unused⟩ := h
  rw [(StagingRec.inUse_iff _).2 (used c limit)] at unused
  cases unused

theorem Lane.aheadChoice_targets_owned {l : Lane} {i : LaneIx} {window : List Entry}
    (owned : ∀ x ∈ l.targets i window, ∃ c, l.owns c x.key) : l.aheadChoice i window = none := by
  have nowhere : (l.targets i window).find? (fun e => (l.bufferOf e.key).isNone) = none :=
    List.find?_eq_none.2 fun x hx => by simp [Lane.bufferOf_isSome.2 (owned x hx)]
  rw [Lane.aheadChoice, nowhere]
  rfl

theorem Lane.aheadChoice_used {l : Lane} {i : LaneIx} {window : List Entry}
    (used : ∀ c : Fin 2, c.val < l.limit → (l.rec_ c).state ≠ .free) : l.aheadChoice i window = none := by
  simp [Lane.aheadChoice, Lane.freeBuffer_eq_none used]

theorem Lane.aheadChoice_target {l : Lane} {i : LaneIx} {window before after : List Entry} {e : Entry} {t : Text} {b : Fin 2}
    (shape : l.targets i window = before ++ e :: after) (owned : ∀ x ∈ before, ∃ c, l.owns c x.key)
    (unowned : ∀ c, ¬ l.owns c e.key) (text : e.textFor i = some t) (free : l.freeBuffer = some b) :
    l.aheadChoice i window = some (.ahead b e t) := by
  have first : (l.targets i window).find? (fun e => (l.bufferOf e.key).isNone) = some e := by
    rw [shape, List.find?_append, List.find?_eq_none.2 fun x hx => by simp [Lane.bufferOf_isSome.2 (owned x hx)]]
    simp [Lane.bufferOf_eq_none.2 unowned]
  simp [Lane.aheadChoice, first, text, free]

theorem Lane.nextNormal_eq {l : Lane} (i : LaneIx) (window : List Entry)
    (room : l.outstanding.length < 6 ∧ (l.outstanding.filter fun e => e.kind.normal).length < 4) :
    l.nextNormal i window = match l.link with
      | .live => l.lateChoice <|> l.dropChoice <|> l.resendChoice <|> l.aheadChoice i window
      | .paused => l.lateChoice <|> l.resendChoice
      | .sync => if l.helloWaiting then some .hello else none
      | .off | .fault => none := by
  unfold Lane.nextNormal
  exact if_pos room

/-- With no late STAGE and no DROP owed, LIVE goes on to the resends and the STAGEs ahead of a fire. -/
theorem Lane.nextNormal_live {l : Lane} {i : LaneIx} {window : List Entry}
    (room : l.outstanding.length < 6 ∧ (l.outstanding.filter fun e => e.kind.normal).length < 4) (live : l.link = .live)
    (late : l.late = []) (first : l.drops[0] = false) (second : l.drops[1] = false) :
    l.nextNormal i window = (l.resendChoice <|> l.aheadChoice i window) := by
  have noLate : l.lateChoice = none := by rw [Lane.lateChoice, late]; rfl
  have noDrop : l.dropChoice = none := by
    unfold Lane.dropChoice bothBuffers
    simp [first, second]
  rw [Lane.nextNormal_eq i window room]
  simp [live, noLate, noDrop]

theorem Lane.normalInOrder_holds (l : Lane) (i : LaneIx) (window : List Entry) : l.normalInOrder i window := by
  refine ⟨fun full => if_neg full, fun b rest room staging late => ?_,
    fun room live late => ⟨fun first => ?_, fun first second => ?_, fun first second => ⟨fun r rest resends => ?_,
      fun resends => ⟨fun before e after t b shape owned unowned text free limit lower => ?_, fun owned => ?_, fun used => ?_⟩⟩⟩,
    fun room paused late => ⟨fun before r after shape others own => ?_, fun others => ?_⟩, fun room sync => ?_, fun down => ?_⟩
  · have choice : l.lateChoice = some (if l.drops[b] = true then .drop b else .lateStage b) := by
      rw [Lane.lateChoice, late]
      rfl
    rw [Lane.nextNormal_eq i window room]
    rcases staging with link | link <;> simp [link, choice]
  · have noLate : l.lateChoice = none := by rw [Lane.lateChoice, late]; rfl
    have drop : l.dropChoice = some (.drop 0) := by simp [Lane.dropChoice, bothBuffers, first]
    rw [Lane.nextNormal_eq i window room]
    simp [live, noLate, drop]
  · have noLate : l.lateChoice = none := by rw [Lane.lateChoice, late]; rfl
    have drop : l.dropChoice = some (.drop 1) := by simp [Lane.dropChoice, bothBuffers, first, second]
    rw [Lane.nextNormal_eq i window room]
    simp [live, noLate, drop]
  · rw [Lane.nextNormal_live room live late first second, Lane.resendChoice, resends]
    simp [live]
  · have choice := Lane.aheadChoice_target shape owned unowned text (Lane.freeBuffer_eq_some free limit lower)
    rw [Lane.nextNormal_live room live late first second, Lane.resendChoice, resends, choice]
    rfl
  · rw [Lane.nextNormal_live room live late first second, Lane.resendChoice, resends, Lane.aheadChoice_targets_owned owned]
    rfl
  · rw [Lane.nextNormal_live room live late first second, Lane.resendChoice, resends, Lane.aheadChoice_used used]
    rfl
  · have choice : l.resendChoice = some (.resend r) := by
      rw [Lane.resendChoice, shape, List.find?_append, List.find?_eq_none.2 fun x hx => by simp [paused, others x hx]]
      simp [own]
    have noLate : l.lateChoice = none := by rw [Lane.lateChoice, late]; rfl
    rw [Lane.nextNormal_eq i window room]
    simp [paused, noLate, choice]
  · have choice : l.resendChoice = none := by
      rw [Lane.resendChoice, List.find?_eq_none.2 fun x hx => by simp [paused, others x hx]]
      rfl
    have noLate : l.lateChoice = none := by rw [Lane.lateChoice, late]; rfl
    rw [Lane.nextNormal_eq i window room]
    simp [paused, noLate, choice]
  · rw [Lane.nextNormal_eq i window room]
    simp [sync]
  · unfold Lane.nextNormal
    rcases down with link | link <;> simp [link]

end Sys2Proof.Machine
end

/-! PROOFS. The frames that open, close and are broken at a character boundary (R117, R126 to R128). -/

section
namespace Sys2Proof.Machine

open Sys2Proof (LaneIx Instr)

/-! ### Opening a frame (R117, R128) -/

section
variable (now : Nat) {kind : FrameKind} (buffer : Option (Fin 2)) (token : Nat) (cue : Option Half) (content : List Byte)
  (attempt : Nat)

/-- What a frame's OPEN leaves depends on the lane as `kept` shows it. -/
theorem opened_kept_congr {l m : Lane} (h : l.kept = m.kept) (kind : FrameKind) :
    (opened l now kind buffer token cue content attempt).kept = (opened m now kind buffer token cue content attempt).kept := by
  have only : ∀ l : Lane, (opened l now kind buffer token cue content attempt).kept =
      (opened l.kept now kind buffer token cue content attempt).kept := fun l => by
    cases kind <;> rfl
  rw [only l, h, ← only m]

theorem Lane.openFrame_opened (l : Lane) (other : kind ≠ .hello) :
    l.openFrame now kind buffer token cue content attempt = opened l now kind buffer token cue content attempt := by
  cases kind
  case hello => exact absurd rfl other
  all_goals rfl

theorem Lane.openFrame_kept {l m : Lane} (h : l.kept = m.kept) (other : kind ≠ .hello) :
    (l.openFrame now kind buffer token cue content attempt).kept = (opened m now kind buffer token cue content attempt).kept := by
  rw [l.openFrame_opened now buffer token cue content attempt other]
  exact opened_kept_congr now buffer token cue content attempt h kind

end

/-- A STAGE's content is read from the pool alone, which the part does not write (11.1). -/
theorem stageContent_own {m n : Memory} (h : Memory.Reach ownByte m n) (b : Fin 2) (cue : Half) (t : Text) (limit : Nat) :
    stageContent n b cue t limit = stageContent m b cue t limit := by
  have cut : ∀ offset len, cutLine n offset len limit = cutLine m offset len limit := fun offset len =>
    Memory.bytes_congr _ _ fun k above _ => h.byte (by unfold ownByte; simp only [Config.poolAt] at above; omega)
  unfold stageContent
  simp only [cut]

section
variable {p : Part} {i : LaneIx} (active : (p.lane i).active = true)
include active

theorem Part.frameOpen_express {f : Express} (chosen : (p.lane i).atBoundary.choice i p.seq.window = .openExpress f) :
    p.frameOpen i = p.setLane i ((p.lane i).atBoundary.openExpress p.now f) := by
  simp [Part.frameOpen, Lane.atBoundary_active, active, chosen]

theorem Part.frameOpen_normal {n : NormalChoice} (chosen : (p.lane i).atBoundary.choice i p.seq.window = .openNormal n) :
    p.frameOpen i = (p.setLane i (p.lane i).atBoundary).openNormal i n := by
  simp [Part.frameOpen, Lane.atBoundary_active, active, chosen]

end

theorem Part.frameOpen_none (p : Part) (i : LaneIx)
    (express : ∀ f, (p.lane i).atBoundary.choice i p.seq.window ≠ .openExpress f)
    (normal : ∀ n, (p.lane i).atBoundary.choice i p.seq.window ≠ .openNormal n) : p.frameOpen i = p := by
  unfold Part.frameOpen
  simp only
  split
  · rfl
  · split
    · next choice => exact absurd choice (express _)
    · next choice => exact absurd choice (normal _)
    all_goals rfl

/-- A STAGE's OPEN with its TRUNCATED records changes the lane alone, and leaves it as the frame's OPEN does. -/
theorem Part.stageOpened (p : Part) (i : LaneIx) (records : List Record) {l m : Lane} (h : l.kept = m.kept) (b : Fin 2) :
    p.Serves i ((p.appendAll records).setLane i (l.openStage (p.appendAll records).now (p.appendAll records).mem b)) ∧
      (l.openStage (p.appendAll records).now (p.appendAll records).mem b).kept =
        (opened m p.now .stage (some b) (l.rec_ b).token (some (l.rec_ b).cue)
          (stageContent p.mem b (l.rec_ b).cue (l.rec_ b).text l.maxLine) 1).kept := by
  have keeps := p.appendAll_keeps records
  have now : (p.appendAll records).now = p.now := congrArg Clock.showTime (Part.kept_clock keeps.kept)
  refine ⟨(keeps.serves i).trans (Part.setLane_serves _ i _), ?_⟩
  rw [Lane.openStage, now, stageContent_own keeps.mem]
  exact Lane.openFrame_kept _ _ _ _ _ _ h nofun

/-- Settles O51: the choice of what to send decides the frame, and the opening writes the lane alone. -/
theorem frameOpens : Obligations.FrameOpens := by
  refine ⟨fun l i window => ⟨l.removesStale_holds, l.sendsInOrder_holds i window, l.normalInOrder_holds i window⟩,
    fun s i on active => ?_⟩
  intro l now chosen opens queued
  have express : ∀ f l', chosen = .openExpress f → (l.openExpress now f).kept = l'.kept → opens l' := fun f l' choice kept => by
    have act := Part.frameOpen_express active choice
    refine Runs.of_serves (f := fun p => p.frameOpen i) rfl on ?_ ?_ trivial
    · rw [act]; exact Part.setLane_serves _ i _
    · rw [act, Part.lane_setLane_same]; exact kept
  have normal : ∀ (n : NormalChoice) (m : Lane) (q : Part) (l' : Lane), chosen = .openNormal n → (s.part.setLane i l).openNormal i n = q.setLane i m →
      s.part.Serves i (q.setLane i m) → m.kept = l'.kept → opens l' := fun n m q l' choice act serves kept => by
    have whole := (Part.frameOpen_normal active choice).trans act
    refine Runs.of_serves (f := fun p => p.frameOpen i) rfl on ?_ ?_ trivial
    · rw [whole]; exact serves
    · rw [whole, Part.lane_setLane_same]; exact kept
  have boundary : (s.part.setLane i l).lane i = l := s.part.lane_setLane_same i l
  refine ⟨fun f b token cue choice what => ?_, fun f choice what => ?_, fun choice => ?_, fun b choice => ?_,
    fun b e t choice => ?_, fun b choice => ?_, fun r choice => ?_, fun choice => ?_⟩
  · refine express f _ choice ?_
    rw [Lane.openExpress, what]
    exact Lane.openFrame_kept _ _ _ _ _ _ (Lane.markShown_kept _ _ _) nofun
  · refine express f _ choice ?_
    rw [Lane.openExpress, what]
    exact Lane.openFrame_kept _ _ _ _ _ _ rfl nofun
  · refine normal .hello _ _ _ choice rfl ((s.part.setLane_serves i l).trans (Part.setLane_serves _ i _)) ?_
    rw [boundary]
    rfl
  · refine normal (.drop b) _ _ _ choice rfl ((s.part.setLane_serves i l).trans (Part.setLane_serves _ i _)) ?_
    rw [boundary]
    exact Lane.openFrame_kept _ _ _ _ _ _ rfl nofun
  · have stage := (s.part.setLane i l).stageOpened i (truncations i e.cue.id t l.maxLine) (l := l.takeAhead b e t) (m := l) rfl b
    have record : (l.takeAhead b e t).rec_ b =
        { state := .pending, owner := .entry e.key, token := l.nextToken, cue := e.cue.id, text := t, showSent := false
          showOpened := false, attempted := false } := by simp [Lane.takeAhead, Lane.rec_, Lane.setRec]
    rw [record] at stage
    obtain ⟨serves, kept⟩ := stage
    refine normal (.ahead b e t) _ _ _ choice ?_ ((s.part.setLane_serves i l).trans serves) kept
    rw [Part.openNormal, boundary]
  · obtain ⟨serves, kept⟩ := (s.part.setLane i l).stageOpened i (truncations i (l.rec_ b).cue (l.rec_ b).text l.maxLine)
      (l := { l with late := l.late.drop 1 }) (m := l) rfl b
    refine normal (.lateStage b) _ _ _ choice ?_ ((s.part.setLane_serves i l).trans serves) kept
    rw [Part.openNormal, boundary]
  · refine normal (.resend r) _ _ _ choice rfl ((s.part.setLane_serves i l).trans (Part.setLane_serves _ i _)) ?_
    rw [boundary]
    exact Lane.openFrame_kept _ _ _ _ _ _ rfl nofun
  · have act : s.part.frameOpen i = s.part := by
      refine s.part.frameOpen_none i (fun f h => ?_) fun n h => ?_
      all_goals
        rw [show chosen = _ from h] at choice
        simp at choice
    refine Runs.of_serves (f := fun p => p.frameOpen i) rfl on ?_ ?_ trivial
    · rw [act]; exact .refl i _
    · rw [act]

/-! ### The frame in flight through the lanes' second look -/

theorem Lane.settleObsolete_tx {l : Lane} (h : l.tx.normal = none) (b : Fin 2) : (l.settleObsolete b).tx = l.tx := by
  have inFlight : ∀ token, l.stageInFlight token = false := fun token => by simp [Lane.stageInFlight, h]
  have closing : ∀ token, l.stageClosing token = false := fun token => by simp [Lane.stageClosing, inFlight]
  unfold Lane.settleObsolete
  simp only [inFlight, closing, Bool.false_eq_true, if_false]
  split
  · rfl
  · rfl
  · split <;> rfl
  · rfl
  · rfl

theorem Lane.startLate_tx (l : Lane) (b : Fin 2) : (l.startLate b).tx = l.tx := by
  unfold Lane.startLate
  split <;> rfl

/-- Where no normal frame is in flight no second look makes a CANCEL due. -/
theorem Lane.lookAgain_tx {l : Lane} (h : l.tx.normal = none) (i : LaneIx) (window : List Entry) :
    (l.lookAgain i window).tx = l.tx := by
  have settled : ∀ (xs : List (Fin 2)) (m : Lane), m.tx = l.tx →
      (xs.foldl (fun l b => if l.outOfTarget i window b then l.settleObsolete b else l) m).tx = l.tx := by
    intro xs
    induction xs with
    | nil => exact fun m hm => hm
    | cons b rest ih =>
      intro m hm
      refine ih _ ?_
      show (if _ then _ else _ : Lane).tx = _
      split
      · rw [Lane.settleObsolete_tx (by rw [hm, h]), hm]
      · exact hm
  unfold Lane.lookAgain
  split
  · rfl
  · extract_lets late order m
    have after : m.tx = l.tx := settled order l rfl
    split
    · split
      · exact (m.startLate_tx _).trans after
      · exact after
    · exact after

/-- Each lane looks again by itself. -/
theorem Part.lookAgain_lane (p : Part) (i : LaneIx) : (p.lookAgain).lane i = (p.lane i).lookAgain i p.seq.window := by
  have each : ∀ (xs : List LaneIx), xs.Nodup → ∀ q : Part, q.seq.window = p.seq.window →
      (xs.foldl (fun q i => q.modLane i fun l => l.lookAgain i q.seq.window) q).lane i =
        if i ∈ xs then (q.lane i).lookAgain i p.seq.window else q.lane i := by
    intro xs
    induction xs with
    | nil => exact fun _ q _ => rfl
    | cons j rest ih =>
      intro distinct q hq
      obtain ⟨fresh, others⟩ := List.nodup_cons.1 distinct
      rw [List.foldl_cons, ih others (q.modLane j _) hq]
      by_cases same : j = i
      · subst same
        rw [if_neg fresh, if_pos List.mem_cons_self, Part.lane_modLane_same, hq]
      · have there : (q.modLane j fun l => l.lookAgain j q.seq.window).lane i = q.lane i := q.lane_setLane_other _ same
        rw [there]
        simp [Ne.symm same]
  exact (each allLanes allLanes_nodup p rfl).trans (if_pos (mem_allLanes i))

theorem Part.finish_lane (before p : Part) (i : LaneIx) :
    (Part.finish before p).lane i = (p.lane i).lookAgain i p.seq.window :=
  (Part.statusUpdates_lane before p.lookAgain i).trans (p.lookAgain_lane i)

/-! ### Closing a frame (R128, R139) -/

/-- A lane with its express queue replaced. -/
def Lane.withExpress (l : Lane) (queue : List Express) : Lane := { l with express := queue }

theorem Lane.pruneAll_queue (l : Lane) : l.pruneAll.kept = l.kept.withExpress l.pruneAll.express := by
  have queue : l.pruneAll.express = l.express.filter fun x => l.relevant x.what := (congrArg Lane.express l.pruneAll_kept :)
  rw [queue]
  exact l.pruneAll_kept

/-- What queueing an express frame leaves is the lane but for its queue and its staging. -/
theorem Lane.queueExpress_kept (l : Lane) (f : Express) :
    (l.queueExpress f).kept = l.kept.withExpress (l.queueExpress f).express := by
  unfold Lane.queueExpress
  simp only
  split
  · exact l.pruneAll_queue
  · split
    · exact l.pruneAll_queue
    · exact congrArg (fun m : Lane => m.withExpress (l.pruneAll.express ++ [f])) l.pruneAll_queue

theorem Lane.queueShow_kept (l : Lane) (b : Fin 2) :
    (l.queueShow b).kept = l.kept.withExpress (l.queueShow b).express := by
  unfold Lane.queueShow
  simp only
  split
  · exact Lane.queueExpress_kept (l.setRec b _) _
  · exact Lane.queueExpress_kept _ _

theorem Lane.stageClosed_kept (l : Lane) (b : Fin 2) (token : Nat) :
    (l.stageClosed b token).kept = l.kept.withExpress (l.stageClosed b token).express := by
  unfold Lane.stageClosed
  simp only
  split
  · split
    · exact Lane.queueShow_kept (l.setRec b _) _
    · rfl
  · rfl

theorem Lane.queueExpress_tx (l : Lane) (f : Express) : (l.queueExpress f).tx = l.tx := by
  unfold Lane.queueExpress
  simp only
  split
  · exact l.pruneAll_tx
  · split
    · exact l.pruneAll_tx
    · exact l.pruneAll_tx

theorem Lane.queueShow_tx (l : Lane) (b : Fin 2) : (l.queueShow b).tx = l.tx := by
  unfold Lane.queueShow
  simp only
  split
  · exact Lane.queueExpress_tx _ _
  · exact Lane.queueExpress_tx _ _

theorem Lane.stageClosed_tx (l : Lane) (b : Fin 2) (token : Nat) : (l.stageClosed b token).tx = l.tx := by
  unfold Lane.stageClosed
  simp only
  split
  · split
    · exact Lane.queueShow_tx _ _
    · rfl
  · rfl

/-- A lane just after the CLOSE of a frame, but for what the CLOSE of a STAGE or DROP does to its record. -/
def Lane.closed (l : Lane) (now : Nat) (f : InFlight) : Lane :=
  let line := { l.tx with lineOut := some Config.chClose, boundary := now }
  { l with
    tx := if f.kind.normal then { line with normal := none, cancelDue := false } else { line with express := none }
    sent := l.sent + 1
    outstanding := if f.kind = .hello then l.outstanding else (l.markClosed now f.seq).outstanding }

theorem Lane.closed_line (l : Lane) (now : Nat) (f : InFlight) :
    (l.closed now f).tx.lineOut = some 0xFA ∧ (l.closed now f).tx.boundary = now := by
  unfold Lane.closed
  simp only
  split <;> exact ⟨rfl, rfl⟩

theorem Lane.closed_normal (l : Lane) (now : Nat) {f : InFlight} (h : f.kind.normal = true) :
    (l.closed now f).tx =
      { l.tx with lineOut := some Config.chClose, boundary := now, normal := none, cancelDue := false } := if_pos h

theorem Lane.closed_express (l : Lane) (now : Nat) {f : InFlight} (h : f.kind.normal = false) :
    (l.closed now f).tx = { l.tx with lineOut := some Config.chClose, boundary := now, express := none } :=
  if_neg (by simp [h])

theorem Lane.closeFrame_closed (l : Lane) (now : Nat) (f : InFlight) :
    (l.closeFrame now f).kept = (l.closed now f).kept.withExpress (l.closeFrame now f).express ∧
      (l.closeFrame now f).tx = (l.closed now f).tx := by
  unfold Lane.closeFrame
  extract_lets _ _ _ _ e
  have base : e = l.closed now f := by
    unfold Lane.closed
    simp only [e]
    split <;> rfl
  rw [base]
  split
  · exact ⟨Lane.stageClosed_kept _ _ _, Lane.stageClosed_tx _ _ _⟩
  · exact ⟨rfl, rfl⟩
  · exact ⟨rfl, rfl⟩

theorem Lane.breakAhead_iff (l : Lane) (f : InFlight) :
    l.breakAhead f = true ↔ f.left ≠ [] ∧ (l.tx.cancelDue = true ∨ l.expressCan) := by
  rw [Lane.breakAhead, Bool.and_eq_true, Bool.or_eq_true, decide_eq_true_iff, Lane.expressReady_isSome]

theorem Part.frameClose_closes {p : Part} {i : LaneIx} {f : InFlight} (active : (p.lane i).active = true)
    (chosen : (p.lane i).atBoundary.choice i p.seq.window = .expressChar f ∨
      ((p.lane i).atBoundary.choice i p.seq.window = .normalChar f ∧ (p.lane i).atBoundary.breakAhead f = false)) :
    p.frameClose i = p.setLane i ((p.lane i).atBoundary.closeFrame p.now f) := by
  rcases chosen with choice | ⟨choice, whole⟩
  · simp [Part.frameClose, Lane.atBoundary_active, active, choice]
  · simp [Part.frameClose, Lane.atBoundary_active, active, choice, whole]

theorem Part.frameClose_breaks {p : Part} {i : LaneIx} {f : InFlight} (active : (p.lane i).active = true)
    (choice : (p.lane i).atBoundary.choice i p.seq.window = .normalChar f) (broken : (p.lane i).atBoundary.breakAhead f = true) :
    p.frameClose i = p := by
  simp [Part.frameClose, Lane.atBoundary_active, active, choice, broken]

/-- Settles O52: the choice at the CLOSE decides whether it stands, and the closed entry's timeout runs from there. -/
theorem frameCloses : Obligations.FrameCloses := by
  intro s i f on active l chosen broken
  refine ⟨fun choice breaks => ?_, fun choice => ?_⟩
  · have act := Part.frameClose_breaks active choice ((l.breakAhead_iff f).2 breaks)
    exact Runs.kept (f := fun p => p.frameClose i) rfl on (by rw [act]; exact .refl _) (by rw [act]; exact fun _ h => h)
      (by rw [act]) trivial
  · have act : s.part.frameClose i = s.part.setLane i (l.closeFrame s.part.now f) := by
      refine Part.frameClose_closes active (choice.imp_right fun ⟨normal, whole⟩ => ⟨normal, ?_⟩)
      rw [← Bool.not_eq_true, l.breakAhead_iff f]
      exact whole
    obtain ⟨kept, tx⟩ := l.closeFrame_closed s.part.now f
    have lane := Part.finish_lane s.part (s.part.setLane i (l.closeFrame s.part.now f)) i
    rw [Part.lane_setLane_same] at lane
    have seen : ((Part.finish s.part (s.part.frameClose i)).lane i).kept =
        (l.closed s.part.now f).kept.withExpress (l.closeFrame s.part.now f).express := by
      rw [act, lane, Lane.lookAgain_kept, kept]
    refine ⟨_, s.event_running (fun p => p.frameClose i) on, rfl, ?_, (congrArg Lane.sent seen :),
      (congrArg Lane.sequence seen :), (congrArg Lane.link seen :), (congrArg Lane.shadow seen :),
      (congrArg (fun m : Lane => m.tx.lineOut) seen :).trans (l.closed_line _ f).1,
      (congrArg (fun m : Lane => m.tx.boundary) seen :).trans (l.closed_line _ f).2, fun normal => ?_, fun express => ?_,
      fun hello => (congrArg Lane.outstanding seen :).trans (if_pos hello),
      fun other => (congrArg Lane.outstanding seen :).trans (if_neg other)⟩
    · exact Part.finish_endsAs (by rw [act]; exact .refl _) (by rw [act]; exact fun _ h => h)
        (Part.kept_setLane_own ((Part.finish_keeps _ _).kept.trans (by rw [act])))
    · have shut := l.closed_normal s.part.now normal
      have whole : ((Part.finish s.part (s.part.frameClose i)).lane i).tx = (l.closed s.part.now f).tx := by
        rw [act, lane, Lane.lookAgain_tx (by rw [tx, shut]), tx]
      rw [whole, shut]
      exact ⟨rfl, rfl, rfl⟩
    · have shut := l.closed_express s.part.now express
      exact ⟨(congrArg (fun m : Lane => m.tx.express) seen :).trans (congrArg Transmitter.express shut :),
        (congrArg (fun m : Lane => m.tx.normal) seen :).trans (congrArg Transmitter.normal shut :)⟩

/-! ### SUSPEND, RESUME and CANCEL (R126, R127) -/

/-- An event of the running part that leaves it as it was. -/
theorem Runs.unchanged {c : Instr} {s : State} {f : Part → Part} {post : Part → Prop} (meaning : exec c s = s.event f)
    (on : s.part.enabled = true) (act : f s.part = s.part) (after : post (Part.finish s.part s.part)) :
    Runs c s Part.kept s.part post :=
  Runs.kept meaning on (by rw [act]; exact .refl _) (by rw [act]; exact fun _ h => h) (by rw [act]) (by rwa [act])

/-- An event of the running part that replaces one lane. -/
theorem Runs.of_setLane {c : Instr} {s : State} {f : Part → Part} {i : LaneIx} {l m : Lane} {post : Part → Prop}
    (meaning : exec c s = s.event f) (on : s.part.enabled = true) (act : f s.part = s.part.setLane i l) (lane : l.kept = m.kept)
    (after : post (Part.finish s.part (s.part.setLane i l))) : Runs c s Part.kept (s.part.setLane i m) post :=
  Runs.of_serves meaning on (by rw [act]; exact Part.setLane_serves _ i _) (by rw [act, Part.lane_setLane_same, lane])
    (by rwa [act])

/-- Settles O53: the choice at the boundary decides, and each interruption writes the transmitter alone. -/
theorem lineIsInterrupted : Obligations.LineIsInterrupted := by
  intro s i on active l chosen line
  have running : l.active = true := (Lane.atBoundary_active _).trans active
  refine ⟨fun choice => ?_, fun choice => ?_, fun f choice normal => ?_, fun choice => ?_, fun choice => ?_, fun choice => ?_⟩
  · exact Runs.of_setLane (f := fun p => p.suspend i) rfl on (if_pos ⟨running, choice⟩) rfl trivial
  · exact Runs.of_setLane (f := fun p => p.resume i) rfl on (if_pos ⟨running, choice⟩) rfl trivial
  · refine Runs.of_setLane (f := fun p => p.cancel i) rfl on (if_pos ⟨running, choice⟩) ?_ (Part.finish_quiet _ _).journal
    have opened_ : (l.outstanding.filter fun e => decide (some e.seq ≠ l.tx.normal.map InFlight.seq) || e.closing.isSome) =
        l.outstanding.filter fun e => decide (e.seq ≠ f.seq) || e.closing.isSome := by
      rw [normal]
      simp
    exact congrArg (fun entries => Lane.kept { l with
      tx := { line 0xFC with normal := none, cancelDue := false }, outstanding := entries }) opened_
  · exact Runs.unchanged (f := fun p => p.suspend i) rfl on (if_neg fun h => choice h.2) trivial
  · exact Runs.unchanged (f := fun p => p.resume i) rfl on (if_neg fun h => choice h.2) trivial
  · exact Runs.unchanged (f := fun p => p.cancel i) rfl on (if_neg fun h => choice h.2) trivial

end Sys2Proof.Machine
end

/-! PROOFS. The link's expiries and replies (R129 to R138): what each leaves of its lane, and the evaluation that ends it. -/

section
namespace Sys2Proof.Machine

open Sys2Proof (LaneIx Instr AckOutcome)

/-! ### An event of one lane that ends in the evaluation -/

theorem Part.append_lanes (p : Part) (r : Record) : (p.append r).lanes = p.lanes := by
  have gap : ∀ mark, (p.checkMark.writeGap mark).lanes = p.lanes := fun mark => by
    unfold Part.writeGap Part.checkMark
    split <;> split <;> rfl
  have written : ((p.checkMark.writeGap p.markInForce).writeOrLose p.markInForce r).lanes = p.lanes := by
    unfold Part.writeOrLose
    split <;> exact gap _
  unfold Part.append
  simp only
  generalize (p.checkMark.writeGap p.markInForce).writeOrLose p.markInForce r = q at written
  split <;> split <;> exact written

@[simp] theorem Part.append_lane_eq (p : Part) (r : Record) (i : LaneIx) : (p.append r).lane i = p.lane i :=
  Part.lane_of_lanes (p.append_lanes r) i

theorem Part.still_lane {p q : Part} (h : q.still = p.still) (i : LaneIx) : (q.lane i).still = (p.lane i).still := by
  have := congrArg (fun x : Part => x.lanes[i]) h
  simpa [Part.still, Part.lane] using this

theorem Part.setLane_still_congr (p : Part) (i : LaneIx) {l m : Lane} (h : l.still = m.still) :
    (p.setLane i l).still = (p.setLane i m).still := by
  rw [← p.setLane_setLane i m l]
  exact ((p.setLane i m).setLane_stills i l (by rw [Part.lane_setLane_same, h])).still

/-- What an event leaves that ends in the evaluation. -/
theorem Part.settled_stills (before q : Part) : q.Stills (Part.finish before q.settle) :=
  q.settle_stills.trans (Part.finish_keeps before _).stills

theorem Part.settled_endsAs {p q : Part} {i : LaneIx} (h : p.Serves i q) {l : Lane} (lane : (q.lane i).still = l.still) :
    EndsAs Part.still noByte p (p.setLane i l) (Part.finish p q.settle) := by
  have settled := q.settle_stills
  refine Part.finish_endsAs (h.mem.trans settled.mem) (fun k hk => settled.notices k (h.notices k hk)) ?_
  rw [(Part.settled_stills p q).still, h.stills.still]
  exact p.setLane_still_congr i lane

theorem Part.settled_own {p q : Part} {i : LaneIx} (h : p.Serves i q) :
    EndsAs Part.still noByte p (p.setLane i ((Part.finish p q.settle).lane i)) (Part.finish p q.settle) :=
  Part.settled_endsAs h (Part.still_lane (Part.settled_stills p q).still i).symm

/-- An event of the running part that changes one lane and ends in the evaluation. -/
theorem Runs.of_settled {c : Instr} {s : State} {f : Part → Part} {i : LaneIx} {l : Lane} {post : Part → Prop}
    (meaning : exec c s = s.event fun p => (f p).settle) (on : s.part.enabled = true) (h : s.part.Serves i (f s.part))
    (lane : ((f s.part).lane i).still = l.still) (after : post (Part.finish s.part (f s.part).settle)) :
    Runs c s Part.still (s.part.setLane i l) post :=
  ⟨_, meaning.trans (s.event_running _ on), rfl, Part.settled_endsAs h lane, after⟩

/-- Where no group is to fire, the evaluation that ends an event of one lane does nothing. -/
theorem Part.Serves.settle_idle {i : LaneIx} {p q : Part} (h : p.Serves i q) (idle : p.seq.idleHead) : q.settle = q :=
  q.settle_idle (by rwa [h.seq])

/-! ### The expiries (R134, R136) -/

theorem Part.enterSync_serves (p : Part) (i : LaneIx) (cause : LaneCause) : p.Serves i (p.enterSync i cause) :=
  (p.modLane_serves i _).trans ((Part.append_keeps _ _).serves i)

theorem Part.enterSync_lane (p : Part) (i : LaneIx) (cause : LaneCause) :
    (p.enterSync i cause).lane i = (p.lane i).toSync p.now := by
  rw [Part.enterSync, Part.append_lane_eq, Part.lane_modLane_same]

theorem Lane.up_iff (l : Lane) : l.up = true ↔ l.link = .live ∨ l.link = .paused := by
  unfold Lane.up
  cases l.link <;> simp

theorem Part.silence_expired {p : Part} {i : LaneIx} (up : (p.lane i).link = .live ∨ (p.lane i).link = .paused)
    (come : (p.lane i).lastChar + (p.lane i).cfg.silenceTimeout * 1000 ≤ p.now) : p.silence i = p.enterSync i .silence := by
  refine if_pos ?_
  rw [Lane.silenceAt, if_pos ((Lane.up_iff _).2 up)]
  exact decide_eq_true come

/-- Settles O54: the HELLO interval and the silence expiry act on the lane alone, once they have come. -/
theorem linkExpiriesAct : Obligations.LinkExpiriesAct := by
  intro s i on l
  refine ⟨fun t sync hello come => ?_, fun up come => ?_⟩
  · refine Runs.of_setLane (f := fun p => p.helloExpiry i) rfl on (if_pos ⟨sync, ?_⟩) rfl trivial
    rw [hello]
    exact decide_eq_true come
  · have act := Part.silence_expired up come
    have serves := s.part.enterSync_serves i .silence
    have lane : ((Part.finish s.part (s.part.enterSync i .silence).settle).lane i).still = (l.toSync s.part.now).still := by
      rw [Part.still_lane (Part.settled_stills _ _).still i, Part.enterSync_lane]
    have run : exec (.silenceExpiry i) s = .next { s with part := Part.finish s.part (s.part.enterSync i .silence).settle } :=
      (s.event_running (fun p => (p.silence i).settle) on).trans (by rw [act])
    refine ⟨_, run, rfl, Part.settled_own serves,
      (congrArg Lane.link lane :), (congrArg Lane.screen lane :), (congrArg Lane.outstanding lane :),
      (congrArg Lane.missCounter lane :), (congrArg Lane.helloWaiting lane :), (congrArg Lane.cfg lane :),
      (congrArg Lane.blanked lane :), (congrArg Lane.misses lane :), (congrArg Lane.sent lane :),
      (congrArg Lane.acknowledged lane :), (congrArg Lane.badReplies lane :), (congrArg Lane.strays lane :), fun idle => ?_⟩
    show ((Part.finish s.part (s.part.enterSync i .silence).settle).lane i).shadow = _ ∧ s.part.appended (Part.finish s.part _) _
    rw [serves.settle_idle idle]
    have kept : ((Part.finish s.part (s.part.enterSync i .silence)).lane i).kept = (l.toSync s.part.now).kept := by
      rw [Part.kept_lane (Part.finish_keeps _ _).kept i, Part.enterSync_lane]
    exact ⟨(congrArg Lane.shadow kept :), Part.appended_quiet (s.part.enterSync_appended i .silence) (Part.finish_quiet _ _)⟩

/-! ### A whole reply (R122) -/

/-- A lane as a whole reply of its screen finds it: the receiver outside a frame, the silence timeout running anew (R121, R136). -/
def Lane.answering (l : Lane) (now : Nat) : Lane := { l.heard now with rx := .outside }

theorem Part.setReceiver_serves (p : Part) (i : LaneIx) (rx : Receiver) : p.Serves i (p.setReceiver i rx) := p.modLane_serves i _

@[simp] theorem Part.setReceiver_lane (p : Part) (i : LaneIx) (rx : Receiver) :
    (p.setReceiver i rx).lane i = { (p.lane i).heard p.now with rx := rx } := p.lane_modLane_same i _

@[simp] theorem Part.setReceiver_now (p : Part) (i : LaneIx) (rx : Receiver) : (p.setReceiver i rx).now = p.now := rfl

@[simp] theorem Lane.heard_link (l : Lane) (now : Nat) : (l.heard now).link = l.link := by
  unfold Lane.heard
  split <;> rfl

theorem Lane.heard_up {l : Lane} (now : Nat) (h : l.link = .live ∨ l.link = .paused) :
    l.heard now = { l with lastChar := now } := if_pos ((Lane.up_iff l).2 h)

theorem Lane.heard_sync {l : Lane} (now : Nat) (h : l.link = .sync) : l.heard now = l := if_neg (by simp [Lane.up, h])

theorem Lane.active_iff (l : Lane) : l.active = true ↔ l.link = .sync ∨ l.link = .live ∨ l.link = .paused := by
  unfold Lane.active
  cases l.link <;> simp

theorem Part.wholeReply_active {p : Part} {i : LaneIx} (h : (p.lane i).link = .sync ∨ (p.lane i).link = .live ∨ (p.lane i).link = .paused)
    (r : Reply) : p.wholeReply i r = (p.setReceiver i .outside).takeReply i r := if_pos ((Lane.active_iff _).2 h)

theorem Part.wholeReply_down {p : Part} {i : LaneIx} (h : (p.lane i).link = .off ∨ (p.lane i).link = .fault) (r : Reply) :
    p.wholeReply i r = p := by
  refine if_neg ?_
  rcases h with link | link <;> simp [Lane.active, link]

theorem Part.stray_serves (p : Part) (i : LaneIx) (kind echo : Byte) : p.Serves i (p.stray i kind echo) :=
  (p.modLane_serves i _).trans ((Part.append_keeps _ _).serves i)

theorem Part.stray_lane (p : Part) (i : LaneIx) (kind echo : Byte) :
    (p.stray i kind echo).lane i = { p.lane i with strays := (p.lane i).strays + 1 } := by
  rw [Part.stray, Part.append_lane_eq, Part.lane_modLane_same]

theorem Part.takeBad_serves (p : Part) (i : LaneIx) : p.Serves i (p.takeBad i) := p.modLane_serves i _

@[simp] theorem Part.takeBad_lane (p : Part) (i : LaneIx) :
    (p.takeBad i).lane i = { p.lane i with badReplies := (p.lane i).badReplies + 1 } := p.lane_modLane_same i _

/-! ### BUSY, FREE and bad replies (R121, R135) -/

theorem Part.takeBusy_live {p : Part} {i : LaneIx} (h : (p.lane i).link = .live) :
    p.takeBusy i = (p.modLane i fun l => { l with link := .paused }).append (laneRecord .busy i .live .paused none none) := if_pos h

theorem Part.takeBusy_other {p : Part} {i : LaneIx} (h : (p.lane i).link ≠ .live) : p.takeBusy i = p := if_neg h

theorem Part.takeFree_paused {p : Part} {i : LaneIx} (h : (p.lane i).link = .paused) :
    p.takeFree i = (p.modLane i fun l => { l with link := .live }).append (laneRecord .free i .paused .live none none) := if_pos h

theorem Part.takeFree_other {p : Part} {i : LaneIx} (h : (p.lane i).link ≠ .paused) : p.takeFree i = p := if_neg h

/-- A whole reply that replaces the lane and appends its record, with no evaluation behind it. -/
theorem Runs.of_record {c : Instr} {s : State} {f : Part → Part} {i : LaneIx} {l m : Lane} {r : Record}
    (meaning : exec c s = s.event f) (on : s.part.enabled = true) (act : f s.part = (s.part.setLane i l).append r)
    (lane : l.kept = m.kept) :
    Runs c s Part.kept (s.part.setLane i m) fun t => s.part.appended t [r] := by
  refine Runs.of_serves meaning on ?_ ?_ ?_
  · rw [act]; exact (s.part.setLane_serves i l).trans ((Part.append_keeps _ _).serves i)
  · rw [act, Part.append_lane_eq, Part.lane_setLane_same, lane]
  · rw [act]
    exact Part.appended_quiet (Part.append_appended (s.part.setLane i l) r) (Part.finish_quiet _ _)

theorem exec_busy (s : State) (i : LaneIx) : exec (.busy i) s = s.event fun p => p.wholeReply i .busy := rfl

theorem exec_free (s : State) (i : LaneIx) : exec (.free i) s = s.event fun p => p.wholeReply i .free := rfl

theorem exec_badReply (s : State) (i : LaneIx) : exec (.badReply i) s = s.event fun p => p.wholeReply i .bad := rfl

/-- The receiver's move and a second change of the same lane. -/
theorem Part.setReceiver_modLane (p : Part) (i : LaneIx) (f : Lane → Lane) :
    (p.setReceiver i .outside).modLane i f = p.setLane i (f ((p.lane i).answering p.now)) := by
  rw [Part.modLane, Part.setReceiver_lane]
  exact Part.setLane_setLane _ _ _ _

/-- Settles O57: each reply's act on the lane, by its link state. -/
theorem busyFreeAndBad : Obligations.BusyFreeAndBad := by
  intro s i on l heard
  have bad : ∀ h : l.link = .sync ∨ l.link = .live ∨ l.link = .paused,
      s.part.wholeReply i .bad = s.part.setLane i { l.answering s.part.now with
        badReplies := (l.answering s.part.now).badReplies + 1 } := fun h =>
    (Part.wholeReply_active h _).trans (s.part.setReceiver_modLane i fun m => { m with badReplies := m.badReplies + 1 })
  have busy : ∀ h : l.link = .sync ∨ l.link = .paused,
      s.part.wholeReply i .busy = s.part.setLane i (l.answering s.part.now) := fun h =>
    (Part.wholeReply_active (h.imp_right .inr) _).trans
      (Part.takeBusy_other (by rw [Part.setReceiver_lane]; rcases h with link | link <;> simp [l] at link <;> simp [link]))
  have free : ∀ h : l.link = .sync ∨ l.link = .live,
      s.part.wholeReply i .free = s.part.setLane i (l.answering s.part.now) := fun h =>
    (Part.wholeReply_active (h.imp_right .inl) _).trans
      (Part.takeFree_other (by rw [Part.setReceiver_lane]; rcases h with link | link <;> simp [l] at link <;> simp [link]))
  refine ⟨fun live => ?_, fun paused => ?_, fun sync => ?_⟩
  · have answering : l.answering s.part.now = heard := by rw [Lane.answering, Lane.heard_up _ (.inl live)]
    refine ⟨Runs.of_record (exec_busy s i) on ?_ rfl, Runs.of_setLane (exec_free s i) on (free (.inr live)) ?_ trivial,
      Runs.of_setLane (exec_badReply s i) on (bad (.inr (.inl live))) ?_ trivial⟩
    · show s.part.wholeReply i .busy = _
      rw [Part.wholeReply_active (.inr (.inl live)), Part.takeReply, Part.takeBusy_live (by simpa using live),
        Part.setReceiver_modLane, answering]
    all_goals rw [answering]
  · have answering : l.answering s.part.now = heard := by rw [Lane.answering, Lane.heard_up _ (.inr paused)]
    refine ⟨Runs.of_record (exec_free s i) on ?_ rfl, Runs.of_setLane (exec_busy s i) on (busy (.inr paused)) ?_ trivial,
      Runs.of_setLane (exec_badReply s i) on (bad (.inr (.inr paused))) ?_ trivial⟩
    · show s.part.wholeReply i .free = _
      rw [Part.wholeReply_active (.inr (.inr paused)), Part.takeReply, Part.takeFree_paused (by simpa using paused),
        Part.setReceiver_modLane, answering]
    all_goals rw [answering]
  · have answering : l.answering s.part.now = { l with rx := .outside } := by rw [Lane.answering, Lane.heard_sync _ sync]
    refine ⟨Runs.of_setLane (exec_badReply s i) on (bad (.inl sync)) ?_ trivial,
      Runs.of_setLane (exec_busy s i) on (busy (.inl sync)) ?_ trivial,
      Runs.of_setLane (exec_free s i) on (free (.inl sync)) ?_ trivial⟩
    all_goals rw [answering]

end Sys2Proof.Machine
end

/-! PROOFS. READY, ACK, the ack timeout and the characters of the screen (R114, R119, R129 to R137). -/

section
namespace Sys2Proof.Machine

open Sys2Proof (LaneIx Instr AckOutcome)

@[simp] theorem Lane.answering_link (l : Lane) (now : Nat) : (l.answering now).link = l.link := l.heard_link now

theorem Part.receiver_lane (p : Part) (i : LaneIx) : (p.setReceiver i .outside).lane i = (p.lane i).answering p.now :=
  p.setReceiver_lane i .outside

/-! ### READY (R134, R137) -/

/-- A lane a READY has brought LIVE, before its catch-up. -/
def Lane.revived (l : Lane) (now : Nat) (buffers maxLine : Byte) : Lane :=
  { l.clearLists with
    link := .live, missCounter := 0, lastChar := now, screen := some { buffers := buffers.toNat, maxLine := maxLine.toNat } }

theorem Lane.showAsAllowed_kept (l : Lane) (b : Fin 2) :
    (l.showAsAllowed b).kept = l.kept.withExpress (l.showAsAllowed b).express := by
  unfold Lane.showAsAllowed
  split
  · exact l.queueShow_kept b
  · exact l.queueShow_kept b
  all_goals rfl

/-- Catch-up changes the staging and the express queue alone (R110). -/
theorem Lane.catchUp_kept (l : Lane) (window : List Entry) :
    (l.catchUp window).kept = l.kept.withExpress (l.catchUp window).express := by
  unfold Lane.catchUp
  split
  · rfl
  · split
    · exact l.queueExpress_kept _
    · split
      · exact l.showAsAllowed_kept _
      · have kept := l.placeLate_kept window
        rw [kept, show (l.placeLate window).express = l.express from (congrArg Lane.express kept :)]
        rfl

section
variable (p : Part) (i : LaneIx) (cause : LaneCause) (echo buffers maxLine : Byte)

theorem Part.comeLive_serves : p.Serves i (p.comeLive i cause echo buffers maxLine) :=
  ((p.modLane_serves i _).trans ((Part.append_keeps _ _).serves i)).trans (Part.modLane_serves _ i _)

theorem Part.comeLive_lane : (p.comeLive i cause echo buffers maxLine).lane i =
    ((p.lane i).revived p.now buffers maxLine).catchUp p.seq.window := by
  unfold Part.comeLive
  extract_lets left m q
  have lane : q.lane i = (p.lane i).revived p.now buffers maxLine := by
    simp only [q, m, Part.append_lane_eq, Part.lane_modLane_same]
    rfl
  have seq : q.seq = p.seq := Part.kept_seq (p := m) (Part.append_keeps _ _).kept
  rw [Part.lane_modLane_same, lane, seq]

theorem Part.comeLive_appended : p.appended (p.comeLive i cause echo buffers maxLine)
    [laneRecord cause i (p.lane i).link .live (some (buffers.toNat, maxLine.toNat, echo.toNat)) none] := by
  unfold Part.comeLive
  extract_lets left m q
  exact Part.appended_quiet (Part.append_appended m _) ⟨rfl, rfl, fun _ _ => rfl⟩

end

theorem readyInRange_iff (buffers maxLine : Byte) : readyInRange buffers maxLine = true ↔
    1 ≤ buffers.toNat ∧ buffers.toNat ≤ 2 ∧ 1 ≤ maxLine.toNat ∧ maxLine.toNat ≤ 120 := by
  simp [readyInRange, and_assoc]

theorem exec_ready (s : State) (i : LaneIx) (echo buffers maxLine : Byte) :
    exec (.ready i echo buffers maxLine) s = s.event fun p =>
      (p.wholeReply i (if readyInRange buffers maxLine then .ready echo buffers maxLine else .bad)).settle := rfl

/-- An event that leaves every lane as it was and ends in the evaluation. -/
theorem Runs.of_settled_unchanged {c : Instr} {s : State} {f : Part → Part} {post : Part → Prop}
    (meaning : exec c s = s.event fun p => (f p).settle) (on : s.part.enabled = true) (act : f s.part = s.part)
    (after : post (Part.finish s.part s.part.settle)) : Runs c s Part.still s.part post := by
  have run := Runs.of_settled (i := 0) (l := s.part.lane 0) (post := post) meaning on (by rw [act]; exact .refl 0 _)
    (by rw [act]) (by rwa [act])
  rwa [s.part.setLane_lane] at run

theorem Part.takeReady_live {p : Part} {i : LaneIx} {echo : Byte} (buffers maxLine : Byte)
    (h : ((p.lane i).link = .sync ∧ echo ∈ (p.lane i).hellos) ∨ (p.lane i).link = .live ∨ (p.lane i).link = .paused) :
    p.takeReady i echo buffers maxLine =
      p.comeLive i (if (p.lane i).link = .sync then .ready else .restart) echo buffers maxLine := by
  unfold Part.takeReady
  rcases h with ⟨sync, known⟩ | live | paused
  · simp [sync, known]
  · simp [live]
  · simp [paused]

theorem Part.takeReady_stray {p : Part} {i : LaneIx} {echo : Byte} (buffers maxLine : Byte) (sync : (p.lane i).link = .sync)
    (h : echo ∉ (p.lane i).hellos) : p.takeReady i echo buffers maxLine = p.stray i 0x50 echo := by
  simp [Part.takeReady, sync, h]

/-- Settles O55: READY's act by link state, echo and fields, then the lane's LANE record and catch-up. -/
theorem readyBringsLive : Obligations.ReadyBringsLive := by
  intro s i echo buffers maxLine on l c heard inRange
  refine ⟨fun range known => ?_, fun range sync unknown => ?_, fun range active => ?_, fun down => ?_⟩
  · have active : l.link = .sync ∨ l.link = .live ∨ l.link = .paused := known.imp_left fun h => h.1
    have act : s.part.wholeReply i (if readyInRange buffers maxLine then .ready echo buffers maxLine else .bad) =
        (s.part.setReceiver i .outside).comeLive i (if l.link = .sync then .ready else .restart) echo buffers maxLine := by
      rw [if_pos ((readyInRange_iff _ _).2 range), Part.wholeReply_active active, Part.takeReply, Part.takeReady_live]
      · rw [Part.receiver_lane, Lane.answering_link]
      · rw [Part.receiver_lane, Lane.answering_link, Lane.answering]
        have hellos : (l.heard s.part.now).hellos = l.hellos := by
          unfold Lane.heard
          split <;> rfl
        exact known.imp_left fun h => ⟨h.1, hellos ▸ h.2⟩
    generalize cause_eq : (if l.link = .sync then LaneCause.ready else .restart) = cause at act ⊢
    have serves := (s.part.setReceiver_serves i .outside).trans
      (Part.comeLive_serves (s.part.setReceiver i .outside) i cause echo buffers maxLine)
    have lane := Part.comeLive_lane (s.part.setReceiver i .outside) i cause echo buffers maxLine
    have appended := Part.comeLive_appended (s.part.setReceiver i .outside) i cause echo buffers maxLine
    rw [Part.receiver_lane, Part.setReceiver_now] at lane
    rw [Part.receiver_lane, Lane.answering_link] at appended
    generalize (s.part.setReceiver i .outside).comeLive i cause echo buffers maxLine = q at act serves lane appended
    have run : exec c s = .next { s with part := Part.finish s.part q.settle } :=
      ((exec_ready s i echo buffers maxLine).trans (s.event_running _ on)).trans (by rw [act])
    have still : ((Part.finish s.part q.settle).lane i).still = ((l.answering s.part.now).revived s.part.now buffers maxLine).still := by
      rw [Part.still_lane (Part.settled_stills _ _).still i, lane, Lane.catchUp_still]
    refine ⟨_, run, rfl, Part.settled_own serves, (congrArg Lane.link still :), (congrArg Lane.screen still :),
      (congrArg Lane.missCounter still :), (congrArg Lane.lastChar still :), (congrArg Lane.cfg still :).trans ?_,
      (congrArg Lane.outstanding still :), fun idle => ?_⟩
    · exact (Lane.heard_still_eq l s.part.now).1
    · show ((Part.finish s.part q.settle).lane i).shadow = _ ∧ s.part.appended (Part.finish s.part q.settle) _
      rw [serves.settle_idle idle]
      have kept := Part.kept_lane (Part.finish_keeps s.part q).kept i
      rw [lane, Lane.catchUp_kept] at kept
      refine ⟨(congrArg Lane.shadow kept :).trans ?_, Part.appended_quiet appended (Part.finish_quiet _ _)⟩
      show (l.heard s.part.now).shadow = l.shadow
      unfold Lane.heard
      split <;> rfl
  · have answering : l.answering s.part.now = { l with rx := .outside } := by rw [Lane.answering, Lane.heard_sync _ sync]
    have act : s.part.wholeReply i (if readyInRange buffers maxLine then .ready echo buffers maxLine else .bad) =
        (s.part.setReceiver i .outside).stray i 0x50 echo := by
      rw [if_pos ((readyInRange_iff _ _).2 range), Part.wholeReply_active (.inl sync), Part.takeReply, Part.takeReady_stray]
      · rw [Part.receiver_lane, Lane.answering_link, sync]
      · rw [Part.receiver_lane, answering]
        exact unknown
    refine Runs.of_settled (exec_ready s i echo buffers maxLine) on ?_ ?_ trivial
    · rw [act]; exact (s.part.setReceiver_serves i _).trans (Part.stray_serves _ i _ _)
    · rw [act, Part.stray_lane, Part.receiver_lane, answering]
  · have act : s.part.wholeReply i (if readyInRange buffers maxLine then .ready echo buffers maxLine else .bad) =
        (s.part.setReceiver i .outside).takeBad i := by
      rw [if_neg (fun h => range ((readyInRange_iff _ _).1 h)), Part.wholeReply_active ((Lane.active_iff l).1 active),
        Part.takeReply]
    refine Runs.of_settled (exec_ready s i echo buffers maxLine) on ?_ ?_ trivial
    · rw [act]; exact (s.part.setReceiver_serves i _).trans (Part.takeBad_serves _ i)
    · rw [act, Part.takeBad_lane, Part.receiver_lane]
      simp only [heard, Lane.answering, Lane.heard]
      split <;> rfl
  · exact Runs.of_settled_unchanged (exec_ready s i echo buffers maxLine) on (Part.wholeReply_down down _) trivial

/-! ### Timeouts and misses (R131, R132) -/

/-- A lane whose miss has been counted, before FAULT. -/
def Lane.missed (l : Lane) (e : Outstanding) : Lane :=
  { l.freeMissed e with missCounter := l.missCounter + 1, misses := l.misses + 1 }

theorem Part.miss_serves (p : Part) (i : LaneIx) (e : Outstanding) : p.Serves i (p.miss i e) := by
  unfold Part.miss
  extract_lets p1 l p2
  have counted : p.Serves i p2 := (p.modLane_serves i _).trans ((Part.append_keeps _ _).serves i)
  split
  · exact (counted.trans (Part.setLane_serves _ i _)).trans ((Part.append_keeps _ _).serves i)
  · exact counted

theorem Part.miss_lane (p : Part) (i : LaneIx) (e : Outstanding) :
    (p.miss i e).lane i =
      if ((p.lane i).missed e).cfg.faultLimit ≤ (p.lane i).missCounter + 1 then ((p.lane i).missed e).toFault
      else (p.lane i).missed e := by
  unfold Part.miss
  extract_lets p1 l p2
  have lane : l = (p.lane i).missed e := p.lane_modLane_same i _
  have after : p2.lane i = (p.lane i).missed e := (Part.append_lane_eq _ _ i).trans lane
  rw [lane]
  show (if ((p.lane i).missed e).cfg.faultLimit ≤ (p.lane i).missCounter + 1 then p2.enterFault i else p2).lane i = _
  split
  · rw [Part.enterFault, Part.append_lane_eq, Part.lane_setLane_same, after]
  · exact after

/-- A lane without one entry of its outstanding list. -/
def Lane.without (l : Lane) (e : Outstanding) : Lane := { l with outstanding := l.outstanding.filter fun x => decide (x ≠ e) }

theorem Part.timeOut_serves (p : Part) (i : LaneIx) (e : Outstanding) : p.Serves i (p.timeOut i e) := by
  unfold Part.timeOut
  simp only
  split
  · exact (p.modLane_serves i _).trans (Part.modLane_serves _ i _)
  · exact (p.modLane_serves i _).trans (Part.miss_serves _ i _)

theorem Part.timeOut_resend_lane (p : Part) (i : LaneIx) {e : Outstanding} (h : e.retry = .resendOnce ∧ e.attempt = 1) :
    (p.timeOut i e).lane i = ((p.lane i).without e).resendOrDrop e := by
  unfold Part.timeOut
  simp only [if_pos h, Part.lane_modLane_same]
  rfl

theorem Part.timeOut_miss_lane (p : Part) (i : LaneIx) {e : Outstanding} (h : ¬ (e.retry = .resendOnce ∧ e.attempt = 1)) :
    (p.timeOut i e).lane i =
      if (((p.lane i).without e).missed e).cfg.faultLimit ≤ (p.lane i).missCounter + 1 then
        (((p.lane i).without e).missed e).toFault
      else ((p.lane i).without e).missed e := by
  unfold Part.timeOut
  simp only [if_neg h]
  rw [Part.miss_lane, Part.lane_modLane_same]
  rfl

theorem Lane.missed_kept (l : Lane) (e : Outstanding) :
    (l.missed e).kept = { l.kept with missCounter := l.missCounter + 1, misses := l.misses + 1 } :=
  congrArg (fun m : Lane => { m with missCounter := l.missCounter + 1, misses := l.misses + 1 }) (l.freeMissed_kept e)

theorem Lane.without_out (l : Lane) (e : Outstanding) : e ∉ (l.without e).outstanding := by
  simp [Lane.without]

/-- The closed entry of a sequence number that no other entry has is the one its timeout finds. -/
theorem Lane.findTimeout {l : Lane} {now : Nat} {e : Outstanding} {k : Closing} (mem : e ∈ l.outstanding)
    (closed : e.closing = some k) (come : k.deadline ≤ now) (only : ∀ x ∈ l.outstanding, x.seq = e.seq → x = e) :
    (l.outstanding.find? fun x => decide (x.seq = e.seq) && x.closing.any fun c => decide (c.deadline ≤ now)) = some e := by
  cases found : l.outstanding.find? fun x => decide (x.seq = e.seq) && x.closing.any fun c => decide (c.deadline ≤ now) with
  | none => exact absurd (List.find?_eq_none.1 found e mem) (by simp [closed, come])
  | some x =>
    have holds := List.find?_some found
    simp only [Bool.and_eq_true, decide_eq_true_eq] at holds
    rw [only x (List.mem_of_find?_eq_some found) holds.1]

/-- Settles O58: the miss counted or not by the entry's attempt, and the lane at its fault limit. -/
theorem ackTimesOut : Obligations.AckTimesOut := by
  intro s i e k on up l mem closed come only
  have act : s.part.ackTimeout i e.seq = s.part.timeOut i e := by
    unfold Part.ackTimeout
    simp only [up, Bool.not_true, Bool.false_eq_true, if_false]
    rw [Lane.findTimeout mem closed come only]
  have run : exec (.ackTimeout i e.seq) s = .next { s with part := Part.finish s.part (s.part.timeOut i e).settle } :=
    (s.event_running (fun p => (p.ackTimeout i e.seq).settle) on).trans (by rw [act])
  have still := Part.still_lane (Part.settled_stills s.part (s.part.timeOut i e)).still i
  have own := Part.settled_own (s.part.timeOut_serves i e)
  by_cases first : e.retry = .resendOnce ∧ e.attempt = 1
  · rw [s.part.timeOut_resend_lane i first, Lane.resendOrDrop_still] at still
    have outstanding := (congrArg Lane.outstanding still :)
    exact ⟨_, run, rfl, own, outstanding ▸ l.without_out e, (congrArg Lane.cfg still :),
      fun _ => ⟨(congrArg Lane.misses still :), (congrArg Lane.missCounter still :), (congrArg Lane.link still :)⟩,
      fun other => absurd first other⟩
  · have missed := (l.without e).missed_kept e
    have limit : ((l.without e).missed e).cfg.faultLimit = l.cfg.faultLimit := (congrArg (fun m : Lane => m.cfg.faultLimit) missed :)
    rw [s.part.timeOut_miss_lane i first, limit] at still
    refine ⟨_, run, rfl, own, ?_⟩
    by_cases fault : l.cfg.faultLimit ≤ l.missCounter + 1
    · rw [if_pos fault] at still
      have outstanding : ((Part.finish s.part (s.part.timeOut i e).settle).lane i).outstanding = [] := (congrArg Lane.outstanding still :)
      exact ⟨by rw [outstanding]; exact List.not_mem_nil, (congrArg Lane.cfg still :).trans (congrArg Lane.cfg missed :),
        fun h => absurd h first, fun _ => ⟨(congrArg Lane.misses still :), (congrArg Lane.missCounter still :),
          (congrArg Lane.link still :).trans (if_pos fault).symm⟩⟩
    · rw [if_neg fault] at still
      have outstanding : ((Part.finish s.part (s.part.timeOut i e).settle).lane i).outstanding = (l.without e).outstanding :=
        (congrArg Lane.outstanding still :).trans (congrArg Lane.outstanding missed :)
      exact ⟨by rw [outstanding]; exact l.without_out e, (congrArg Lane.cfg still :).trans (congrArg Lane.cfg missed :),
        fun h => absurd h first, fun _ => ⟨(congrArg Lane.misses still :), (congrArg Lane.missCounter still :),
          ((congrArg Lane.link still :).trans (congrArg Lane.link missed :)).trans (if_neg fault).symm⟩⟩

end Sys2Proof.Machine
end

/-! PROOFS. ACK (R129, R130) and the characters of the screen (R114, R121, R136). -/

section
namespace Sys2Proof.Machine

open Sys2Proof (LaneIx Instr AckOutcome)

/-! ### ACK (R129, R130) -/

theorem exec_ack (s : State) (i : LaneIx) (echo : Byte) (outcome : AckOutcome) :
    exec (.ack i echo outcome) s = s.event fun p => (p.wholeReply i (.ack echo outcome)).settle := rfl

/-- A lane that acknowledges no more, and whose outstanding list holds nothing new. -/
def Lane.Sheds (l m : Lane) : Prop := m.acknowledged = l.acknowledged ∧ ∀ x ∈ m.outstanding, x ∈ l.outstanding

theorem Lane.Sheds.refl (l : Lane) : l.Sheds l := ⟨rfl, fun _ h => h⟩

theorem Lane.Sheds.trans {l m n : Lane} (h : l.Sheds m) (k : m.Sheds n) : l.Sheds n :=
  ⟨k.1.trans h.1, fun x hx => h.2 x (k.2 x hx)⟩

theorem Lane.sheds_of_still {l m n : Lane} (h : l.Sheds m) (k : n.still = m.still) : l.Sheds n :=
  h.trans ⟨(congrArg Lane.acknowledged k :), fun _ hx => (congrArg Lane.outstanding k :) ▸ hx⟩

theorem Lane.without_sheds (l : Lane) (e : Outstanding) : l.Sheds (l.without e) := ⟨rfl, fun _ hx => List.mem_of_mem_filter hx⟩

theorem Lane.missed_sheds (l : Lane) (e : Outstanding) : l.Sheds (l.missed e) :=
  have kept := l.missed_kept e
  ⟨(congrArg Lane.acknowledged kept :), fun x hx => by
    rwa [show (l.missed e).outstanding = l.outstanding from (congrArg Lane.outstanding kept :)] at hx⟩

theorem Lane.toFault_sheds (l : Lane) : l.Sheds l.toFault := ⟨rfl, fun _ hx => absurd hx List.not_mem_nil⟩

theorem Part.timeOut_sheds (p : Part) (i : LaneIx) (e : Outstanding) : (p.lane i).Sheds ((p.timeOut i e).lane i) := by
  by_cases first : e.retry = .resendOnce ∧ e.attempt = 1
  · rw [p.timeOut_resend_lane i first]
    exact Lane.sheds_of_still ((p.lane i).without_sheds e) (Lane.resendOrDrop_still _ _)
  · have missed := ((p.lane i).without_sheds e).trans (Lane.missed_sheds _ e)
    rw [p.timeOut_miss_lane i first]
    split
    · exact missed.trans (Lane.toFault_sheds _)
    · exact missed

/-- The frames closed before an acknowledged one, taken as timed out (R129). -/
def Part.timeOutEarlier (p : Part) (i : LaneIx) (earlier : List Outstanding) : Part :=
  earlier.foldl (fun p x => if x ∈ (p.lane i).outstanding then p.timeOut i x else p) p

theorem Part.timeOutEarlier_spec (i : LaneIx) (earlier : List Outstanding) :
    ∀ p : Part, p.Serves i (p.timeOutEarlier i earlier) ∧ (p.lane i).Sheds ((p.timeOutEarlier i earlier).lane i) := by
  induction earlier with
  | nil => exact fun p => ⟨.refl i p, .refl _⟩
  | cons x rest ih =>
    intro p
    have one : p.Serves i (if x ∈ (p.lane i).outstanding then p.timeOut i x else p) ∧
        (p.lane i).Sheds ((if x ∈ (p.lane i).outstanding then p.timeOut i x else p).lane i) := by
      split
      · exact ⟨p.timeOut_serves i x, p.timeOut_sheds i x⟩
      · exact ⟨.refl i p, .refl _⟩
    obtain ⟨serves, sheds⟩ := ih (if x ∈ (p.lane i).outstanding then p.timeOut i x else p)
    exact ⟨one.1.trans serves, one.2.trans sheds⟩

/-- What a matched ACK's outcome leaves: its record's state, and the miss counter at a DONE (R129). -/
theorem Lane.acked_kept (l : Lane) (e : Outstanding) (outcome : AckOutcome) :
    (l.acked e outcome).kept =
      { l.kept with missCounter := if outcome = .done ∧ l.up = true then 0 else l.missCounter } := by
  unfold Lane.acked
  extract_lets m _
  have settled : m.kept = l.kept := by
    simp only [m]
    split
    · split
      · cases outcome <;> rfl
      · rfl
    · split <;> rfl
    · rfl
  have up : m.up = l.up := by
    unfold Lane.up
    rw [show m.link = l.link from (congrArg Lane.link settled :)]
  rw [up]
  split
  · exact congrArg (fun n : Lane => { n with missCounter := 0 }) settled
  · exact settled

/-- A lane with one closed frame acknowledged. -/
def Lane.acknowledging (l : Lane) (e : Outstanding) : Lane := { l.without e with acknowledged := l.acknowledged + 1 }

theorem Part.ackMatched_serves (p : Part) (i : LaneIx) (e : Outstanding) (c : Closing) (outcome : AckOutcome) :
    p.Serves i (p.ackMatched i e c outcome) := by
  unfold Part.ackMatched
  extract_lets earlier p1 p2 p3
  have timed : p1.Serves i p2 := (Part.timeOutEarlier_spec i earlier p1).1
  have acked : p.Serves i p3 := ((p.modLane_serves i _).trans timed).trans (Part.modLane_serves _ i _)
  split
  · exact acked.trans ((Part.append_keeps _ _).serves i)
  · exact acked

theorem Part.ackMatched_lane (p : Part) (i : LaneIx) (e : Outstanding) (c : Closing) (outcome : AckOutcome) :
    ∃ m, ((p.lane i).acknowledging e).Sheds m ∧ (p.ackMatched i e c outcome).lane i = m.acked e outcome ∧
      (closedBefore (p.lane i).outstanding c = [] → m = (p.lane i).acknowledging e) := by
  unfold Part.ackMatched
  extract_lets earlier p1 p2 p3
  have start : p1.lane i = (p.lane i).acknowledging e := p.lane_modLane_same i _
  have sheds := (Part.timeOutEarlier_spec i earlier p1).2
  rw [start] at sheds
  refine ⟨p2.lane i, sheds, ?_, fun none_ => ?_⟩
  · have acked : p3.lane i = (p2.lane i).acked e outcome := p2.lane_modLane_same i _
    split
    · exact (Part.append_lane_eq _ _ i).trans acked
    · exact acked
  · have same : p2 = p1 := by simp only [p2, earlier, none_, List.foldl_nil]
    rw [same, start]

/-- An echo's one closed entry is the one it matches. -/
theorem Lane.matchAck_only {l : Lane} {echo : Byte} {e : Outstanding} {k : Closing} (mem : e ∈ l.outstanding)
    (seq : e.seq = echo) (closed : e.closing = some k)
    (only : ∀ x ∈ l.outstanding, x.seq = echo → x.closing ≠ none → x = e) : l.matchAck echo = some (e, k) := by
  unfold Lane.matchAck
  cases found : l.outstanding.findSome? fun e => if e.seq = echo then e.closing.map fun c => (e, c) else none with
  | none =>
    have := List.findSome?_eq_none_iff.1 found e mem
    simp [seq, closed] at this
  | some pair =>
    obtain ⟨x, hx, hit⟩ := List.exists_of_findSome?_eq_some found
    by_cases own : x.seq = echo
    · rw [if_pos own] at hit
      cases hc : x.closing with
      | none => simp [hc] at hit
      | some c =>
        have same := only x hx own (by simp [hc])
        rw [hc, same] at hit
        rw [same, closed] at hc
        simp_all
    · simp [own] at hit

theorem Lane.matchAck_none {l : Lane} {echo : Byte} (h : ∀ x ∈ l.outstanding, x.seq = echo → x.closing = none) :
    l.matchAck echo = none := by
  refine List.findSome?_eq_none_iff.2 fun x hx => ?_
  by_cases own : x.seq = echo
  · simp [own, h x hx own]
  · simp [own]

section
variable {p : Part} {i : LaneIx} {echo : Byte}

theorem Part.takeAck_matched {e : Outstanding} {k : Closing} (outcome : AckOutcome)
    (up : (p.lane i).link = .live ∨ (p.lane i).link = .paused) (found : (p.lane i).matchAck echo = some (e, k)) :
    p.takeAck i echo outcome = p.ackMatched i e k outcome := by
  unfold Part.takeAck
  rcases up with link | link <;> simp [link, found]

theorem Part.takeAck_stray (outcome : AckOutcome) (up : (p.lane i).link = .live ∨ (p.lane i).link = .paused)
    (lost : (p.lane i).matchAck echo = none) : p.takeAck i echo outcome = p.stray i 0x51 echo := by
  unfold Part.takeAck
  rcases up with link | link <;> simp [link, lost]

theorem Part.takeAck_sync (outcome : AckOutcome) (sync : (p.lane i).link = .sync) :
    p.takeAck i echo outcome = p.stray i 0x51 echo := by
  simp [Part.takeAck, sync]

end

/-- Settles O56: the matched entry leaves the list and its act writes no other field said. -/
theorem ackMatchesFrame : Obligations.AckMatchesFrame := by
  intro s i echo outcome on l c
  refine ⟨fun e k up mem seq closed only => ?_, fun up open_ => ?_, fun sync => ?_⟩
  · have answering : l.answering s.part.now = { l with lastChar := s.part.now, rx := .outside } := by
      rw [Lane.answering, Lane.heard_up _ up]
    have act : s.part.wholeReply i (.ack echo outcome) = (s.part.setReceiver i .outside).ackMatched i e k outcome := by
      rw [Part.wholeReply_active (.inr up), Part.takeReply]
      apply Part.takeAck_matched
      · rwa [Part.receiver_lane, Lane.answering_link]
      · rw [Part.receiver_lane, answering]
        exact Lane.matchAck_only mem seq closed only
    have serves := (s.part.setReceiver_serves i .outside).trans
      (Part.ackMatched_serves (s.part.setReceiver i .outside) i e k outcome)
    obtain ⟨m, sheds, lane, exact_⟩ := Part.ackMatched_lane (s.part.setReceiver i .outside) i e k outcome
    rw [Part.receiver_lane, answering] at sheds exact_
    generalize (s.part.setReceiver i .outside).ackMatched i e k outcome = q at act serves lane
    have run : exec c s = .next { s with part := Part.finish s.part q.settle } :=
      ((exec_ack s i echo outcome).trans (s.event_running _ on)).trans (by rw [act])
    have acked := m.acked_kept e outcome
    have still := Part.still_lane (Part.settled_stills s.part q).still i
    rw [lane] at still
    refine ⟨_, run, rfl, Part.settled_own serves,
      ((congrArg Lane.acknowledged still :).trans (congrArg Lane.acknowledged acked :)).trans sheds.1, ?_, fun none_ => ?_⟩
    · have list : ((Part.finish s.part q.settle).lane i).outstanding = m.outstanding :=
        (congrArg Lane.outstanding still :).trans (congrArg Lane.outstanding acked :)
      rw [list]
      exact fun h => (Lane.without_out _ e) (sheds.2 e h)
    · have whole := exact_ none_
      have upm : m.up = true := by rw [whole]; exact (Lane.up_iff l).2 up
      rw [whole] at acked still upm
      rw [upm] at acked
      refine ⟨(congrArg Lane.outstanding still :).trans (congrArg Lane.outstanding acked :),
        (congrArg Lane.link still :).trans (congrArg Lane.link acked :),
        (congrArg Lane.lastChar still :).trans (congrArg Lane.lastChar acked :),
        (congrArg Lane.misses still :).trans (congrArg Lane.misses acked :),
        ((congrArg Lane.missCounter still :).trans (congrArg Lane.missCounter acked :)).trans ?_⟩
      cases outcome <;> rfl
  · have answering : l.answering s.part.now = { l with lastChar := s.part.now, rx := .outside } := by
      rw [Lane.answering, Lane.heard_up _ up]
    have act : s.part.wholeReply i (.ack echo outcome) = (s.part.setReceiver i .outside).stray i 0x51 echo := by
      rw [Part.wholeReply_active (.inr up), Part.takeReply]
      apply Part.takeAck_stray
      · rwa [Part.receiver_lane, Lane.answering_link]
      · rw [Part.receiver_lane, answering]
        exact Lane.matchAck_none open_
    refine Runs.of_settled (exec_ack s i echo outcome) on ?_ ?_ trivial
    · rw [act]; exact (s.part.setReceiver_serves i _).trans (Part.stray_serves _ i _ _)
    · rw [act, Part.stray_lane, Part.receiver_lane, answering]
  · have answering : l.answering s.part.now = { l with rx := .outside } := by rw [Lane.answering, Lane.heard_sync _ sync]
    have act : s.part.wholeReply i (.ack echo outcome) = (s.part.setReceiver i .outside).stray i 0x51 echo := by
      rw [Part.wholeReply_active (.inl sync), Part.takeReply]
      exact Part.takeAck_sync outcome (by rwa [Part.receiver_lane, Lane.answering_link])
    refine Runs.of_settled (exec_ack s i echo outcome) on ?_ ?_ trivial
    · rw [act]; exact (s.part.setReceiver_serves i _).trans (Part.stray_serves _ i _ _)
    · rw [act, Part.stray_lane, Part.receiver_lane, answering]

/-! ### Characters (R114, R121, R136) -/

theorem exec_characterReceived (s : State) (i : LaneIx) (b : Byte) (err : Bool) :
    exec (.characterReceived i b err) s = s.event fun p => (p.receiveChar i b err).settle := rfl

section
variable {p : Part} {i : LaneIx} {b : Byte} {err : Bool}

theorem Part.receiveChar_down (h : (p.lane i).active = false) : p.receiveChar i b err = p := by
  simp [Part.receiveChar, h]

theorem Part.receiveChar_on {r : Receiver} (active : (p.lane i).active = true) (next : receive (p.lane i).rx b err = (r, none)) :
    p.receiveChar i b err = p.setReceiver i r := by
  simp [Part.receiveChar, active, next]

theorem Part.receiveChar_bad {r : Receiver} (active : (p.lane i).active = true)
    (next : receive (p.lane i).rx b err = (r, some .bad)) : p.receiveChar i b err = (p.setReceiver i r).takeBad i := by
  simp [Part.receiveChar, active, next]

/-- A character that ends a good reply acts as the whole reply (R122). -/
theorem Part.receiveChar_good {r : Receiver} {reply : Reply} (active : (p.lane i).active = true)
    (next : receive (p.lane i).rx b err = (r, some reply)) (good : reply ≠ .bad) :
    p.receiveChar i b err = p.wholeReply i reply := by
  rw [Part.wholeReply, if_pos active]
  cases reply
  case bad => exact absurd rfl good
  all_goals simp [Part.receiveChar, active, next]

end

theorem dite_of_not {c : Prop} [Decidable c] {α : Type} {t : c → α} {e : ¬ c → α} {v : α} (h : ¬ c) (k : e h = v) :
    dite c t e = v := (dif_neg h).trans k

/-- A body of no reply's kind is a bad reply. The tests its match compiles to are taken one by one, since a case split over six patterns
of literals is too large for the elaborator. -/
theorem replyOf_other {k : Byte} (rest : List Byte) (ready : k ≠ 0x50) (ack : k ≠ 0x51) (busy : k ≠ 0x52) (free : k ≠ 0x53) :
    replyOf (k :: rest) = .bad := by
  set_option smartUnfolding false in
    exact dite_of_not ready (dite_of_not ack (dite_of_not busy (dite_of_not free rfl)))

theorem replyOf_ack (echo outcome : Byte) :
    replyOf [0x51, echo, outcome] = if outcome = 1 then .ack echo .done else if outcome = 2 then .ack echo .refused else .bad := by
  by_cases done : outcome = 1
  · rw [if_pos done, done]
    rfl
  · by_cases refused : outcome = 2
    · rw [if_neg done, if_pos refused, refused]
      rfl
    · rw [if_neg done, if_neg refused]
      set_option smartUnfolding false in
        exact dite_of_not done (dite_of_not refused rfl)

theorem replyOf_ack_long (echo outcome x : Byte) (more : List Byte) : replyOf (0x51 :: echo :: outcome :: x :: more) = .bad := by
  by_cases done : outcome = 1
  · rw [done]
    rfl
  · by_cases refused : outcome = 2
    · rw [refused]
      rfl
    · set_option smartUnfolding false in
        exact dite_of_not done (dite_of_not refused rfl)

theorem replyOf_ready_body (echo buffers maxLine : Byte) : replyOf [0x50, echo, buffers, maxLine] =
    if 1 ≤ buffers.toNat ∧ buffers.toNat ≤ 2 ∧ 1 ≤ maxLine.toNat ∧ maxLine.toNat ≤ 120 then .ready echo buffers maxLine
    else .bad := rfl

/-- A READY the receiver gives has its fields in range (R119). -/
theorem replyOf_ready {body : List Byte} {echo buffers maxLine : Byte} (h : replyOf body = .ready echo buffers maxLine) :
    readyInRange buffers maxLine = true := by
  match body with
  | [] => exact nomatch h
  | k :: rest =>
    by_cases ready : k = 0x50
    · subst ready
      match rest with
      | [] | [_] | [_, _] | _ :: _ :: _ :: _ :: _ => exact nomatch h
      | [e, b, m] =>
        rw [replyOf_ready_body] at h
        split at h
        · next range =>
          cases h
          exact (readyInRange_iff _ _).2 range
        · exact nomatch h
    by_cases ack : k = 0x51
    · subst ack
      match rest with
      | [] | [_] => exact nomatch h
      | e :: o :: x :: more =>
        rw [replyOf_ack_long] at h
        exact nomatch h
      | [e, o] =>
        rw [replyOf_ack] at h
        split at h
        · exact nomatch h
        · split at h <;> exact nomatch h
    by_cases busy : k = 0x52
    · subst busy
      cases rest <;> exact nomatch h
    by_cases free : k = 0x53
    · subst free
      cases rest <;> exact nomatch h
    rw [replyOf_other rest ready ack busy free] at h
    exact nomatch h

theorem judge_ready {bytes : List Byte} {bad : Bool} {echo buffers maxLine : Byte}
    (h : judge bytes bad = .ready echo buffers maxLine) : readyInRange buffers maxLine = true := by
  unfold judge at h
  split at h
  · cases h
  · exact replyOf_ready h

theorem receiveInFrame_ready {bytes : List Byte} {bad : Bool} {b echo buffers maxLine : Byte}
    (h : (receiveInFrame bytes bad b).2 = some (.ready echo buffers maxLine)) : readyInRange buffers maxLine = true := by
  unfold receiveInFrame at h
  split at h
  · cases h
  · split at h
    · exact judge_ready (Option.some.inj h)
    · split at h
      · cases h
      · split at h
        · cases h
        · split at h <;> cases h

theorem receive_ready {x r : Receiver} {b echo buffers maxLine : Byte} {err : Bool}
    (h : receive x b err = (r, some (.ready echo buffers maxLine))) : readyInRange buffers maxLine = true := by
  have h := congrArg Prod.snd h
  unfold receive at h
  split at h
  · split at h <;> cases h
  · split at h
    · cases h
    · split at h
      · cases h
      · exact receiveInFrame_ready h
  · split at h
    · cases h
    · split at h
      · cases h
      · split at h
        · cases h
        · split at h
          · exact receiveInFrame_ready h
          · cases h

/-- Settles O59: the receiver judges the frame, and the judged reply is the command of its name. -/
theorem charactersAreReceived : Obligations.CharactersAreReceived := by
  intro s i b err on l c heard
  have meaning := exec_characterReceived s i b err
  have hears : l.heard s.part.now = heard := rfl
  have acts : ∀ {r : Receiver} {reply : Reply}, l.active = true → receive l.rx b err = (r, some reply) → reply ≠ .bad →
      exec c s = .next { s with part := Part.finish s.part (s.part.wholeReply i reply).settle } :=
    fun active next good => (meaning.trans (s.event_running _ on)).trans (by rw [Part.receiveChar_good active next good])
  refine ⟨fun down => ?_, fun r active next => ?_, fun r active next => ?_, fun r live next => ?_, fun r paused next => ?_,
    fun r echo buffers maxLine active next => ?_, fun r echo outcome active next => ?_⟩
  · exact Runs.of_settled_unchanged meaning on (Part.receiveChar_down down) trivial
  · have act : s.part.receiveChar i b err = s.part.setReceiver i r := Part.receiveChar_on active next
    have serves := s.part.setReceiver_serves i r
    refine Runs.of_settled meaning on (by rw [act]; exact serves) (by rw [act, Part.setReceiver_lane, hears]) fun idle => ?_
    rw [act, serves.settle_idle idle]
    exact (Part.finish_keeps _ _).kept
  · have act : s.part.receiveChar i b err = (s.part.setReceiver i r).takeBad i := Part.receiveChar_bad active next
    refine Runs.of_settled meaning on (by rw [act]; exact (s.part.setReceiver_serves i r).trans (Part.takeBad_serves _ i)) ?_ trivial
    rw [act, Part.takeBad_lane, Part.setReceiver_lane]
    simp only [heard, Lane.heard]
    split <;> rfl
  · have act : s.part.receiveChar i b err = (s.part.setReceiver i .outside).takeBusy i :=
      (Part.receiveChar_good ((Lane.active_iff l).2 (.inr (.inl live))) next nofun).trans
        (Part.wholeReply_active (.inr (.inl live)) _)
    rw [Part.takeBusy_live (by rw [Part.receiver_lane, Lane.answering_link]; exact live), Part.setReceiver_modLane] at act
    refine Runs.of_settled meaning on ?_ ?_ trivial
    · rw [act]; exact (s.part.setLane_serves i _).trans ((Part.append_keeps _ _).serves i)
    · rw [act, Part.append_lane_eq, Part.lane_setLane_same, Lane.answering, hears]
  · have act : s.part.receiveChar i b err = (s.part.setReceiver i .outside).takeFree i :=
      (Part.receiveChar_good ((Lane.active_iff l).2 (.inr (.inr paused))) next nofun).trans
        (Part.wholeReply_active (.inr (.inr paused)) _)
    rw [Part.takeFree_paused (by rw [Part.receiver_lane, Lane.answering_link]; exact paused), Part.setReceiver_modLane] at act
    refine Runs.of_settled meaning on ?_ ?_ trivial
    · rw [act]; exact (s.part.setLane_serves i _).trans ((Part.append_keeps _ _).serves i)
    · rw [act, Part.append_lane_eq, Part.lane_setLane_same, Lane.answering, hears]
  · have same := (exec_ready s i echo buffers maxLine).trans (s.event_running _ on)
    rw [receive_ready next] at same
    exact (acts active next nofun).trans same.symm
  · exact (acts active next nofun).trans ((exec_ack s i echo outcome).trans (s.event_running _ on)).symm

end Sys2Proof.Machine
end

/-! PROOFS. Section ends (R72 to R75): the clock, the place and the window an entry leaves, the end of the act, and the evaluation that
follows; with the forms in which the statements of an event are met. -/

section
namespace Sys2Proof.Machine

open Sys2Proof (LaneIx BeatInput Key Instr)

/-- An event of the running part whose act stills a part with the memory and notices it began with. -/
theorem Runs.of_stills {c : Instr} {s : State} {f : Part → Part} {q : Part} {post : Part → Prop}
    (meaning : exec c s = s.event f) (on : s.part.enabled = true) (mem : q.mem = s.part.mem)
    (notices : q.regs.notice = s.part.regs.notice) (h : q.Stills (f s.part))
    (after : post (Part.finish s.part (f s.part))) : Runs c s Part.still q post :=
  Runs.still meaning on (mem ▸ h.mem) (fun k hk => h.notices k (notices ▸ hk)) h.still after

theorem Runs.of_keeps {c : Instr} {s : State} {f : Part → Part} {q : Part} {post : Part → Prop}
    (meaning : exec c s = s.event f) (on : s.part.enabled = true) (mem : q.mem = s.part.mem)
    (notices : q.regs.notice = s.part.regs.notice) (h : q.Keeps (f s.part))
    (after : post (Part.finish s.part (f s.part))) : Runs c s Part.kept q post :=
  Runs.kept meaning on (mem ▸ h.mem) (fun k hk => h.notices k (notices ▸ hk)) h.kept after

/-! ### What leaves the window, and the loader -/

theorem Part.reportRemoved_keeps (p : Part) (entries : List Entry) : p.Keeps (p.reportRemoved entries) := by
  unfold Part.reportRemoved
  apply Part.Keeps.foldl
  intro q e
  apply Part.Keeps.foldl
  intro r i
  exact r.modLane_keeps i _ fun l => l.entryRemoved_kept e.key

theorem Part.overtakeAll_keeps (p : Part) (cause : OvertakenCause) (gone : List Entry) :
    p.Keeps (p.overtakeAll cause gone) := by
  refine Part.Keeps.foldl _ (fun q g => ?_) _ p
  cases g with
  | nil => exact .refl q
  | cons e rest => exact (q.reportRemoved_keeps _).trans (Part.append_keeps _ _)

/-- The loader's work on a part: entries behind those of the window and a cursor, and what an append writes. -/
def Part.Loads (p q : Part) : Prop :=
  ∃ more cursor, Part.Keeps { p with seq := { p.seq with window := p.seq.window ++ more, cursor := cursor } } q

theorem Part.Keeps.loads {p q : Part} (h : p.Keeps q) : p.Loads q := ⟨[], p.seq.cursor, by rwa [List.append_nil]⟩

theorem Part.Loads.trans {p q r : Part} (h : p.Loads q) (k : q.Loads r) : p.Loads r := by
  obtain ⟨more, cursor, first⟩ := h
  obtain ⟨last, cursor', second⟩ := k
  refine ⟨more ++ last, cursor', ?_⟩
  obtain ⟨m1, n1, k1⟩ := first
  obtain ⟨m2, n2, k2⟩ := second
  refine ⟨m1.trans m2, fun k hk => n2 k (n1 k hk), k2.trans ?_⟩
  have seq := Part.kept_seq k1
  show { q.kept with seq := { q.seq with window := q.seq.window ++ last, cursor := cursor' } } = _
  rw [k1, seq, List.append_assoc]
  rfl

theorem Part.setCursor_loads (p : Part) (c : Cursor) : p.Loads (p.setCursor c) :=
  ⟨[], c, by rw [List.append_nil]; exact .refl _⟩

theorem Part.readCue_loads (p : Part) (pass : Half) (sect offset index left : Nat) (lost : Bool) :
    p.Loads (p.readCue pass sect offset index left lost) := by
  have skipped : ∀ c code id, p.Loads ((p.setCursor c).badCue code sect pass offset id) := fun c code id =>
    (p.setCursor_loads c).trans (Part.append_keeps _ _).loads
  unfold Part.readCue
  simp only
  split
  · exact skipped _ _ _
  · split
    · exact skipped _ _ _
    · split
      · exact skipped _ _ _
      · exact ⟨_, _, .refl _⟩

theorem Part.loadOne_loads {p q : Part} (h : p.loadOne = some q) : p.Loads q := by
  unfold Part.loadOne at h
  split at h
  · cases h
  · split at h
    · cases h; exact p.setCursor_loads _
    · split at h
      · cases h; exact p.readCue_loads ..
      · cases h

theorem Part.refillFor_loads (n : Nat) : ∀ p : Part, p.Loads (p.refillFor n) := by
  induction n with
  | zero => exact fun p => p.noteUse_keeps.loads
  | succ n ih =>
    intro p
    unfold Part.refillFor
    split
    · next q hq => exact (p.noteUse_keeps.loads.trans (Part.loadOne_loads hq)).trans (ih q)
    · exact p.noteUse_keeps.loads

/-- The refill puts entries behind the window's and moves the cursor, and nothing else but records and marks (R64). -/
theorem Part.refill_loads (p : Part) : p.Loads p.refill := Part.refillFor_loads _ p

theorem Part.Loads.seq {p q : Part} (h : p.Loads q) :
    ∃ more cursor, q.seq = { p.seq with window := p.seq.window ++ more, cursor := cursor } := by
  obtain ⟨more, cursor, keeps⟩ := h
  exact ⟨more, cursor, Part.kept_seq keeps.kept⟩

theorem Part.Loads.clock {p q : Part} (h : p.Loads q) : q.clock = p.clock := by
  obtain ⟨more, cursor, keeps⟩ := h
  exact (Part.kept_clock keeps.kept).trans rfl

theorem Part.Loads.notices {p q : Part} (h : p.Loads q) : p.noticesStay q := by
  obtain ⟨more, cursor, keeps⟩ := h
  exact keeps.notices

theorem Part.Loads.lane {p q : Part} (h : p.Loads q) (i : LaneIx) : (q.lane i).kept = (p.lane i).kept := by
  obtain ⟨more, cursor, keeps⟩ := h
  exact Part.kept_lane keeps.kept i

/-! ### A section entered (R72) -/

theorem Part.dropDeferral_eq (p : Part) (old : Option EntryKey) :
    ∃ d, p.dropDeferral old = { p with seq := { p.seq with deferAt := d } } := by
  unfold Part.dropDeferral
  split
  · exact ⟨p.seq.deferAt, rfl⟩
  · exact ⟨none, rfl⟩

theorem Part.reportClock_notice (p : Part) {left : ClockState} (cause : ClockCause) (h : p.clock.state ≠ left) :
    (p.reportClock left cause).regs.notice.getLsbD 3 = true := by
  rw [Part.reportClock, if_neg h]
  exact (Part.append_keeps (p.setNotice .clock) _).notices 3 (p.setNotice_bit .clock)

/-- The part at a section entry before its due times are taken anew: the clock of the section's kind, the pass left gone from the
window, the next pass begun. -/
structure Part.Entering (p q : Part) (b : EndBy) (s : Nat) : Prop where
  clock : q.clock = p.clock.enter b (p.seq.sectionAt s)
  state : q.seq.state = p.seq.state
  book : q.seq.book = p.seq.book
  current : q.seq.current = some s
  pass : q.seq.pass = p.seq.pass + 1
  lastFire : q.seq.lastFire = p.seq.lastFire
  window : ∃ more, q.seq.window = (p.seq.window.filter fun e => decide (e.key.pass ≠ p.seq.pass)) ++ more
  notice : q.regs.notice.getLsbD 4 = true

theorem Part.Entering.keeps {p q r : Part} {b : EndBy} {s : Nat} (h : p.Entering q b s) (k : q.Keeps r) : p.Entering r b s := by
  have seq := Part.kept_seq k.kept
  exact {
    clock := (Part.kept_clock k.kept).trans h.clock
    state := by rw [seq, h.state]
    book := by rw [seq, h.book]
    current := by rw [seq, h.current]
    pass := by rw [seq, h.pass]
    lastFire := by rw [seq, h.lastFire]
    window := by rw [seq]; exact h.window
    notice := k.notices 4 h.notice }

/-- A section entry ends with the due times taken anew on a part that has entered (R72, R56). -/
theorem Part.enterSection_enters (p : Part) (b : EndBy) (s : Nat) (left : ClockState) (own : ClockCause) :
    ∃ q, p.Entering q b s ∧ p.enterSection b s left own = q.recompute := by
  unfold Part.enterSection
  extract_lets how old from_ leaving p1 p2 p3 p4 pass s1 q1 q2 p5 p6
  refine ⟨_, ?_, rfl⟩
  have counted : p1.Keeps p2 := by
    simp only [p2]
    split
    · exact p1.reportCount_keeps _ _
    · exact .refl _
  have seq2 : p2.seq = p.seq := (Part.kept_seq counted.kept).trans rfl
  have clock2 : p2.clock = p1.clock := Part.kept_clock counted.kept
  have seq3 : p3.seq = { p.seq with window := old.filter fun e => decide (e.key.pass ≠ p.seq.pass) } := by
    have written : p3.seq = { p2.seq with window := old.filter fun e => decide (e.key.pass ≠ p2.seq.pass) } := rfl
    rw [written, seq2]
  have removed := p3.overtakeAll_keeps .sectionEntry leaving
  obtain ⟨d, dropped⟩ := (p3.overtakeAll .sectionEntry leaving).dropDeferral_eq (old.head?.map Entry.key)
  have eq4 : p4 = { p3.overtakeAll .sectionEntry leaving with
    seq := { (p3.overtakeAll .sectionEntry leaving).seq with deferAt := d } } := dropped
  have seq4 : p4.seq = { p.seq with window := old.filter fun e => decide (e.key.pass ≠ p.seq.pass), deferAt := d } := by
    rw [eq4]
    show { (p3.overtakeAll .sectionEntry leaving).seq with deferAt := d } = _
    rw [Part.kept_seq removed.kept, seq3]
  have clock4 : p4.clock = p1.clock := by
    rw [eq4]
    exact (Part.kept_clock removed.kept).trans clock2
  have loads := Part.refill_loads { p4 with seq := { q2 with cursor := q2.entryCursor s } }
  obtain ⟨more, cursor, seq5⟩ := loads.seq
  have entering : p.Entering p6 b s := by
    have noticed := (p5.setNotice_keeps .section_).trans (Part.append_keeps _ (sectionRecord how from_ s pass))
    have seq6 : p6.seq = p5.seq := Part.kept_seq noticed.kept
    have seq5' : p5.seq = _ := seq5
    have facts : p6.seq = { q2 with window := q2.window ++ more, cursor := cursor } := seq6.trans seq5'
    exact {
      clock := (Part.kept_clock noticed.kept).trans (loads.clock.trans clock4)
      state := by rw [facts]; exact (congrArg Sequencer.state seq4 :)
      book := by rw [facts]; exact (congrArg Sequencer.book seq4 :)
      current := by rw [facts]
      pass := by rw [facts]; exact (congrArg (fun x : Sequencer => x.pass + 1) seq4 :)
      lastFire := by rw [facts]; exact (congrArg Sequencer.lastFire seq4 :)
      window := ⟨more, by rw [facts]; exact (congrArg (fun x : Sequencer => x.window ++ more) seq4 :)⟩
      notice := (Part.append_keeps (p5.setNotice .section_) _).notices 4 (p5.setNotice_bit .section_) }
  exact entering.keeps (p6.reportClock_keeps _ _)

/-! ### The act ended (R74) -/

/-- The sequencer of an act that has ended at a section end. -/
def Sequencer.ended (q : Sequencer) : Sequencer :=
  { q with
    window := [], state := .ended, heldNext := none, vampExit := false, cursor := .finished, history := [], deferAt := none }

theorem Part.endAct_ends (p : Part) (b : EndBy) (left : ClockState) :
    (p.endAct b left).clock = p.clock.stopped ∧ (p.endAct b left).seq = p.seq.ended ∧
      (p.endAct b left).regs.notice.getLsbD 5 = true ∧
      (left ≠ .stopped → (p.endAct b left).regs.notice.getLsbD 3 = true) := by
  unfold Part.endAct
  extract_lets old p1 p2 p3 p4 p5 s1 p6
  have counted : p1.Keeps p2 := by
    simp only [p2]
    split
    · exact p1.reportCount_keeps _ _
    · exact .refl _
  have gone : p3.Keeps p5 := (p3.overtakeAll_keeps _ _).trans (Part.reportRemoved_keeps _ _)
  have seq2 : p2.seq = p.seq := Part.kept_seq (p := p1) counted.kept
  have seq5 : p5.seq = { p.seq with window := [] } :=
    (Part.kept_seq gone.kept).trans (congrArg (fun q : Sequencer => { q with window := [] }) seq2)
  have clock5 : p5.clock = p.clock.stopped := (Part.kept_clock gone.kept).trans (Part.kept_clock counted.kept)
  have seq6 : p6.seq = p.seq.ended := by
    have written : p6.seq = { p5.seq with
      state := .ended, heldNext := none, vampExit := false, cursor := .finished, history := [], deferAt := none } := rfl
    rw [written, seq5]
    rfl
  have clock6 : (p6.setNotice .end_).clock = p.clock.stopped := clock5
  have reported := (p6.setNotice .end_).reportClock_keeps left .section_
  refine ⟨(Part.kept_clock reported.kept).trans clock6, (Part.kept_seq reported.kept).trans seq6,
    reported.notices 5 (p6.setNotice_bit .end_), fun moved => ?_⟩
  exact Part.reportClock_notice _ _ (by rw [clock6]; exact moved.symm)

theorem Part.actEnded_of {p q : Part} (clock : q.clock = p.clock.stopped) (seq : q.seq = p.seq.ended)
    (end_ : q.regs.notice.getLsbD 5 = true) (moved : q.regs.notice.getLsbD 3 = true) : actEnded q := by
  unfold actEnded
  rw [clock, seq]
  exact ⟨rfl, rfl, rfl, rfl, rfl, rfl, rfl, rfl, rfl, rfl, rfl, rfl, rfl, moved, end_⟩

/-! ### A section end -/

theorem Sequencer.following_eq {q : Sequencer} {b : EndBy} (h : b.isForced = true ∨ q.entryRun ≠ 128) :
    q.following b = q.heldNext.getD .stop := by
  refine if_neg ?_
  rcases h with forced | run
  · simp [forced]
  · simp [Config.entryRunLimit, run]

theorem Part.endSection_next {p : Part} {b : EndBy} {s : Nat} (h : p.seq.following b = .next s) (left : ClockState)
    (own : ClockCause) : p.endSection b left own = p.enterSection b s left own := by
  rw [Part.endSection, h]

theorem Part.endSection_stop {p : Part} {b : EndBy} (h : p.seq.following b = .stop) (left : ClockState)
    (own : ClockCause) : p.endSection b left own = p.endAct b left := by
  rw [Part.endSection, h]

/-! ### The evaluation behind a section end -/

theorem Part.settle_halted {p : Part} (h : p.seq.state ≠ .running) : p.settle = p := p.settle_idle (.inl h)

theorem Part.settle_step (p : Part) (on : p.seq.state = .running) (going : p.seq.calledOver = false) {q : Part}
    (h : p.evaluate = .waits q) : p.settle = q := by
  show p.settleFor (2097151 + 1) = q
  rw [Part.settleFor, if_neg (by simp [on]), going, h]
  rfl

theorem Part.recompute_cons (p : Part) {e : Entry} {rest : List Entry} (h : p.seq.window = e :: rest) :
    p.recompute.seq.window = p.refreshEntry true e :: rest.map (p.refreshEntry false) := by
  rw [Part.recompute, h]

/-- The section entered, as the statements say it, through whatever stays. -/
theorem Part.Entering.entered {p q r t : Part} {b : EndBy} {s : Nat} (h : r.Entering q b s) (state : r.seq.state = p.seq.state)
    (pass : r.seq.pass = p.seq.pass) (stays : q.Stays t) (notices : q.noticesStay t) : entered p t s :=
  ⟨((Sequencer.state_of_place stays.place).trans h.state).trans state, (Sequencer.current_of_place stays.place).trans h.current,
    ((Sequencer.pass_of_place stays.place).trans h.pass).trans (by rw [pass]), notices 4 h.notice⟩

theorem Part.Entering.currentRec {p q : Part} {b : EndBy} {s : Nat} (h : p.Entering q b s) :
    q.seq.currentRec = p.seq.sectionAt s := by
  unfold Sequencer.currentRec Sequencer.sectionAt
  rw [h.book, h.current]
  rfl

/-- A section that is not CALLED stands through the evaluation behind its entry. -/
theorem Part.Entering.settle {p q : Part} {b : EndBy} {s : Nat} (h : p.Entering q b s)
    (kind : (p.seq.sectionAt s).kind ≠ .called) : q.Stays q.recompute.settle := by
  refine q.recompute_stays.trans (Part.settle_stays _ ?_)
  rw [Sequencer.currentRec_of_place q.recompute_stays.place, h.currentRec]
  exact kind

/-- A CALLED section whose first group is a GO cue's waits behind its entry. -/
theorem Part.Entering.settle_go {p q : Part} {b : EndBy} {s : Nat} (h : p.Entering q b s)
    (kind : (p.seq.sectionAt s).kind = .called) (go : p.seq.goNext) : q.Stays q.recompute.settle := by
  obtain ⟨e, rest, first, own, trigger⟩ := go
  obtain ⟨more, window⟩ := h.window
  rw [first, List.cons_append] at window
  have shown := q.recompute_cons window
  have untracked : q.clock.state = .untracked := by
    rw [h.clock]
    unfold Clock.enter
    rw [kind]
    rfl
  have due : (q.refreshEntry true e).due = none := by
    show q.dueOf true e = none
    unfold Part.dueOf
    rw [trigger]
    split <;> rfl
  refine q.recompute_stays.trans ?_
  by_cases on : q.recompute.seq.state = .running
  · have going : q.recompute.seq.calledOver = false := by
      have here : ¬ (q.recompute.seq.window.all fun e => decide (e.key.pass ≠ q.recompute.seq.pass)) = true := by
        rw [shown]
        intro all
        rw [List.all_cons, Bool.and_eq_true, decide_eq_true_eq] at all
        exact all.1 (own.trans h.pass.symm)
      simp only [Sequencer.calledOver, Bool.eq_false_iff.2 here, Bool.and_false, Bool.false_and]
    have verdict : q.recompute.evaluate = .waits (if (q.refreshEntry true e).state = .deferred then
        q.recompute.setHead .waiting none else q.recompute) := by
      have running : q.recompute.heldDeferral (q.refreshEntry true e) = false := by
        simp [Part.heldDeferral, untracked]
      unfold Part.evaluate
      rw [shown]
      exact if_pos ⟨by rw [running]; rfl, .inr (.inl due)⟩
    rw [Part.settle_step _ on going verdict]
    split
    · exact ⟨rfl, rfl⟩
    · exact .refl _
  · rw [Part.settle_halted on]
    exact .refl _

end Sys2Proof.Machine
end

/-! PROOFS. The clock unit's events (chapter 2): pulses, late detection, the section timer and HOLD. -/

section
namespace Sys2Proof.Machine

open Sys2Proof (LaneIx BeatInput Key Instr)

/-! ### What the clock's acts leave alone -/

theorem Part.setClock_stills (p : Part) {c : Clock} (h : c.still = p.clock.still) : p.Stills (p.setClock c) := p.clock_stills c h

theorem Part.advance_stills (p : Part) (t : Nat) (origin : CountOrigin) (left : ClockState) (own : ClockCause) :
    p.Stills (p.advance t origin left own) := by
  unfold Part.advance
  split
  · extract_lets c q
    have moved : p.Stills q := p.clock_stills { p.clock with c0 := p.clock.c0 + 1, t0 := t } rfl
    exact ((moved.trans (Part.reportCount_keeps _ _ _).stills).trans (Part.reportClock_keeps _ _ _).stills).trans
      (Part.recompute_stills _)
  · exact p.endSection_stills ..

theorem Part.standingCount_stills (p : Part) (origin : CountOrigin) (left : ClockState) :
    p.Stills (p.standingCount origin left) :=
  ((p.reportCount_keeps _ _).stills.trans (Part.reportClock_keeps _ _ _).stills).trans (Part.recompute_stills _)

theorem Clock.pulseLocking_still (c : Clock) (t : Nat) : (c.pulseLocking t).1.still = c.still := by
  unfold Clock.pulseLocking
  split <;> rfl

theorem Clock.pulseFollowing_still (c : Clock) (t : Nat) : (c.pulseFollowing t).1.still = c.still := by
  unfold Clock.pulseFollowing
  split
  · rfl
  · split <;> rfl

theorem Part.setClock_advance_stills (p : Part) {c : Clock} (h : c.still = p.clock.still) (t : Nat) (origin : CountOrigin)
    (left : ClockState) (own : ClockCause) : p.Stills ((p.setClock c).advance t origin left own) :=
  (p.setClock_stills h).trans (Part.advance_stills _ t origin left own)

theorem Part.setClock_standingCount_stills (p : Part) {c : Clock} (h : c.still = p.clock.still) (origin : CountOrigin)
    (left : ClockState) : p.Stills ((p.setClock c).standingCount origin left) :=
  (p.setClock_stills h).trans (Part.standingCount_stills _ origin left)

theorem Part.acceptPulse_stills (p : Part) (t : Nat) : p.Stills (p.acceptPulse t) := by
  unfold Part.acceptPulse
  extract_lets c
  cases c.state with
  | stopped => exact .refl p
  | untracked => exact .refl p
  | armed => exact p.setClock_standingCount_stills (by exact rfl) _ _
  | locking => exact p.setClock_advance_stills (c.pulseLocking_still t) _ _ _ _
  | following => exact p.setClock_advance_stills (c.pulseFollowing_still t) _ _ _ _
  | coasting =>
    dsimp only
    split
    · exact p.setClock_standingCount_stills (by exact rfl) _ _
    · exact p.setClock_advance_stills (by exact rfl) _ _ _ _
  | held => exact p.setClock_advance_stills (by exact rfl) _ _ _ _

/-- A count that does not end the section moves the count and its time alone (R30). -/
theorem Part.advance_stays {p : Part} (room : p.clock.c0 + 1 < p.seq.currentRec.length) (t : Nat) (origin : CountOrigin)
    (left : ClockState) (own : ClockCause) :
    (p.setClock { p.clock with c0 := p.clock.c0 + 1, t0 := t }).Stays (p.advance t origin left own) := by
  rw [Part.advance, if_pos room]
  exact ((Part.reportCount_stays _ _ _).trans (Part.reportClock_stays _ _ _)).trans (Part.recompute_stays _)

theorem Part.standingCount_stays (p : Part) (origin : CountOrigin) (left : ClockState) : p.Stays (p.standingCount origin left) :=
  ((p.reportCount_stays _ _).trans (Part.reportClock_stays _ _ _)).trans (Part.recompute_stays _)

/-- The count that would reach the section's length ends it (R30). -/
theorem Part.advance_last {p : Part} (full : p.clock.c0 + 1 = p.seq.currentRec.length) (t : Nat) (origin : CountOrigin)
    (left : ClockState) (own : ClockCause) : p.advance t origin left own = p.endSection (.count t origin) left own :=
  if_neg (by omega)

/-- The evaluation of a PULSED section, and the end of the event, move neither the clock nor the place. -/
theorem Part.settled_stays (before : Part) {p q : Part} (h : p.Stays q) (pulsed : p.seq.currentRec.kind = .pulsed) :
    p.Stays (Part.finish before q.settle) := by
  have kind : q.seq.currentRec.kind ≠ .called := by
    rw [Sequencer.currentRec_of_place h.place, pulsed]
    exact nofun
  exact (h.trans (q.settle_stays kind)).trans (Part.finish_stays before _)

theorem Part.Stays.samePlace {p q : Part} (h : p.Stays q) : samePlace p q :=
  ⟨Sequencer.state_of_place h.place, Sequencer.current_of_place h.place, Sequencer.pass_of_place h.place⟩

/-! ### The pulse through the filter (R24 to R26) -/

theorem selected_iff (mode : InputMode) (i : BeatInput) : selected mode i = true ↔ goesOn mode i := by
  unfold selected goesOn
  cases mode <;> cases i <;> simp

theorem Clock.bounce_iff (c : Clock) (t : Nat) : c.bounce t = true ↔ c.isBounce t := by
  unfold Clock.bounce Clock.isBounce
  cases c.lastPulse <;> simp

@[simp] theorem Clock.setFilter_lastPulse (c : Clock) (i : BeatInput) (f : BeatFilter) :
    (c.setFilter i f).lastPulse = c.lastPulse := by cases i <;> rfl

@[simp] theorem Clock.setFilter_profile (c : Clock) (i : BeatInput) (f : BeatFilter) :
    (c.setFilter i f).profile = c.profile := by cases i <;> rfl

@[simp] theorem Clock.setFilter_state (c : Clock) (i : BeatInput) (f : BeatFilter) :
    (c.setFilter i f).state = c.state := by cases i <;> rfl

@[simp] theorem Clock.setFilter_c0 (c : Clock) (i : BeatInput) (f : BeatFilter) :
    (c.setFilter i f).c0 = c.c0 := by cases i <;> rfl

@[simp] theorem Clock.setFilter_t0 (c : Clock) (i : BeatInput) (f : BeatFilter) :
    (c.setFilter i f).t0 = c.t0 := by cases i <;> rfl

@[simp] theorem Clock.setFilter_period (c : Clock) (i : BeatInput) (f : BeatFilter) :
    (c.setFilter i f).period = c.period := by cases i <;> rfl

@[simp] theorem Clock.setFilter_bounce (c : Clock) (i : BeatInput) (f : BeatFilter) (t : Nat) :
    (c.setFilter i f).bounce t = c.bounce t := by
  simp [Clock.bounce]

theorem exec_pulse (s : State) (i : BeatInput) : exec (.pulse i) s = s.event fun p => p.pulse i := rfl

/-- A confirmed pulse leaves the filter waiting and goes through input selection (R24, R25). -/
theorem State.pulseReady.act {s : State} {i : BeatInput} {t : Nat} (h : s.pulseReady i t) :
    s.part.pulse i =
      if selected s.part.clock.profile.inputMode i then
        (s.part.setClock (s.part.clock.setFilter i .waiting)).takePulse t
      else s.part.setClock (s.part.clock.setFilter i .waiting) := by
  obtain ⟨_, filter, come⟩ := h
  unfold Part.pulse
  rw [filter]
  simp only [if_pos (show t + Config.beatConfirm ≤ s.part.now from come), Clock.setFilter_profile]
  rfl

theorem State.pulseAccepted.act {s : State} {i : BeatInput} {t : Nat} (h : s.pulseAccepted i t) :
    s.part.pulse i = ((s.part.setClock (s.part.clock.setFilter i .waiting)).acceptPulse t).settle := by
  obtain ⟨ready, goes, single, _⟩ := h
  have real : s.part.clock.bounce t = false := by
    rw [← Bool.not_eq_true, Clock.bounce_iff]
    exact single
  rw [ready.act, if_pos ((selected_iff _ _).2 goes), Part.takePulse]
  simp [real]

/-- An accepted pulse, seen less what the evaluation may change. -/
theorem State.pulseAccepted.runs {s : State} {i : BeatInput} {t : Nat} (h : s.pulseAccepted i t) {post : Part → Prop}
    (after : post (Part.finish s.part ((s.part.setClock (s.part.clock.setFilter i .waiting)).acceptPulse t).settle)) :
    Runs (.pulse i) s Part.still (s.part.setClock (s.part.clock.setFilter i .waiting)) post := by
  refine Runs.of_stills (exec_pulse s i) h.1.1 rfl rfl ?_ ?_
  · rw [h.act]
    exact (Part.acceptPulse_stills _ t).trans (Part.settle_stills _)
  · rw [h.act]
    exact after

/-- Settles O18: a pulse without effect leaves the filter waiting, and the evaluation behind it has nothing to do. -/
theorem pulseDiscarded : Obligations.PulseDiscarded := by
  intro s i t ready discarded
  have act : s.part.pulse i = s.part.setClock (s.part.clock.setFilter i .waiting) := by
    rw [ready.act]
    split
    · next goes =>
      rcases discarded with stopped | bounce | ⟨idle, state⟩
      · exact absurd ((selected_iff _ _).1 goes) stopped
      · refine if_pos ?_
        show (s.part.clock.setFilter i .waiting).bounce t = true
        rw [Clock.setFilter_bounce]
        exact (Clock.bounce_iff _ _).2 bounce
      · unfold Part.takePulse
        split
        · rfl
        · have stands : (s.part.setClock (s.part.clock.setFilter i .waiting)).acceptPulse t =
              s.part.setClock (s.part.clock.setFilter i .waiting) := by
            unfold Part.acceptPulse
            rcases state with state | state <;> simp [Part.setClock, state]
          rw [stands]
          exact Part.settle_idle _ idle
    · rfl
  have quiet := Part.finish_quiet s.part (s.part.pulse i)
  refine Runs.of_keeps (exec_pulse s i) ready.1 (q := s.part.setClock (s.part.clock.setFilter i .waiting)) rfl rfl ?_ ⟨?_, ?_⟩
  · rw [act]; exact .refl _
  · rw [quiet.journal, act]; rfl
  · rw [quiet.notice, act]; rfl

/-! ### Pulses within a section (R33, R34, R36, R39, R40) -/

/-- A pulse that counts on, with the clock it leaves. -/
theorem State.pulseAccepted.counts {s : State} {i : BeatInput} {t : Nat} (h : s.pulseAccepted i t) {c : Clock}
    (stays : (s.part.setClock c).Stays ((s.part.setClock (s.part.clock.setFilter i .waiting)).acceptPulse t)) :
    Runs (.pulse i) s Part.still (s.part.setClock (s.part.clock.setFilter i .waiting)) fun q =>
      q.clock = c ∧ samePlace s.part q := by
  have settled := Part.settled_stays s.part stays h.2.2.2
  exact h.runs ⟨settled.clock, Sequencer.state_of_place settled.place, Sequencer.current_of_place settled.place,
    Sequencer.pass_of_place settled.place⟩

/-- Settles O19: the clock's pulse step by its state, which the evaluation leaves standing. -/
theorem pulseWithoutInterval : Obligations.PulseWithoutInterval := by
  intro s i t accepted c
  refine ⟨fun armed => accepted.counts ?_, fun held room => accepted.counts ?_, fun coasting => ?_⟩
  · have act : (s.part.setClock c).acceptPulse t =
        (s.part.setClock { c with t0 := t, state := .locking, run := 0, lastPulse := some t }).standingCount .pulse .armed := by
      unfold Part.acceptPulse
      simp [Part.setClock, c, armed]
    rw [act]
    exact Part.standingCount_stays _ _ _
  · have act : (s.part.setClock c).acceptPulse t =
        (s.part.setClock { c with state := .locking, run := 0, fh := 0, lastPulse := some t }).advance t .pulse .held .pulse := by
      unfold Part.acceptPulse
      simp [Part.setClock, c, held]
    rw [act]
    exact Part.advance_stays (p := s.part.setClock { c with state := .locking, run := 0, fh := 0, lastPulse := some t }) room _ _ _ _
  · intro retimes next
    refine accepted.counts ?_
    have act : (s.part.setClock c).acceptPulse t =
        if retimes then
          (s.part.setClock { c with t0 := t, state := .following, coast := 0, lastPulse := some t }).standingCount .retime .coasting
        else (s.part.setClock { c with state := .following, coast := 0, lastPulse := some t }).advance t .pulse .coasting .pulse := by
      unfold Part.acceptPulse
      simp [Part.setClock, c, coasting, retimes]
    rw [act]
    by_cases early : retimes
    · rw [if_pos early, if_pos early]
      exact Part.standingCount_stays _ _ _
    · rw [if_neg early, if_neg early]
      exact Part.advance_stays (p := s.part.setClock { c with state := .following, coast := 0, lastPulse := some t })
        (next.resolve_left early) _ _ _ _

theorem Clock.interval_last {c : Clock} {last : Nat} (h : c.lastPulse = some last) (t : Nat) :
    c.interval t = if c.profile.pulseMax * 1000 < t - last then .overlong
      else .measured (t - last) (deviates (t - last) c.period) := by
  rw [Clock.interval, h]
  rfl

/-- Settles O20: the interval against lock_in, lock_out and the over-long bound decides the clock's pulse step. -/
theorem pulseMeasuresInterval : Obligations.PulseMeasuresInterval := by
  intro s i t last accepted measured room c next run
  have interval := Clock.interval_last (c := c) (last := last) (by simp [c, measured]) t
  refine ⟨fun locking => accepted.counts ?_, fun following => accepted.counts ?_⟩
  · have act : (s.part.setClock c).acceptPulse t =
        (s.part.setClock (c.pulseLocking t).1).advance t .pulse .locking (c.pulseLocking t).2 := by
      unfold Part.acceptPulse
      simp [Part.setClock, c, locking]
    have shown : { (c.pulseLocking t).1 with c0 := (c.pulseLocking t).1.c0 + 1, t0 := t } =
        if c.profile.pulseMax * 1000 < t - last then { next with run := 0 }
        else { next with run := run, period := t - last, state := if c.profile.lockRun ≤ run then .following else .locking } := by
      unfold Clock.pulseLocking
      rw [interval]
      by_cases long : c.profile.pulseMax * 1000 < t - last
      · rw [if_pos long, if_pos long]
      · rw [if_neg long, if_neg long]
    have count : (c.pulseLocking t).1.c0 = s.part.clock.c0 := by
      unfold Clock.pulseLocking
      split <;> simp [c]
    have stays := Part.advance_stays (p := s.part.setClock (c.pulseLocking t).1) (by
      show (c.pulseLocking t).1.c0 + 1 < _
      rw [count]
      exact room) t .pulse .locking (c.pulseLocking t).2
    rw [act, ← shown]
    exact stays
  · have act : (s.part.setClock c).acceptPulse t =
        (s.part.setClock (c.pulseFollowing t).1).advance t .pulse .following (c.pulseFollowing t).2 := by
      unfold Part.acceptPulse
      simp [Part.setClock, c, following]
    have shown : { (c.pulseFollowing t).1 with c0 := (c.pulseFollowing t).1.c0 + 1, t0 := t } =
        if c.profile.pulseMax * 1000 < t - last then { next with state := .locking, run := 0 }
        else if c.profile.lockOut < deviates (t - last) c.period then
          { next with state := .locking, run := 0, period := t - last }
        else { next with period := (c.profile.wt * (t - last) + (65536 - c.profile.wt) * c.period + 32768) / 65536 } := by
      unfold Clock.pulseFollowing
      rw [interval]
      by_cases long : c.profile.pulseMax * 1000 < t - last
      · rw [if_pos long, if_pos long]
      · rw [if_neg long, if_neg long]
        by_cases far : c.profile.lockOut < deviates (t - last) c.period
        · rw [if_pos far]
          simp only [if_pos far]
          rfl
        · rw [if_neg far]
          simp only [if_neg far]
          rfl
    have count : (c.pulseFollowing t).1.c0 = s.part.clock.c0 := by
      unfold Clock.pulseFollowing
      split
      · simp [c]
      · split <;> simp [c]
    have stays := Part.advance_stays (p := s.part.setClock (c.pulseFollowing t).1) (by
      show (c.pulseFollowing t).1.c0 + 1 < _
      rw [count]
      exact room) t .pulse .following (c.pulseFollowing t).2
    rw [act, ← shown]
    exact stays

end Sys2Proof.Machine
end

/-! PROOFS. Section ends taken by a pulse, by late detection and by the section timer (R30, R37, R42, R72, R74), and HOLD (R41). -/

section
namespace Sys2Proof.Machine

open Sys2Proof (LaneIx BeatInput Key Instr)

/-! ### A section end and the evaluation behind it -/

/-- What follows the section can be entered without its entry firing: a section that is not CALLED, or one that waits for GO. -/
def Sequencer.entersQuietly (q : Sequencer) (next : Nat) : Prop :=
  (q.sectionAt next).kind ≠ .called ∨ ((q.sectionAt next).kind = .called ∧ q.goNext)

/-- A section end that enters a section leaves the clock of that section's kind, in the next pass (R72). -/
theorem Part.sectionEnd_enters (before : Part) {p : Part} {b : EndBy} {next : Nat} (run : b.isForced = true ∨ p.seq.entryRun ≠ 128)
    (held : p.seq.heldNext = some (.next next)) (quiet : p.seq.entersQuietly next) (left : ClockState) (own : ClockCause) :
    (Part.finish before (p.endSection b left own).settle).clock = p.clock.enter b (p.seq.sectionAt next) ∧
      entered p (Part.finish before (p.endSection b left own).settle) next := by
  have follows : p.seq.following b = .next next := by
    rw [Sequencer.following_eq run, held]
    rfl
  obtain ⟨q, entering, shown⟩ := p.enterSection_enters b next left own
  rw [Part.endSection_next follows, shown]
  have stays : q.Stays (Part.finish before q.recompute.settle) :=
    (quiet.elim entering.settle fun h => entering.settle_go h.1 h.2).trans (Part.finish_stays before _)
  have notices : q.noticesStay (Part.finish before q.recompute.settle) :=
    ((q.recompute_stills.trans (Part.settle_stills _)).trans (Part.finish_keeps before _).stills).notices
  exact ⟨stays.clock.trans entering.clock, entering.entered rfl rfl stays notices⟩

/-- A section end that finds STOP ends the act, with P and the profile as they were (R74). -/
theorem Part.sectionEnd_stops (before : Part) {p : Part} {b : EndBy} (run : b.isForced = true ∨ p.seq.entryRun ≠ 128)
    (held : p.seq.heldNext = some .stop) {left : ClockState} (moved : left ≠ .stopped) (own : ClockCause) :
    actEnded (Part.finish before (p.endSection b left own).settle) ∧
      (Part.finish before (p.endSection b left own).settle).clock = p.clock.stopped := by
  have follows : p.seq.following b = .stop := by
    rw [Sequencer.following_eq run, held]
    rfl
  obtain ⟨clock, seq, end_, clocked⟩ := p.endAct_ends b left
  have halted : (p.endAct b left).seq.state ≠ .running := by
    rw [seq]
    exact nofun
  rw [Part.endSection_stop follows, Part.settle_halted halted]
  have ends := Part.finish_keeps before (p.endAct b left)
  have clock' := (Part.kept_clock ends.kept).trans clock
  exact ⟨Part.actEnded_of clock' ((Part.kept_seq ends.kept).trans seq) (ends.notices 5 end_)
    (ends.notices 3 (clocked moved)), clock'⟩

theorem Clock.enter_untracked (c : Clock) (b : EndBy) {sec : SectionRec} (h : sec.kind = .timed ∨ sec.kind = .called) :
    c.enter b sec = c.untracked (b.time c.showTime) := by
  unfold Clock.enter
  rcases h with h | h <;> rw [h]

theorem Clock.enter_pulsed (c : Clock) (t : Nat) (o : CountOrigin) {sec : SectionRec} (h : sec.kind = .pulsed) :
    c.enter (.count t o) sec = { c with c0 := 0, t0 := t } := by
  unfold Clock.enter
  rw [h]

theorem Sequencer.entersQuietly_pulsed {q : Sequencer} {next : Nat} (h : (q.sectionAt next).kind = .pulsed) :
    q.entersQuietly next := by
  left
  rw [h]
  exact nofun

theorem Sequencer.entersQuietly_untracked {q : Sequencer} {next : Nat}
    (h : (q.sectionAt next).kind = .timed ∨ ((q.sectionAt next).kind = .called ∧ q.goNext)) : q.entersQuietly next := by
  refine h.imp_left fun timed => ?_
  rw [timed]
  exact nofun

/-! ### The last pulse of a section -/

theorem Part.acceptPulse_locking {p : Part} (h : p.clock.state = .locking) (t : Nat) :
    p.acceptPulse t = (p.setClock (p.clock.pulseLocking t).1).advance t .pulse .locking (p.clock.pulseLocking t).2 := by
  simp [Part.acceptPulse, h]

theorem Part.acceptPulse_following {p : Part} (h : p.clock.state = .following) (t : Nat) :
    p.acceptPulse t = (p.setClock (p.clock.pulseFollowing t).1).advance t .pulse .following (p.clock.pulseFollowing t).2 := by
  simp [Part.acceptPulse, h]

theorem Part.acceptPulse_held {p : Part} (h : p.clock.state = .held) (t : Nat) :
    p.acceptPulse t =
      (p.setClock { p.clock with state := .locking, run := 0, fh := 0, lastPulse := some t }).advance t .pulse .held .pulse := by
  simp [Part.acceptPulse, h]

theorem Part.acceptPulse_coasting {p : Part} (h : p.clock.state = .coasting) {t : Nat}
    (far : ((p.clock.period / 2 : Nat) : Int) ≤ (t : Int) - (p.clock.t0 : Int)) :
    p.acceptPulse t =
      (p.setClock { p.clock with state := .following, coast := 0, lastPulse := some t }).advance t .pulse .coasting .pulse := by
  have late : ¬ (t : Int) - (p.clock.t0 : Int) < ((p.clock.period / 2 : Nat) : Int) := by omega
  simp only [Part.acceptPulse, h, if_neg late]

theorem Clock.pulseLocking_pulse (c : Clock) (t : Nat) :
    (c.pulseLocking t).1.lastPulse = some t ∧ (c.pulseLocking t).1.c0 = c.c0 := by
  unfold Clock.pulseLocking
  split <;> exact ⟨rfl, rfl⟩

theorem Clock.pulseFollowing_pulse (c : Clock) (t : Nat) :
    (c.pulseFollowing t).1.lastPulse = some t ∧ (c.pulseFollowing t).1.c0 = c.c0 := by
  unfold Clock.pulseFollowing
  split
  · exact ⟨rfl, rfl⟩
  · split <;> exact ⟨rfl, rfl⟩

/-- The last count of a section, with the other effects of its event already on the clock. -/
theorem Part.setClock_advance_last {p : Part} (full : p.clock.c0 + 1 = p.seq.currentRec.length) {c : Clock} (same : c.c0 = p.clock.c0)
    (t : Nat) (origin : CountOrigin) (left : ClockState) (own : ClockCause) :
    (p.setClock c).advance t origin left own = (p.setClock c).endSection (.count t origin) left own :=
  Part.advance_last (show c.c0 + 1 = _ by rw [same]; exact full) ..

/-- The pulse that would reach the section's length ends the section, with the pulse as the last real one (R30). -/
theorem Part.acceptPulse_last {p : Part} {t : Nat} (full : p.clock.c0 + 1 = p.seq.currentRec.length)
    (beat : p.clock.state = .locking ∨ p.clock.state = .following ∨ p.clock.state = .held ∨
      (p.clock.state = .coasting ∧ ((p.clock.period / 2 : Nat) : Int) ≤ (t : Int) - (p.clock.t0 : Int))) :
    ∃ c left own, c.lastPulse = some t ∧ left ≠ .stopped ∧
      p.acceptPulse t = (p.setClock c).endSection (.count t .pulse) left own := by
  rcases beat with beat | beat | beat | ⟨beat, far⟩
  · obtain ⟨last, same⟩ := p.clock.pulseLocking_pulse t
    exact ⟨_, .locking, _, last, nofun, (Part.acceptPulse_locking beat t).trans (Part.setClock_advance_last full same ..)⟩
  · obtain ⟨last, same⟩ := p.clock.pulseFollowing_pulse t
    exact ⟨_, .following, _, last, nofun, (Part.acceptPulse_following beat t).trans (Part.setClock_advance_last full same ..)⟩
  · exact ⟨_, .held, _, by rfl, nofun, (Part.acceptPulse_held beat t).trans (Part.setClock_advance_last full (by rfl) ..)⟩
  · exact ⟨_, .coasting, _, by rfl, nofun, (Part.acceptPulse_coasting beat far).trans (Part.setClock_advance_last full (by rfl) ..)⟩

/-- Settles O21: the section end under the pulse, by the kind of the section that follows. -/
theorem pulseEndsSection : Obligations.PulseEndsSection := by
  intro s i t accepted c beat full run ends
  obtain ⟨c', left, own, last, moved, act⟩ := Part.acceptPulse_last (p := s.part.setClock (c.setFilter i .waiting)) (t := t)
    (by show (c.setFilter i .waiting).c0 + 1 = _; rw [Clock.setFilter_c0]; exact full)
    (by
      show (c.setFilter i .waiting).state = _ ∨ _
      simp only [Part.setClock, Clock.setFilter_state, Clock.setFilter_period, Clock.setFilter_t0]
      exact beat)
  have enters : ∀ {next}, s.part.seq.heldNext = some (.next next) → s.part.seq.entersQuietly next → ∀ {post : Part → Prop},
      (∀ q : Part, q.clock = c'.enter (.count t .pulse) (s.part.seq.sectionAt next) → entered s.part q next → post q) →
      ends post := fun {next} held quiet post meets => by
    refine accepted.runs ?_
    rw [act]
    obtain ⟨clock, entered⟩ := Part.sectionEnd_enters s.part (p := s.part.setClock c') (b := .count t .pulse) (.inr run) held quiet
      left own
    exact meets _ clock entered
  refine ⟨fun next held => ⟨fun pulsed => ?_, fun waits => ?_⟩, fun stop => ?_⟩
  · refine enters held (Sequencer.entersQuietly_pulsed pulsed) fun q clock entered => ?_
    rw [clock, Clock.enter_pulsed _ _ _ pulsed]
    exact ⟨rfl, rfl, last, entered⟩
  · refine enters held (Sequencer.entersQuietly_untracked waits) fun q clock entered => ?_
    rw [clock, Clock.enter_untracked _ _ (waits.imp_right And.left)]
    exact ⟨⟨rfl, rfl, rfl, rfl, rfl, rfl, rfl⟩, entered⟩
  · refine accepted.runs ?_
    rw [act]
    exact (Part.sectionEnd_stops s.part (p := s.part.setClock c') (.inr run) stop moved own).1

/-! ### Late detection (R37) -/

theorem exec_lateDetection (s : State) : exec .lateDetection s = s.event Part.lateDetection := rfl

theorem Clock.late_iff (c : Clock) (t : Nat) (now : t = c.showTime)
    (follows : c.state = .locking ∨ c.state = .following ∨ c.state = .coasting) :
    (c.lateAt.any fun u => decide (u ≤ t)) = true ↔
      c.t0 + c.period * (1000 + c.profile.lateMargin) / 1000 < c.showTime := by
  subst now
  exact Clock.lateAt_come_iff follows

theorem Clock.coasts_iff (c : Clock) :
    c.coasts = true ↔ (c.state = .following ∨ c.state = .coasting) ∧ c.coast < c.profile.coastLimit := by
  unfold Clock.coasts
  cases c.state <;> simp

/-- Late detection that synthesizes a count. -/
theorem Part.lateDetection_synthesizes {p : Part} (due : (p.clock.lateAt.any fun t => decide (t ≤ p.now)) = true)
    (coasts : p.clock.coasts = true) :
    p.lateDetection = ((p.setClock { p.clock with state := .coasting, coast := p.clock.coast + 1 }).advance
      (p.clock.t0 + p.clock.period) .synth p.clock.state .late).settle := by
  simp only [Part.lateDetection, if_pos due, if_pos coasts]

/-- Late detection that holds. -/
theorem Part.lateDetection_holds {p : Part} (due : (p.clock.lateAt.any fun t => decide (t ≤ p.now)) = true)
    (stands : p.clock.coasts = false) :
    p.lateDetection = (((p.setClock (p.clock.hold 63)).reportClock p.clock.state .late).recompute).dropAbsent.settle := by
  simp only [Part.lateDetection, if_pos due, stands]
  rfl

/-- An expiry of late detection that synthesizes a count, seen less what the evaluation may change. -/
theorem Part.lateDetection_stills (p : Part) : p.Stills p.lateDetection := by
  unfold Part.lateDetection
  dsimp only
  split
  · split
    · exact (p.setClock_advance_stills (by exact rfl) _ _ _ _).trans (Part.settle_stills _)
    · have held := p.setClock_stills (c := p.clock.hold 63) rfl
      exact (((held.trans (Part.reportClock_keeps _ _ _).stills).trans (Part.recompute_stills _)).trans
        (Part.dropAbsent_stills _)).trans (Part.settle_stills _)
  · exact .refl p

theorem Part.dropAbsent_stays (p : Part) : p.Stays p.dropAbsent := by
  unfold Part.dropAbsent
  split
  · exact ⟨rfl, rfl⟩
  · exact .refl p

/-- A clock held before an AT entry's position leaves the entry without a due time (R51). -/
theorem Part.dueOf_held {p : Part} {e : Entry} (held : p.clock.state = .held) (at_ : e.cue.trigger = .atPos)
    (own : e.key.pass = p.seq.pass) (pulsed : (p.seq.sectionAt e.key.sect).kind = .pulsed)
    (beyond : p.clock.c0 * 64 + p.clock.fh < e.cue.when_) (head : Bool) : p.dueOf head e = none := by
  have position : p.seq.effective e = some e.cue.when_ := by
    simp [Sequencer.effective, Sequencer.isCurrent, at_, own, pulsed]
  have undue : p.clock.dueAt e e.cue.when_ = none := by
    simp only [Clock.dueAt, held]
    exact if_neg (by omega)
  unfold Part.dueOf
  split
  · rfl
  · simp only [at_, pulsed, position, Option.bind_some, undue]

/-- A DEFERRED head group left without a due time stands WAITING with no deferral, through the evaluation (R55; log entry 31). -/
theorem Part.settle_dropAbsent {p : Part} {e : Entry} {rest : List Entry} (window : p.seq.window = e :: rest)
    (deferred : e.state = .deferred) (undue : e.due = none) (pulsed : p.seq.currentRec.kind = .pulsed) :
    p.dropAbsent.settle = p.setHead .waiting none := by
  have dropped : p.dropAbsent = p.setHead .waiting none := by
    rw [Part.dropAbsent, window]
    exact if_pos (by simp [deferred, undue])
  rw [dropped]
  by_cases on : p.seq.state = .running
  · refine (p.setHead .waiting none).settle_step on ?_ ?_
    · have kind : (p.setHead .waiting none).seq.currentRec.kind = .pulsed := pulsed
      simp [Sequencer.calledOver, kind]
    · have shown : ∃ more, (p.setHead .waiting none).seq.window = { e with state := .waiting } :: more := by
        simp [Part.setHead, window, headGroup]
      obtain ⟨more, shown⟩ := shown
      rw [Part.evaluate, shown]
      simp [Part.heldDeferral, undue]
  · exact Part.settle_halted on

/-- Late detection in HELD: a DEFERRED head group beyond the hold stands WAITING, its deferral gone, and nothing fires. -/
theorem Part.lateHold_waits {p : Part} (pulsed : p.seq.currentRec.kind = .pulsed) {e : Entry} {rest : List Entry}
    (window : p.seq.window = e :: rest) (deferred : e.state = .deferred) (at_ : e.cue.trigger = .atPos)
    (own : e.key.pass = p.seq.pass) (kind : (p.seq.sectionAt e.key.sect).kind = .pulsed)
    (beyond : p.clock.c0 * 64 + 63 < e.cue.when_) :
    let q := (((p.setClock (p.clock.hold 63)).reportClock p.clock.state .late).recompute).dropAbsent.settle
    q.seq.window.head?.map Entry.state = some .waiting ∧ q.seq.deferAt = none ∧ q.seq.lastFire = p.seq.lastFire := by
  have reported := (p.setClock (p.clock.hold 63)).reportClock_keeps p.clock.state .late
  generalize (p.setClock (p.clock.hold 63)).reportClock p.clock.state .late = r at reported
  have seq : r.seq = p.seq := (Part.kept_seq reported.kept).trans rfl
  have clock : r.clock = p.clock.hold 63 := (Part.kept_clock reported.kept).trans rfl
  have shown := r.recompute_cons (seq ▸ window)
  have undue : (r.refreshEntry true e).due = none :=
    Part.dueOf_held (by rw [clock]; rfl) at_ (by rw [seq]; exact own) (by rw [seq]; exact kind) (by rw [clock]; exact beyond) true
  intro q
  have settled : q = r.recompute.setHead .waiting none :=
    Part.settle_dropAbsent shown deferred undue (by
      rw [Sequencer.currentRec_of_place r.recompute_stays.place, seq]
      exact pulsed)
  rw [settled]
  refine ⟨?_, rfl, (congrArg Sequencer.lastFire seq :)⟩
  simp [Part.setHead, shown, headGroup]

/-- Settles O23: the late expiry by the clock's state and coast count; a hold leaves the head group without a due time. -/
theorem lateDetectionActs : Obligations.LateDetectionActs := by
  intro s on pulsed c due coasts
  have runs : ∀ {post : Part → Prop}, post (Part.finish s.part s.part.lateDetection) →
      Runs .lateDetection s Part.still s.part post :=
    fun after => Runs.of_stills (exec_lateDetection s) on rfl rfl s.part.lateDetection_stills after
  have dueIff : c.state = .locking ∨ c.state = .following ∨ c.state = .coasting →
      ((c.lateAt.any fun t => decide (t ≤ s.part.now)) = true ↔ due) := fun follows => c.late_iff _ rfl follows
  have synthesizes : due → coasts → s.part.lateDetection =
      ((s.part.setClock { c with state := .coasting, coast := c.coast + 1 }).advance
        (c.t0 + c.period) .synth c.state .late).settle := fun come below =>
    Part.lateDetection_synthesizes ((dueIff (.inr below.1)).2 come) (c.coasts_iff.2 below)
  refine ⟨fun come below room => runs ?_, fun come below full run => ?_, fun come holds => runs ?_, fun not => ?_⟩
  · rw [synthesizes come below]
    have stays := Part.advance_stays (p := s.part.setClock { c with state := .coasting, coast := c.coast + 1 }) room
      (c.t0 + c.period) .synth c.state .late
    have settled := Part.settled_stays s.part stays pulsed
    exact ⟨settled.clock, Sequencer.state_of_place settled.place, Sequencer.current_of_place settled.place,
      Sequencer.pass_of_place settled.place⟩
  · intro ends
    have act : s.part.lateDetection =
        ((s.part.setClock { c with state := .coasting, coast := c.coast + 1 }).endSection
          (.count (c.t0 + c.period) .synth) c.state .late).settle := by
      rw [synthesizes come below, Part.setClock_advance_last full (by exact rfl)]
    have enters : ∀ {next}, s.part.seq.heldNext = some (.next next) → s.part.seq.entersQuietly next → ∀ {post : Part → Prop},
        (∀ q : Part, q.clock = { c with state := .coasting, coast := c.coast + 1 : Clock }.enter (.count (c.t0 + c.period) .synth)
          (s.part.seq.sectionAt next) → entered s.part q next → post q) → ends post := fun {next} held quiet post meets => by
      refine runs ?_
      rw [act]
      obtain ⟨clock, entered⟩ := Part.sectionEnd_enters s.part
        (p := s.part.setClock { c with state := .coasting, coast := c.coast + 1 })
        (b := .count (c.t0 + c.period) .synth) (.inr run) held quiet c.state .late
      exact meets _ clock entered
    refine ⟨fun next held => ⟨fun pulsed => ?_, fun waits => ?_⟩, fun stop => runs ?_⟩
    · refine enters held (Sequencer.entersQuietly_pulsed pulsed) fun q clock entered => ?_
      rw [clock, Clock.enter_pulsed _ _ _ pulsed]
      exact ⟨rfl, entered⟩
    · refine enters held (Sequencer.entersQuietly_untracked waits) fun q clock entered => ?_
      rw [clock, Clock.enter_untracked _ _ (waits.imp_right And.left)]
      exact ⟨⟨rfl, rfl, rfl, rfl, rfl, rfl, rfl⟩, entered⟩
    · rw [act]
      refine (Part.sectionEnd_stops s.part (p := s.part.setClock { c with state := .coasting, coast := c.coast + 1 })
        (.inr run) stop ?_ .late).1
      rcases below.1 with h | h <;> rw [h] <;> exact nofun
  · have follows : c.state = .locking ∨ c.state = .following ∨ c.state = .coasting := holds.imp_right And.left
    have stands : c.coasts = false := by
      rw [← Bool.not_eq_true, Clock.coasts_iff]
      rintro ⟨state, below⟩
      rcases holds with locking | ⟨_, limit⟩
      · rw [locking] at state
        exact state.elim nofun nofun
      · omega
    have act := Part.lateDetection_holds ((dueIff follows).2 come) stands
    have reported := (s.part.setClock (c.hold 63)).reportClock_keeps c.state .late
    have noticed : ((s.part.setClock (c.hold 63)).reportClock c.state .late).regs.notice.getLsbD 3 = true := by
      refine Part.reportClock_notice _ _ ?_
      show ClockState.held ≠ c.state
      rcases follows with h | h | h <;> rw [h] <;> exact nofun
    have stills := ((Part.recompute_stills ((s.part.setClock (c.hold 63)).reportClock c.state .late)).trans
      (Part.dropAbsent_stills _)).trans (Part.settle_stills _)
    have stays := Part.settled_stays s.part
      (((reported.stays.trans (Part.recompute_stays _))).trans (Part.dropAbsent_stays _)) pulsed
    have ends := Part.finish_keeps s.part s.part.lateDetection
    have seq := Part.kept_seq ends.kept
    refine ⟨?_, ?_, ?_, fun e rest window deferred at_ own kind beyond => ?_⟩
    · rw [act]; exact stays.clock
    · rw [act]
      exact ⟨Sequencer.state_of_place stays.place, Sequencer.current_of_place stays.place, Sequencer.pass_of_place stays.place⟩
    · refine ends.notices 3 ?_
      rw [act]
      exact stills.notices 3 noticed
    · rw [seq, act]
      exact Part.lateHold_waits pulsed window deferred at_ own kind beyond
  · have idle : s.part.lateDetection = s.part := by
      unfold Part.lateDetection
      refine if_neg fun come => not ?_
      by_cases follows : c.state = .locking ∨ c.state = .following ∨ c.state = .coasting
      · exact (dueIff follows).1 come
      · rw [Clock.lateAt_eq_none follows] at come
        cases come
    refine Runs.of_keeps (exec_lateDetection s) on rfl rfl ?_ trivial
    rw [idle]
    exact .refl _

/-! ### The section timer (R42) -/

theorem exec_sectionTimer (s : State) : exec .sectionTimer s = s.event Part.sectionTimer := rfl

/-- The section timer, once it has come. -/
theorem Part.sectionTimer_ends {p : Part} {sect : Nat} (untracked : p.clock.state = .untracked) (current : p.seq.current = some sect)
    (timed : p.seq.currentRec.kind = .timed)
    (come : p.clock.start + (p.seq.currentRec.length * 10000 : Nat) ≤ (p.now : Int)) :
    p.sectionTimer =
      (p.endSection (.timer (p.clock.start + (p.seq.currentRec.length * 10000 : Nat))) .untracked .section_).settle := by
  have due : p.sectionTimerAt = some (p.clock.start + (p.seq.currentRec.length * 10000 : Nat)) := by
    simp [Part.sectionTimerAt, untracked, current, timed]
  unfold Part.sectionTimer
  rw [due]
  simp only [if_pos come, untracked]

/-- Settles O24: the section end under the timer, by the kind of the section that follows. -/
theorem sectionTimerEnds : Obligations.SectionTimerEnds := by
  intro s sect on untracked current timed come run c ends
  have act := Part.sectionTimer_ends untracked current timed come
  have runs : ∀ {post : Part → Prop}, post (Part.finish s.part s.part.sectionTimer) → ends post := fun after => by
    refine Runs.of_stills (exec_sectionTimer s) on rfl rfl ?_ after
    rw [act]
    exact (Part.endSection_stills ..).trans (Part.settle_stills _)
  have enters : ∀ {next}, s.part.seq.heldNext = some (.next next) → s.part.seq.entersQuietly next → ∀ {post : Part → Prop},
      (∀ q : Part, q.clock = c.enter (.timer (c.start + (s.part.seq.currentRec.length * 10000 : Nat)))
        (s.part.seq.sectionAt next) → entered s.part q next → post q) → ends post := fun {next} held quiet post meets => by
    refine runs ?_
    rw [act]
    obtain ⟨clock, entered⟩ := Part.sectionEnd_enters s.part (p := s.part)
      (b := .timer (c.start + (s.part.seq.currentRec.length * 10000 : Nat))) (.inr run) held quiet .untracked .section_
    exact meets _ clock entered
  refine ⟨fun next held => ⟨fun waits => ?_, fun pulsed => ?_⟩, fun stop => runs ?_⟩
  · refine enters held (Sequencer.entersQuietly_untracked waits) fun q clock entered => ?_
    rw [clock, Clock.enter_untracked _ _ (waits.imp_right And.left)]
    exact ⟨rfl, entered⟩
  · refine enters held (Sequencer.entersQuietly_pulsed pulsed) fun q clock entered => ?_
    have armed : q.clock = c.armed (s.part.seq.sectionAt next).hint 0 := by
      rw [clock]
      unfold Clock.enter
      rw [pulsed]
    rw [armed]
    exact ⟨rfl, rfl, rfl, rfl, rfl, entered⟩
  · rw [act]
    obtain ⟨ended, clock⟩ := Part.sectionEnd_stops s.part (p := s.part)
      (b := .timer (c.start + (s.part.seq.currentRec.length * 10000 : Nat))) (.inr run) stop (left := .untracked) nofun .section_
    exact ⟨ended, (congrArg Clock.period clock :)⟩

end Sys2Proof.Machine
end

/-! PROOFS. The keys (chapter 7): a press and its KEY record (R140, R141), HOLD (R41, R146), and the window's head through a
recomputation (R56). -/

section
namespace Sys2Proof.Machine

open Sys2Proof (LaneIx BeatInput Key Instr)

/-! ### The head group through a recomputation -/

theorem takeWhile_isWith_map (f : Entry → Entry) (same : ∀ e, (f e).cue = e.cue) (w : List Entry) :
    (w.map f).takeWhile Entry.isWith = (w.takeWhile Entry.isWith).map f := by
  rw [List.takeWhile_map]
  congr 2
  funext e
  simp [Entry.isWith, same]

theorem dropWhile_isWith_map (f : Entry → Entry) (same : ∀ e, (f e).cue = e.cue) (w : List Entry) :
    (w.map f).dropWhile Entry.isWith = (w.dropWhile Entry.isWith).map f := by
  rw [List.dropWhile_map]
  congr 2
  funext e
  simp [Entry.isWith, same]

theorem map_cue_map (f : Entry → Entry) (same : ∀ e, (f e).cue = e.cue) (w : List Entry) :
    (w.map f).map Entry.cue = w.map Entry.cue := by
  rw [List.map_map]
  exact List.map_congr_left fun e _ => same e

/-- A recomputation leaves the cues of the head group (R56). -/
theorem Part.recompute_headCues (p : Part) :
    (headGroup p.recompute.seq.window).map Entry.cue = (headGroup p.seq.window).map Entry.cue := by
  cases window : p.seq.window with
  | nil => simp [Part.recompute, window, headGroup]
  | cons e rest =>
    rw [p.recompute_cons window]
    simp only [headGroup, List.map_cons, takeWhile_isWith_map (p.refreshEntry false) (fun _ => rfl)]
    rw [map_cue_map (p.refreshEntry false) (fun _ => rfl)]
    rfl

theorem Part.recompute_afterHead (p : Part) :
    afterHead p.recompute.seq.window = (afterHead p.seq.window).map (p.refreshEntry false) := by
  cases window : p.seq.window with
  | nil => simp [Part.recompute, window, afterHead]
  | cons e rest =>
    rw [p.recompute_cons window]
    exact dropWhile_isWith_map (p.refreshEntry false) (fun _ => rfl) rest

/-- The earliest time of a group depends on its cues and on the lanes' shadows and flags alone (R69). -/
theorem Part.earliestOf_congr {p q : Part} (lanes : ∀ i, (q.lane i).earliest = (p.lane i).earliest) {g h : List Entry}
    (cues : g.map Entry.cue = h.map Entry.cue) : q.earliestOf g = p.earliestOf h := by
  have byCue : ∀ (r : Part) (k : List Entry), r.earliestOf k = (k.map Entry.cue).foldl
      (fun m c => if c.priority then m else (lanesOf c.mask).foldl (fun m i => max m (r.lane i).earliest) m) 0 := fun r k => by
    rw [List.foldl_map]
    rfl
  rw [byCue, byCue, cues]
  simp only [lanes]

theorem Lane.earliest_of_kept {l m : Lane} (h : m.kept = l.kept) : m.earliest = l.earliest := by
  have earliest : ∀ k : Lane, k.kept.earliest = k.earliest := fun k => rfl
  rw [← earliest m, h, earliest]

theorem Part.Keeps.earliestOf {p q : Part} (h : p.Keeps q) {g k : List Entry} (cues : g.map Entry.cue = k.map Entry.cue) :
    q.earliestOf g = p.earliestOf k :=
  Part.earliestOf_congr (fun i => Lane.earliest_of_kept (Part.kept_lane h.kept i)) cues

/-- Nothing behind the head group overtakes it. -/
theorem overtaken_alone {window : List Entry} (alone : afterHead window = []) : overtaken window = false := by
  unfold overtaken
  rw [alone]
  cases window <;> rfl

/-! ### A press (R140, R141) -/

/-- The part as a press finds it: the key's filter held. -/
def Part.pressing (p : Part) (k : Key) : Part := p.setConsole (p.console.hold k)

theorem State.pressed.act {s : State} {k : Key} (h : s.pressed k) (press : Part → Part) :
    s.part.takePress k press = press (s.part.pressing k) := by
  obtain ⟨_, t, filter, come⟩ := h
  refine if_pos ?_
  unfold Part.pressReady
  rw [filter]
  exact decide_eq_true come

/-- Where an append goes depends on book memory, the journal unit and show time alone (R169, R171). -/
theorem Part.appended_base {p b q : Part} {rs : List Record} (mem : b.mem = p.mem) (journal : b.journal = p.journal)
    (clock : b.clock = p.clock) (h : b.appended q rs) : p.appended q rs := by
  unfold Part.appended Part.roomFor Part.unread Part.readMark at h ⊢
  rw [← mem, ← journal, show p.now = b.now from congrArg Clock.showTime clock.symm]
  exact h

/-- A press that leaves only its KEY record. -/
theorem Runs.of_key_alone {c : Instr} {s : State} {k : Key} {press : Part → Part} {o : KeyOutcome} {cue : Option Half} {q : Part}
    (meaning : exec c s = s.event fun p => p.takePress k press) (pressed : s.pressed k) (mem : q.mem = s.part.mem)
    (regs : q.regs = s.part.regs) (journal : q.journal = s.part.journal) (clock : q.clock = s.part.clock)
    (act : press (s.part.pressing k) = q.reportKey k .console o cue) :
    Runs c s Part.kept q fun t => s.part.appended t [keyRecord k .console o cue] := by
  have done : s.part.takePress k press = q.append (keyRecord k .console o cue) := (pressed.act press).trans act
  refine Runs.of_keeps meaning pressed.1 mem (by rw [regs]) ?_ ?_
  · rw [done]
    exact q.append_keeps _
  · rw [done]
    exact Part.appended_quiet (Part.appended_base mem journal clock (q.append_appended _)) (Part.finish_quiet s.part _)

/-! ### HOLD (R41, R146) -/

theorem exec_holdKey (s : State) : exec .holdKey s = s.event fun p => p.takePress .hold Part.pressHold := rfl

/-- The part with its running clock held where it is, and its due times taken anew. -/
def Part.heldHere (p : Part) : Part :=
  ((p.setClock (p.clock.hold p.clock.fraction)).reportClock p.clock.state .hold).recompute

theorem Part.hold_running {p : Part} (h : p.clock.state = .locking ∨ p.clock.state = .following ∨ p.clock.state = .coasting) :
    p.hold = (p.heldHere.settle, .held) := by
  unfold Part.hold
  rcases h with h | h | h <;> rw [h] <;> simp only [Part.heldHere, h]

theorem Part.hold_resting {p : Part}
    (h : p.clock.state = .stopped ∨ p.clock.state = .armed ∨ p.clock.state = .held ∨ p.clock.state = .untracked) :
    p.hold = (p, .ignored) := by
  unfold Part.hold
  rcases h with h | h | h | h <;> rw [h]

/-- HOLD leaves a DEFERRED head group beyond the hold its deferral, to E (R146). -/
theorem Part.heldHere_defers {p : Part} (pulsed : p.seq.currentRec.kind = .pulsed) (on : p.seq.state = .running)
    {e : Entry} {rest : List Entry} (window : p.seq.window = e :: rest) (alone : afterHead p.seq.window = [])
    (deferred : e.state = .deferred) (at_ : e.cue.trigger = .atPos) (own : e.key.pass = p.seq.pass)
    (kind : (p.seq.sectionAt e.key.sect).kind = .pulsed) (beyond : p.clock.c0 * 64 + p.clock.fraction < e.cue.when_)
    (early : p.now < p.earliestOf (headGroup p.seq.window)) :
    p.heldHere.settle.seq.window.head?.map Entry.state = some .deferred ∧
      p.heldHere.settle.seq.deferAt = some (p.earliestOf (headGroup p.seq.window)) ∧
      p.heldHere.settle.seq.lastFire = p.seq.lastFire := by
  have reported := (p.setClock (p.clock.hold p.clock.fraction)).reportClock_keeps p.clock.state .hold
  unfold Part.heldHere
  generalize (p.setClock (p.clock.hold p.clock.fraction)).reportClock p.clock.state .hold = r at reported
  have seq : r.seq = p.seq := (Part.kept_seq reported.kept).trans rfl
  have clock : r.clock = p.clock.hold p.clock.fraction := (Part.kept_clock reported.kept).trans rfl
  have shown := r.recompute_cons (seq ▸ window)
  have undue : (r.refreshEntry true e).due = none :=
    Part.dueOf_held (by rw [clock]; rfl) at_ (by rw [seq]; exact own) (by rw [seq]; exact kind) (by rw [clock]; exact beyond) true
  have earliest : r.recompute.earliestOf (headGroup r.recompute.seq.window) = p.earliestOf (headGroup p.seq.window) := by
    have lanes : r.recompute.earliestOf (headGroup r.recompute.seq.window) = r.earliestOf (headGroup r.seq.window) :=
      Part.earliestOf_congr (fun _ => rfl) r.recompute_headCues
    rw [lanes, reported.earliestOf rfl, seq]
    rfl
  have behind : overtaken r.recompute.seq.window = false := overtaken_alone (by rw [r.recompute_afterHead, seq, alone]; rfl)
  have now : r.recompute.now = p.now := (congrArg Clock.showTime clock :)
  have waits : r.recompute.evaluate =
      .waits { r.recompute with seq := { r.recompute.seq with deferAt := some (p.earliestOf (headGroup p.seq.window)) } } := by
    have held : r.recompute.heldDeferral (r.refreshEntry true e) = true := by
      have still : r.clock.state = .held := (congrArg Clock.state clock :)
      simp [Part.heldDeferral, undue, still, show (r.refreshEntry true e).state = .deferred from deferred]
    unfold Part.evaluate
    rw [shown] at earliest behind ⊢
    simp only [held, earliest, behind, now, show (r.refreshEntry true e).state = .deferred from deferred]
    simp [Nat.not_le.2 early]
  have settled := r.recompute.settle_step (by show r.seq.state = _; rw [seq]; exact on) (by
    have kind : r.recompute.seq.currentRec.kind = .pulsed := by
      rw [Sequencer.currentRec_of_place r.recompute_stays.place, seq]
      exact pulsed
    simp [Sequencer.calledOver, kind]) waits
  rw [settled]
  refine ⟨?_, rfl, (congrArg Sequencer.lastFire seq :)⟩
  show r.recompute.seq.window.head?.map Entry.state = _
  rw [shown]
  exact congrArg some deferred

/-- A running clock's interpolated fraction (R48). -/
theorem Clock.fraction_running {c : Clock} (h : c.state = .locking ∨ c.state = .following ∨ c.state = .coasting) :
    c.fraction = min 63 ((c.showTime - c.t0) * 64 / c.period) := by
  unfold Clock.fraction
  rcases h with h | h | h <;> rw [h]

theorem Part.heldHere_stills (p : Part) : p.Stills p.heldHere :=
  ((p.setClock_stills (c := p.clock.hold p.clock.fraction) rfl).trans (Part.reportClock_keeps ..).stills).trans (Part.recompute_stills _)

/-- In a PULSED section nothing but the hold moves the clock or the place in the act. -/
theorem Part.heldHere_stays {p : Part} (pulsed : p.seq.currentRec.kind = .pulsed) :
    (p.setClock (p.clock.hold p.clock.fraction)).Stays p.heldHere.settle := by
  have here : (p.setClock (p.clock.hold p.clock.fraction)).Stays p.heldHere :=
    (Part.reportClock_keeps ..).stays.trans (Part.recompute_stays _)
  have kind : p.heldHere.seq.currentRec.kind ≠ .called := by
    rw [Sequencer.currentRec_of_place here.place]
    show p.seq.currentRec.kind ≠ _
    rw [pulsed]
    exact nofun
  exact here.trans (p.heldHere.settle_stays kind)

/-- Settles O25: the hold writes the clock, and the deferral kept is that of a head group the evaluation leaves standing. -/
theorem holdKeyHolds : Obligations.HoldKeyHolds := by
  intro s pressed c q
  refine ⟨fun runs pulsed => ?_, fun rests => ?_⟩
  · have act : s.part.takePress .hold Part.pressHold = q.heldHere.settle.reportKey .hold .console .held none := by
      rw [pressed.act]
      show (q.hold).1.reportKey .hold .console (q.hold).2 none = _
      rw [Part.hold_running (p := q) runs]
    have fraction : c.fraction = min 63 ((c.showTime - c.t0) * 64 / c.period) := Clock.fraction_running runs
    have noticed : ((q.setClock (c.hold c.fraction)).reportClock c.state .hold).regs.notice.getLsbD 3 = true := by
      refine Part.reportClock_notice _ _ ?_
      show ClockState.held ≠ c.state
      rcases runs with h | h | h <;> rw [h] <;> exact nofun
    have keyed := q.heldHere.settle.reportKey_keeps .hold .console .held none
    have ends := Part.finish_keeps s.part (q.heldHere.settle.reportKey .hold .console .held none)
    refine Runs.of_stills (exec_holdKey s) pressed.1 rfl rfl ?_ ?_
    · rw [act]
      exact (q.heldHere_stills.trans (Part.settle_stills _)).trans keyed.stills
    · rw [act]
      have stays : (q.setClock (c.hold c.fraction)).Stays
          (Part.finish s.part (q.heldHere.settle.reportKey .hold .console .held none)) :=
        (Part.heldHere_stays (p := q) pulsed).trans (keyed.trans ends).stays
      have notices := (((Part.recompute_stills _).trans (Part.settle_stills _)).trans (keyed.trans ends).stills).notices 3 noticed
      have seq : (Part.finish s.part (q.heldHere.settle.reportKey .hold .console .held none)).seq = q.heldHere.settle.seq :=
        Part.kept_seq (keyed.trans ends).kept
      refine ⟨?_, ⟨Sequencer.state_of_place stays.place, Sequencer.current_of_place stays.place,
        Sequencer.pass_of_place stays.place⟩, notices, ?_⟩
      · rw [stays.clock, ← fraction]
        rfl
      · intro e rest on window alone deferred at_ own kind beyond early
        rw [seq]
        exact Part.heldHere_defers (p := q) pulsed on window alone deferred at_ own kind
          (by rw [show q.clock.fraction = _ from fraction]; exact beyond) early
  · exact Runs.of_key_alone (q := q) (exec_holdKey s) pressed rfl rfl rfl rfl (by
      show (q.hold).1.reportKey .hold .console (q.hold).2 none = _
      rw [Part.hold_resting (p := q) rests])

end Sys2Proof.Machine
end

/-! PROOFS. A title on a lane (R101 to R106): what the shadow's write settles, what a SHOW and a CLEAR queue, and the late path. -/

section
namespace Sys2Proof.Machine

open Sys2Proof (LaneIx)

/-! ### Settlement (R105, R106) -/

theorem Lane.freeRec_rec_same (l : Lane) (b : Fin 2) : (l.freeRec b).rec_ b = StagingRec.free := l.rec_setRec_same b _

theorem Lane.freeRec_rec_other (l : Lane) {b c : Fin 2} (h : b ≠ c) : (l.freeRec b).rec_ c = l.rec_ c := l.rec_setRec_other _ h

/-- A settlement changes no other record. -/
theorem Lane.settleObsolete_rec_other (l : Lane) {b c : Fin 2} (h : b ≠ c) : (l.settleObsolete b).rec_ c = l.rec_ c := by
  have freed := l.freeRec_rec_other h
  unfold Lane.settleObsolete
  dsimp only
  split
  · rfl
  · split
    · exact freed
    · split <;> exact freed
  · split <;> exact freed
  · exact freed
  · exact freed

/-- A record settled as obsolete is FREE (R106). -/
theorem Lane.settleObsolete_rec_same (l : Lane) (b : Fin 2) : ((l.settleObsolete b).rec_ b).state = .free := by
  have freed : ((l.freeRec b).rec_ b).state = .free := congrArg StagingRec.state (l.freeRec_rec_same b)
  have cancelled : ((Lane.freeRec { l with tx := { l.tx with cancelDue := true } } b).rec_ b).state = .free :=
    congrArg StagingRec.state (Lane.freeRec_rec_same _ b)
  unfold Lane.settleObsolete
  dsimp only
  split
  · next h => exact h
  · split
    · exact freed
    · split
      · exact cancelled
      · exact freed
  · split <;> exact freed
  · exact freed
  · exact freed

theorem Lane.settleObsolete_nextToken (l : Lane) (b : Fin 2) : (l.settleObsolete b).nextToken = l.nextToken := by
  unfold Lane.settleObsolete
  dsimp only
  split
  · rfl
  · split
    · rfl
    · split <;> rfl
  · split <;> rfl
  · rfl
  · rfl

/-- A STAGE already sent leaves a DROP owed (R106). -/
theorem Lane.settleObsolete_drop (l : Lane) {b : Fin 2} (h : (l.rec_ b).state = .sent ∨ (l.rec_ b).state = .staged) :
    (l.settleObsolete b).drops[b] = true := by
  have owed : (l.settleObsolete b) = (l.freeRec b).setDrop b true := by
    unfold Lane.settleObsolete
    rcases h with h | h <;> simp only [h]
  rw [owed]
  simp [Lane.setDrop]

theorem Lane.settleObsolete_express (l : Lane) (b : Fin 2) : (l.settleObsolete b).express = l.express :=
  (congrArg Lane.express (l.settleObsolete_kept b) :)

/-! ### The shadow's write (R92, R105) -/

/-- A record the shadow does not own stands through its change. -/
theorem Lane.settleShadowRec_rec (l : Lane) (b c : Fin 2) :
    (l.settleShadowRec b).rec_ c = l.rec_ c ∨
      ((l.rec_ c).inUse = true ∧ (l.rec_ c).owner = .shadow ∧ ((l.settleShadowRec b).rec_ c).state = .free) := by
  unfold Lane.settleShadowRec
  dsimp only
  split
  · next owned =>
    by_cases same : b = c
    · subst same
      right
      refine ⟨owned.1, owned.2, ?_⟩
      split
      · rw [l.freeRec_rec_same b]
        rfl
      · exact l.settleObsolete_rec_same b
    · left
      split
      · exact l.freeRec_rec_other same
      · exact l.settleObsolete_rec_other same
  · exact .inl rfl

theorem Lane.settleShadowRec_nextToken (l : Lane) (b : Fin 2) : (l.settleShadowRec b).nextToken = l.nextToken := by
  unfold Lane.settleShadowRec
  dsimp only
  split
  · split
    · rfl
    · exact l.settleObsolete_nextToken b
  · rfl

theorem Lane.writeShadow_rec (l : Lane) (sh : Shadow) (c : Fin 2) :
    (l.writeShadow sh).rec_ c = l.rec_ c ∨
      ((l.rec_ c).inUse = true ∧ (l.rec_ c).owner = .shadow ∧ ((l.writeShadow sh).rec_ c).state = .free) := by
  show (((l.settleShadowRec 0).settleShadowRec 1).rec_ c) = _ ∨ (_ ∧ _ ∧ (((l.settleShadowRec 0).settleShadowRec 1).rec_ c).state = _)
  rcases l.settleShadowRec_rec 0 c with first | ⟨used, owned, freed⟩
  · rw [← first]
    exact (l.settleShadowRec 0).settleShadowRec_rec 1 c
  · rcases (l.settleShadowRec 0).settleShadowRec_rec 1 c with second | ⟨used', _⟩
    · exact .inr ⟨used, owned, by rw [second]; exact freed⟩
    · exact absurd freed ((StagingRec.inUse_iff _).1 used')

/-- The lane with its shadow and the shadow's max dwell expiry replaced (R92, R108). -/
def Lane.withShadow (l : Lane) (sh : Shadow) : Lane :=
  { l with
    shadow := sh
    maxDwellAt := if sh.text.isSome ∧ sh.maxDwell ≠ 0 then some (sh.shown + sh.maxDwell * 1000) else none }

/-- The shadow's write, less the staging it settles. -/
theorem Lane.writeShadow_kept (l : Lane) (sh : Shadow) : (l.writeShadow sh).kept = l.kept.withShadow sh := by
  have settled := Lane.foldl_kept Lane.settleShadowRec Lane.settleShadowRec_kept bothBuffers l
  unfold Lane.writeShadow
  dsimp only
  generalize bothBuffers.foldl Lane.settleShadowRec l = m at settled
  rw [← settled]
  rfl

section
variable (l : Lane) (sh : Shadow)

@[simp] theorem Lane.writeShadow_shadow : (l.writeShadow sh).shadow = sh := rfl

@[simp] theorem Lane.writeShadow_express : (l.writeShadow sh).express = l.express := (congrArg Lane.express (l.writeShadow_kept sh) :)

@[simp] theorem Lane.writeShadow_blanked : (l.writeShadow sh).blanked = l.blanked := (congrArg Lane.blanked (l.writeShadow_kept sh) :)

@[simp] theorem Lane.writeShadow_up : (l.writeShadow sh).up = l.up := by
  unfold Lane.up
  rw [show (l.writeShadow sh).link = l.link from (congrArg Lane.link (l.writeShadow_kept sh) :)]

@[simp] theorem Lane.writeShadow_nextToken : (l.writeShadow sh).nextToken = l.nextToken :=
  ((l.settleShadowRec 0).settleShadowRec_nextToken 1).trans (l.settleShadowRec_nextToken 0)

/-- The records that belong to window entries stand through the shadow's write. -/
theorem Lane.writeShadow_bufferOf (key : EntryKey) : (l.writeShadow sh).bufferOf key = l.bufferOf key := by
  unfold Lane.bufferOf
  congr 1
  funext c
  rcases l.writeShadow_rec sh c with same | ⟨_, owned, freed⟩
  · rw [same]
  · simp [StagingRec.inUse, freed, owned]

end

/-- A record in use for a window entry stands through the shadow's write. -/
theorem Lane.writeShadow_rec_entry {l : Lane} {key : EntryKey} {b : Fin 2} (h : l.bufferOf key = some b) (sh : Shadow) :
    (l.writeShadow sh).rec_ b = l.rec_ b := by
  refine (l.writeShadow_rec sh b).resolve_right ?_
  rintro ⟨_, owned, _⟩
  have found := List.find?_some h
  rw [Bool.and_eq_true, decide_eq_true_eq, owned] at found
  cases found.2

theorem Lane.bufferOf_inUse {l : Lane} {key : EntryKey} {b : Fin 2} (h : l.bufferOf key = some b) :
    (l.rec_ b).inUse = true := by
  have found := List.find?_some h
  rw [Bool.and_eq_true] at found
  exact found.1

/-! ### The express queue (R125) -/

/-- On a lane not blanked, removing stale frames changes the queue alone: a stale SHOW's record is no longer the title's. -/
theorem Lane.pruneAll_open {l : Lane} (h : l.blanked = false) :
    l.pruneAll = { l with express := l.express.filter fun x => l.relevant x.what } := by
  have stands : ∀ (xs : List Express), (∀ x ∈ xs, l.relevant x.what = false) →
      ∀ m : Lane, m.recs = l.recs → xs.foldl Lane.dropExpress m = m := by
    intro xs
    induction xs with
    | nil => exact fun _ m _ => rfl
    | cons x rest ih =>
      intro stale m recs
      have stale' := stale x List.mem_cons_self
      have kept : m.dropExpress x = m := by
        have records : ∀ b, m.rec_ b = l.rec_ b := fun b => congrArg (fun r : Vector StagingRec 2 => r[b]) recs
        unfold Lane.dropExpress
        unfold Lane.relevant at stale'
        cases what : x.what with
        | clear => rfl
        | show_ b token cue =>
          rw [what] at stale'
          dsimp only at stale' ⊢
          rw [records]
          refine if_neg fun own => ?_
          simp [h, own.1, own.2] at stale'
      rw [List.foldl_cons, kept]
      exact ih (fun y hy => stale y (List.mem_cons_of_mem _ hy)) m recs
  exact stands _ (fun x hx => by simpa using (List.mem_filter.1 hx).2) _ rfl

/-- A relevant SHOW joins the queue of a lane not blanked, behind what still is relevant (R125). -/
theorem Lane.queueExpress_show {l : Lane} (h : l.blanked = false) {b : Fin 2} {token : Nat} {cue : Half} {n : Nat}
    (wanted : l.relevant (.show_ b token cue) = true) :
    l.queueExpress { what := .show_ b token cue, attempt := n } =
      { l with express := (l.express.filter fun x => l.relevant x.what) ++ [{ what := .show_ b token cue, attempt := n }] } := by
  unfold Lane.queueExpress
  simp only [wanted, l.pruneAll_open h]
  simp

/-- A CLEAR waits on a lane whose shadow is BLANK or that is blanked (R104, R125). -/
theorem Lane.queueClear_waits {l : Lane} (h : l.shadow.text = none ∨ l.blanked = true) :
    ∃ x ∈ l.queueClear.express, x.what = .clear := by
  have wanted : l.relevant .clear = true := by
    unfold Lane.relevant
    rcases h with h | h <;> simp [h]
  unfold Lane.queueClear Lane.queueExpress
  simp only [wanted]
  by_cases merges : l.pruneAll.express.any (fun x => decide (x.what = .clear)) = true
  · obtain ⟨x, queued, clear⟩ := List.any_eq_true.1 merges
    exact ⟨x, by simpa [merges] using queued, of_decide_eq_true clear⟩
  · simp [merges]

/-- A staging record whose SHOW is queued or sent (R102). -/
def StagingRec.shown (r : StagingRec) : StagingRec := { r with showSent := true }

/-- The SHOW of a title the shadow owns, on a lane not blanked (R102). -/
theorem Lane.queueShow_eq {l : Lane} (h : l.blanked = false) {b : Fin 2} (used : (l.rec_ b).inUse = true)
    (owned : (l.rec_ b).owner = .shadow) :
    (l.queueShow b).rec_ b = (l.rec_ b).shown ∧
      (l.queueShow b).express.getLast? = some { what := .show_ b (l.rec_ b).token (l.rec_ b).cue, attempt := 1 } := by
  have wanted : ∀ m : Lane, m.blanked = false → (m.rec_ b = l.rec_ b ∨ m.rec_ b = (l.rec_ b).shown) →
      m.relevant (.show_ b (l.rec_ b).token (l.rec_ b).cue) = true := fun m open_ record => by
    have used' : (l.rec_ b).shown.inUse = true := used
    rcases record with record | record
    · simp [Lane.relevant, StagingRec.holds, open_, record, used, owned]
    · simp [Lane.relevant, StagingRec.holds, open_, record, used', show (l.rec_ b).shown.owner = .shadow from owned,
        show (l.rec_ b).shown.token = (l.rec_ b).token from rfl]
  have queued : l.queueShow b = (l.setRec b (l.rec_ b).shown).queueExpress
      { what := .show_ b (l.rec_ b).token (l.rec_ b).cue, attempt := 1 } := if_pos (wanted l h (.inl rfl))
  rw [queued, Lane.queueExpress_show (l := l.setRec b (l.rec_ b).shown) h (wanted _ h (.inr (l.rec_setRec_same b _)))]
  exact ⟨l.rec_setRec_same b _, List.getLast?_concat⟩

/-! ### The late path (R103) -/

theorem Lane.latestOwned_eq {l : Lane} {before after : List Entry} {e : Entry} {b : Fin 2}
    (owned : l.owns b e.key) (first : ∀ c, c < b → ¬ l.owns c e.key) (unowned : ∀ x ∈ after, ∀ c, ¬ l.owns c x.key) :
    l.latestOwned (before ++ e :: after) = some b := by
  have here : l.bufferOf e.key = some b := by
    refine find_bothBuffers ?_ fun c hc => ?_
    · rw [Bool.and_eq_true, StagingRec.inUse_iff, decide_eq_true_eq]
      exact owned
    · rw [← Bool.not_eq_true, Bool.and_eq_true, StagingRec.inUse_iff, decide_eq_true_eq]
      exact first c hc
  have behind : after.reverse.filterMap (fun e => l.bufferOf e.key) = [] :=
    List.filterMap_eq_nil_iff.2 fun x hx => Lane.bufferOf_eq_none.2 (unowned x (List.mem_reverse.1 hx))
  unfold Lane.latestOwned
  rw [List.reverse_append, List.reverse_cons, List.append_assoc, List.filterMap_append, behind]
  simp [here]

/-- The shadow's title taken into the late path's choice, settled first where it is in use (R103). -/
theorem Lane.placeLate_eq {l : Lane} {window : List Entry} {b : Fin 2} (h : l.lateRecord window b) :
    l.placeLate window = l.startLate b ∧ (l.rec_ b).state = .free ∨ l.placeLate window = (l.settleObsolete b).startLate b := by
  unfold Lane.placeLate
  rcases h with ⟨free, limit, before⟩ | ⟨used, before, e, after, shape, owned, first, unowned⟩
  · rw [Lane.freeBuffer_eq_some free limit before]
    exact .inl ⟨rfl, free⟩
  · rw [Lane.freeBuffer_eq_none used, shape, Lane.latestOwned_eq owned first unowned]
    exact .inr rfl

theorem Lane.startLate_eq {l : Lane} {t : Text} (text : l.shadow.text = some t) (b : Fin 2) :
    (l.startLate b).late.getLast? = some b ∧ (l.startLate b).drops = l.drops ∧
      (l.startLate b).rec_ b =
        { state := .pending, owner := .shadow, token := l.nextToken, cue := l.shadow.cue.getD 0, text := t, showSent := false
          showOpened := false, attempted := false } := by
  unfold Lane.startLate
  rw [text]
  exact ⟨List.getLast?_concat, rfl, l.rec_setRec_same b _⟩

/-! ### A title taken (R101) -/

section
variable {l : Lane} {sh : Shadow} {key : Option EntryKey} {window : List Entry}

theorem Lane.takeTitle_down (h : l.up = false) : l.takeTitle sh key window = (l.writeShadow sh, false) := by
  simp [Lane.takeTitle, h]

theorem Lane.takeTitle_blanked (up : l.up = true) (h : l.blanked = true) (k : EntryKey) :
    l.takeTitle sh (some k) window = ((l.writeShadow sh).entryRemoved k, false) := by
  simp [Lane.takeTitle, up, h]

theorem Lane.takeTitle_blanked_prime (up : l.up = true) (h : l.blanked = true) :
    l.takeTitle sh none window = (l.writeShadow sh, false) := by
  simp [Lane.takeTitle, up, h]

theorem Lane.takeTitle_clear (up : l.up = true) (h : l.blanked = false) (blank : sh.text = none) :
    l.takeTitle sh key window = ((l.writeShadow sh).queueClear, true) := by
  simp [Lane.takeTitle, up, h, blank]

theorem Lane.takeTitle_text (up : l.up = true) (h : l.blanked = false) (text : sh.text.isSome = true) :
    l.takeTitle sh key window = ((l.writeShadow sh).showTitle key window, (l.writeShadow sh).queuesTitle key) := by
  simp [Lane.takeTitle, up, h, text]

end

theorem Lane.showTitle_shadow (l : Lane) (key : Option EntryKey) (window : List Entry) :
    (l.showTitle key window).shadow = l.shadow := by
  unfold Lane.showTitle
  split
  · next b _ => exact (congrArg Lane.shadow ((l.ownByShadow b).showAsAllowed_kept b) :)
  · exact (congrArg Lane.shadow (l.placeLate_kept window) :)

/-- Whatever the lane, a title writes the shadow (R101). -/
theorem Lane.takeTitle_shadow (l : Lane) (sh : Shadow) (key : Option EntryKey) (window : List Entry) :
    (l.takeTitle sh key window).1.shadow = sh := by
  have written : (l.writeShadow sh).shadow = sh := l.writeShadow_shadow sh
  unfold Lane.takeTitle
  dsimp only
  generalize l.writeShadow sh = m at written
  split
  · exact written
  · split
    · split
      · exact (congrArg Lane.shadow (m.entryRemoved_kept _) :).trans written
      · exact written
    · split
      · exact (m.showTitle_shadow key window).trans written
      · exact (congrArg Lane.shadow (m.queueExpress_kept _) :).trans written

theorem Lane.bind_bufferOf_none {l : Lane} (sh : Shadow) {key : Option EntryKey} (h : ∀ k, key = some k → ∀ c, ¬ l.owns c k) :
    key.bind (l.writeShadow sh).bufferOf = none := by
  cases key with
  | none => rfl
  | some k =>
    rw [Option.bind_some, Lane.writeShadow_bufferOf]
    exact Lane.bufferOf_eq_none.2 (h k rfl)

/-- A record that is FREE everywhere is written by no settlement. -/
theorem Lane.writeShadow_recs {l : Lane} (h : ∀ b, (l.rec_ b).state = .free) (sh : Shadow) : (l.writeShadow sh).recs = l.recs := by
  refine Vector.ext fun c hc => ?_
  refine (l.writeShadow_rec sh ⟨c, hc⟩).resolve_right ?_
  rintro ⟨used, _⟩
  exact absurd (h _) ((StagingRec.inUse_iff _).1 used)

/-- A TEXT title with no record on a lane up and not blanked takes the late path's choice (R103). -/
theorem Lane.takeTitle_late {l : Lane} {sh : Shadow} {key : Option EntryKey} {t : Text} {b : Fin 2} {window : List Entry}
    (unowned : ∀ k, key = some k → ∀ c, ¬ l.owns c k) (up : l.up = true) (open_ : l.blanked = false) (text : sh.text = some t)
    (late : (l.writeShadow sh).lateRecord window b) :
    let done := l.takeTitle sh key window
    done.2 = true ∧ done.1.late.getLast? = some b ∧ done.1.express = l.express ∧
      done.1.rec_ b =
        { state := .pending, owner := .shadow, token := l.nextToken, cue := sh.cue.getD 0, text := t, showSent := false
          showOpened := false, attempted := false } ∧
      (((l.writeShadow sh).rec_ b).state = .sent ∨ ((l.writeShadow sh).rec_ b).state = .staged → done.1.drops[b] = true) := by
  have act : l.takeTitle sh key window = ((l.writeShadow sh).placeLate window, true) := by
    rw [Lane.takeTitle_text up open_ (by rw [text]; rfl), Lane.showTitle, Lane.queuesTitle, l.bind_bufferOf_none sh unowned]
  have shadow : (l.writeShadow sh).shadow = sh := l.writeShadow_shadow sh
  have express : (l.writeShadow sh).express = l.express := l.writeShadow_express sh
  have token : (l.writeShadow sh).nextToken = l.nextToken := l.writeShadow_nextToken sh
  rw [act]
  generalize l.writeShadow sh = m at late shadow express token
  have started : ∃ k : Lane, m.placeLate window = k.startLate b ∧ k.shadow = sh ∧ k.nextToken = l.nextToken ∧
      ((m.rec_ b).state = .sent ∨ (m.rec_ b).state = .staged → k.drops[b] = true) := by
    rcases Lane.placeLate_eq late with ⟨placed, free⟩ | placed
    · exact ⟨m, placed, shadow, token, fun sent => by simp [free] at sent⟩
    · exact ⟨m.settleObsolete b, placed, (congrArg Lane.shadow (m.settleObsolete_kept b) :).trans shadow,
        (m.settleObsolete_nextToken b).trans token, m.settleObsolete_drop⟩
  have express' : (m.placeLate window).express = l.express := (congrArg Lane.express (m.placeLate_kept window) :).trans express
  obtain ⟨k, placed, shadow', token', owed⟩ := started
  obtain ⟨last, drops, record⟩ := Lane.startLate_eq (l := k) (by rw [shadow']; exact text) b
  rw [token', shadow'] at record
  refine ⟨rfl, ?_, express', ?_, fun sent => ?_⟩
  · rw [placed]; exact last
  · rw [placed]; exact record
  · rw [placed, drops]; exact owed sent

/-- A title with no record on a lane that cannot show it writes the shadow alone (R104, R112). -/
theorem Lane.takeTitle_unsent {l : Lane} {sh : Shadow} {key : Option EntryKey} (window : List Entry)
    (unowned : ∀ k, key = some k → ∀ c, ¬ l.owns c k) (cannot : l.up = false ∨ l.blanked = true) :
    l.takeTitle sh key window = (l.writeShadow sh, false) := by
  by_cases up : l.up = true
  · have blanked := cannot.resolve_left (by simp [up])
    cases key with
    | none => exact Lane.takeTitle_blanked_prime up blanked
    | some k =>
      rw [Lane.takeTitle_blanked up blanked k, Lane.entryRemoved, Lane.writeShadow_bufferOf,
        Lane.bufferOf_eq_none.2 (unowned k rfl)]
  · exact Lane.takeTitle_down (by simpa using up)

/-- The SHOW of a TEXT title whose record is staged goes at once; one whose STAGE has not closed waits behind it (R101, R102). -/
theorem Lane.takeTitle_record {l : Lane} {sh : Shadow} {key : EntryKey} {b : Fin 2} (window : List Entry)
    (buffer : l.bufferOf key = some b) (up : l.up = true) (open_ : l.blanked = false) (text : sh.text.isSome = true) :
    let r := l.rec_ b
    let done := l.takeTitle sh (some key) window
    (done.1.rec_ b).owner = .shadow ∧ (done.1.rec_ b).token = r.token ∧
      (r.state = .sent ∨ r.state = .staged →
        done.2 = true ∧ (done.1.rec_ b).showSent = true ∧
          done.1.express.getLast? = some { what := .show_ b r.token r.cue, attempt := 1 }) ∧
      (r.state = .pending ∨ r.state = .sending →
        done.2 = false ∧ done.1.rec_ b = { r with owner := .shadow } ∧ done.1.express = l.express) := by
  intro r done
  have used : r.inUse = true := Lane.bufferOf_inUse buffer
  have record : (l.writeShadow sh).rec_ b = r := Lane.writeShadow_rec_entry buffer sh
  have buffered : (l.writeShadow sh).bufferOf key = some b := (l.writeShadow_bufferOf sh key).trans buffer
  have unblanked : (l.writeShadow sh).blanked = false := (l.writeShadow_blanked sh).trans open_
  have express : (l.writeShadow sh).express = l.express := l.writeShadow_express sh
  have act : done = (((l.writeShadow sh).ownByShadow b).showAsAllowed b, decide (r.state = .sent) || decide (r.state = .staged)) := by
    refine (Lane.takeTitle_text up open_ text).trans ?_
    simp only [Lane.showTitle, Lane.queuesTitle, Option.bind_some, buffered, record]
  rw [act]
  generalize l.writeShadow sh = m at record unblanked express
  have own : (m.ownByShadow b).rec_ b = { r with owner := .shadow } := by
    rw [Lane.ownByShadow, Lane.rec_setRec_same, record]
  have express' : (m.ownByShadow b).express = l.express := express
  obtain ⟨shown, queued⟩ := Lane.queueShow_eq (l := m.ownByShadow b) unblanked (b := b) (by rw [own]; exact used) (by rw [own])
  rw [own] at shown queued
  have state : ((m.ownByShadow b).rec_ b).state = r.state := by rw [own]
  generalize m.ownByShadow b = k at own shown queued state express'
  by_cases sent : r.state = .sent ∨ r.state = .staged
  · have sends : k.showAsAllowed b = k.queueShow b := by
      unfold Lane.showAsAllowed
      rcases sent with h | h <;> rw [state, h]
    rw [sends, shown]
    refine ⟨rfl, rfl, fun _ => ⟨by simpa using sent, rfl, queued⟩, fun waits => ?_⟩
    rcases sent with h | h <;> rw [h] at waits <;> exact waits.elim nofun nofun
  · have holds : k.showAsAllowed b = k := by
      unfold Lane.showAsAllowed
      rw [state]
      revert sent
      cases r.state <;> simp
    rw [holds, own]
    exact ⟨rfl, rfl, fun h => absurd h sent, fun _ => ⟨by simpa using sent, rfl, express'⟩⟩

/-- Settles O28: a title's way through the staging records of a lane, by its link state and blanking. -/
theorem titlesReachLanes : Obligations.TitlesReachLanes := by
  refine ⟨fun l sh key t b window unowned up open_ text => ?_, fun l sh key window unowned => ?_,
    fun l sh key b window buffer => ?_⟩
  · intro m late
    obtain ⟨queued, taken⟩ := Lane.takeTitle_late unowned up open_ text late
    exact ⟨queued, l.takeTitle_shadow sh key window, taken⟩
  · have unsent := fun cannot => Lane.takeTitle_unsent (sh := sh) window unowned cannot
    have nothing : (l.writeShadow sh).express = l.express ∧
        ((∀ b, (l.rec_ b).state = .free) → (l.writeShadow sh).recs = l.recs) :=
      ⟨l.writeShadow_express sh, fun free => l.writeShadow_recs free sh⟩
    refine ⟨l.takeTitle_shadow sh key window, fun up open_ blank => ?_, fun up blanked => ?_, fun down => ?_⟩
    · rw [Lane.takeTitle_clear up open_ blank]
      exact ⟨rfl, Lane.queueClear_waits (.inl blank)⟩
    · rw [unsent (.inr blanked)]
      exact ⟨rfl, nothing⟩
    · rw [unsent (.inl down)]
      exact ⟨rfl, nothing⟩
  · intro r done
    have record : (l.writeShadow sh).rec_ b = r := Lane.writeShadow_rec_entry buffer sh
    have express := l.writeShadow_express sh
    have buffered : (l.writeShadow sh).bufferOf key = some b := (l.writeShadow_bufferOf sh key).trans buffer
    refine ⟨l.takeTitle_shadow sh (some key) window, fun up open_ text => Lane.takeTitle_record window buffer up open_ text,
      fun up open_ blank => ?_, fun up blanked => ?_, fun down => ?_⟩
    · rw [show done = _ from Lane.takeTitle_clear up open_ blank]
      exact ⟨rfl, Lane.queueClear_waits (.inl blank)⟩
    · have act : done = ((l.writeShadow sh).settleObsolete b, false) := by
        refine (Lane.takeTitle_blanked up blanked key).trans ?_
        simp only [Lane.entryRemoved, buffered]
      rw [act]
      generalize l.writeShadow sh = m at record express
      refine ⟨rfl, m.settleObsolete_rec_same b, (m.settleObsolete_express b).trans express, fun sent => m.settleObsolete_drop ?_⟩
      rw [record]
      exact sent
    · rw [show done = _ from Lane.takeTitle_down down]
      exact ⟨rfl, express, record⟩

end Sys2Proof.Machine
end

/-! PROOFS. Fires (R66 to R71): titles handed to lanes, the fire of the head group, F over an evaluation, and the due, deferral and
max dwell expiries. -/

section
namespace Sys2Proof.Machine

open Sys2Proof (LaneIx Instr)

/-! ### Titles handed to lanes (R67, R101) -/

theorem mem_lanesOf {mask : BitVec 6} {i : LaneIx} : i ∈ lanesOf mask ↔ mask.getLsbD i.val = true := by
  simp [lanesOf, mem_allLanes]

theorem lanesOf_nodup (mask : BitVec 6) : (lanesOf mask).Nodup := allLanes_nodup.filter _

/-- The part with its lanes replaced. -/
def Part.withLanes (p : Part) (lanes : Vector Lane 6) : Part := { p with lanes := lanes }

/-- One lane's title handed, with the lanes that counted as sent (R101). -/
def titleStep (cue : Cue) (key : Option EntryKey) (acc : Part × BitVec 6) (i : LaneIx) : Part × BitVec 6 :=
  let taken := (acc.1.lane i).takeTitle (titleShadow cue i acc.1.now) key acc.1.seq.window
  (acc.1.setLane i taken.1, if taken.2 then acc.2 ||| BitVec.twoPow 6 i.val else acc.2)

theorem Part.handTitles_eq (p : Part) (cue : Cue) (key : Option EntryKey) :
    p.handTitles cue key = (lanesOf cue.mask).foldl (titleStep cue key) (p, 0) := rfl

theorem titleSteps_lane (cue : Cue) (key : Option EntryKey) (j : LaneIx) (lanes : List LaneIx) (once : lanes.Nodup) :
    ∀ acc : Part × BitVec 6,
      ((lanes.foldl (titleStep cue key) acc).1.lane j =
        if j ∈ lanes then ((acc.1.lane j).takeTitle (titleShadow cue j acc.1.now) key acc.1.seq.window).1 else acc.1.lane j) ∧
      ∃ after, (lanes.foldl (titleStep cue key) acc).1 = acc.1.withLanes after := by
  induction lanes with
  | nil => exact fun acc => ⟨by simp, acc.1.lanes, rfl⟩
  | cons i rest ih =>
    intro acc
    obtain ⟨fresh, once'⟩ := List.nodup_cons.1 once
    obtain ⟨lane, after, kept⟩ := ih once' (titleStep cue key acc i)
    refine ⟨?_, after, kept⟩
    rw [List.foldl_cons, lane]
    by_cases same : j = i
    · subst same
      rw [if_neg fresh, if_pos List.mem_cons_self]
      exact acc.1.lane_setLane_same j _
    · have stands : (titleStep cue key acc i).1.lane j = acc.1.lane j := acc.1.lane_setLane_other _ (Ne.symm same)
      rw [stands]
      exact if_congr (by simp [same]) rfl rfl

/-- A cue's titles reach the lanes of its mask alone. -/
theorem Part.handTitles_lane (p : Part) (cue : Cue) (key : Option EntryKey) (j : LaneIx) :
    (p.handTitles cue key).1.lane j =
      if cue.mask.getLsbD j.val = true then ((p.lane j).takeTitle (titleShadow cue j p.now) key p.seq.window).1 else p.lane j := by
  rw [Part.handTitles_eq, (titleSteps_lane cue key j _ (lanesOf_nodup _) _).1]
  simp only [mem_lanesOf]

theorem Part.handTitles_rest (p : Part) (cue : Cue) (key : Option EntryKey) :
    ∃ after, (p.handTitles cue key).1 = p.withLanes after :=
  (titleSteps_lane cue key 0 _ (lanesOf_nodup cue.mask) (p, 0)).2

theorem Part.handAll_rest (xs : List (Cue × Option EntryKey)) : ∀ p : Part, ∃ after, (p.handAll xs).1 = p.withLanes after := by
  induction xs with
  | nil => exact fun p => ⟨p.lanes, rfl⟩
  | cons x rest ih =>
    intro p
    obtain ⟨cue, key⟩ := x
    obtain ⟨first, handed⟩ := p.handTitles_rest cue key
    obtain ⟨after, kept⟩ := ih (p.handTitles cue key).1
    refine ⟨after, ?_⟩
    show ((p.handTitles cue key).1.handAll rest).1 = _
    rw [kept, handed]
    rfl

section
variable (xs : List (Cue × Option EntryKey)) (p : Part)

theorem Part.handAll_seq : (p.handAll xs).1.seq = p.seq := by
  obtain ⟨_, rest⟩ := Part.handAll_rest xs p
  rw [rest]
  rfl

theorem Part.handAll_clock : (p.handAll xs).1.clock = p.clock := by
  obtain ⟨_, rest⟩ := Part.handAll_rest xs p
  rw [rest]
  rfl

theorem Part.handAll_now : (p.handAll xs).1.now = p.now := congrArg Clock.showTime (p.handAll_clock xs)

end

theorem Part.handTitles_now (p : Part) (cue : Cue) (key : Option EntryKey) : (p.handTitles cue key).1.now = p.now := by
  obtain ⟨_, rest⟩ := p.handTitles_rest cue key
  rw [rest]
  rfl

/-- A lane of no cue's mask stands. -/
theorem Part.handAll_lane_other {i : LaneIx} (xs : List (Cue × Option EntryKey)) :
    ∀ p : Part, (∀ x ∈ xs, x.1.mask.getLsbD i.val = false) → (p.handAll xs).1.lane i = p.lane i := by
  induction xs with
  | nil => exact fun p _ => rfl
  | cons x rest ih =>
    intro p apart
    obtain ⟨cue, key⟩ := x
    have here : (p.handTitles cue key).1.lane i = p.lane i := by
      rw [Part.handTitles_lane, if_neg (by rw [apart _ List.mem_cons_self]; exact nofun)]
    exact (ih _ fun y hy => apart y (List.mem_cons_of_mem _ hy)).trans here

/-- A lane of one cue's mask has that cue's title as its shadow (R67). -/
theorem Part.handAll_shadow {i : LaneIx} {cue : Cue} (xs : List (Cue × Option EntryKey)) :
    ∀ p : Part, (∃ x ∈ xs, x.1.mask.getLsbD i.val = true) → (∀ x ∈ xs, x.1.mask.getLsbD i.val = true → x.1 = cue) →
      ((p.handAll xs).1.lane i).shadow = titleShadow cue i p.now := by
  induction xs with
  | nil => rintro p ⟨x, mem, _⟩; cases mem
  | cons x rest ih =>
    intro p found only
    obtain ⟨c, key⟩ := x
    have now := p.handTitles_now c key
    show (((p.handTitles c key).1.handAll rest).1.lane i).shadow = _
    by_cases later : ∃ y ∈ rest, y.1.mask.getLsbD i.val = true
    · rw [ih _ later fun y hy => only y (List.mem_cons_of_mem _ hy), now]
    · have none_ : ∀ y ∈ rest, y.1.mask.getLsbD i.val = false := fun y hy => by
        rw [← Bool.not_eq_true]
        exact fun mask => later ⟨y, hy, mask⟩
      obtain ⟨y, mem, mask⟩ := found
      have mine : c.mask.getLsbD i.val = true := by
        rcases List.mem_cons.1 mem with rfl | mem
        · exact mask
        · exact absurd ⟨y, mem, mask⟩ later
      rw [Part.handAll_lane_other rest _ none_, Part.handTitles_lane, if_pos mine, Lane.takeTitle_shadow,
        show c = cue from only _ List.mem_cons_self mine]

theorem shownAs_eq (c : Cue) (i : LaneIx) (now : Nat) : titleShadow c i now = shownAs c i now := by
  unfold titleShadow shownAs
  cases c.textFor i <;> rfl

/-! ### Lanes through the loader and appends -/

theorem Part.appendAll_lanes (rs : List Record) : ∀ p : Part, (p.appendAll rs).lanes = p.lanes := by
  induction rs with
  | nil => exact fun p => rfl
  | cons r rest ih => exact fun p => (ih (p.append r)).trans (p.append_lanes r)

theorem Part.readCue_lanes (p : Part) (pass : Half) (sect offset index left : Nat) (lost : Bool) :
    (p.readCue pass sect offset index left lost).lanes = p.lanes := by
  have skipped : ∀ c code id, ((p.setCursor c).badCue code sect pass offset id).lanes = p.lanes := fun c code id =>
    Part.append_lanes _ _
  unfold Part.readCue
  dsimp only
  split
  · exact skipped _ _ _
  · split
    · exact skipped _ _ _
    · split
      · exact skipped _ _ _
      · rfl

theorem Part.loadOne_lanes {p q : Part} (h : p.loadOne = some q) : q.lanes = p.lanes := by
  unfold Part.loadOne at h
  split at h
  · cases h
  · split at h
    · cases h; rfl
    · split at h
      · cases h; exact p.readCue_lanes ..
      · cases h

theorem Part.refillFor_lanes (n : Nat) : ∀ p : Part, (p.refillFor n).lanes = p.lanes := by
  induction n with
  | zero => exact fun p => p.noteUse_lanes
  | succ n ih =>
    intro p
    unfold Part.refillFor
    split
    · next q hq => exact ((ih q).trans (Part.loadOne_lanes hq)).trans p.noteUse_lanes
    · exact p.noteUse_lanes

/-- The refill touches no lane. -/
theorem Part.refill_lanes (p : Part) : p.refill.lanes = p.lanes := Part.refillFor_lanes _ p

theorem Part.lane_congr {p q : Part} (h : q.lanes = p.lanes) (i : LaneIx) : q.lane i = p.lane i :=
  congrArg (fun v : Vector Lane 6 => v[i]) h

/-! ### The fire (R67) -/

theorem headGroup_ne_nil {window : List Entry} (h : window ≠ []) : ∃ e rest, headGroup window = e :: rest := by
  cases window with
  | nil => exact absurd rfl h
  | cons e rest => exact ⟨e, _, rfl⟩

/-- The part whose head group has left for the history, before its titles are handed. -/
def Part.unheaded (p : Part) : Part :=
  p.setSeq { p.seq with
    window := afterHead p.seq.window
    history := pushHistory p.seq.history (headGroup p.seq.window) (p.previousShadows (headGroup p.seq.window))
    deferAt := none }

/-- The titles of the head group. -/
def groupTitles (group : List Entry) : List (Cue × Option EntryKey) := group.map fun x => (x.cue, some x.key)

theorem mem_groupTitles {group : List Entry} {x : Cue × Option EntryKey} :
    x ∈ groupTitles group ↔ ∃ e ∈ group, x = (e.cue, some e.key) := by
  simp [groupTitles, eq_comm]

/-- A fire hands the head group's titles, sets F, appends its records and refills the window. -/
theorem Part.fireHead_eq {p : Part} (h : p.seq.window ≠ []) (how : HowFired) :
    ∃ records, p.fireHead how =
      (((p.unheaded.handAll (groupTitles (headGroup p.seq.window))).1.setSeq
        { p.unheaded.seq with lastFire := some p.now }).appendAll records).refill := by
  obtain ⟨e, rest, group⟩ := headGroup_ne_nil h
  have fired : ∃ records, p.fireHead how =
      (((p.unheaded.handAll (groupTitles (headGroup p.seq.window))).1.setSeq
        { (p.unheaded.handAll (groupTitles (headGroup p.seq.window))).1.seq with
          lastFire := some (p.unheaded.handAll (groupTitles (headGroup p.seq.window))).1.now }).appendAll records).refill := by
    unfold Part.fireHead Part.unheaded groupTitles
    rw [group]
    exact ⟨_, rfl⟩
  rw [Part.handAll_seq, Part.handAll_now] at fired
  exact fired

/-- What a fire leaves of the sequencer: F is now, no deferral stands, the group is pushed (R67, R79). -/
theorem Part.fireHead_seq {p : Part} (h : p.seq.window ≠ []) (how : HowFired) :
    ∃ more cursor, (p.fireHead how).seq =
      { p.seq with
        window := afterHead p.seq.window ++ more, cursor := cursor, lastFire := some p.now, deferAt := none
        history := pushHistory p.seq.history (headGroup p.seq.window) (p.previousShadows (headGroup p.seq.window)) } := by
  obtain ⟨records, fired⟩ := Part.fireHead_eq h how
  obtain ⟨more, cursor, seq⟩ := (Part.refill_loads (((p.unheaded.handAll (groupTitles (headGroup p.seq.window))).1.setSeq
    { p.unheaded.seq with lastFire := some p.now }).appendAll records)).seq
  refine ⟨more, cursor, ?_⟩
  rw [fired, seq, Part.kept_seq (Part.appendAll_keeps _ records).kept]
  rfl

theorem Part.fireHead_lane {p : Part} (h : p.seq.window ≠ []) (how : HowFired) (i : LaneIx) :
    (p.fireHead how).lane i = (p.unheaded.handAll (groupTitles (headGroup p.seq.window))).1.lane i := by
  obtain ⟨records, fired⟩ := Part.fireHead_eq h how
  rw [fired]
  exact Part.lane_congr ((Part.refill_lanes _).trans (Part.appendAll_lanes records _)) i

theorem Part.fireHead_lastFire {p : Part} (h : p.seq.window ≠ []) (how : HowFired) :
    (p.fireHead how).seq.lastFire = some p.now := by
  obtain ⟨more, cursor, seq⟩ := Part.fireHead_seq h how
  rw [seq]

theorem groupMask_bit (i : LaneIx) (group : List Entry) :
    (groupMask group).getLsbD i.val = group.any fun e => e.cue.mask.getLsbD i.val := by
  have folded : ∀ (xs : List Entry) (m : BitVec 6),
      (xs.foldl (fun m e => m ||| e.cue.mask) m).getLsbD i.val = (m.getLsbD i.val || xs.any fun e => e.cue.mask.getLsbD i.val) := by
    intro xs
    induction xs with
    | nil => simp
    | cons e rest ih => intro m; rw [List.foldl_cons, ih, BitVec.getLsbD_or, List.any_cons, Bool.or_assoc]
  simpa [groupMask] using folded group 0

theorem lanesOf_isEmpty (mask : BitVec 6) : (lanesOf mask).isEmpty = true ↔ mask = 0 := by
  revert mask
  decide

/-- The history pushed where the group has a lane (R79). -/
theorem Part.pushHistory_eq (p : Part) (group : List Entry) :
    pushHistory p.seq.history group (p.previousShadows group) =
      if groupMask group = 0 then p.seq.history
      else
        ({ entries := group, previous := (lanesOf (groupMask group)).map fun i => (i, (p.lane i).shadow) } ::
          p.seq.history).take 4 := by
  have empty : (p.previousShadows group).isEmpty = true ↔ groupMask group = 0 := by
    rw [Part.previousShadows, List.isEmpty_map, lanesOf_isEmpty]
  unfold pushHistory
  exact if_congr empty rfl rfl

/-! ### A WITH cue left behind (R65) -/

theorem tailGroup_subset {window : List Entry} {e : Entry} (h : e ∈ tailGroup window) : e ∈ window := by
  unfold tailGroup at h
  rcases List.mem_append.1 h with h | h
  · exact List.mem_reverse.1 (List.mem_of_mem_drop (List.mem_of_mem_take h))
  · exact List.mem_reverse.1 ((List.takeWhile_sublist _).mem (List.mem_reverse.1 h))

theorem Sequencer.openGroup_none {q : Sequencer} {sect : Nat} {pass : Half} (index : Nat)
    (gone : ∀ e ∈ q.window, e.key.sect = sect → e.key.pass ≠ pass) : q.openGroup sect pass index = none := by
  unfold Sequencer.openGroup
  cases tail : tailGroup q.window with
  | nil => rfl
  | cons e rest =>
    refine if_neg ?_
    rintro ⟨_, sect_, pass_⟩
    exact gone e (tailGroup_subset (tail ▸ List.mem_cons_self)) sect_ pass_

/-- A WITH cue whose group has left the window is skipped as BAD_WITH before any check of its body (R19, R65; log entry 19). -/
theorem Part.readCue_leftBehind {p : Part} {pass : Half} {sect offset index : Nat} (left : Nat) (lost : Bool)
    (extent : checkExtent (readCueHead p.mem offset) offset = none) (isWith : (readCueHead p.mem offset).trigger = 4)
    (behind : index ≠ 0) (gone : ∀ e ∈ p.seq.window, e.key.sect = sect → e.key.pass ≠ pass) :
    p.readCue pass sect offset index left lost =
      (p.setCursor (.reading pass sect (offset + (readCueHead p.mem offset).length) (index + 1) (left - 1) true)).badCue
        .badWith sect pass offset (some (readCueHead p.mem offset).id) := by
  unfold Part.readCue
  simp only [extent, isWith, Sequencer.openGroup_none index gone]
  simp [behind]

theorem Part.setCursor_append (p : Part) (c : Cursor) (r : Record) :
    ((p.setCursor c).append r).seq.window = p.seq.window ∧ ((p.setCursor c).append r).seq.cursor = c ∧
      p.appended ((p.setCursor c).append r) [r] := by
  have seq := Part.kept_seq ((p.setCursor c).append_keeps r).kept
  exact ⟨by rw [seq, Part.setCursor_window], by rw [seq, Part.setCursor_cursor],
    Part.appended_base (b := p.setCursor c) rfl rfl rfl ((p.setCursor c).append_appended r)⟩

/-- Settles O27: the titles handed lane by lane, and the group pushed where its lane set is not empty. -/
theorem fireWritesShadows : Obligations.FireWritesShadows := by
  refine ⟨fun p pass sect offset index left lost => ?_, fun s how some_ => ?_⟩
  · intro r extent isWith behind gone q
    have act := Part.readCue_leftBehind left lost extent isWith behind gone
    have skipped := p.setCursor_append (.reading pass sect (offset + r.length) (index + 1) (left - 1) true)
      (badCueRecord .badWith sect pass offset (some r.id))
    rw [show q = _ from act]
    exact skipped
  · intro group q
    obtain ⟨more, cursor, seq⟩ := Part.fireHead_seq some_ how
    have lane := Part.fireHead_lane (p := s.part) some_ how
    have seq' : q.seq = _ := seq
    refine ⟨by rw [seq'], by rw [seq'], (s.part.fireHead_stays how).clock, ⟨more, by rw [seq']⟩, ?_, fun i apart => ?_,
      fun i e mem mask only => ?_⟩
    · rw [seq']
      exact s.part.pushHistory_eq group
    · rw [lane]
      refine Part.handAll_lane_other _ _ fun x hx => ?_
      obtain ⟨e, mem, rfl⟩ := mem_groupTitles.1 hx
      rw [groupMask_bit] at apart
      exact Bool.not_eq_true _ ▸ List.any_eq_false.1 apart e mem
    · have titled := Part.handAll_shadow (cue := e.cue) (groupTitles group) s.part.unheaded
        ⟨_, mem_groupTitles.2 ⟨e, mem, rfl⟩, mask⟩ fun x hx bit => by
          obtain ⟨y, mem', rfl⟩ := mem_groupTitles.1 hx
          rw [only y mem' bit]
      rw [lane, titled, shownAs_eq]
      rfl

end Sys2Proof.Machine
end

/-! PROOFS. F over an evaluation, and the due, deferral and max dwell expiries (R57, R66, R69 to R71, R108). -/

section
namespace Sys2Proof.Machine

open Sys2Proof (LaneIx Instr)

/-! ### F over an evaluation -/

/-- `q` is `p` at the same show time, with F as it was or now. -/
structure Part.Fires (p q : Part) : Prop where
  now : q.now = p.now
  lastFire : q.seq.lastFire = p.seq.lastFire ∨ q.seq.lastFire = some p.now

theorem Part.Fires.trans {p q r : Part} (h : p.Fires q) (k : q.Fires r) : p.Fires r where
  now := k.now.trans h.now
  lastFire := k.lastFire.elim (fun same => same ▸ h.lastFire) fun fired => .inr (h.now ▸ fired)

theorem Part.Stills.now {p q : Part} (h : p.Stills q) : q.now = p.now :=
  (congrArg (fun x : Part => x.clock.showTime) h.still :)

theorem Part.Stills.fires {p q : Part} (h : p.Stills q) (same : q.seq.lastFire = p.seq.lastFire) : p.Fires q := ⟨h.now, .inl same⟩

theorem Part.Loads.lastFire {p q : Part} (h : p.Loads q) : q.seq.lastFire = p.seq.lastFire := by
  obtain ⟨_, _, seq⟩ := h.seq
  rw [seq]

/-- A section end is no fire. -/
theorem Part.endSection_lastFire (p : Part) (b : EndBy) (left : ClockState) (own : ClockCause) :
    (p.endSection b left own).seq.lastFire = p.seq.lastFire := by
  unfold Part.endSection
  split
  · rw [(p.endAct_ends b left).2.1]
    rfl
  · next s _ =>
    obtain ⟨q, entering, eq⟩ := p.enterSection_enters b s left own
    rw [eq]
    exact entering.lastFire

theorem Part.afterFire_lastFire (p : Part) : p.afterFire.seq.lastFire = p.seq.lastFire := by
  unfold Part.afterFire
  split
  · exact p.endSection_lastFire ..
  · rfl

theorem Part.fire_fires {p : Part} (h : p.seq.window ≠ []) (how : HowFired) : p.Fires (p.fireHead how).afterFire :=
  ⟨((p.fireHead_stills how).trans (Part.afterFire_stills _)).now,
    .inr ((p.fireHead how).afterFire_lastFire.trans (Part.fireHead_lastFire h how))⟩

theorem Part.overtake_lastFire (p : Part) : p.overtake.seq.lastFire = p.seq.lastFire := by
  unfold Part.overtake
  split
  · rename_i e rest n more _ _
    have gone := (Part.reportRemoved_keeps { p with seq := { p.seq with window := n :: more, deferAt := none } }
      (headGroup p.seq.window)).trans (Part.append_keeps _ (overtakenRecord .byGroup e.cue.id (some n.cue.id) e.key e.due))
    exact (Part.refill_loads _).lastFire.trans (congrArg Sequencer.lastFire (Part.kept_seq gone.kept) :)
  · rfl

/-- An evaluation fires the head group or is no fire. -/
theorem Part.evaluate_fires (p : Part) : p.Fires p.evaluate.part := by
  unfold Part.evaluate
  split
  · exact ⟨rfl, .inl rfl⟩
  · next e rest window =>
    have some_ : p.seq.window ≠ [] := by rw [window]; exact nofun
    dsimp only
    split
    · show p.Fires (if _ then _ else _)
      split <;> exact ⟨rfl, .inl rfl⟩
    · split
      · split
        · exact p.overtake_stills.fires p.overtake_lastFire
        · split
          · exact Part.fire_fires some_ _
          · exact ⟨rfl, .inl rfl⟩
      · split
        · exact Part.fire_fires some_ _
        · exact ⟨rfl, .inl rfl⟩

theorem Part.settleFor_fires (n : Nat) : ∀ p : Part, p.Fires (p.settleFor n) := by
  induction n with
  | zero => exact fun p => ⟨rfl, .inl rfl⟩
  | succ n ih =>
    intro p
    unfold Part.settleFor
    split
    · exact ⟨rfl, .inl rfl⟩
    · split
      · exact ((p.endSection_stills _ _ _).fires (p.endSection_lastFire _ _ _)).trans (ih _)
      · have verdict := p.evaluate_fires
        split
        · next q hq => rw [hq] at verdict; exact verdict
        · next q hq => rw [hq] at verdict; exact verdict.trans (ih q)

theorem Part.settle_fires (p : Part) : p.Fires p.settle := Part.settleFor_fires _ p

/-- A fire at now stays the last one through the evaluation behind it, at one show time. -/
theorem Part.Fires.stays_fired {p q : Part} (h : p.Fires q) {now : Nat} (fired : p.seq.lastFire = some now) (at_ : p.now = now) :
    q.seq.lastFire = some now := h.lastFire.elim (fun same => same.trans fired) fun again => at_ ▸ again

theorem Part.fired_settle {p : Part} (h : p.seq.window ≠ []) (how : HowFired) (n : Nat) :
    ((p.fireHead how).afterFire.settleFor n).seq.lastFire = some p.now :=
  (Part.settleFor_fires n _).stays_fired
    ((p.fireHead how).afterFire_lastFire.trans (Part.fireHead_lastFire h how))
    ((p.fireHead_stills how).trans (Part.afterFire_stills _)).now

/-! ### One evaluation -/

theorem Part.settleFor_again {p q : Part} (on : p.seq.state = .running) (going : p.seq.calledOver = false) (h : p.evaluate = .again q)
    (n : Nat) : p.settleFor (n + 1) = q.settleFor n := by
  rw [Part.settleFor, if_neg (by simp [on]), going, h]
  rfl

theorem Part.settleFor_waits {p q : Part} (on : p.seq.state = .running) (going : p.seq.calledOver = false) (h : p.evaluate = .waits q)
    (n : Nat) : p.settleFor (n + 1) = q := by
  rw [Part.settleFor, if_neg (by simp [on]), going, h]
  rfl

/-- A reached head group that waits. -/
structure Entry.ready (e : Entry) : Prop where
  state : e.state = .waiting
  due : e.due ≠ none
  reached : e.reached = true

theorem Part.evaluate_ready {p : Part} {e : Entry} {rest : List Entry} (window : p.seq.window = e :: rest) (ready : e.ready) :
    p.evaluate =
      if p.earliestOf (headGroup p.seq.window) ≤ p.now then .again (p.fireHead (howReached e.due p.now)).afterFire
      else .again (p.setHead .deferred (some (p.earliestOf (headGroup p.seq.window)))) := by
  obtain ⟨state, due, reached⟩ := ready
  unfold Part.evaluate
  rw [window]
  simp [state, due, reached]

theorem Part.evaluate_deferred {p : Part} {e : Entry} {rest : List Entry} (window : p.seq.window = e :: rest)
    (state : e.state = .deferred) (due : e.due ≠ none) (reached : e.reached = true) :
    p.evaluate =
      if overtaken p.seq.window then .again p.overtake
      else if p.earliestOf (headGroup p.seq.window) ≤ p.now then .again (p.fireHead .deferred).afterFire
      else .waits { p with seq := { p.seq with deferAt := some (p.earliestOf (headGroup p.seq.window)) } } := by
  unfold Part.evaluate
  rw [window]
  simp [state, due, reached]

/-- Whether a CALLED pass is over depends on the place, the window's passes and the cursor alone (R75). -/
theorem Sequencer.calledOver_congr {q r : Sequencer} (place : q.place = r.place) (cursor : q.cursor = r.cursor)
    (keys : q.window.map Entry.key = r.window.map Entry.key) : q.calledOver = r.calledOver := by
  have passes : ∀ (w : List Entry) (pass : Half), (w.all fun e => decide (e.key.pass ≠ pass)) =
      (w.map Entry.key).all fun k => decide (k.pass ≠ pass) := fun w pass => by rw [List.all_map]; rfl
  unfold Sequencer.calledOver
  rw [passes, passes, keys, cursor, Sequencer.state_of_place place, Sequencer.currentRec_of_place place, Sequencer.pass_of_place place]

/-! ### The window's head marked reached, and DEFERRED -/

theorem afterHead_not_with {w : List Entry} {n : Entry} {more : List Entry} (h : afterHead w = n :: more) : n.isWith = false := by
  cases w with
  | nil => cases h
  | cons e rest =>
    have first := List.head?_dropWhile_not Entry.isWith rest
    rw [show rest.dropWhile Entry.isWith = n :: more from h] at first
    simpa using first

/-- A head group in a new state is the head group still, with the same entries behind it. -/
theorem headGroup_setState (w : List Entry) (st : EntryState) :
    headGroup ((headGroup w).map (fun e => { e with state := st }) ++ afterHead w) =
        (headGroup w).map (fun e => { e with state := st }) ∧
      afterHead ((headGroup w).map (fun e => { e with state := st }) ++ afterHead w) = afterHead w := by
  cases w with
  | nil => exact ⟨rfl, rfl⟩
  | cons e rest =>
    have withs : ∀ x ∈ (rest.takeWhile Entry.isWith).map (fun e => { e with state := st }), x.isWith = true := by
      intro x hx
      obtain ⟨y, hy, rfl⟩ := List.mem_map.1 hx
      exact (show y.isWith = true from List.mem_takeWhile_imp hy)
    have stops : (rest.dropWhile Entry.isWith).takeWhile Entry.isWith = [] := by
      cases behind : rest.dropWhile Entry.isWith with
      | nil => rfl
      | cons n more =>
        rw [List.takeWhile_cons, afterHead_not_with (w := e :: rest) behind]
        rfl
    have stands : (rest.dropWhile Entry.isWith).dropWhile Entry.isWith = rest.dropWhile Entry.isWith := by
      cases behind : rest.dropWhile Entry.isWith with
      | nil => rfl
      | cons n more =>
        rw [List.dropWhile_cons, afterHead_not_with (w := e :: rest) behind]
        rfl
    constructor
    · show _ :: List.takeWhile Entry.isWith (_ ++ rest.dropWhile Entry.isWith) = _
      rw [List.takeWhile_append_of_pos withs, stops, List.append_nil]
      rfl
    · show List.dropWhile Entry.isWith (_ ++ rest.dropWhile Entry.isWith) = _
      rw [List.dropWhile_append_of_pos withs, stands]
      rfl

theorem Part.setHead_window (p : Part) (st : EntryState) (t : Option Nat) :
    (p.setHead st t).seq.window = (headGroup p.seq.window).map (fun e => { e with state := st }) ++ afterHead p.seq.window := rfl

/-- Overtaking asks nothing of the head's state but that it is not CALLED. -/
theorem overtaken_setState {e : Entry} {rest : List Entry} {st : EntryState} (notCalled : st ≠ .called) (was : e.state ≠ .called) :
    overtaken ((headGroup (e :: rest)).map (fun e => { e with state := st }) ++ afterHead (e :: rest)) = overtaken (e :: rest) := by
  obtain ⟨group, behind⟩ := headGroup_setState (e :: rest) st
  unfold overtaken
  rw [group, behind]
  simp only [headGroup, List.map_cons, List.cons_append, List.all_cons, List.all_map]
  cases afterHead (e :: rest) with
  | nil => rfl
  | cons n more => simp [notCalled, was, Function.comp_def]

theorem overtaken_reached (e : Entry) (rest : List Entry) : overtaken ({ e with reached := true } :: rest) = overtaken (e :: rest) := by
  cases behind : rest.dropWhile Entry.isWith <;> simp [overtaken, headGroup, afterHead, behind]

/-- A head entry with its WITH entries, and the entry behind them. -/
theorem headGroup_shape (e : Entry) {withs : List Entry} {n : Entry} (more : List Entry) (all : ∀ x ∈ withs, x.isWith = true)
    (alone : n.isWith = false) :
    headGroup (e :: (withs ++ n :: more)) = e :: withs ∧ afterHead (e :: (withs ++ n :: more)) = n :: more := by
  constructor
  · show e :: (withs ++ n :: more).takeWhile Entry.isWith = _
    rw [List.takeWhile_append_of_pos all, List.takeWhile_cons, alone]
    simp
  · show (withs ++ n :: more).dropWhile Entry.isWith = _
    rw [List.dropWhile_append_of_pos all, List.dropWhile_cons, alone]
    rfl

theorem markReached_head {now : Nat} {e : Entry} {rest : List Entry} {d : Nat} (due : e.due = some d) (come : dueReached d now = true)
    (fresh : e.reached = false) : markReached now (e :: rest) = { e with reached := true } :: rest := by
  simp [markReached, due, come, fresh]

theorem markReached_skip {now : Nat} {e : Entry} (h : e.due = none ∨ e.reached = true) (rest : List Entry) :
    markReached now (e :: rest) = e :: markReached now rest := by
  rcases h with h | h <;> simp [markReached, h]

theorem markReached_append {now : Nat} {w : List Entry} (skips : ∀ x ∈ w, x.due = none ∨ x.reached = true) (rest : List Entry) :
    markReached now (w ++ rest) = w ++ markReached now rest := by
  induction w with
  | nil => rfl
  | cons e w ih =>
    rw [List.cons_append, markReached_skip (skips e List.mem_cons_self),
      ih fun x hx => skips x (List.mem_cons_of_mem _ hx)]
    rfl

theorem dueReached_of {d now : Nat} (come : d ≤ now) (early : d < Config.maxTime) : dueReached d now = true := by
  simp [dueReached, come, early]

/-- A due expiry that has come. -/
theorem Part.dueExpiry_come {p : Part} {e : Entry} {d : Nat} (mem : e ∈ p.seq.window) (due : e.due = some d)
    (come : dueReached d p.now = true) (fresh : e.reached = false) :
    p.dueExpiry = (p.setWindow (markReached p.now p.seq.window)).settle :=
  if_pos (List.any_eq_true.2 ⟨e, mem, by simp [due, come, fresh]⟩)

theorem exec_dueExpiry (s : State) : exec .dueExpiry s = s.event Part.dueExpiry := rfl

theorem exec_deferralExpiry (s : State) : exec .deferralExpiry s = s.event Part.deferralExpiry := rfl

/-- An event whose act ends with F at now. -/
theorem Runs.of_fired {c : Instr} {s : State} {f : Part → Part} (meaning : exec c s = s.event f) (on : s.part.enabled = true)
    (stills : s.part.Stills (f s.part)) (fired : (f s.part).seq.lastFire = some s.part.now) :
    Runs c s Part.still s.part fun q => q.seq.lastFire = some s.part.now :=
  Runs.of_stills meaning on rfl rfl stills (by rw [Part.kept_seq (Part.finish_keeps s.part _).kept]; exact fired)

/-! ### Overtaking (R71) -/

/-- The due time of an entry depends on the clock, the place and F alone (R50 to R55). -/
theorem Part.dueOf_congr {p q : Part} (stays : p.Stays q) (lastFire : q.seq.lastFire = p.seq.lastFire) (head : Bool) (e : Entry) :
    q.dueOf head e = p.dueOf head e := by
  have sections : ∀ s, q.seq.sectionAt s = p.seq.sectionAt s := fun s => by
    unfold Sequencer.sectionAt
    rw [Sequencer.book_of_place stays.place]
  have mine : q.seq.isCurrent e = p.seq.isCurrent e := by
    unfold Sequencer.isCurrent
    rw [Sequencer.pass_of_place stays.place]
  have position : q.seq.effective e = p.seq.effective e := by
    unfold Sequencer.effective
    rw [sections, mine, Sequencer.currentRec_of_place stays.place]
  have start : q.passStart e = p.passStart e := by
    unfold Part.passStart
    rw [mine, Sequencer.currentRec_of_place stays.place, Sequencer.current_of_place stays.place, stays.clock]
  unfold Part.dueOf
  rw [lastFire, sections, position, start, stays.clock]

/-- The part with its head group gone for the group behind it, reported and recorded. -/
def Part.overtaking (p : Part) (e n : Entry) (more : List Entry) : Part :=
  (Part.reportRemoved (p.setSeq { p.seq with window := n :: more, deferAt := none }) (headGroup p.seq.window)).append
    (overtakenRecord .byGroup e.cue.id (some n.cue.id) e.key e.due)

theorem Part.overtake_eq {p : Part} {e n : Entry} {rest more : List Entry} (window : p.seq.window = e :: rest)
    (behind : afterHead p.seq.window = n :: more) : p.overtake = (p.overtaking e n more).refill.recompute := by
  unfold Part.overtake Part.overtaking
  rw [behind]
  rw [window]
  rfl

theorem Part.overtaking_keeps (p : Part) (e n : Entry) (more : List Entry) :
    (p.setSeq { p.seq with window := n :: more, deferAt := none }).Keeps (p.overtaking e n more) :=
  (Part.reportRemoved_keeps _ _).trans (Part.append_keeps _ _)

theorem Part.overtaking_seq (p : Part) (e n : Entry) (more : List Entry) :
    (p.overtaking e n more).seq = { p.seq with window := n :: more, deferAt := none } :=
  Part.kept_seq (p.overtaking_keeps e n more).kept

/-- What overtaking leaves (R71). -/
theorem Part.overtake_leaves {p : Part} {e n : Entry} {rest more : List Entry} (window : p.seq.window = e :: rest)
    (behind : afterHead p.seq.window = n :: more) :
    p.overtake.seq.lastFire = p.seq.lastFire ∧ p.overtake.seq.history = p.seq.history ∧ p.overtake.seq.deferAt = none ∧
      p.overtake.clock = p.clock ∧ (∀ i, (p.overtake.lane i).kept = (p.lane i).kept) ∧
      ∃ added q, p.Stays q ∧ q.seq.lastFire = p.seq.lastFire ∧
        p.overtake.seq.window = q.refreshEntry true n :: (more ++ added).map (q.refreshEntry false) := by
  have kept := p.overtaking_keeps e n more
  have loads := (p.overtaking e n more).refill_loads
  obtain ⟨added, cursor, seq⟩ := loads.seq
  rw [Part.overtaking_seq] at seq
  have clock : (p.overtaking e n more).refill.clock = p.clock := loads.clock.trans ((Part.kept_clock kept.kept).trans rfl)
  rw [Part.overtake_eq window behind]
  refine ⟨(congrArg Sequencer.lastFire seq :), (congrArg Sequencer.history seq :), (congrArg Sequencer.deferAt seq :), clock,
    fun i => (loads.lane i).trans (Part.kept_lane kept.kept i), added, (p.overtaking e n more).refill,
    ⟨clock, (congrArg Sequencer.place seq :)⟩, (congrArg Sequencer.lastFire seq :), ?_⟩
  exact Part.recompute_cons _ (by rw [seq]; rfl)

theorem Part.foldl_withLanes {α : Type} (f : Part → α → Part) (h : ∀ (p : Part) (a : α), ∃ after, f p a = p.withLanes after)
    (xs : List α) : ∀ p : Part, ∃ after, xs.foldl f p = p.withLanes after := by
  induction xs with
  | nil => exact fun p => ⟨p.lanes, rfl⟩
  | cons x rest ih =>
    intro p
    obtain ⟨first, one⟩ := h p x
    obtain ⟨after, rest⟩ := ih (f p x)
    exact ⟨after, by rw [List.foldl_cons, rest, one]; rfl⟩

/-- Entries reported removed touch the lanes alone (R106). -/
theorem Part.reportRemoved_rest (entries : List Entry) (p : Part) : ∃ after, p.reportRemoved entries = p.withLanes after :=
  Part.foldl_withLanes _ (fun q _ => Part.foldl_withLanes _ (fun _ _ => ⟨_, rfl⟩) allLanes q) entries p

/-- With nothing to load, overtaking appends its one record. -/
theorem Part.overtake_appended {p : Part} {e n : Entry} {rest more : List Entry} (window : p.seq.window = e :: rest)
    (behind : afterHead p.seq.window = n :: more) (finished : p.seq.cursor = .finished) :
    p.appended p.overtake [overtakenRecord .byGroup e.cue.id (some n.cue.id) e.key e.due] := by
  have loaded : (p.overtaking e n more).refill = (p.overtaking e n more).noteUse := by
    have idle : (p.overtaking e n more).noteUse.loadOne = none := by
      unfold Part.loadOne
      rw [Part.noteUse_seq, Part.overtaking_seq]
      simp only [finished]
    show Part.refillFor (8199 + 1) _ = _
    rw [Part.refillFor, idle]
  rw [Part.overtake_eq window behind, loaded]
  obtain ⟨after, reported⟩ := Part.reportRemoved_rest (headGroup p.seq.window)
    (p.setSeq { p.seq with window := n :: more, deferAt := none })
  have written : p.appended (p.overtaking e n more) [overtakenRecord .byGroup e.cue.id (some n.cue.id) e.key e.due] := by
    unfold Part.overtaking
    rw [reported]
    exact Part.appended_base (by exact rfl) (by exact rfl) (by exact rfl) (Part.append_appended _ _)
  have quiet : (p.overtaking e n more).Quiet (p.overtaking e n more).noteUse.recompute :=
    ⟨Part.noteUse_journal _, congrArg Registers.notice (Part.noteUse_regs _), fun a _ => by
      rw [Part.recompute_mem, Part.noteUse_mem]⟩
  exact Part.appended_quiet written quiet

/-! ### Max dwell (R108) -/

/-- A lane whose shadow is replaced by a BLANK one, with its CLEAR (R108, R109). -/
def Lane.cleared (l : Lane) (sh : Shadow) : Lane :=
  if (l.writeShadow sh).up && !(l.writeShadow sh).blanked then (l.writeShadow sh).queueClear else l.writeShadow sh

theorem Lane.cleared_kept (l : Lane) (sh : Shadow) :
    (l.cleared sh).kept = (l.kept.withShadow sh).withExpress (l.cleared sh).express := by
  have written := l.writeShadow_kept sh
  unfold Lane.cleared
  split
  · exact ((l.writeShadow sh).queueExpress_kept _).trans (by rw [written]; rfl)
  · rw [← written]
    rfl

theorem Lane.cleared_waits {l : Lane} {sh : Shadow} (up : l.up = true) (open_ : l.blanked = false) (blank : sh.text = none) :
    ∃ x ∈ (l.cleared sh).express, x.what = .clear := by
  have sends : l.cleared sh = (l.writeShadow sh).queueClear := if_pos (by simp [up, open_])
  rw [sends]
  exact Lane.queueClear_waits (.inl blank)

theorem exec_maxDwellExpiry (s : State) (i : LaneIx) : exec (.maxDwellExpiry i) s = s.event fun p => p.maxDwellExpiry i := rfl

theorem Part.maxDwellExpiry_come {p : Part} {i : LaneIx} {t : Nat} (due : (p.lane i).maxDwellAt = some t) (come : t ≤ p.now) :
    p.maxDwellExpiry i =
      ((p.setLane i ((p.lane i).cleared (blankShadow t))).append (clearedRecord .maxDwell i (p.lane i).shadow.cue)).settle := by
  unfold Part.maxDwellExpiry
  rw [due]
  simp only [if_pos come]
  rfl

/-- Settles O29: the lane cleared, and an evaluation with nothing to do behind it. -/
theorem maxDwellClears : Obligations.MaxDwellClears := by
  intro s i t on due come
  have act := Part.maxDwellExpiry_come due come
  have serves : s.part.Serves i ((s.part.setLane i ((s.part.lane i).cleared (blankShadow t))).append
      (clearedRecord .maxDwell i (s.part.lane i).shadow.cue)) :=
    (s.part.setLane_serves i _).trans ((Part.append_keeps _ _).serves i)
  have lane : ((s.part.setLane i ((s.part.lane i).cleared (blankShadow t))).append
      (clearedRecord .maxDwell i (s.part.lane i).shadow.cue)).lane i = (s.part.lane i).cleared (blankShadow t) := by
    rw [Part.append_lane_eq, Part.lane_setLane_same]
  have written : s.part.appended ((s.part.setLane i ((s.part.lane i).cleared (blankShadow t))).append
      (clearedRecord .maxDwell i (s.part.lane i).shadow.cue)) [clearedRecord .maxDwell i (s.part.lane i).shadow.cue] :=
    Part.appended_base (b := s.part.setLane i ((s.part.lane i).cleared (blankShadow t))) rfl rfl rfl (Part.append_appended _ _)
  refine Runs.of_stills (exec_maxDwellExpiry s i) on rfl rfl (s.part.maxDwellExpiry_stills i) fun idle => ?_
  generalize (s.part.setLane i ((s.part.lane i).cleared (blankShadow t))).append
    (clearedRecord .maxDwell i (s.part.lane i).shadow.cue) = p at act serves lane written
  rw [act, serves.settle_idle idle]
  have ends := Part.finish_keeps s.part p
  have here : ((Part.finish s.part p).lane i).kept =
      ((s.part.lane i).kept.withShadow (blankShadow t)).withExpress ((s.part.lane i).cleared (blankShadow t)).express := by
    rw [Part.kept_lane ends.kept, lane, Lane.cleared_kept]
  refine ⟨(Part.kept_clock ends.kept).trans serves.clock, (Part.kept_seq ends.kept).trans serves.seq,
    (congrArg Lane.shadow here :), (congrArg Lane.maxDwellAt here :), fun up open_ => ?_, fun j other => ?_,
    Part.appended_quiet written (Part.finish_quiet _ _)⟩
  · rw [show ((Part.finish s.part p).lane i).express = ((s.part.lane i).cleared (blankShadow t)).express from
      (congrArg Lane.express here :)]
    exact Lane.cleared_waits up open_ rfl
  · have apart := Part.kept_lane (p := s.part.setLane i (p.lane i)) serves.kept j
    rw [Part.lane_setLane_other _ _ (Ne.symm other)] at apart
    exact (Part.kept_lane ends.kept j).trans apart

/-! ### A due and a deferral expiry (R57, R66, R70) -/

section
variable {p : Part} {e : Entry} {rest : List Entry}

/-- The part whose head's due time has come, marked reached. -/
def Part.headReached (p : Part) (e : Entry) (rest : List Entry) : Part := p.setWindow ({ e with reached := true } :: rest)

theorem Part.headReached_going (window : p.seq.window = e :: rest) (going : p.seq.calledOver = false) :
    (p.headReached e rest).seq.calledOver = false := by
  rw [← going]
  refine Sequencer.calledOver_congr rfl rfl ?_
  rw [window]
  rfl

theorem Part.headReached_earliest (window : p.seq.window = e :: rest) :
    (p.headReached e rest).earliestOf (headGroup (p.headReached e rest).seq.window) = p.earliestOf (headGroup p.seq.window) := by
  refine Part.earliestOf_congr (fun _ => rfl) ?_
  rw [window]
  rfl

theorem Sequencer.headDue.dueExpiry {now : Nat} (h : p.seq.headDue e rest now) (at_ : p.now = now) :
    p.dueExpiry = (p.headReached e rest).settle := by
  obtain ⟨_, window, _, fresh, _, d, due, come, early⟩ := h
  subst at_
  have reached := dueReached_of come early
  rw [Part.dueExpiry_come (by rw [window]; exact List.mem_cons_self) due reached fresh, window, markReached_head due reached fresh]
  rfl

theorem Sequencer.headDue.ready {now : Nat} (h : p.seq.headDue e rest now) : Entry.ready { e with reached := true } := by
  obtain ⟨_, _, waiting, _, _, d, due, _⟩ := h
  exact ⟨waiting, by rw [show ({ e with reached := true } : Entry).due = e.due from rfl, due]; exact nofun, rfl⟩

/-- A reached head group that no dwell holds back fires in the evaluation (R69). -/
theorem Part.settle_ready (on : p.seq.state = .running) (going : p.seq.calledOver = false) (window : p.seq.window = e :: rest)
    (ready : e.ready) (free : p.earliestOf (headGroup p.seq.window) ≤ p.now) (n : Nat) :
    (p.settleFor (n + 1)).seq.lastFire = some p.now := by
  have fires := (Part.evaluate_ready window ready).trans (if_pos free)
  rw [Part.settleFor_again on going fires]
  exact Part.fired_settle (by rw [window]; exact nofun) _ n

/-- A reached head group held back by a dwell, that nothing overtakes, is DEFERRED to E (R70). -/
theorem Part.settle_defers (on : p.seq.state = .running) (going : p.seq.calledOver = false) (window : p.seq.window = e :: rest)
    (ready : e.ready) (held : p.now < p.earliestOf (headGroup p.seq.window)) (safe : overtaken p.seq.window = false) :
    p.settle = p.setHead .deferred (some (p.earliestOf (headGroup p.seq.window))) := by
  have defers := (Part.evaluate_ready window ready).trans (if_neg (by omega))
  have shown := p.setHead_window .deferred (some (p.earliestOf (headGroup p.seq.window)))
  have group := (headGroup_setState p.seq.window .deferred).1
  have going' : (p.setHead .deferred (some (p.earliestOf (headGroup p.seq.window)))).seq.calledOver = false := by
    rw [← going]
    refine Sequencer.calledOver_congr rfl rfl ?_
    rw [shown, List.map_append, List.map_map, ← congrArg (List.map Entry.key) (headGroup_append_afterHead p.seq.window),
      List.map_append]
    rfl
  have safe' : overtaken (p.setHead .deferred (some (p.earliestOf (headGroup p.seq.window)))).seq.window = false := by
    rw [shown, ← safe, window]
    exact overtaken_setState nofun (by rw [ready.state]; exact nofun)
  have earliest : (p.setHead .deferred (some (p.earliestOf (headGroup p.seq.window)))).earliestOf
      (headGroup (p.setHead .deferred (some (p.earliestOf (headGroup p.seq.window)))).seq.window) =
      p.earliestOf (headGroup p.seq.window) := by
    refine Part.earliestOf_congr (fun _ => rfl) ?_
    rw [shown, group, List.map_map]
    rfl
  have first : ∃ more, (p.setHead .deferred (some (p.earliestOf (headGroup p.seq.window)))).seq.window =
      { e with state := .deferred } :: more := by
    rw [shown, window]
    exact ⟨_, rfl⟩
  show p.settleFor (2097151 + 1) = _
  rw [Part.settleFor_again on going defers]
  generalize hq : p.setHead .deferred (some (p.earliestOf (headGroup p.seq.window))) = q at going' safe' earliest first ⊢
  have deferral : q.seq.deferAt = some (p.earliestOf (headGroup p.seq.window)) := by rw [← hq]; rfl
  have now : q.now = p.now := by rw [← hq]; rfl
  obtain ⟨more, first⟩ := first
  have waits := Part.evaluate_deferred first rfl ready.due ready.reached
  rw [safe', earliest, now, if_neg (by simp), if_neg (by omega), ← deferral] at waits
  exact Part.settleFor_waits (by rw [← hq]; exact on) going' waits 2097150

end

/-- The deferral expiry fires the head group once it has come, and does nothing before (R70; log entry 9). -/
theorem Part.deferralExpiry_come {p : Part} {t : Nat} (at_ : p.seq.deferAt = some t) (come : t ≤ p.now) :
    p.deferralExpiry = (p.fireHead .deferred).afterFire.settle := by
  simp [Part.deferralExpiry, at_, come]

theorem Part.deferralExpiry_early {p : Part} {t : Nat} (at_ : p.seq.deferAt = some t) (early : p.now < t) : p.deferralExpiry = p := by
  simp [Part.deferralExpiry, at_, early]

/-- A DEFERRED head of AT cues without KEEP is overtaken by a reached AT group behind it (R71). -/
theorem overtaken_of {window : List Entry} {e n : Entry} {rest more : List Entry} (shape : window = e :: rest)
    (behind : afterHead window = n :: more) (deferred : e.state = .deferred) (at_ : e.cue.trigger = .atPos)
    (loose : ∀ x ∈ headGroup window, x.cue.keep = false) (at' : n.cue.trigger = .atPos) (called : n.state ≠ .called)
    (reached : n.reached = true) : overtaken window = true := by
  unfold overtaken
  rw [behind, shape]
  have all : ((headGroup (e :: rest)).all fun x => !x.cue.keep) = true :=
    List.all_eq_true.2 fun x hx => by rw [loose x (shape ▸ hx)]; rfl
  simp [deferred, at_, at', called, reached, all]

theorem Part.evaluate_overtakes {p : Part} {e : Entry} {rest : List Entry} (window : p.seq.window = e :: rest)
    (state : e.state = .deferred) (due : e.due ≠ none) (reached : e.reached = true) (over_ : overtaken p.seq.window = true) :
    p.evaluate = .again p.overtake := (Part.evaluate_deferred window state due reached).trans (if_pos over_)

/-- The group behind the head group is the same however much is loaded behind it. -/
theorem headGroup_loaded {n : Entry} {more : List Entry} (followed : afterHead (n :: more) ≠ []) (added : List Entry) :
    headGroup (n :: (more ++ added)) = headGroup (n :: more) := by
  show n :: (more ++ added).takeWhile Entry.isWith = n :: more.takeWhile Entry.isWith
  congr 1
  rw [List.takeWhile_append, if_neg]
  intro whole
  refine followed ?_
  have split_ := congrArg List.length (List.takeWhile_append_dropWhile (p := Entry.isWith) (l := more))
  rw [List.length_append, whole] at split_
  exact List.eq_nil_of_length_eq_zero (by show (more.dropWhile Entry.isWith).length = 0; omega)

/-- An overtaking group whose due time is reached and that no dwell holds back fires behind the overtaking (R71). -/
theorem Part.settle_overtakes {p : Part} {e n : Entry} {rest more : List Entry} {d : Nat} (on : p.seq.state = .running)
    (pulsed : p.seq.currentRec.kind = .pulsed) (window : p.seq.window = e :: rest) (behind : afterHead p.seq.window = n :: more)
    (state : e.state = .deferred) (due : e.due ≠ none) (reached : e.reached = true) (over_ : overtaken p.seq.window = true)
    (waiting : n.state = .waiting) (next : p.dueOf true n = some d) (come : dueReached d p.now = true)
    (followed : afterHead (n :: more) ≠ []) (free : p.earliestOf (headGroup (n :: more)) ≤ p.now) :
    p.settle.seq.lastFire = some p.now := by
  have running : ∀ q : Part, p.Stays q → q.seq.state = .running ∧ q.seq.calledOver = false := fun q stays => by
    refine ⟨(Sequencer.state_of_place stays.place).trans on, ?_⟩
    simp [Sequencer.calledOver, Sequencer.currentRec_of_place stays.place, pulsed]
  obtain ⟨_, _, _, clock, lanes, added, q, stays, lastFire, shown⟩ := Part.overtake_leaves window behind
  have now : p.overtake.now = p.now := congrArg Clock.showTime clock
  have due' : (q.refreshEntry true n).due = some d := (Part.dueOf_congr stays lastFire true n).trans next
  have ready : (q.refreshEntry true n).ready := by
    refine ⟨waiting, by rw [due']; exact nofun, ?_⟩
    show ((q.dueOf true n).any fun d => dueReached d q.now) = true
    rw [show q.dueOf true n = some d from due', show q.now = p.now from congrArg Clock.showTime stays.clock]
    exact come
  have free' : p.overtake.earliestOf (headGroup p.overtake.seq.window) ≤ p.overtake.now := by
    rw [now]
    refine le_of_eq_of_le (Part.earliestOf_congr (fun i => Lane.earliest_of_kept (lanes i)) ?_) free
    rw [shown, ← headGroup_loaded followed added]
    simp only [headGroup, List.map_cons, takeWhile_isWith_map (q.refreshEntry false) (fun _ => rfl)]
    rw [map_cue_map (q.refreshEntry false) (fun _ => rfl)]
    rfl
  have here := running p (.refl p)
  have there := running p.overtake p.overtake_stays
  show (p.settleFor (2097150 + 1 + 1)).seq.lastFire = _
  rw [Part.settleFor_again here.1 here.2 (Part.evaluate_overtakes window state due reached over_)]
  rw [Part.settle_ready there.1 there.2 shown ready free' 2097150, now]

/-- Settles O26: one evaluation of the head group, by its dwells and by the group behind it. -/
theorem expiriesFireOrDefer : Obligations.ExpiriesFireOrDefer := by
  refine ⟨fun s e rest on head => ?_, fun s t on at_ => ?_, fun p e n rest more window behind deferred reached due at_ loose at' called
    reached' => ?_, fun s e n rest more d on run pulsed window behind deferred reached due at_ skips loose at' waiting fresh nextDue
    come early next followed free => ?_⟩
  · intro earliest
    have act := head.dueExpiry rfl
    have ready := head.ready
    obtain ⟨run, window, waiting, _, going, _⟩ := head
    have going' := Part.headReached_going window going
    have earliest' := Part.headReached_earliest window
    refine ⟨fun free => ?_, fun held safe => ?_⟩
    · refine Runs.of_fired (exec_dueExpiry s) on s.part.dueExpiry_stills ?_
      rw [act]
      exact Part.settle_ready (p := s.part.headReached e rest) run going' rfl ready (earliest'.trans_le free) 2097151
    · have safe' : overtaken (s.part.headReached e rest).seq.window = false := by
        rw [← safe, window]
        exact overtaken_reached e rest
      have settled := Part.settle_defers (p := s.part.headReached e rest) run going' rfl ready (held.trans_eq earliest'.symm) safe'
      have eq : s.part.dueExpiry = s.part.setSeq
          { s.part.seq with
            window :=
              (headGroup ({ e with reached := true } :: rest)).map (fun x => { x with state := .deferred }) ++ afterHead (e :: rest)
            deferAt := some earliest } := by
        rw [act, settled, earliest']
        rfl
      refine Runs.of_keeps (exec_dueExpiry s) on rfl rfl ?_ trivial
      rw [eq]
      exact .refl _
  · refine ⟨fun come some_ => ?_, fun early => ?_⟩
    · refine Runs.of_fired (exec_deferralExpiry s) on s.part.deferralExpiry_stills ?_
      rw [Part.deferralExpiry_come at_ come]
      exact Part.fired_settle some_ _ _
    · exact Runs.unchanged (exec_deferralExpiry s) on (Part.deferralExpiry_early at_ early) trivial
  · intro q
    have over_ := overtaken_of window behind deferred at_ loose at' called reached'
    obtain ⟨lastFire, history, deferral, clock, lanes, added, r, _, _, shown⟩ := Part.overtake_leaves window behind
    refine ⟨Part.evaluate_overtakes window deferred due reached over_, lastFire, history, deferral, clock,
      fun i => (congrArg Lane.shadow (lanes i) :), ⟨added.map Entry.key, ?_⟩, Part.overtake_appended window behind⟩
    rw [shown]
    simp [Function.comp_def, Part.refreshEntry]
  · have come' := dueReached_of come early
    have mem : n ∈ s.part.seq.window := by
      rw [← headGroup_append_afterHead s.part.seq.window, behind]
      exact List.mem_append_right _ List.mem_cons_self
    have marked : markReached s.part.now s.part.seq.window = headGroup s.part.seq.window ++ { n with reached := true } :: more := by
      have group : headGroup s.part.seq.window = e :: rest.takeWhile Entry.isWith := by rw [window]; rfl
      have skipped : ∀ x ∈ headGroup s.part.seq.window, x.due = none ∨ x.reached = true := by
        rw [group]
        intro x hx
        rcases List.mem_cons.1 hx with rfl | hx
        · exact .inr reached
        · exact .inl (skips x hx)
      have whole := congrArg (markReached s.part.now) (headGroup_append_afterHead s.part.seq.window)
      rw [← whole, markReached_append skipped, behind, markReached_head nextDue come' fresh]
    have act := Part.dueExpiry_come mem nextDue come' fresh
    rw [marked] at act
    have shape : headGroup s.part.seq.window ++ { n with reached := true } :: more =
        e :: (rest.takeWhile Entry.isWith ++ { n with reached := true } :: more) := by rw [window]; rfl
    obtain ⟨group', behind'⟩ := headGroup_shape e (n := { n with reached := true }) more
      (fun x (hx : x ∈ rest.takeWhile Entry.isWith) => List.mem_takeWhile_imp hx) (show n.isWith = false from afterHead_not_with behind)
    rw [← shape] at group' behind'
    have over_ : overtaken (headGroup s.part.seq.window ++ { n with reached := true } :: more) = true :=
      overtaken_of shape behind' deferred at_ (by
        rw [group']
        rw [window] at loose
        exact loose) at' (by show n.state ≠ _; rw [waiting]; exact nofun) rfl
    refine Runs.of_fired (exec_dueExpiry s) on s.part.dueExpiry_stills ?_
    rw [act]
    exact Part.settle_overtakes (p := s.part.setWindow (headGroup s.part.seq.window ++ { n with reached := true } :: more))
      run pulsed shape behind' deferred due reached over_ waiting next come' followed free

end Sys2Proof.Machine
end

/-! PROOFS. GO (R81, R142, R143): the lockout, a vamp's exit, a fire of the current pass and of the next one behind a forced end. -/

section
namespace Sys2Proof.Machine

open Sys2Proof (LaneIx Key Instr)

/-! ### The successor resolved again (R73, R76, R77) -/

/-- The part with the sequencer's held next section replaced. -/
def Sequencer.holding (q : Sequencer) (next : Option Successor) : Sequencer := { q with heldNext := next }

/-- `q` is `p` with the held next section replaced: the clock and the rest of the place in the act are as they were. -/
structure Part.Resolves (p : Part) (next : Option Successor) (q : Part) : Prop where
  clock : q.clock = p.clock
  place : q.seq.place = (p.seq.holding next).place

theorem Part.Resolves.stays {p q r : Part} {next : Option Successor} (h : p.Resolves next q) (k : q.Stays r) : p.Resolves next r :=
  ⟨k.clock.trans h.clock, k.place.trans h.place⟩

theorem Part.Loads.stays {p q : Part} (h : p.Loads q) : p.Stays q := by
  obtain ⟨_, _, seq⟩ := h.seq
  exact ⟨h.clock, by rw [seq]; rfl⟩

theorem Part.trim_resolves (p : Part) (new : Successor) : p.Resolves (some new) (p.trim new) := by
  unfold Part.trim
  extract_lets old kept gone p1 p2 s1 p3
  have removed := p1.reportRemoved_keeps gone.reverse
  obtain ⟨d, dropped⟩ := (p1.reportRemoved gone.reverse).dropDeferral_eq (old.head?.map Entry.key)
  have eq2 : p2 = { p1.reportRemoved gone.reverse with seq := { (p1.reportRemoved gone.reverse).seq with deferAt := d } } := dropped
  have clock2 : p2.clock = p.clock := by
    rw [eq2]
    exact (Part.kept_clock removed.kept).trans rfl
  have place2 : p2.seq.place = p.seq.place := by
    rw [eq2]
    exact (congrArg Sequencer.place (Part.kept_seq removed.kept) :)
  have here : p.Resolves (some new) p3 :=
    ⟨clock2, (congrArg (fun x : Place => { x with heldNext := some new }) place2 :)⟩
  exact here.stays (p3.refill_loads.stays.trans (Part.recompute_stays _))

theorem Part.Resolves.same {p : Part} {next : Option Successor} (h : p.seq.heldNext = next) : p.Resolves next p :=
  ⟨rfl, by rw [← h]; rfl⟩

/-- The successor resolved again moves the held next section of a RUNNING sequencer, and nothing else of the place or clock. -/
theorem Part.resolveAgain_resolves {p : Part} (on : p.seq.state = .running) : p.Resolves (some p.seq.resolve) p.resolveAgain := by
  unfold Part.resolveAgain
  dsimp only
  split
  · next same => exact .same (same.resolve_left (by simp [on]))
  · split
    · exact p.trim_resolves _
    · split
      · exact Part.Resolves.stays ⟨by exact rfl, by exact rfl⟩ ((Part.refill_loads _).stays.trans (Part.recompute_stays _))
      · exact ⟨rfl, rfl⟩

theorem Part.resolveAgain_halted {p : Part} (h : p.seq.state ≠ .running) : p.resolveAgain = p := if_pos (.inl h)

/-- What the current section resolves to (R73). -/
theorem Sequencer.resolve_eq {q : Sequencer} {sect : Nat} (current : q.current = some sect) : q.resolve = q.resolvesTo sect := by
  have rec_ : q.sectionAt sect = q.currentRec := by
    unfold Sequencer.currentRec
    rw [current]
    rfl
  unfold Sequencer.resolve Sequencer.resolvesTo
  rw [current]
  dsimp only
  rw [rec_]
  have loops : (q.currentRec.vamp && !q.vampExit) = true ↔ q.currentRec.vamp = true ∧ q.vampExit = false := by
    rw [Bool.and_eq_true, Bool.not_eq_true']
  by_cases again : q.currentRec.vamp = true ∧ q.vampExit = false
  · exact (if_pos (loops.2 again)).trans (if_pos again).symm
  · refine (if_neg fun h => again (loops.1 h)).trans (Eq.trans ?_ (if_neg again).symm)
    cases q.cutOf sect <;> rfl

/-- A sequencer with the vamp exit armed (R78). -/
def Sequencer.exiting (q : Sequencer) : Sequencer := { q with vampExit := true }

/-- What an armed exit resolves to: the section's cut, or its own successor (R73, R78). -/
theorem Sequencer.resolve_exiting {q : Sequencer} {sect : Nat} (current : q.current = some sect) :
    q.exiting.resolve = match q.cutOf sect with
      | some target => .next target
      | none => q.currentRec.successor := by
  rw [Sequencer.resolve_eq (q := q.exiting) (sect := sect) current, Sequencer.resolvesTo]
  exact if_neg (by rintro ⟨_, armed⟩; cases armed)

/-- A vamp's exit armed, and the evaluation behind it (R78). -/
def Part.armExit (p : Part) : Part := (p.setSeq p.seq.exiting).resolveAgain.settle

theorem Part.armExit_stills (p : Part) : p.Stills p.armExit :=
  ((Part.resolveAgain_stills _).trans (Part.settle_stills _)).after rfl rfl rfl

/-- In a PULSED section the evaluation behind leaves what the successor resolved again does. -/
theorem Part.resolveAgain_settle {p : Part} (on : p.seq.state = .running) (pulsed : p.seq.currentRec.kind = .pulsed) :
    p.Resolves (some p.seq.resolve) p.resolveAgain.settle := by
  have resolved := Part.resolveAgain_resolves on
  refine resolved.stays (Part.settle_stays _ ?_)
  have same : p.resolveAgain.seq.currentRec = p.seq.currentRec := by
    have here : p.resolveAgain.seq.current = p.seq.current := (congrArg Place.current resolved.place :)
    have book : p.resolveAgain.seq.book = p.seq.book := (congrArg Place.book resolved.place :)
    unfold Sequencer.currentRec Sequencer.sectionAt
    rw [here, book]
  rw [same, pulsed]
  exact nofun

theorem Part.Resolves.samePlace {p q : Part} {next : Option Successor} (h : p.Resolves next q) : Machine.samePlace p q :=
  ⟨(congrArg Place.state h.place :), (congrArg Place.current h.place :), (congrArg Place.pass h.place :)⟩

theorem Part.Resolves.heldNext {p q : Part} {next : Option Successor} (h : p.Resolves next q) : q.seq.heldNext = next :=
  (congrArg Place.heldNext h.place :)

/-- What an exit armed in a PULSED section leaves, through whatever keeps it. -/
theorem Part.armExit_stands {p q : Part} (on : p.seq.state = .running) (pulsed : p.seq.currentRec.kind = .pulsed)
    (keeps : p.armExit.Keeps q) :
    q.clock = p.clock ∧ samePlace p q ∧ q.seq.vampExit = true ∧ q.seq.heldNext = some p.seq.exiting.resolve := by
  have resolved := (Part.resolveAgain_settle (p := p.setSeq p.seq.exiting) on pulsed).stays keeps.stays
  exact ⟨resolved.clock, resolved.samePlace, (congrArg Place.vampExit resolved.place :), resolved.heldNext⟩

theorem Part.armExit_leaves {p q : Part} {sect : Nat} (on : p.seq.state = .running) (current : p.seq.current = some sect)
    (pulsed : p.seq.currentRec.kind = .pulsed) (keeps : p.armExit.Keeps q) :
    q.clock = p.clock ∧ samePlace p q ∧ q.seq.vampExit = true ∧
      q.seq.heldNext = some (match p.seq.cutOf sect with
        | some target => .next target
        | none => p.seq.currentRec.successor) := by
  rw [← show p.seq.exiting.resolve = _ from Sequencer.resolve_exiting current]
  exact Part.armExit_stands on pulsed keeps

/-! ### What GO does (R143) -/

section
variable {p : Part} {e : Entry} {rest : List Entry}

theorem Part.go_nothing (h : p.seq.state ≠ .running ∨ p.seq.window = [] ∨
    ∃ e rest, p.seq.window = e :: rest ∧ e.key.pass ≠ p.seq.pass ∧ p.clock.state ≠ .held ∧
      (p.seq.currentRec.vamp = true → p.seq.vampExit = true)) : p.go = (p, .nothing, none) := by
  have case : goCase p = .nothing := by
    unfold goCase
    rcases h with halted | empty | ⟨e, rest, window, other, running, exits⟩
    · cases p.seq.window <;> simp [halted]
    · rw [empty]
    · rw [window]
      by_cases vamp : p.seq.currentRec.vamp = true
      · simp [other, running, exits vamp]
      · simp [other, running, vamp]
  simp only [Part.go, case]

/-- An open way: no vamp, or a vamp with its exit armed. -/
theorem goCase_open (on : p.seq.state = .running) (window : p.seq.window = e :: rest)
    (exits : p.seq.currentRec.vamp = true → p.seq.vampExit = true) :
    goCase p =
      if e.key.pass = p.seq.pass then .fired else if p.clock.state = .held then .forced else .nothing := by
  unfold goCase
  rw [window]
  by_cases vamp : p.seq.currentRec.vamp = true
  · simp [on, exits vamp]
  · simp [on, vamp]

theorem Part.go_fires (on : p.seq.state = .running) (window : p.seq.window = e :: rest) (own : e.key.pass = p.seq.pass)
    (exits : p.seq.currentRec.vamp = true → p.seq.vampExit = true) :
    p.go = ((p.fireHead (howByGo e)).afterFire.settle, .fired, some e.cue.id) := by
  have case : goCase p = .fired := by rw [goCase_open on window exits, if_pos own]
  have fires : p.fireByGo = (p.fireHead (howByGo e)).afterFire := by
    unfold Part.fireByGo
    rw [window]
  simp only [Part.go, case, fires, window]
  rfl

theorem Part.go_arms (on : p.seq.state = .running) (some_ : p.seq.window ≠ []) (vamp : p.seq.currentRec.vamp = true)
    (unarmed : p.seq.vampExit = false) : p.go = (p.armExit, .exitArmed, none) := by
  have case : goCase p = .exitArmed := by
    unfold goCase
    cases window : p.seq.window with
    | nil => exact absurd window some_
    | cons e rest => simp [on, vamp, unarmed]
  simp only [Part.go, case]
  rfl

/-- The part behind GO's forced end of the section (R43). -/
def Part.forcedEnd (p : Part) : Part := p.endSection .forced p.clock.state .forced

theorem Part.go_forces (on : p.seq.state = .running) (window : p.seq.window = e :: rest) (other : e.key.pass ≠ p.seq.pass)
    (held : p.clock.state = .held) (exits : p.seq.currentRec.vamp = true → p.seq.vampExit = true) :
    p.go = (p.forcedEnd.fireByGo.settle, .forced, p.forcedEnd.seq.window.head?.map fun e => e.cue.id) := by
  have case : goCase p = .forced := by rw [goCase_open on window exits, if_neg other, if_pos held]
  simp only [Part.go, case]
  rfl

/-- Behind a forced end the next pass's head group stands first, and its section is entered. -/
theorem Part.forcedEnd_enters {next : Nat} (window : p.seq.window = e :: rest) (other : e.key.pass ≠ p.seq.pass)
    (held : p.seq.heldNext = some (.next next)) :
    ∃ more f, p.forcedEnd.seq.window = f :: more ∧ f.cue = e.cue ∧ p.forcedEnd.regs.notice.getLsbD 4 = true := by
  have follows : p.seq.following .forced = .next next := by
    rw [Sequencer.following_eq (.inl rfl), held]
    rfl
  obtain ⟨q, entering, eq⟩ := p.enterSection_enters .forced next p.clock.state .forced
  have ended : p.forcedEnd = q.recompute := (Part.endSection_next follows _ _).trans eq
  obtain ⟨more, shown⟩ := entering.window
  have first : (p.seq.window.filter fun e => decide (e.key.pass ≠ p.seq.pass)) =
      e :: rest.filter fun e => decide (e.key.pass ≠ p.seq.pass) := by
    rw [window]
    exact List.filter_cons_of_pos (decide_eq_true other)
  rw [first, List.cons_append] at shown
  rw [ended]
  exact ⟨_, _, q.recompute_cons shown, rfl, entering.notice⟩

/-- A forced end that finds STOP ends the act and leaves no group to fire (R74; log entry 32). -/
theorem Part.forcedEnd_stops (held : p.seq.heldNext = some .stop) : p.forcedEnd = p.endAct .forced p.clock.state :=
  Part.endSection_stop ((Sequencer.following_eq (.inl rfl)).trans (by rw [held]; rfl)) _ _

theorem Part.forcedEnd_stills (p : Part) : p.Stills p.forcedEnd := p.endSection_stills ..

/-- GO's fire behind a forced end. -/
theorem Part.go_forced_fires {next : Nat} (on : p.seq.state = .running) (window : p.seq.window = e :: rest)
    (other : e.key.pass ≠ p.seq.pass) (held : p.clock.state = .held) (exits : p.seq.currentRec.vamp = true → p.seq.vampExit = true)
    (follows : p.seq.heldNext = some (.next next)) :
    p.go.2 = (.forced, some e.cue.id) ∧ p.go.1.seq.lastFire = some p.now ∧ p.go.1.regs.notice.getLsbD 4 = true := by
  obtain ⟨more, f, shown, cue, noticed⟩ := Part.forcedEnd_enters window other follows
  have fires : p.forcedEnd.fireByGo = (p.forcedEnd.fireHead (howByGo f)).afterFire := by
    unfold Part.fireByGo
    rw [shown]
  rw [Part.go_forces on window other held exits, fires]
  refine ⟨by rw [shown, ← cue]; rfl, ?_, ?_⟩
  · exact (Part.fired_settle (by rw [shown]; exact nofun) _ _).trans (congrArg some p.forcedEnd_stills.now)
  · exact (((p.forcedEnd.fireHead_stills _).trans (Part.afterFire_stills _)).trans (Part.settle_stills _)).notices 4 noticed

/-- GO's forced end that finds STOP. -/
theorem Part.go_forced_stops (on : p.seq.state = .running) (window : p.seq.window = e :: rest) (other : e.key.pass ≠ p.seq.pass)
    (held : p.clock.state = .held) (exits : p.seq.currentRec.vamp = true → p.seq.vampExit = true)
    (follows : p.seq.heldNext = some .stop) : p.go = (p.endAct .forced .held, .forced, none) := by
  have ended := (Part.forcedEnd_stops follows).trans (by rw [held])
  obtain ⟨_, seq, _⟩ := p.endAct_ends .forced .held
  have empty : (p.endAct .forced .held).seq.window = [] := by rw [seq]; rfl
  have stands : (p.endAct .forced .held).fireByGo = p.endAct .forced .held := by
    unfold Part.fireByGo
    rw [empty]
  rw [Part.go_forces on window other held exits, ended, stands, empty,
    Part.settle_halted (by rw [seq]; exact nofun)]
  rfl

end

/-! ### The GO key (R142) -/

/-- The part as an accepted GO press finds it: the filter held, the lockout begun. -/
def Part.pressingGo (p : Part) : Part := p.setConsole { p.console.hold .go with lastGo := some p.now }

theorem exec_goKey (s : State) : exec .goKey s = s.event fun p => p.takePress .go Part.pressGo := rfl

/-- Whether a press falls within the lockout (R142). -/
theorem Part.inLockout_iff (p : Part) :
    p.inLockout = true ↔ ∃ t, p.console.lastGo = some t ∧ p.now - t < p.clock.profile.goLockout * 1000 := by
  unfold Part.inLockout
  cases p.console.lastGo <;> simp

/-- An accepted GO press. -/
theorem State.pressed.go {s : State} (h : s.pressed .go) (accepted : s.part.inLockout = false) :
    s.part.takePress .go Part.pressGo =
      s.part.pressingGo.go.1.reportKey .go .console s.part.pressingGo.go.2.1 s.part.pressingGo.go.2.2 := by
  rw [h.act]
  refine if_neg ?_
  have same : (s.part.pressing .go).inLockout = s.part.inLockout := rfl
  rw [same, accepted]
  exact nofun

/-- An accepted GO that evaluates its group, seen less what the evaluation may change. -/
theorem State.pressed.go_runs {s : State} (h : s.pressed .go) (accepted : s.part.inLockout = false) {o : KeyOutcome} {cue : Option Half}
    (outcome : s.part.pressingGo.go.2 = (o, cue)) {post : Part → Prop}
    (after : post (Part.finish s.part (s.part.pressingGo.go.1.reportKey .go .console o cue))) :
    Runs .goKey s Part.still s.part.pressingGo post := by
  have act := h.go accepted
  rw [outcome] at act
  refine Runs.of_stills (exec_goKey s) h.1 rfl rfl ?_ ?_
  · rw [act]
    exact s.part.pressingGo.go_stills.trans (Part.reportKey_keeps _ .go .console o cue).stills
  · rw [act]
    exact after

theorem Part.keyed_keeps (before p : Part) (k : Key) (src : KeySource) (o : KeyOutcome) (cue : Option Half) :
    p.Keeps (Part.finish before (p.reportKey k src o cue)) := (p.reportKey_keeps k src o cue).trans (Part.finish_keeps before _)

/-- A GO press with nothing to do starts the lockout and leaves its KEY record. -/
theorem State.pressed.go_idle {s : State} (h : s.pressed .go) (accepted : s.part.inLockout = false)
    (idle : s.part.pressingGo.go = (s.part.pressingGo, .nothing, none)) :
    Runs .goKey s Part.kept s.part.pressingGo fun t => s.part.appended t [keyRecord .go .console .nothing none] := by
  refine Runs.of_key_alone (exec_goKey s) h rfl rfl rfl rfl ?_
  exact ((h.act Part.pressGo).symm.trans (h.go accepted)).trans (by rw [idle])

/-- Settles O31: the key's act by lockout, head group and vamp. -/
theorem goKeyWithoutFire : Obligations.GoKeyWithoutFire := by
  intro s pressed locked
  have lockout := s.part.inLockout_iff
  have open_ : ¬ locked → s.part.inLockout = false := fun free => by
    rw [← Bool.not_eq_true, lockout]
    exact free
  refine ⟨fun inside => ?_, fun free nothing => ?_, fun e rest free window other running exits => ?_,
    fun sect free on some_ current pulsed vamp unarmed => ?_⟩
  · refine Runs.of_key_alone (exec_goKey s) pressed rfl rfl rfl rfl ?_
    exact if_pos (show (s.part.pressing .go).inLockout = true from lockout.2 inside)
  · exact pressed.go_idle (open_ free) (Part.go_nothing (nothing.imp_right .inl))
  · exact pressed.go_idle (open_ free) (Part.go_nothing (.inr (.inr ⟨e, rest, window, other, running, exits⟩)))
  · have act := Part.go_arms (p := s.part.pressingGo) on some_ vamp unarmed
    refine pressed.go_runs (open_ free) (congrArg Prod.snd act) ?_
    rw [act]
    exact Part.armExit_leaves (p := s.part.pressingGo) on current pulsed (Part.keyed_keeps _ _ _ _ _ _)

/-- The records of a forced end that finds STOP, with no group of the current pass in the window (R74, R141). -/
theorem Part.endAct_appended {p : Part} (uncounted : p.journal.countRecords = false)
    (other : ∀ x ∈ p.seq.window, x.key.pass ≠ p.seq.pass) :
    p.appended (p.endAct .forced .held) [clockRecord .section_ .held p.clock.stopped] := by
  unfold Part.endAct
  extract_lets old p1 p2 p3 p4 p5 s1 p6
  have same2 : p2 = p1 := by
    show p1.reportCount .forced p1.seq.current = p1
    exact if_neg (by rw [show p1.journal.countRecords = false from uncounted]; exact nofun)
  have none_ : (old.filter fun e => decide (e.key.pass = p3.seq.pass)) = [] := by
    have pass : p3.seq.pass = p.seq.pass := by
      show p2.seq.pass = p.seq.pass
      rw [same2]
    rw [pass]
    exact List.filter_eq_nil_iff.2 fun x hx => by simpa using other x hx
  have same4 : p4 = p3 := by
    show p3.overtakeAll .actEnd (old.filter fun e => decide (e.key.pass = p3.seq.pass)) = p3
    rw [none_]
    rfl
  obtain ⟨after, reported⟩ := Part.reportRemoved_rest (old.filter fun e => decide (e.key.pass ≠ p4.seq.pass)) p4
  have eq5 : p5 = p4.withLanes after := reported
  have at6 : p6.mem = p.mem ∧ p6.journal = p.journal ∧ p6.clock = p.clock.stopped := by
    have here : p6.mem = p5.mem ∧ p6.journal = p5.journal ∧ p6.clock = p5.clock := ⟨rfl, rfl, rfl⟩
    rw [eq5, same4] at here
    have there : p3.mem = p2.mem ∧ p3.journal = p2.journal ∧ p3.clock = p2.clock := ⟨rfl, rfl, rfl⟩
    rw [same2] at there
    exact ⟨here.1.trans there.1, here.2.1.trans there.2.1, here.2.2.trans there.2.2⟩
  obtain ⟨mem, journal, clock⟩ := at6
  have moved : (p6.setNotice .end_).clock.state ≠ .held := by
    show p6.clock.state ≠ _
    rw [clock]
    exact nofun
  rw [Part.reportClock, if_neg moved, ← clock]
  have written := ((p6.setNotice .end_).setNotice .clock).append_appended (clockRecord .section_ .held p6.clock)
  have now : p6.now = p.now := by
    show p6.clock.showTime = p.clock.showTime
    rw [clock]
    rfl
  unfold Part.appended Part.roomFor Part.unread Part.readMark at written ⊢
  rw [← mem, ← journal, ← now]
  exact written

/-- Settles O32: the key's act fires the head group, behind the forced end of the section where it is the next pass's. -/
theorem goKeyFires : Obligations.GoKeyFires := by
  intro s e rest pressed apart on window exits q
  have accepted : s.part.inLockout = false := by
    rw [← Bool.not_eq_true, Part.inLockout_iff]
    rintro ⟨t, last, early⟩
    have := apart t last
    omega
  have lastFire : ∀ p : Part, ∀ o cue, (Part.finish s.part (p.reportKey .go .console o cue)).seq.lastFire = p.seq.lastFire :=
    fun p o cue => congrArg Sequencer.lastFire (Part.kept_seq (Part.keyed_keeps s.part p .go .console o cue).kept)
  refine ⟨fun own => ?_, fun next other held follows => ?_, fun other held stop => ?_⟩
  · have act := Part.go_fires (p := q) on window own exits
    refine pressed.go_runs accepted (congrArg Prod.snd act) ?_
    rw [lastFire, show s.part.pressingGo.go = _ from act]
    exact Part.fired_settle (p := q) (by rw [show q.seq.window = _ from window]; exact nofun) _ _
  · obtain ⟨outcome, fired, noticed⟩ := Part.go_forced_fires (p := q) on window other held exits follows
    refine pressed.go_runs accepted outcome ⟨?_, ?_⟩
    · rw [lastFire]
      exact fired
    · exact (Part.keyed_keeps s.part _ .go .console _ _).notices 4 noticed
  · have act := Part.go_forced_stops (p := q) on window other held exits stop
    obtain ⟨clock, seq, end_, clocked⟩ := q.endAct_ends .forced .held
    refine pressed.go_runs accepted (congrArg Prod.snd act) ?_
    rw [show s.part.pressingGo.go = _ from act]
    have keeps := Part.keyed_keeps s.part (q.endAct .forced .held) .go .console .forced none
    have clock' := (Part.kept_clock keeps.kept).trans clock
    refine ⟨Part.actEnded_of clock' ((Part.kept_seq keeps.kept).trans seq) (keeps.notices 5 end_)
      (keeps.notices 3 (clocked nofun)), ?_, fun uncounted none_ => ?_⟩
    · rw [lastFire, seq]
      rfl
    · rw [clock']
      have first := Part.endAct_appended (p := q) uncounted none_
      have both := Part.appended_append (keyRecord .go .console .forced none) first (q.endAct_stills .forced .held).now
        (q.endAct_stills .forced .held).mem.readMark
      exact Part.appended_quiet (Part.appended_base (b := q) rfl rfl rfl both) (Part.finish_quiet _ _)

end Sys2Proof.Machine
end

/-! PROOFS. BACK (R80) and the BLANK key (R147), and a request's answer with the evaluation behind it (R154). -/

section
namespace Sys2Proof.Machine

open Sys2Proof (LaneIx SlotIx Key Instr)

/-! ### BACK (R80) -/

/-- The window and the loader's cursor replaced. -/
def Part.withWindow (p : Part) (w : List Entry) (c : Cursor) : Part := p.setSeq { p.seq with window := w, cursor := c }

/-- Making room drops groups from the window's tail and moves the cursor back, and touches the staging alone beside (R80). -/
theorem Part.makeRoom_keeps (n need : Nat) : ∀ p : Part, ∃ w c, (p.withWindow w c).Keeps (p.makeRoom n need) := by
  induction n with
  | zero => exact fun p => ⟨p.seq.window, p.seq.cursor, .refl p⟩
  | succ n ih =>
    intro p
    unfold Part.makeRoom
    split
    · exact ⟨p.seq.window, p.seq.cursor, .refl p⟩
    · split
      · exact ⟨p.seq.window, p.seq.cursor, .refl p⟩
      · next e rest _ =>
        dsimp only
        generalize p.seq.window.take (p.seq.window.length - (e :: rest).length) = kept
        have removed := (p.setWindow kept).reportRemoved_keeps (e :: rest).reverse
        generalize (p.setWindow kept).reportRemoved (e :: rest).reverse = q at removed
        obtain ⟨w, c, keeps⟩ := ih (q.setCursor (q.seq.backTo e))
        refine ⟨w, c, ?_⟩
        obtain ⟨m1, n1, k1⟩ := removed
        obtain ⟨m2, n2, k2⟩ := keeps
        refine ⟨m1.trans m2, fun k hk => n2 k (n1 k hk), k2.trans ?_⟩
        have seq := Part.kept_seq k1
        show { q.kept with seq := { q.seq with window := w, cursor := c } } = _
        rw [k1, seq]
        rfl

/-- A lane given back a shadow shows it, shown now (R111). -/
theorem Lane.restore_shadow (l : Lane) (sh : Shadow) (now : Nat) (window : List Entry) :
    (l.restore sh now window).shadow = { sh with shown := now } :=
  (congrArg Lane.shadow ((l.writeShadow { sh with shown := now }).catchUp_kept window) :)

/-- One lane given back its previous shadow. -/
def Part.restoreStep (p : Part) (x : LaneIx × Shadow) : Part := p.modLane x.1 fun l => l.restore x.2 p.now p.seq.window

theorem Part.restoreSteps_rest (xs : List (LaneIx × Shadow)) (p : Part) : ∃ after, xs.foldl Part.restoreStep p = p.withLanes after :=
  Part.foldl_withLanes _ (fun _ _ => ⟨_, rfl⟩) xs p

theorem Part.restoreSteps_leaves (xs : List (LaneIx × Shadow)) (p : Part) :
    (xs.foldl Part.restoreStep p).clock = p.clock ∧ (xs.foldl Part.restoreStep p).seq = p.seq := by
  obtain ⟨after, restored⟩ := Part.restoreSteps_rest xs p
  rw [restored]
  exact ⟨rfl, rfl⟩

theorem Part.restoreSteps_other {j : LaneIx} (xs : List (LaneIx × Shadow)) :
    ∀ p : Part, j ∉ xs.map Prod.fst → (xs.foldl Part.restoreStep p).lane j = p.lane j := by
  induction xs with
  | nil => exact fun p _ => rfl
  | cons y rest ih =>
    intro p apart
    rw [List.map_cons, List.mem_cons, not_or] at apart
    exact (ih _ apart.2).trans (p.lane_setLane_other _ (Ne.symm apart.1))

theorem Part.restoreSteps_shadow (xs : List (LaneIx × Shadow)) :
    ∀ p : Part, (xs.map Prod.fst).Nodup → ∀ x ∈ xs,
      ((xs.foldl Part.restoreStep p).lane x.1).shadow = { x.2 with shown := p.now } := by
  induction xs with
  | nil => intro p _ x hx; cases hx
  | cons y rest ih =>
    intro p once x hx
    obtain ⟨fresh, once'⟩ := List.nodup_cons.1 once
    rcases List.mem_cons.1 hx with rfl | hx
    · rw [List.foldl_cons, Part.restoreSteps_other rest _ fresh]
      exact (congrArg Lane.shadow (p.lane_setLane_same x.1 _)).trans (Lane.restore_shadow ..)
    · exact ih (p.restoreStep y) once' x hx

/-- An entry brought back: CALLED, with no due time (R80). -/
def Entry.back (e : Entry) : Entry := { e with state := .called, due := none, reached := false }

/-- The part with the history replaced and room made for a group (R80's steps 1 and 2). -/
def Part.roomMade (p : Part) (g : FiredGroup) (rest : List FiredGroup) : Part :=
  (p.setSeq { p.seq with history := rest }).makeRoom Config.windowSize g.entries.length

/-- A DEFERRED head group returned to WAITING. -/
def Part.headWaits (p : Part) : Part :=
  if p.seq.window.head?.any fun e => decide (e.state = .deferred) then p.setHead .waiting none else p

/-- Entries put before the window's, with no deferral. -/
def Part.putBack (p : Part) (entries : List Entry) : Part :=
  p.setSeq { p.seq with window := entries ++ p.seq.window, deferAt := none }

/-- The part with a fired group back at its window's head and its lanes' shadows restored, before the refill (R80). -/
def Part.returning (p : Part) (g : FiredGroup) (rest : List FiredGroup) : Part :=
  g.previous.foldl Part.restoreStep ((p.roomMade g rest).headWaits.putBack (g.entries.map Entry.back)).lookAgain

theorem Part.popGroup_eq (p : Part) (g : FiredGroup) (rest : List FiredGroup) :
    p.popGroup g rest = (p.returning g rest).refill.recompute.settle := rfl

theorem Part.roomMade_leaves (p : Part) (g : FiredGroup) (rest : List FiredGroup) :
    (p.roomMade g rest).clock = p.clock ∧
      ∃ w c, (p.roomMade g rest).seq = { p.seq with history := rest, window := w, cursor := c } := by
  obtain ⟨w, c, room⟩ := Part.makeRoom_keeps Config.windowSize g.entries.length (p.setSeq { p.seq with history := rest })
  exact ⟨(Part.kept_clock room.kept).trans rfl, w, c, Part.kept_seq room.kept⟩

theorem Part.headWaits_leaves (p : Part) :
    p.headWaits.clock = p.clock ∧ ∃ w d, p.headWaits.seq = { p.seq with window := w, deferAt := d } := by
  unfold Part.headWaits
  split
  · exact ⟨rfl, _, _, rfl⟩
  · exact ⟨rfl, p.seq.window, p.seq.deferAt, rfl⟩

/-- What a group's return leaves of the sequencer and the clock. -/
theorem Part.returning_leaves (p : Part) (g : FiredGroup) (rest : List FiredGroup) :
    (p.returning g rest).clock = p.clock ∧ ∃ w c,
      (p.returning g rest).seq =
        { p.seq with history := rest, window := g.entries.map Entry.back ++ w, cursor := c, deferAt := none } := by
  obtain ⟨clock1, _, c, seq1⟩ := p.roomMade_leaves g rest
  obtain ⟨clock2, w, _, seq2⟩ := (p.roomMade g rest).headWaits_leaves
  unfold Part.returning
  generalize (p.roomMade g rest).headWaits = q at clock2 seq2
  have looked := Part.lookAgain_keeps (q.putBack (g.entries.map Entry.back))
  generalize (q.putBack (g.entries.map Entry.back)).lookAgain = r at looked
  obtain ⟨clock3, seq3⟩ := Part.restoreSteps_leaves g.previous r
  have clock4 : r.clock = q.clock := (Part.kept_clock looked.kept).trans rfl
  have seq4 : r.seq = { q.seq with window := g.entries.map Entry.back ++ q.seq.window, deferAt := none } := (Part.kept_seq looked.kept).trans rfl
  refine ⟨((clock3.trans clock4).trans clock2).trans clock1, w, c, ?_⟩
  rw [seq3, seq4, seq2, seq1]

theorem Part.returning_shadow (p : Part) (g : FiredGroup) (rest : List FiredGroup) (once : (g.previous.map Prod.fst).Nodup)
    {x : LaneIx × Shadow} (mem : x ∈ g.previous) :
    ((p.returning g rest).lane x.1).shadow = { x.2 with shown := p.now } := by
  have clock := (p.returning_leaves g rest).1
  unfold Part.returning at clock ⊢
  generalize ((p.roomMade g rest).headWaits.putBack (g.entries.map Entry.back)).lookAgain = q at clock
  rw [(Part.restoreSteps_leaves g.previous q).1] at clock
  rw [Part.restoreSteps_shadow _ q once x mem, show q.now = p.now from (congrArg Clock.showTime clock :)]

/-- The group that BACK returns waits for GO at the window's head, and the evaluation behind it does nothing (R80, R66). -/
theorem Part.popGroup_leaves (p : Part) {g : FiredGroup} {rest : List FiredGroup} (some_ : g.entries ≠ [])
    (mine : p.seq.currentRec.kind = .called → ∀ e ∈ g.entries, e.key.pass = p.seq.pass) :
    (p.popGroup g rest).clock = p.clock ∧ (p.popGroup g rest).seq.place = p.seq.place ∧
      (p.popGroup g rest).seq.lastFire = p.seq.lastFire ∧ (p.popGroup g rest).seq.history = rest ∧
      ((p.popGroup g rest).seq.window.take g.entries.length).map (fun e => (e.cue, e.key, e.state, e.due)) =
        (g.entries.map fun e => (e.cue, e.key, EntryState.called, none)) ∧
      ∀ i, ((p.popGroup g rest).lane i).kept = ((p.returning g rest).lane i).kept := by
  obtain ⟨clock, w, c, seq⟩ := p.returning_leaves g rest
  obtain ⟨more, cursor, loaded⟩ := (p.returning g rest).refill_loads.seq
  have clock' : (p.returning g rest).refill.clock = p.clock := (Part.refill_loads _).clock.trans clock
  have lane' : ∀ i, ((p.returning g rest).refill.lane i).kept = ((p.returning g rest).lane i).kept := (Part.refill_loads _).lane
  rw [seq] at loaded
  rw [Part.popGroup_eq]
  generalize (p.returning g rest).refill = q at loaded clock' lane'
  obtain ⟨e, es, entries⟩ := List.exists_cons_of_ne_nil some_
  have window : q.seq.window = e.back :: (es.map Entry.back ++ (w ++ more)) := by
    rw [loaded, entries]
    simp
  have shown := q.recompute_cons window
  have place : q.seq.place = p.seq.place := by rw [loaded]; rfl
  have settled : q.recompute.settle = q.recompute := by
    by_cases on : q.recompute.seq.state = .running
    · refine q.recompute.settle_step on ?_ ?_
      · by_cases kind : p.seq.currentRec.kind = .called
        · have own : e.key.pass = p.seq.pass := mine kind e (by rw [entries]; exact List.mem_cons_self)
          have same : q.recompute.seq.pass = p.seq.pass := Sequencer.pass_of_place (q.recompute_stays.place.trans place)
          have here : (q.recompute.seq.window.all fun e => decide (e.key.pass ≠ q.recompute.seq.pass)) = false := by
            rw [shown, same, List.all_cons, show (q.refreshEntry true e.back).key = e.key from rfl, own]
            simp
          unfold Sequencer.calledOver
          rw [here]
          simp
        · have kind' : q.recompute.seq.currentRec.kind ≠ .called := by
            rw [Sequencer.currentRec_of_place (q.recompute_stays.place.trans place)]
            exact kind
          exact Sequencer.calledOver_kind kind'
      · unfold Part.evaluate
        rw [shown]
        have called : (q.refreshEntry true e.back).state = .called := rfl
        simp [Part.heldDeferral, called]
    · exact Part.settle_halted on
  rw [settled]
  refine ⟨clock', place, by rw [Part.recompute_lastFire, loaded], by rw [Part.recompute_history, loaded], ?_, lane'⟩
  rw [shown, entries]
  have due : ∀ head f, (q.refreshEntry head (Entry.back f)).due = none := fun head f => rfl
  have length : (e :: es).length = (es.map (q.refreshEntry false ∘ Entry.back)).length + 1 := by simp
  rw [List.map_append, List.map_map, length, List.take_succ_cons, List.take_left, List.map_cons, List.map_map, List.map_cons]
  rfl

theorem Part.back_nothing {p : Part} (h : p.seq.state ≠ .running ∨ p.seq.history = []) : p.back = (p, .nothing, none) := by
  unfold Part.back
  rcases h with h | h
  · exact if_pos h
  · split
    · rfl
    · rw [h]

theorem Part.back_returns {p : Part} {g : FiredGroup} {rest : List FiredGroup} (on : p.seq.state = .running)
    (history : p.seq.history = g :: rest) :
    p.back = (p.popGroup g rest, .backed, g.entries.head?.map fun e => e.cue.id) := by
  unfold Part.back
  rw [if_neg (by simp [on]), history]

theorem exec_backKey (s : State) : exec .backKey s = s.event fun p => p.takePress .back Part.pressBack := rfl

/-- Settles O33: the group restored at the head is CALLED, so the evaluation behind it fires nothing. -/
theorem backKeyReturns : Obligations.BackKeyReturns := by
  intro s pressed q
  have act : s.part.takePress .back Part.pressBack = q.back.1.reportKey .back .console q.back.2.1 q.back.2.2 := pressed.act _
  refine ⟨fun nothing => ?_, fun g rest on history some_ mine once => ?_⟩
  · refine Runs.of_key_alone (q := q) (exec_backKey s) pressed rfl rfl rfl rfl ?_
    refine ((pressed.act Part.pressBack).symm.trans act).trans ?_
    rw [Part.back_nothing (p := q) nothing]
  · rw [Part.back_returns (p := q) on history] at act
    obtain ⟨clock, place, lastFire, history', window, lanes⟩ := Part.popGroup_leaves q (rest := rest) some_ mine
    have keeps := Part.keyed_keeps s.part (q.popGroup g rest) .back .console .backed (g.entries.head?.map fun e => e.cue.id)
    have seq := Part.kept_seq keeps.kept
    refine Runs.of_stills (exec_backKey s) pressed.1 rfl rfl ?_ ?_
    · rw [act]
      exact (q.popGroup_stills g rest).trans (Part.reportKey_keeps ..).stills
    · rw [act]
      refine ⟨(Part.kept_clock keeps.kept).trans clock, ?_, by rw [seq]; exact lastFire, by rw [seq]; exact history',
        by rw [seq]; exact window, fun x mem => ?_⟩
      · unfold samePlace
        rw [seq]
        exact ⟨Sequencer.state_of_place place, Sequencer.current_of_place place, Sequencer.pass_of_place place⟩
      · have kept := (Part.kept_lane keeps.kept x.1).trans (lanes x.1)
        exact (congrArg Lane.shadow kept :).trans (q.returning_shadow g rest once mem)

end Sys2Proof.Machine
end

/-! PROOFS. A request's answer with the evaluation behind it (R154), blanking (R94, R95, R147, R165) and the remote keys (R166). -/

section
namespace Sys2Proof.Machine

open Sys2Proof (LaneIx SlotIx Key Instr)

/-! ### A completion, behind what a request's act leaves (R154) -/

/-- An answer seen through another view. -/
theorem AnswersAs.seen {view view' : Part → Part} {n : SlotIx} {tag : Half} {r : Result} {d : List Nat} {p q q' t : Part}
    (h : AnswersAs view n tag r d p q t) (same : view' t = view' q') : AnswersAs view' n tag r d p q' t where
  ends := { memory := h.ends.memory, notices := h.ends.notices, line := h.ends.line, lamps := h.ends.lamps, view := same }
  slot := h.slot
  args := h.args
  notice := h.notice

section
variable {before q : Part} {n : SlotIx} {tag : Half} {r : Result} {d : List Nat}

theorem Part.complete_clock : (Part.complete before q n tag r d).clock = q.clock := Part.kept_clock (Part.complete_kept before q n tag r d)

theorem Part.complete_seq : (Part.complete before q n tag r d).seq = q.seq := Part.kept_seq (Part.complete_kept before q n tag r d)

theorem Part.complete_lane (i : LaneIx) : ((Part.complete before q n tag r d).lane i).kept = (q.lane i).kept :=
  Part.kept_lane (Part.complete_kept before q n tag r d) i

theorem Part.complete_still : (Part.complete before q n tag r d).still = q.still := by
  rw [← Part.still_kept, Part.complete_kept, Part.still_kept]

/-- A completion clears no notice. -/
theorem Part.complete_notices : q.noticesStay (Part.complete before q n tag r d) := fun k h =>
  (Part.setNotice_keeps _ .slot).notices k (((Part.effects_keeps before q).trans (Part.finishUpdate_keeps _)).notices k h)

end

section
variable {c : Instr} {s : State} {n : SlotIx} {tag : Half} {act : Part → Part × Result × List Nat} {q : Part} {r : Result} {d : List Nat}
  {post : Part → Prop}

/-- A request taken answers with its completion. -/
theorem State.request_runs (meaning : exec c s = s.request n tag act) (takes : s.part.takes n = true)
    (acts : act (s.part.takeSlot n) = (q, r, d)) : exec c s = .next (s.withPart (Part.complete s.part q n tag r d)) := by
  rw [meaning, s.request_taken n tag act takes, acts]

/-- A request whose act changes the part and then evaluates the head group, seen less what that may change. -/
theorem State.request_based (meaning : exec c s = s.request n tag act) (takes : s.part.takes n = true)
    (acts : act (s.part.takeSlot n) = (q, r, d)) {base view : Part} (stills : base.Stills q)
    (mem : base.mem = (s.part.takeSlot n).mem) (notices : base.regs.notice = s.part.regs.notice) (seen : base.still = view.still)
    (after : post (Part.complete s.part q n tag r d)) : Answers c s n tag r d Part.still view post :=
  ⟨_, State.request_runs meaning takes acts, rfl,
    (Part.complete_answersAs n tag r d (view := q) (mem ▸ stills.mem) (fun k hk => stills.notices k (notices ▸ hk)) rfl).seen
      (Part.complete_still.trans (stills.still.trans seen)), after⟩

/-- A request whose act evaluates the head group, seen less what that may change. -/
theorem State.request_stills (meaning : exec c s = s.request n tag act) (takes : s.part.takes n = true)
    (acts : act (s.part.takeSlot n) = (q, r, d)) (stills : (s.part.takeSlot n).Stills q)
    (after : post (Part.complete s.part q n tag r d)) : Answers c s n tag r d Part.still s.part post :=
  State.request_based meaning takes acts stills rfl rfl rfl after

/-- A request that changes nothing but the journal's ring and notices. -/
theorem State.request_keeps (meaning : exec c s = s.request n tag act) (takes : s.part.takes n = true)
    (acts : act (s.part.takeSlot n) = (q, r, d)) (keeps : (s.part.takeSlot n).Keeps q)
    (after : post (Part.complete s.part q n tag r d)) : Answers c s n tag r d Part.kept s.part post :=
  ⟨_, State.request_runs meaning takes acts, rfl, keeps.answersAs tag r d, after⟩

end

/-! ### Blanking (R94, R95) -/

/-- A lane blanked or unblanked. -/
def Lane.turned (l : Lane) (flag : Bool) (window : List Entry) : Lane :=
  match flag with
  | true => l.blank
  | false => l.unblank window

/-- Blanking and unblanking change the flag, and the staging and queue alone beside. -/
theorem Lane.turned_still (l : Lane) (flag : Bool) (window : List Entry) :
    (l.turned flag window).still = { l with blanked := flag }.still := by
  have as_is : l.blanked = flag → l.still = { l with blanked := flag }.still := fun h => by rw [← h]
  cases flag with
  | true =>
    show (l.blank).still = _
    unfold Lane.blank
    split
    · next blanked => exact as_is blanked
    · dsimp only
      split
      · exact Lane.queueClear_still _
      · rfl
  | false =>
    show (l.unblank window).still = _
    unfold Lane.unblank
    split
    · exact Lane.catchUp_still _ _
    · next open_ => exact as_is (Bool.not_eq_true _ ▸ open_)

/-- A lane blanked that is up and was not has its CLEAR in the queue. -/
theorem Lane.blank_waits {l : Lane} (up : l.up = true) (open_ : l.blanked = false) : ∃ x ∈ l.blank.express, x.what = .clear := by
  have eq : l.blank = Lane.queueClear { l with blanked := true, catchUpWaiting := false } := by
    unfold Lane.blank
    rw [if_neg (by rw [open_]; exact nofun)]
    exact if_pos up
  rw [eq]
  exact Lane.queueClear_waits (.inr rfl)

/-- What a step for each lane of a list leaves of one lane: `env` is what the steps depend on and leave. -/
theorem Part.foldl_lane {α : Type} {f : Part → LaneIx → Part} (env : Part → α) {g : α → Lane → Lane} {j : LaneIx}
    (stands : ∀ p i, env (f p i) = env p) (here : ∀ p, (f p j).lane j = g (env p) (p.lane j))
    (other : ∀ p i, j ≠ i → (f p i).lane j = p.lane j) (lanes : List LaneIx) :
    ∀ p : Part, lanes.Nodup → (lanes.foldl f p).lane j = if j ∈ lanes then g (env p) (p.lane j) else p.lane j := by
  induction lanes with
  | nil => exact fun p _ => (if_neg List.not_mem_nil).symm
  | cons i rest ih =>
    intro p once
    obtain ⟨fresh, once'⟩ := List.nodup_cons.1 once
    refine (ih (f p i) once').trans ?_
    by_cases same : j = i
    · subst same
      rw [if_neg fresh, if_pos List.mem_cons_self, here]
    · rw [other p i same, stands]
      exact if_congr (List.mem_cons.trans (or_iff_right same)).symm rfl rfl

/-- Lanes blanked or unblanked. -/
def Part.turnLanes (p : Part) (flag : Bool) (lanes : List LaneIx) : Part :=
  lanes.foldl (fun p i => p.modLane i fun l => l.turned flag p.seq.window) p

theorem Part.blankLanes_eq (p : Part) (lanes : List LaneIx) : p.blankLanes lanes = p.turnLanes true lanes := rfl

theorem Part.unblankLanes_eq (p : Part) (lanes : List LaneIx) : p.unblankLanes lanes = p.turnLanes false lanes := rfl

theorem Part.turnLanes_rest (p : Part) (flag : Bool) (lanes : List LaneIx) : ∃ after, p.turnLanes flag lanes = p.withLanes after :=
  Part.foldl_withLanes _ (fun _ _ => ⟨_, rfl⟩) lanes p

theorem Part.turnLanes_lane {flag : Bool} {j : LaneIx} (lanes : List LaneIx) (p : Part) (once : lanes.Nodup) :
    (p.turnLanes flag lanes).lane j = if j ∈ lanes then (p.lane j).turned flag p.seq.window else p.lane j :=
  Part.foldl_lane (f := fun p i => p.modLane i fun l => l.turned flag p.seq.window) (j := j) Part.seq
    (g := fun q l => l.turned flag q.window) (fun _ _ => rfl) (fun p => p.lane_setLane_same j _)
    (fun p _ apart => p.lane_setLane_other _ (Ne.symm apart)) lanes p once

/-- What stands behind lanes turned and the evaluation, but for the lanes. -/
theorem Part.turned_seen {p t : Part} {flag : Bool} {lanes : List LaneIx} (h : (p.turnLanes flag lanes).Stills t)
    (ls : Vector Lane 6) : { t.still with lanes := ls } = { p.still with lanes := ls } := by
  obtain ⟨after, eq⟩ := p.turnLanes_rest flag lanes
  rw [h.still, eq]
  rfl

/-- Lanes turned and the evaluation write in the part's own areas and clear no notice. -/
theorem Part.turned_own {p t : Part} {flag : Bool} {lanes : List LaneIx} (h : (p.turnLanes flag lanes).Stills t) :
    Memory.Reach ownByte p.mem t.mem ∧ p.noticesStay t := by
  obtain ⟨after, eq⟩ := p.turnLanes_rest flag lanes
  rw [eq] at h
  exact ⟨h.mem, h.notices⟩

/-- What stands of each lane behind lanes turned and the evaluation. -/
theorem Part.turned_lane {p t : Part} {flag : Bool} {lanes : List LaneIx} (h : (p.turnLanes flag lanes).Stills t)
    (once : lanes.Nodup) (j : LaneIx) :
    (t.lane j).still = if j ∈ lanes then { p.lane j with blanked := flag }.still else (p.lane j).still := by
  rw [Part.still_lane h.still j, Part.turnLanes_lane lanes p once]
  split
  · exact Lane.turned_still ..
  · rfl

/-- A BLANK key press with a lane to act on. -/
theorem Part.pressBlank_turns {p : Part} (some_ : ∃ i, (p.lane i).cfg.enable = true) {flag : Bool}
    (turns : flag = true ↔ ∃ i, (p.lane i).cfg.enable = true ∧ (p.lane i).blanked = false) :
    ∃ o, p.pressBlank = (p.turnLanes flag p.enabledLanes).settle.reportKey .blank .console o none := by
  have nonempty : p.enabledLanes.isEmpty = false := by
    obtain ⟨i, on⟩ := some_
    rw [List.isEmpty_eq_false_iff_exists_mem]
    exact ⟨i, List.mem_filter.2 ⟨mem_allLanes i, on⟩⟩
  have any : (p.enabledLanes.any fun i => !(p.lane i).blanked) = flag := by
    rw [Bool.eq_iff_iff, turns, List.any_eq_true]
    simp [Part.enabledLanes, mem_allLanes]
  unfold Part.pressBlank
  generalize p.enabledLanes = lanes at nonempty any
  dsimp only
  rw [nonempty, any, Part.blankLanes_eq, Part.unblankLanes_eq]
  cases flag with
  | true => exact ⟨.blanked, rfl⟩
  | false => exact ⟨.unblanked, rfl⟩

theorem exec_blankKey (s : State) : exec .blankKey s = s.event fun p => p.takePress .blank Part.pressBlank := rfl

/-- Settles O34: the turn of all enabled lanes, lane by lane. -/
theorem blankKeyTurnsLanes : Obligations.BlankKeyTurnsLanes := by
  intro s pressed q on open_
  refine ⟨fun none_ => ?_, fun some_ => ?_⟩
  · refine Runs.of_key_alone (q := q) (exec_blankKey s) pressed rfl rfl rfl rfl (if_pos ?_)
    rw [List.isEmpty_iff, Part.enabledLanes, List.filter_eq_nil_iff]
    exact fun i _ h => Bool.false_ne_true ((none_ i).symm.trans h)
  · obtain ⟨o, press⟩ := Part.pressBlank_turns (p := q) some_ (flag := decide open_) decide_eq_true_iff
    have act : s.part.takePress .blank Part.pressBlank = _ := (pressed.act _).trans press
    have acts : (q.turnLanes (decide open_) q.enabledLanes).Stills (s.part.takePress .blank Part.pressBlank) := by
      rw [act]
      exact (Part.settle_stills _).trans (Part.reportKey_keeps _ _ _ _ _).stills
    have stills := acts.trans (Part.finish_keeps s.part _).stills
    have once : q.enabledLanes.Nodup := allLanes_nodup.filter _
    refine ⟨_, (exec_blankKey s).trans (s.event_running _ pressed.1), rfl, ?_, fun i => ?_⟩
    · obtain ⟨mem, notices⟩ := Part.turned_own acts
      exact Part.finish_endsAs mem notices (Part.turned_seen stills s.part.lanes)
    · have lane := Part.turned_lane stills once i
      have member : i ∈ q.enabledLanes ↔ on i = true := List.mem_filter.trans (and_iff_right (mem_allLanes i))
      refine ⟨fun off => ?_, fun enabled opens => ?_, fun enabled closed => ?_⟩
      · rw [if_neg (by rw [member, off]; exact nofun)] at lane
        exact lane
      · rw [if_pos (member.2 enabled), decide_eq_true opens] at lane
        exact lane
      · rw [if_pos (member.2 enabled), decide_eq_false closed] at lane
        exact lane

/-- BLANK and UNBLANK carried out (R165). -/
def Part.turnMask (p : Part) (flag : Bool) (mask : Word) : Part × Result × List Nat :=
  if flag then p.blankMask mask else p.unblankMask mask

theorem exec_turn (s : State) (n : SlotIx) (tag : Half) (mask : Word) (flag : Bool) :
    exec (if flag then .blank n tag mask else .unblank n tag mask) s = s.request n tag fun p => p.turnMask flag mask := by
  cases flag with
  | true => exact exec_blank s n tag mask
  | false => exact exec_unblank s n tag mask

theorem Part.turnMask_beyond (p : Part) {flag : Bool} {mask : Word} (h : 64 ≤ mask.toNat) :
    p.turnMask flag mask = (p, .badArg, []) := by
  cases flag with
  | true => exact if_pos h
  | false => exact if_pos h

theorem Part.turnMask_lanes (p : Part) {flag : Bool} {mask : Word} (h : mask.toNat < 64) :
    p.turnMask flag mask =
      ((p.turnLanes flag (p.lanesToChange mask flag)).settle, .ok, [(laneMask (p.lanesToChange mask flag)).toNat]) := by
  cases flag with
  | true => exact if_neg (Nat.not_le.2 h)
  | false => exact if_neg (Nat.not_le.2 h)

/-- The lanes of a mask whose flag is not as asked. -/
theorem Part.lanesToChange_eq (p : Part) (mask : Word) (flag : Bool) :
    p.lanesToChange mask flag = allLanes.filter fun i => mask.getLsbD i.val && ((p.lane i).blanked != flag) := by
  unfold Part.lanesToChange lanesOf
  rw [List.filter_filter]
  refine List.filter_congr fun i _ => ?_
  rw [BitVec.getLsbD_setWidth, decide_eq_true i.isLt, Bool.true_and, Bool.and_comm]

/-- Settles O48: the turn of the mask's lanes, lane by lane. -/
theorem lanesAreBlanked : Obligations.LanesAreBlanked := by
  intro s n tag mask flag takes c changed
  have meaning : exec c s = s.request n tag fun p => p.turnMask flag mask := exec_turn s n tag mask flag
  refine ⟨fun beyond => State.request_refused meaning takes (Part.turnMask_beyond _ beyond), fun within => ?_⟩
  have these : (s.part.takeSlot n).lanesToChange mask flag = changed := Part.lanesToChange_eq _ mask flag
  have acts := (s.part.takeSlot n).turnMask_lanes (flag := flag) within
  rw [these] at acts
  have stills := ((s.part.takeSlot n).turnLanes flag changed).settle_stills
  obtain ⟨mem, notices⟩ := Part.turned_own stills
  have once : changed.Nodup := allLanes_nodup.filter _
  have member : ∀ i, i ∈ changed ↔ mask.getLsbD i.val = true ∧ (s.part.lane i).blanked ≠ flag := fun i => by
    simp [changed, mem_allLanes]
  refine ⟨_, State.request_runs meaning takes acts, rfl, ?_, fun i => ⟨fun out => ?_, fun inside => ?_, fun on mem up idle => ?_⟩⟩
  · exact (Part.complete_answersAs n tag .ok _ (view := ((s.part.takeSlot n).turnLanes flag changed).settle) mem notices rfl).seen
      ((congrArg (fun p => { p with lanes := s.part.lanes }) Part.complete_still).trans (Part.turned_seen stills s.part.lanes))
  · refine (Part.still_lane Part.complete_still i).trans ((Part.turned_lane stills once i).trans (if_neg ?_))
    rw [member, out]
    exact fun h => Bool.false_ne_true h.1
  · refine (Part.still_lane Part.complete_still i).trans ((Part.turned_lane stills once i).trans ?_)
    split
    · rfl
    · next same =>
      have already : (s.part.lane i).blanked = flag := by
        by_contra other
        exact same ((member i).2 ⟨inside, other⟩)
      rw [← already]
      rfl
  · subst on
    have still_there : ((s.part.takeSlot n).turnLanes true changed).settle = (s.part.takeSlot n).turnLanes true changed := by
      obtain ⟨after, eq⟩ := (s.part.takeSlot n).turnLanes_rest true changed
      exact Part.settle_idle _ (by rw [eq]; exact idle)
    have lane := Part.turnLanes_lane (flag := true) (j := i) changed (s.part.takeSlot n) once
    rw [if_pos mem] at lane
    have waits := Lane.blank_waits up (Bool.eq_false_iff.2 ((member i).1 mem).2)
    have settled : (((s.part.takeSlot n).turnLanes true changed).settle.lane i).kept = (s.part.lane i).blank.kept := by
      rw [still_there, lane]
      rfl
    have waiting : ∀ l : Lane, l.kept = (s.part.lane i).blank.kept → ∃ x ∈ l.express, x.what = .clear := fun l h => by
      rw [show l.express = (s.part.lane i).blank.express from (congrArg Lane.express h :)]
      exact waits
    exact waiting _ ((Part.complete_lane i).trans settled)

/-! ### VAMP_EXIT (R78, R160) -/

/-- Settles O44: arming resolves the section again, and the answer says whether it was armed. -/
theorem vampExitArms : Obligations.VampExitArms := by
  intro s n tag takes q vamp
  refine ⟨fun none_ => ?_, fun here armed => ?_, fun here unarmed pulsed => ?_⟩
  · exact State.request_refused (exec_vampExit s n tag) takes (if_pos none_)
  · refine State.request_keeps (exec_vampExit s n tag) takes (q := s.part.takeSlot n) ?_ (.refl _) trivial
    exact (if_neg (not_not.2 here)).trans (if_pos armed)
  · obtain ⟨on, isVamp⟩ := here
    refine State.request_stills (exec_vampExit s n tag) takes (q := (s.part.takeSlot n).armExit) ?_ (Part.armExit_stills _) ?_
    · exact (if_neg (not_not.2 ⟨on, isVamp⟩)).trans (if_neg (by rw [show (s.part.takeSlot n).seq.vampExit = false from unarmed]; exact nofun))
    · obtain ⟨clock, place, exit_, _⟩ := Part.armExit_stands (p := s.part.takeSlot n) on pulsed (.refl _)
      unfold samePlace
      rw [Part.complete_clock, Part.complete_seq]
      exact ⟨clock, place, exit_⟩

/-! ### The remote keys (R148, R166) -/

/-- A remote key's answer: its KEY record, then the outcome and the cue id. -/
def Part.keyAnswered (before q : Part) (n : SlotIx) (tag : Half) (k : Key) (o : KeyOutcome) (cue : Option Half) : Part :=
  Part.complete before (q.reportKey k .remote o cue) n tag .ok [o.code, optWord (cue.map BitVec.toNat)]

section
variable {before q : Part} {n : SlotIx} {tag : Half} {k : Key} {o : KeyOutcome} {cue : Option Half}

theorem Part.keyAnswered_clock : (Part.keyAnswered before q n tag k o cue).clock = q.clock :=
  Part.complete_clock.trans (Part.kept_clock (q.reportKey_keeps k .remote o cue).kept)

theorem Part.keyAnswered_seq : (Part.keyAnswered before q n tag k o cue).seq = q.seq :=
  Part.complete_seq.trans (Part.kept_seq (q.reportKey_keeps k .remote o cue).kept)

theorem Part.keyAnswered_notices : q.noticesStay (Part.keyAnswered before q n tag k o cue) := fun i h =>
  Part.complete_notices i ((q.reportKey_keeps k .remote o cue).notices i h)

end

theorem Part.requestKey_eq {p q : Part} {k : Key} {act : Part → Part × KeyOutcome × Option Half} {o : KeyOutcome} {cue : Option Half}
    (acts : act p = (q, o, cue)) :
    p.requestKey k act = (q.reportKey k .remote o cue, .ok, [o.code, optWord (cue.map BitVec.toNat)]) := by
  unfold Part.requestKey Part.remotePress
  rw [acts]

theorem Part.remoteKey_go (p : Part) {key : Word} (h : key.toNat = 1) : p.remoteKey key = p.requestKey .go Part.go := by
  simp only [Part.remoteKey, h]

theorem Part.remoteKey_back (p : Part) {key : Word} (h : key.toNat = 2) : p.remoteKey key = p.requestKey .back Part.back := by
  simp only [Part.remoteKey, h]

theorem Part.remoteKey_hold (p : Part) {key : Word} (h : key.toNat = 3) :
    p.remoteKey key = p.requestKey .hold fun p => (p.hold.1, p.hold.2, none) := by
  simp only [Part.remoteKey, h]

theorem Part.remoteKey_other (p : Part) {key : Word} (h1 : key.toNat ≠ 1) (h2 : key.toNat ≠ 2) (h3 : key.toNat ≠ 3) :
    p.remoteKey key = (p, .badArg, []) := by
  unfold Part.remoteKey
  split
  · contradiction
  · contradiction
  · contradiction
  · rfl

section
variable {s : State} {n : SlotIx} {tag : Half} {key : Word} {k : Key} {act : Part → Part × KeyOutcome × Option Half}
  {o : KeyOutcome} {cue : Option Half} {post : Part → Prop}

/-- A remote key whose act evaluates the head group. -/
theorem State.remote_stills {q : Part} (names : ∀ p : Part, p.remoteKey key = p.requestKey k act) (takes : s.part.takes n = true)
    (acts : act (s.part.takeSlot n) = (q, o, cue)) (stills : (s.part.takeSlot n).Stills q)
    (after : post (Part.keyAnswered s.part q n tag k o cue)) :
    Answers (.remoteKey n tag key) s n tag .ok [o.code, optWord (cue.map BitVec.toNat)] Part.still s.part post :=
  State.request_stills (exec_remoteKey s n tag key) takes ((names _).trans (Part.requestKey_eq acts))
    (stills.trans (Part.reportKey_keeps ..).stills) after

/-- A remote key that does nothing leaves only its KEY record. -/
theorem State.remote_idle (names : ∀ p : Part, p.remoteKey key = p.requestKey k act) (takes : s.part.takes n = true)
    (acts : act (s.part.takeSlot n) = (s.part.takeSlot n, o, none)) :
    Answers (.remoteKey n tag key) s n tag .ok [o.code, absent] Part.kept s.part fun t =>
      s.part.appended t [keyRecord k .remote o none] :=
  State.request_keeps (exec_remoteKey s n tag key) takes ((names _).trans (Part.requestKey_eq acts)) (Part.reportKey_keeps ..)
    (Part.complete_appended (Part.appended_of_takeSlot (Part.append_appended _ _)))

end

/-- Settles O49: the key's act without lockout, and the outcome it answers. -/
theorem remoteKeysAct : Obligations.RemoteKeysAct := by
  intro s n tag key takes c k
  refine ⟨fun n1 n2 n3 => State.request_refused (exec_remoteKey s n tag key) takes (Part.remoteKey_other _ n1 n2 n3),
    fun e rest one on window own exits => ?_, fun sect one on some_ current pulsed vamp unarmed => ?_,
    fun e rest one on window other held exits => ⟨fun next follows => ?_, fun stop => ?_⟩, fun one nothing => ?_,
    fun g rest e more two on history entries mine => ?_, fun two nothing => ?_, fun three runs pulsed => ?_, fun three rests => ?_⟩
  · have act := Part.go_fires (p := s.part.takeSlot n) on window own exits
    have stills := (s.part.takeSlot n).go_stills
    rw [act] at stills
    refine State.remote_stills (Part.remoteKey_go · one) takes act stills ?_
    · rw [Part.keyAnswered_seq]
      exact Part.fired_settle (by rw [show (s.part.takeSlot n).seq.window = _ from window]; exact nofun) _ _
  · refine State.remote_stills (Part.remoteKey_go · one) takes (Part.go_arms (p := s.part.takeSlot n) on some_ vamp unarmed)
      (Part.armExit_stills _) ?_
    unfold samePlace
    rw [Part.keyAnswered_clock, Part.keyAnswered_seq]
    exact Part.armExit_leaves (p := s.part.takeSlot n) on current pulsed (.refl _)
  · obtain ⟨outcome, fired, noticed⟩ := Part.go_forced_fires (p := s.part.takeSlot n) on window other held exits follows
    have act : (s.part.takeSlot n).go = ((s.part.takeSlot n).go.1, .forced, some e.cue.id) := Prod.ext rfl outcome
    have stills := (s.part.takeSlot n).go_stills
    generalize (s.part.takeSlot n).go.1 = q at act stills fired noticed
    refine State.remote_stills (Part.remoteKey_go · one) takes act stills ⟨?_, Part.keyAnswered_notices 4 noticed⟩
    rw [Part.keyAnswered_seq]
    exact fired
  · refine State.remote_stills (Part.remoteKey_go · one) takes
      (Part.go_forced_stops (p := s.part.takeSlot n) on window other held exits stop) (Part.endAct_stills ..) ?_
    obtain ⟨clock, seq, end_, clocked⟩ := (s.part.takeSlot n).endAct_ends .forced .held
    refine ⟨Part.actEnded_of (Part.keyAnswered_clock.trans clock) (Part.keyAnswered_seq.trans seq) (Part.keyAnswered_notices 5 end_)
      (Part.keyAnswered_notices 3 (clocked nofun)), ?_⟩
    rw [Part.keyAnswered_seq, seq]
    rfl
  · exact State.remote_idle (Part.remoteKey_go · one) takes (Part.go_nothing (p := s.part.takeSlot n) nothing)
  · have returns := Part.back_returns (p := s.part.takeSlot n) on history
    rw [entries] at returns
    obtain ⟨clock, place, lastFire, history', window, _⟩ :=
      Part.popGroup_leaves (s.part.takeSlot n) (g := g) (rest := rest) (by rw [entries]; exact nofun) mine
    refine State.remote_stills (Part.remoteKey_back · two) takes returns (Part.popGroup_stills ..) ?_
    unfold samePlace
    rw [Part.keyAnswered_clock, Part.keyAnswered_seq]
    exact ⟨clock, ⟨Sequencer.state_of_place place, Sequencer.current_of_place place, Sequencer.pass_of_place place⟩, lastFire, history',
      window⟩
  · exact State.remote_idle (Part.remoteKey_back · two) takes (Part.back_nothing (p := s.part.takeSlot n) nothing)
  · have holds : (fun p : Part => (p.hold.1, p.hold.2, (none : Option Half))) (s.part.takeSlot n) =
        ((s.part.takeSlot n).heldHere.settle, .held, none) := by
      dsimp only
      rw [Part.hold_running (p := s.part.takeSlot n) runs]
    refine State.remote_stills (Part.remoteKey_hold · three) takes holds (Part.heldHere_stills _ |>.trans (Part.settle_stills _)) ?_
    rw [Part.keyAnswered_clock, (Part.heldHere_stays (p := s.part.takeSlot n) pulsed).clock, ← Clock.fraction_running runs]
    rfl
  · refine State.remote_idle (o := .ignored) (Part.remoteKey_hold · three) takes ?_
    rw [Part.hold_resting (p := s.part.takeSlot n) rests]

end Sys2Proof.Machine
end

/-! PROOFS. The cut map's requests (R76, R159) and the trim to a new held next section (R77). -/

section
namespace Sys2Proof.Machine

open Sys2Proof (LaneIx SlotIx Instr)

/-! ### What the loader reads beyond the current pass (R64, R77) -/

/-- A cursor beyond the current pass under a successor: at its end, or in that pass of the section that follows. -/
def Cursor.follows (c : Cursor) (new : Successor) (pass : Half) : Prop :=
  c = .finished ∨ ∃ sect offset index left lost, new = .next sect ∧ c = .reading pass sect offset index left lost

/-- An entry as the loader puts it into the window (R18). -/
def Entry.loaded (cue : Cue) (key : EntryKey) : Entry :=
  { cue := cue, key := key, state := .waiting, due := none, reached := false, qe := none }

/-- What a refill keeps of the sequencer: what the end of a pass's list, a record skipped and a cue taken keep (R64). -/
structure LoaderKeeps (P : Sequencer → Prop) : Prop where
  ends : ∀ q pass sect offset index lost, P q → q.cursor = .reading pass sect offset index 0 lost →
    P { q with cursor := q.afterPass pass }
  skips : ∀ q pass sect offset index left lost offset' index' left' lost', P q →
    q.cursor = .reading pass sect offset index left lost →
    P { q with cursor := .reading pass sect offset' index' left' lost' }
  takes : ∀ q pass sect offset index left lost cue offset' index' left' lost', P q →
    q.cursor = .reading pass sect offset index left lost →
    P { q with
      window := q.window ++ [Entry.loaded cue { sect := sect, pass := pass, offset := offset, index := index }]
      cursor := .reading pass sect offset' index' left' lost' }

section
variable {P : Sequencer → Prop}

theorem LoaderKeeps.readCue (keeps : LoaderKeeps P) {p : Part} {pass : Half} {sect offset index left : Nat} {lost : Bool} (h : P p.seq)
    (reading : p.seq.cursor = .reading pass sect offset index left lost) : P (p.readCue pass sect offset index left lost).seq := by
  have skipped : ∀ offset' index' left' lost' code id,
      P ((p.setCursor (.reading pass sect offset' index' left' lost')).badCue code sect pass offset id).seq :=
    fun offset' index' left' lost' code id => by
      rw [Part.badCue, Part.kept_seq (Part.append_keeps _ _).kept]
      exact keeps.skips _ _ _ _ _ _ _ _ _ _ _ h reading
  unfold Part.readCue
  simp only
  split
  · exact skipped _ _ _ _ _ _
  · split
    · exact skipped _ _ _ _ _ _
    · split
      · exact skipped _ _ _ _ _ _
      · exact keeps.takes _ _ _ _ _ _ _ _ _ _ _ _ h reading

theorem LoaderKeeps.loadOne (keeps : LoaderKeeps P) {p q : Part} (h : P p.seq) (loads : p.loadOne = some q) : P q.seq := by
  unfold Part.loadOne at loads
  split at loads
  · cases loads
  · next pass sect offset index left lost reading =>
    split at loads
    · next none_ =>
      cases loads
      exact keeps.ends _ _ _ _ _ _ h (none_ ▸ reading)
    · split at loads
      · cases loads
        exact keeps.readCue h reading
      · cases loads

theorem LoaderKeeps.refillFor (keeps : LoaderKeeps P) (n : Nat) : ∀ p : Part, P p.seq → P (p.refillFor n).seq := by
  have noted : ∀ p : Part, p.noteUse.seq = p.seq := fun p => Part.kept_seq p.noteUse_keeps.kept
  induction n with
  | zero => exact fun p h => (noted p).symm ▸ h
  | succ n ih =>
    intro p h
    unfold Part.refillFor
    split
    · next q loads => exact ih q (keeps.loadOne ((noted p).symm ▸ h) loads)
    · exact (noted p).symm ▸ h

theorem LoaderKeeps.refill (keeps : LoaderKeeps P) {p : Part} (h : P p.seq) : P p.refill.seq := keeps.refillFor _ p h

end

/-- Behind a window the loader has read entries of the section that follows alone, and reads on there. -/
structure Sequencer.Follows (w : List Entry) (new : Successor) (pass : Half) (q : Sequencer) : Prop where
  beyond : pass ≠ q.pass
  cursor : q.cursor.follows new pass
  window : ∃ more, q.window = w ++ more ∧ ∀ e ∈ more, new = .next e.key.sect ∧ e.key.pass = pass

theorem Cursor.follows_reading {new : Successor} {pass pass' : Half} {sect offset index left : Nat} {lost : Bool}
    (h : Cursor.follows (.reading pass' sect offset index left lost) new pass) : new = .next sect ∧ pass' = pass := by
  rcases h with h | ⟨sect', offset', index', left', lost', next, h⟩
  · cases h
  · cases h
    exact ⟨next, rfl⟩

theorem Sequencer.follows_keeps (w : List Entry) (new : Successor) (pass : Half) : LoaderKeeps (Sequencer.Follows w new pass) where
  ends q pass' sect offset index lost h reading := by
    obtain ⟨_, rfl⟩ := Cursor.follows_reading (reading ▸ h.cursor)
    exact ⟨h.beyond, .inl (if_neg h.beyond), h.window⟩
  skips q pass' sect offset index left lost offset' index' left' lost' h reading := by
    obtain ⟨next, rfl⟩ := Cursor.follows_reading (reading ▸ h.cursor)
    exact ⟨h.beyond, .inr ⟨sect, _, _, _, _, next, rfl⟩, h.window⟩
  takes q pass' sect offset index left lost cue offset' index' left' lost' h reading := by
    obtain ⟨next, rfl⟩ := Cursor.follows_reading (reading ▸ h.cursor)
    obtain ⟨more, window, all⟩ := h.window
    refine ⟨h.beyond, .inr ⟨sect, _, _, _, _, next, rfl⟩, more ++ [_], by rw [window, List.append_assoc], fun e mem => ?_⟩
    rcases List.mem_append.1 mem with mem | mem
    · exact all e mem
    · rw [List.mem_singleton.1 mem]
      exact ⟨next, rfl⟩

theorem Sequencer.nextPassCursor_follows (q : Sequencer) (new : Successor) :
    (q.nextPassCursor (some new)).follows new (q.pass + 1) := by
  cases new with
  | stop => exact .inl rfl
  | next sect => exact .inr ⟨sect, _, _, _, _, rfl, rfl⟩

theorem next_pass_ne (pass : Half) : pass + 1 ≠ pass := by bv_omega

theorem Part.recompute_keys (p : Part) : p.recompute.seq.window.map Entry.key = p.seq.window.map Entry.key := by
  cases window : p.seq.window with
  | nil =>
    unfold Part.recompute
    rw [window]
  | cons e rest =>
    rw [p.recompute_cons window, List.map_cons, List.map_map]
    rfl

/-! ### The trim (R77) -/

/-- What a trim leaves: the history, the shadows and the current pass's entries, behind which the loader reads the new next section. -/
theorem Part.trim_leaves (p : Part) (new : Successor) :
    (p.trim new).seq.history = p.seq.history ∧ (∀ i, ((p.trim new).lane i).shadow = (p.lane i).shadow) ∧
      ∃ loaded,
        (p.trim new).seq.window.map Entry.key =
          (p.seq.window.filter fun x => decide (x.key.pass = p.seq.pass)).map Entry.key ++ loaded ∧
        ∀ k ∈ loaded, new = .next k.sect ∧ k.pass = p.seq.pass + 1 := by
  unfold Part.trim
  extract_lets old kept gone p1 p2 s1 p3
  have removed := p1.reportRemoved_keeps gone.reverse
  obtain ⟨d, dropped⟩ := (p1.reportRemoved gone.reverse).dropDeferral_eq (old.head?.map Entry.key)
  have eq2 : p2 = { p1.reportRemoved gone.reverse with seq := { (p1.reportRemoved gone.reverse).seq with deferAt := d } } := dropped
  have seq2 : p2.seq = { p.seq with window := kept, deferAt := d } := by
    rw [eq2]
    show { (p1.reportRemoved gone.reverse).seq with deferAt := d } = _
    rw [Part.kept_seq removed.kept]
    rfl
  have lane2 : ∀ i, (p2.lane i).kept = (p.lane i).kept := fun i => by
    rw [eq2]
    exact Part.kept_lane removed.kept i
  have follows : Sequencer.Follows kept new (p.seq.pass + 1) p3.seq := by
    refine ⟨?_, ?_, [], ?_, nofun⟩
    · show _ ≠ p2.seq.pass
      rw [seq2]
      exact next_pass_ne _
    · show Cursor.follows (p2.seq.nextPassCursor (some new)) new _
      have pass : p2.seq.pass = p.seq.pass := by rw [seq2]
      rw [← pass]
      exact p2.seq.nextPassCursor_follows new
    · show p2.seq.window = _
      rw [seq2, List.append_nil]
  obtain ⟨more, window, all⟩ := ((Sequencer.follows_keeps _ _ _).refill follows).window
  have loads := p3.refill_loads
  refine ⟨?_, fun i => ?_, more.map Entry.key, ?_, fun k mem => ?_⟩
  · obtain ⟨_, _, loaded⟩ := loads.seq
    show p3.refill.seq.history = _
    rw [loaded]
    show p2.seq.history = _
    rw [seq2]
  · exact (congrArg Lane.shadow ((loads.lane i).trans (lane2 i)) :)
  · rw [Part.recompute_keys, show p3.refill.seq.window = _ from window, List.map_append]
  · obtain ⟨e, read, rfl⟩ := List.mem_map.1 mem
    exact all e read

theorem Sequencer.loadsNext.begunNext {q : Sequencer} (h : q.loadsNext) : q.begunNext = true := by
  unfold Sequencer.begunNext
  rcases h with ⟨pass, sect, offset, index, left, lost, cursor, other⟩ | ⟨cursor, next⟩
  · rw [cursor]
    exact decide_eq_true other
  · rw [cursor]
    exact decide_eq_true next

/-! ### The cut map's requests (R159) -/

/-- The sequencer with one entry of the cut map written. -/
def Sequencer.cutting (q : Sequencer) (sect : Nat) (target : Option Nat) : Sequencer :=
  { q with cuts := q.cuts.setIfInBounds sect target }

theorem Sequencer.cutOf_cutting (q : Sequencer) {sect : Nat} (target : Option Nat) (h : sect < 128) :
    (q.cutting sect target).cutOf sect = target := by
  unfold Sequencer.cutOf Sequencer.cutting
  simp [h]

theorem Part.writeCut_current (p : Part) {sect : Nat} (target : Option Nat) (h : p.seq.current = some sect) :
    p.writeCut sect target = (p.setSeq (p.seq.cutting sect target)).resolveAgain.settle := if_pos h

theorem Part.writeCut_other (p : Part) {sect : Nat} (target : Option Nat) (h : p.seq.current ≠ some sect) :
    p.writeCut sect target = p.setSeq (p.seq.cutting sect target) := if_neg h

theorem Part.writeCut_stills (p : Part) (sect : Nat) (target : Option Nat) :
    (p.setSeq (p.seq.cutting sect target)).Stills (p.writeCut sect target) := by
  by_cases h : p.seq.current = some sect
  · rw [p.writeCut_current target h]
    exact (Part.resolveAgain_stills _).trans (Part.settle_stills _)
  · rw [p.writeCut_other target h]
    exact .refl _

/-- The request that SET_CUT and CLEAR_CUT both are. -/
theorem exec_cut (s : State) (n : SlotIx) (tag : Half) (sect : Word) (target : Option Word) :
    exec (match target with
      | some t => Instr.setCut n tag sect t
      | none => Instr.clearCut n tag sect) s =
      s.request n tag fun p => p.requestCut sect.toNat (target.map BitVec.toNat) := by
  cases target with
  | some t => exact exec_setCut s n tag sect t
  | none => exact exec_clearCut s n tag sect

section
variable {p : Part} {sect : Nat} {target : Option Nat}

theorem Part.requestCut_untaken (h : ¬ (p.seq.state = .loaded ∨ p.seq.state = .running ∨ p.seq.state = .ended)) :
    p.requestCut sect target = (p, .state, []) := by
  refine if_pos ?_
  simpa [Sequencer.takesCuts] using h

theorem Part.requestCut_taken (held : p.seq.state = .loaded ∨ p.seq.state = .running ∨ p.seq.state = .ended) :
    p.requestCut sect target =
      if p.seq.sectionCount ≤ sect ∨ target.any (fun t => decide (p.seq.sectionCount ≤ t)) then (p, .badArg, [])
      else (p.writeCut sect target, .ok, [optWord (p.seq.cutOf sect)]) := by
  refine if_neg ?_
  rw [show p.seq.takesCuts = true from decide_eq_true held]
  exact nofun

end

/-- A cut's places beyond the book, as the check says it. -/
theorem cut_beyond_iff (count sect : Nat) (target : Option Word) :
    (count ≤ sect ∨ (target.map BitVec.toNat).any (fun t => decide (count ≤ t)) = true) ↔
      ¬ (sect < count ∧ ∀ t, target = some t → t.toNat < count) := by
  cases target with
  | none => simp
  | some t =>
    simp
    omega

/-- Settles O43: one entry written; the current section resolves again, with its trim and refill where that differs. -/
theorem cutsAreWritten : Obligations.CutsAreWritten := by
  refine ⟨?_, ?_⟩
  · intro p sect on current new q
    have resolves : p.seq.resolve = new := Sequencer.resolve_eq current
    refine ⟨fun same => if_pos (.inr (by rw [resolves]; exact same)), fun differs begun => ?_⟩
    have trims : q = p.trim new := by
      show p.resolveAgain = _
      unfold Part.resolveAgain
      rw [resolves]
      dsimp only
      rw [if_neg (by simp [on, differs]), if_pos begun.begunNext]
    obtain ⟨history, shadows, loaded⟩ := p.trim_leaves new
    have resolved := p.trim_resolves new
    rw [trims]
    exact ⟨resolved.heldNext, resolved.clock, history, shadows, loaded⟩
  · intro s n tag sect target takes c q held good cut
    have meaning : exec c s = _ := exec_cut s n tag sect target
    have beyond := cut_beyond_iff q.sectionCount sect.toNat target
    have writes : held → good → (s.part.takeSlot n).requestCut sect.toNat (target.map BitVec.toNat) =
        ((s.part.takeSlot n).writeCut sect.toNat (target.map BitVec.toNat), .ok, [optWord (q.cutOf sect.toNat)]) :=
      fun held good => (Part.requestCut_taken (p := s.part.takeSlot n) held).trans (if_neg fun h => beyond.1 h good)
    have stills := (s.part.takeSlot n).writeCut_stills sect.toNat (target.map BitVec.toNat)
    refine ⟨fun none_ => ?_, fun held bad => ?_, fun held good => ?_, fun held good other => ?_, fun small good on current pulsed => ?_⟩
    · exact State.request_refused meaning takes (Part.requestCut_untaken (p := s.part.takeSlot n) none_)
    · exact State.request_refused meaning takes
        ((Part.requestCut_taken (p := s.part.takeSlot n) held).trans (if_pos (beyond.2 bad)))
    · exact State.request_based meaning takes (writes held good) stills rfl rfl rfl trivial
    · refine ⟨_, State.request_runs meaning takes (writes held good), rfl, ?_, trivial⟩
      rw [Part.writeCut_other (s.part.takeSlot n) _ other]
      exact Part.complete_answersAs n tag .ok _ (.refl _) (fun _ h => h) rfl
    · refine State.request_based meaning takes (writes (.inr (.inl on)) good) stills rfl rfl rfl ?_
      have resolved := Part.resolveAgain_settle
        (p := (s.part.takeSlot n).setSeq (q.cutting sect.toNat (target.map BitVec.toNat))) on pulsed
      rw [Part.writeCut_current (s.part.takeSlot n) _ current]
      unfold samePlace
      rw [Part.complete_clock, Part.complete_seq]
      refine ⟨resolved.clock, resolved.samePlace, resolved.heldNext.trans (congrArg some ?_)⟩
      show (q.cutting sect.toNat (target.map BitVec.toNat)).resolve = _
      rw [Sequencer.resolve_eq (q := q.cutting sect.toNat (target.map BitVec.toNat)) (sect := sect.toNat) current,
        Sequencer.resolvesTo, Sequencer.cutOf_cutting q _ small]
      cases target with
      | none => rfl
      | some t => rfl

end Sys2Proof.Machine
end

/-! PROOFS. SET_PROFILE (R27, R28, R161) and SET_LANE (R89, R90, R163): the clamps, their marks, and the values put in force. -/

section
namespace Sys2Proof.Machine

open Sys2Proof (LaneIx SlotIx Instr ProfileArgs LaneArgs)

/-! ### Clamps and marks (11.3) -/

/-- The mark of a value outside its range, as 11.3 numbers it. -/
def markOutside (bit low high v : Nat) : Nat := if v < low ∨ high < v then 2 ^ bit else 0

theorem mark_eq {k : Nat} {moved : Bool} {outside : Prop} [Decidable outside] (h : moved = true ↔ outside) :
    mark k moved = if outside then 2 ^ k else 0 := if_congr h rfl rfl

/-- A value that its range moves lies outside it. -/
theorem mark_clamped (k : Nat) {low high : Nat} (range : low ≤ high) (v : Nat) :
    mark k (decide (clampTo low high v ≠ v)) = markOutside k low high v := by
  refine mark_eq (decide_eq_true_iff.trans ?_)
  unfold clampTo
  omega

theorem mark_decide (k : Nat) (moved : Prop) [Decidable moved] : mark k (decide moved) = if moved then 2 ^ k else 0 :=
  mark_eq decide_eq_true_iff

theorem mark_above (k high v : Nat) : mark k (decide (high < v)) = markOutside k 0 high v :=
  mark_eq (decide_eq_true_iff.trans (by omega))

theorem inputModeOf_eq (v : Nat) : inputModeOf v = if v = 1 then .b else if v = 2 then .merge else .a := by
  unfold inputModeOf
  split <;> simp_all

theorem baudOf_eq (v : Nat) : baudOf v = if v = 0 then .b250k else if v = 2 then .b1m else if v = 3 then .b2m else .b500k := by
  unfold baudOf
  split <;> simp_all

theorem retryOf_eq (v : Nat) : retryOf v = if v = 0 then .oneTry else .resendOnce := by
  unfold retryOf
  split <;> simp_all

/-! ### A new profile (R28) -/

/-- The clock with a profile in force and P clamped to it, unless it is STOPPED. -/
def Clock.profiled (c : Clock) (f : Profile) : Clock :=
  { c with profile := f, period := if c.state = .stopped then c.period else f.clampPeriod c.period }

theorem Part.applyProfile_eq (p : Part) (f : Profile) :
    p.applyProfile f = p.setClock (p.clock.profiled f) ∨ p.applyProfile f = (p.setClock (p.clock.profiled f)).recompute.settle :=
  ite_eq_or_eq _ _ _

theorem Part.applyProfile_stills (p : Part) (f : Profile) : (p.setClock (p.clock.profiled f)).Stills (p.applyProfile f) := by
  rcases p.applyProfile_eq f with h | h <;> rw [h]
  · exact .refl _
  · exact (Part.recompute_stills _).trans (Part.settle_stills _)

/-- Where the current section is not CALLED, the evaluation behind a new profile leaves the clock and the place in the act. -/
theorem Part.applyProfile_stays (p : Part) (f : Profile) (h : p.seq.currentRec.kind ≠ .called) :
    (p.setClock (p.clock.profiled f)).Stays (p.applyProfile f) := by
  rcases p.applyProfile_eq f with eq | eq <;> rw [eq]
  · exact .refl _
  · refine (Part.recompute_stays _).trans (Part.settle_stays _ ?_)
    rw [Sequencer.currentRec_of_place (Part.recompute_stays _).place]
    exact h

/-- The part with a count-record option. -/
def Part.countingRecords (p : Part) (on : Bool) : Part := p.setJournal { p.journal with countRecords := on }

theorem Part.setProfile_eq (p : Part) (f : Profile) (on : Bool) : p.setProfile f on = (p.countingRecords on).applyProfile f := rfl

/-- Settles O45: each value and each cross rule, moved and marked. -/
theorem profileIsReplaced : Obligations.ProfileIsReplaced := by
  intro s n tag a takes low high lockIn f outside marks
  have profile : (clampProfile a).1 = f := by
    simp only [clampProfile, inputModeOf_eq, clampTo, Nat.zero_max]
    rfl
  have moved : (clampProfile a).2.2 = marks := by
    simp (disch := omega) only [clampProfile, mark_clamped, mark_above 0, mark_above 5, mark_above 11, mark_decide 12,
      mark_decide 13, yesMoved]
    rfl
  have acts : (fun p : Part => (p.setProfile (clampProfile a).1 (clampProfile a).2.1, clampResult (clampProfile a).2.2,
      [(clampProfile a).2.2])) (s.part.takeSlot n) =
        (((s.part.takeSlot n).countingRecords (decide (a.countRecords.toNat ≠ 0))).applyProfile f,
          if marks = 0 then .ok else .okClamped, [marks]) := by
    dsimp only
    rw [profile, moved, Part.setProfile_eq]
    rfl
  have stills := ((s.part.takeSlot n).countingRecords (decide (a.countRecords.toNat ≠ 0))).applyProfile_stills f
  refine State.request_based (exec_setProfile s n tag a) takes acts stills rfl rfl rfl fun kind => ?_
  have stays := ((s.part.takeSlot n).countingRecords (decide (a.countRecords.toNat ≠ 0))).applyProfile_stays f kind
  unfold samePlace
  rw [Part.complete_clock, Part.complete_seq]
  exact ⟨stays.clock, Sequencer.state_of_place stays.place, Sequencer.current_of_place stays.place,
    Sequencer.pass_of_place stays.place⟩

/-! ### A lane's configuration (R89, R90) -/

theorem Part.enterOff_serves (p : Part) (i : LaneIx) (cause : LaneCause) : p.Serves i (p.enterOff i cause) :=
  (p.modLane_serves i _).trans ((Part.append_keeps _ _).serves i)

theorem Part.enterOff_lane (p : Part) (i : LaneIx) (cause : LaneCause) : (p.enterOff i cause).lane i = (p.lane i).toOff := by
  rw [Part.enterOff, Part.append_lane_eq, Part.lane_modLane_same]

/-- A lane's configuration replaced, its targets looked at again, before enable and baud act on the link. -/
def Part.withConfig (p : Part) (i : LaneIx) (c : LaneConfig) : Part :=
  p.modLane i fun l => Lane.lookAgain { l with cfg := c } i p.seq.window

theorem Part.withConfig_lane (p : Part) (i : LaneIx) (c : LaneConfig) :
    ((p.withConfig i c).lane i).kept = { p.lane i with cfg := c }.kept := by
  rw [Part.withConfig, Part.lane_modLane_same, Lane.lookAgain_kept]

/-- What a new configuration does to the link: enable acts first, then baud (R90). -/
theorem Part.configureLane_cases (p : Part) (i : LaneIx) (c : LaneConfig) :
    ((p.lane i).cfg.enable = true ∧ c.enable = false ∧ p.configureLane i c = (p.withConfig i c).enterOff i .disable) ∨
    (c.enable = true ∧ ((p.lane i).cfg.enable = false ∨ c.baud ≠ (p.lane i).cfg.baud) ∧
      ∃ cause, p.configureLane i c = (p.withConfig i c).enterSync i cause) ∨
    ((p.lane i).cfg.enable = c.enable ∧ (c.enable = true → c.baud = (p.lane i).cfg.baud) ∧ p.configureLane i c = p.withConfig i c) := by
  unfold Part.configureLane
  dsimp only
  cases was : (p.lane i).cfg.enable <;> cases is : c.enable
  · exact .inr (.inr ⟨rfl, nofun, rfl⟩)
  · exact .inr (.inl ⟨rfl, .inl rfl, _, rfl⟩)
  · exact .inl ⟨rfl, rfl, rfl⟩
  · by_cases same : c.baud = (p.lane i).cfg.baud
    · refine .inr (.inr ⟨rfl, fun _ => same, ?_⟩)
      rw [decide_eq_false (not_not.2 same)]
      rfl
    · refine .inr (.inl ⟨rfl, .inr same, .baud, ?_⟩)
      rw [decide_eq_true same]
      rfl

theorem Part.configureLane_serves (p : Part) (i : LaneIx) (c : LaneConfig) : p.Serves i (p.configureLane i c) := by
  have config : p.Serves i (p.withConfig i c) := p.modLane_serves i _
  rcases p.configureLane_cases i c with ⟨_, _, eq⟩ | ⟨_, _, cause, eq⟩ | ⟨_, _, eq⟩ <;> rw [eq]
  · exact config.trans (Part.enterOff_serves ..)
  · exact config.trans (Part.enterSync_serves ..)
  · exact config

/-- What a lane configured anew keeps and what it enters. -/
theorem Part.configureLane_lane (p : Part) (i : LaneIx) (c : LaneConfig) :
    let l := p.lane i
    let m := (p.configureLane i c).lane i
    m.cfg = c ∧ m.blanked = l.blanked ∧ m.sequence = l.sequence ∧ m.sent = l.sent ∧
      m.link =
        if l.cfg.enable = true ∧ c.enable = false then .off
        else if c.enable = true ∧ (l.cfg.enable = false ∨ c.baud ≠ l.cfg.baud) then .sync
        else l.link := by
  intro l m
  have config := p.withConfig_lane i c
  generalize lane : (p.withConfig i c).lane i = k at config
  have cfg : k.cfg = c := (congrArg Lane.cfg config :)
  have blanked : k.blanked = l.blanked := (congrArg Lane.blanked config :)
  have sequence : k.sequence = l.sequence := (congrArg Lane.sequence config :)
  have sent : k.sent = l.sent := (congrArg Lane.sent config :)
  have link : k.link = l.link := (congrArg Lane.link config :)
  rcases p.configureLane_cases i c with ⟨was, is, eq⟩ | ⟨is, moves, cause, eq⟩ | ⟨alike, same, eq⟩
  · have entered : m = k.toOff := by
      show (p.configureLane i c).lane i = _
      rw [eq, Part.enterOff_lane, lane]
    rw [entered, if_pos ⟨was, is⟩]
    exact ⟨cfg, blanked, sequence, sent, rfl⟩
  · have entered : m = k.toSync (p.withConfig i c).now := by
      show (p.configureLane i c).lane i = _
      rw [eq, Part.enterSync_lane, lane]
    rw [entered, if_neg (by simp [is]), if_pos ⟨is, moves⟩]
    exact ⟨cfg, blanked, sequence, sent, rfl⟩
  · have stands : m = k := by
      show (p.configureLane i c).lane i = _
      rw [eq, lane]
    rw [stands, if_neg, if_neg]
    · exact ⟨cfg, blanked, sequence, sent, link⟩
    · rintro ⟨is, off | other⟩
      · exact Bool.false_ne_true (off.symm.trans (alike.trans is))
      · exact other (same is)
    · rintro ⟨on, off⟩
      exact Bool.false_ne_true (off.symm.trans (alike.symm.trans on))

theorem Part.laneSet_beyond (p : Part) {lane : Word} (a : LaneArgs) (h : 6 ≤ lane.toNat) : p.laneSet lane a = (p, .badArg, []) := by
  rw [Part.laneSet, laneOf_beyond h]

theorem Part.laneSet_lane (p : Part) {lane : Word} {i : LaneIx} (a : LaneArgs) (names : i.val = lane.toNat) :
    p.laneSet lane a =
      ((p.configureLane i (clampLane a).1).settle, clampResult (clampLane a).2, [(clampLane a).2]) := by
  rw [Part.laneSet, laneOf_lane names]

/-- A request of one lane that ends in the evaluation, seen with the part's own lane in its place. -/
theorem Part.Serves.complete_settled {p q : Part} {n : SlotIx} {i : LaneIx} (h : (p.takeSlot n).Serves i q) (tag : Half) (r : Result)
    (d : List Nat) :
    AnswersAs Part.still n tag r d p (p.setLane i ((Part.complete p q.settle n tag r d).lane i)) (Part.complete p q.settle n tag r d) := by
  have stills := q.settle_stills
  refine (Part.complete_answersAs n tag r d (view := q.settle) (h.mem.trans stills.mem)
    (fun k hk => stills.notices k (h.notices k hk)) rfl).seen ?_
  rw [Part.complete_still, stills.still, h.stills.still]
  exact (p.takeSlot n).setLane_still_congr i (Part.still_lane (Part.complete_still.trans stills.still) i).symm

theorem Lane.link_of_still {l m : Lane} (h : m.still = l.still) :
    m.cfg = l.cfg ∧ m.blanked = l.blanked ∧ m.sequence = l.sequence ∧ m.sent = l.sent ∧ m.link = l.link :=
  ⟨(congrArg Lane.cfg h :), (congrArg Lane.blanked h :), (congrArg Lane.sequence h :), (congrArg Lane.sent h :), (congrArg Lane.link h :)⟩

/-- Settles O46: each field, moved and marked, then the link state. -/
theorem laneIsConfigured : Obligations.LaneIsConfigured := by
  intro s n tag lane a takes c cfg outside marks
  have config : (clampLane a).1 = cfg := by
    simp only [clampLane, baudOf_eq, retryOf_eq, clampTo]
    rfl
  have moved : (clampLane a).2 = marks := by
    simp (disch := omega) only [clampLane, mark_clamped, mark_above, yesMoved]
    rfl
  refine ⟨fun beyond => State.request_refused (exec_setLane s n tag lane a) takes (Part.laneSet_beyond _ a beyond), fun i names => ?_⟩
  have acts := (s.part.takeSlot n).laneSet_lane a names
  rw [config, moved] at acts
  have serves := (s.part.takeSlot n).configureLane_serves i cfg
  have answered := Part.Serves.complete_settled serves tag (clampResult marks) [marks]
  have left := Part.still_lane (Part.complete_still (before := s.part) (n := n) (tag := tag) (r := clampResult marks) (d := [marks])
    |>.trans ((s.part.takeSlot n).configureLane i cfg).settle_stills.still) i
  obtain ⟨hcfg, hblanked, hsequence, hsent, hlink⟩ := Lane.link_of_still left
  obtain ⟨cfg', blanked, sequence, sent, link⟩ := (s.part.takeSlot n).configureLane_lane i cfg
  exact ⟨_, State.request_runs (exec_setLane s n tag lane a) takes acts, rfl, answered, hcfg.trans cfg', hblanked.trans blanked,
    hsequence.trans sequence, hsent.trans sent, hlink.trans link⟩

end Sys2Proof.Machine
end

/-! PROOFS. The long requests LOAD_BOOK and REPLACE_SECTION (R13, R16, R20, R21, R156), and STOP (R86, R109, R158). -/

section
namespace Sys2Proof.Machine

open Sys2Proof (LaneIx SlotIx Instr ReplaceArgs)

/-! ### The sequencer or the clock replaced behind what keeps the rest -/

theorem Part.Keeps.setSeq {p q : Part} (h : p.Keeps q) (x : Sequencer) : (p.setSeq x).Keeps (q.setSeq x) :=
  ⟨h.mem, h.notices, (congrArg (Part.setSeq · x) h.kept :)⟩

theorem Part.Keeps.setClock {p q : Part} (h : p.Keeps q) (x : Clock) : (p.setClock x).Keeps (q.setClock x) :=
  ⟨h.mem, h.notices, (congrArg (Part.setClock · x) h.kept :)⟩

/-- The flushed window is gone, and with it the deferral; the lanes have their entries reported (R85). -/
theorem Part.flush_keeps (p : Part) : (p.setSeq { p.seq with window := [], deferAt := none }).Keeps p.flush :=
  Part.reportRemoved_keeps _ _

/-! ### A long request taken (R153) -/

section
variable {c : Instr} {s : State} {n : SlotIx} {tag : Half} {job : LongJob} {refusal : Part → Option (Result × List Nat)}
  {begin_ : Part → Part}

theorem State.longRequest_refused (meaning : exec c s = s.longRequest n tag job refusal begin_) (takes : s.part.takes n = true)
    {r : Result} {d : List Nat} (refuses : refusal s.part = some (r, d)) : Answers c s n tag r d Part.kept s.part nothingMore := by
  refine ⟨s.withPart (Part.complete s.part (s.part.takeSlot n) n tag r d), ?_, rfl, (Part.Keeps.refl _).answersAs tag r d, trivial⟩
  rw [meaning, State.longRequest, if_pos takes, refuses]
  rfl

/-- The part whose request unit has begun a long request's walk. -/
def Part.walking (p : Part) (n : SlotIx) (tag : Half) (job : LongJob) : Part :=
  p.setRequests { p.requests with scan := .executing n tag job, replaceUsed := false }

theorem not_ownByte_of_inSlot {n : SlotIx} {a : Nat} (h : inSlot n a) : ¬ ownByte a := by
  have := slotAt_bounds n
  unfold inSlot at h
  unfold ownByte
  omega

/-- A long request begun leaves its slot TAKEN and its arguments as they were (R152, R153). -/
theorem State.longRequest_begins (meaning : exec c s = s.longRequest n tag job refusal begin_) (takes : s.part.takes n = true)
    (accepts : refusal s.part = none) {base view : Part} (begins : base.Keeps (begin_ (s.part.takeSlot n)))
    (mem : base.mem = (s.part.takeSlot n).mem) (notices : base.regs.notice = s.part.regs.notice)
    (seen : (base.walking n tag job).kept = view.kept) :
    ∃ t, exec c s = .next t ∧ t.pending = s.pending ∧ EndsAs Part.kept (inSlot n) s.part view t.part ∧
      t.part.mem.owner n = ownerTaken ∧ ∀ a, slotAt n + 4 ≤ a → a < slotAt n + 64 → t.part.mem.byte a = s.part.mem.byte a := by
  have keeps : (base.walking n tag job).Keeps ((begin_ (s.part.takeSlot n)).walking n tag job) := by
    refine ⟨begins.mem, begins.notices, ?_⟩
    exact (congrArg (Part.walking · n tag job) begins.kept :)
  have ends := keeps.trans (Part.finish_keeps s.part _)
  have own : Memory.Reach ownByte (s.part.takeSlot n).mem
      (Part.finish s.part ((begin_ (s.part.takeSlot n)).walking n tag job)).mem := mem ▸ ends.mem
  refine ⟨s.withPart (Part.finish s.part ((begin_ (s.part.takeSlot n)).walking n tag job)), ?_, rfl, ?_, ?_, fun a above below => ?_⟩
  · rw [meaning, State.longRequest, if_pos takes, accepts]
    rfl
  · exact {
      memory := fun a notOwn outside => (own.byte notOwn).trans (s.part.takeSlot_byte_other outside)
      notices := fun k hk => ends.notices k (notices ▸ hk)
      line := (Part.finish_right _ _).1
      lamps := (Part.finish_right _ _).2
      view := ends.kept.trans seen }
  · have word : (s.part.takeSlot n).mem.owner n = ownerTaken := Memory.word_setWord_same _ _ _
    rw [← word]
    exact Memory.number_congr 4 _ fun j h1 h2 => own.byte (not_ownByte_of_inSlot (n := n) ⟨by omega, by omega⟩)
  · exact (own.byte (not_ownByte_of_inSlot (n := n) ⟨by omega, by omega⟩)).trans (Memory.byte_setWord_other _ _ (by omega))

end

/-! ### LOAD_BOOK at its take (R13) -/

theorem Part.beginLoad_keeps (p : Part) : (p.setSeq p.seq.loading).Keeps p.beginLoad := by
  have flushed := p.flush_keeps
  have seq : p.flush.seq.loading = p.seq.loading := by
    rw [Part.kept_seq flushed.kept]
    rfl
  have := flushed.setSeq p.flush.seq.loading
  rw [seq] at this
  rw [← show p.flush.setSeq p.flush.seq.loading = p.beginLoad from rfl, seq]
  exact this

/-- Settles O36: the request unit's take, by the sequencer's state. -/
theorem loadBookIsTaken : Obligations.LoadBookIsTaken := by
  intro s n tag takes
  refine ⟨fun ready => ?_, fun busy => ?_⟩
  · refine State.longRequest_begins (exec_loadBook s n tag) takes ?_ (Part.beginLoad_keeps _) rfl rfl rfl
    refine if_neg ?_
    rcases ready with h | h | h <;> simp [h]
  · exact State.longRequest_refused (exec_loadBook s n tag) takes (if_pos busy)

/-! ### REPLACE_SECTION at its take (R20) -/

/-- Settles O38: the take's checks in their order. -/
theorem replaceSectionIsTaken : Obligations.ReplaceSectionIsTaken := by
  intro s n tag args takes c sect q held
  have refused : ∀ r d, s.part.replaceRefusal args = some (r, d) → Answers c s n tag r d Part.kept s.part nothingMore :=
    fun r d => State.longRequest_refused (exec_replaceSection s n tag args) takes
  refine ⟨fun none_ => refused _ _ (if_pos none_), fun held beyond => refused _ _ ?_, fun held within used => refused _ _ ?_,
    fun held within unused => ?_⟩
  · exact (if_neg (not_not.2 held)).trans (if_pos beyond)
  · exact (if_neg (not_not.2 held)).trans ((if_neg (Nat.not_le.2 within)).trans (if_pos used))
  · refine State.longRequest_begins (exec_replaceSection s n tag args) takes ?_ (.refl _) rfl rfl rfl
    exact (if_neg (not_not.2 held)).trans ((if_neg (Nat.not_le.2 within)).trans (if_neg (by rw [unused]; exact nofun)))

/-! ### The end of a walk (R16, R21) -/

/-- A walk's completion: the answer, and the scan going on behind the slot (R152, R154). -/
def Part.walked (before q : Part) (n : SlotIx) (tag : Half) (r : Result) (d : List Nat) : Part :=
  (Part.complete before q n tag r d).scanOn n

theorem Part.walked_answersAs {p base q view : Part} {n : SlotIx} (tag : Half) (r : Result) (d : List Nat) (keeps : base.Keeps q)
    (mem : base.mem = p.mem) (notices : base.regs.notice = p.regs.notice) (seen : (base.scanOn n).kept = view.kept) :
    AnswersAs Part.kept n tag r d p view (Part.walked p q n tag r d) := by
  have handed := keeps.trans ((Part.effects_keeps p q).trans (Part.finishUpdate_keeps _))
  have own : Memory.Reach ownByte p.mem (Part.effects p q).finishUpdate.mem := mem ▸ handed.mem
  exact {
    ends := {
      memory := fun a notOwn outside => (Memory.answer_other _ n tag r d outside).trans (own.byte notOwn)
      notices := fun k h => (Part.setNotice_keeps _ .slot).notices k (handed.notices k (notices ▸ h))
      line := (Part.outputs_right _).1
      lamps := (Part.outputs_right _).2
      view := (congrArg (Part.scanOn · n) ((p.complete_kept q n tag r d).trans keeps.kept) :).trans seen }
    slot := Memory.answer_answered _ n tag r d
    args := fun a inArgs => (Memory.answer_args _ n tag r d inArgs).trans
      (own.byte (not_ownByte_of_inSlot (n := n) (by unfold inSlot; omega)))
    notice := Part.setNotice_bit _ .slot }

theorem Part.walked_appended {p base q : Part} {n : SlotIx} {tag : Half} {r : Result} {d : List Nat} {rs : List Record}
    (mem : base.mem = p.mem) (journal : base.journal = p.journal) (clock : base.clock = p.clock) (h : base.appended q rs) :
    p.appended (Part.walked p q n tag r d) rs :=
  Part.complete_appended (before := p) (n := n) (tag := tag) (r := r) (d := d) (Part.appended_base mem journal clock h)

/-- A walk's end that replaces the sequencer and appends its BOOK record. -/
theorem State.walk_answers {c : Instr} {s : State} {n : SlotIx} {tag : Half} {r : Result} {d : List Nat} {x : Sequencer} {rec_ : Record}
    (run : exec c s = .next (s.withPart (Part.walked s.part ((s.part.setSeq x).append rec_) n tag r d))) :
    Answers c s n tag r d Part.kept
      { s.part with seq := x, requests := { s.part.requests with scan := .scanning (n.val + 1) } }
      fun t => s.part.appended t [rec_] :=
  ⟨_, run, rfl, Part.walked_answersAs tag r d (Part.append_keeps _ _) rfl rfl rfl,
    Part.walked_appended rfl rfl rfl (Part.append_appended (s.part.setSeq x) rec_)⟩

theorem exec_loadBookComplete {s : State} {n : SlotIx} {tag : Half} (on : s.part.enabled = true)
    (scan : s.part.requests.scan = .executing n tag .load) :
    exec .loadBookComplete s =
      .next (s.withPart (Part.walked s.part s.part.endLoad.1 n tag s.part.endLoad.2.1 s.part.endLoad.2.2)) := by
  show execLoadBookComplete s = _
  unfold execLoadBookComplete
  rw [on, scan]
  rfl

theorem exec_replaceSectionComplete {s : State} {n : SlotIx} {tag : Half} {args : ReplaceArgs} (on : s.part.enabled = true)
    (scan : s.part.requests.scan = .executing n tag (.replace args)) :
    exec .replaceSectionComplete s =
      .next (s.withPart (Part.walked s.part (s.part.endReplace args).1 n tag (s.part.endReplace args).2.1
        (s.part.endReplace args).2.2)) := by
  show execReplaceSectionComplete s = _
  unfold execReplaceSectionComplete
  rw [on, scan]
  rfl

/-- Settles O37: the walk's verdict decides the sequencer, the answer and the record. -/
theorem loadBookCompletes : Obligations.LoadBookCompletes := by
  intro s n tag on scan u
  have run := exec_loadBookComplete on scan
  refine ⟨fun book walk => ?_, fun e walk => ?_⟩
  · refine State.walk_answers (run.trans ?_)
    unfold Part.endLoad
    rw [walk]
    rfl
  · refine State.walk_answers (run.trans ?_)
    unfold Part.endLoad
    rw [walk]
    rfl

/-! ### A section come into use while its replacement is walked (R21) -/

theorem Part.append_requests (p : Part) (r : Record) : (p.append r).requests = p.requests := by
  have gap : ∀ mark, (p.checkMark.writeGap mark).requests = p.requests := fun mark => by
    unfold Part.writeGap Part.checkMark
    split <;> split <;> rfl
  have written : ((p.checkMark.writeGap p.markInForce).writeOrLose p.markInForce r).requests = p.requests := by
    unfold Part.writeOrLose
    split <;> exact gap _
  unfold Part.append
  simp only
  generalize (p.checkMark.writeGap p.markInForce).writeOrLose p.markInForce r = q at written
  split <;> split <;> exact written

theorem Part.loadOne_requests {p q : Part} (h : p.loadOne = some q) : q.requests = p.requests := by
  have read : ∀ pass sect offset index left lost, (p.readCue pass sect offset index left lost).requests = p.requests :=
    fun pass sect offset index left lost => by
      have skipped : ∀ c code id, ((p.setCursor c).badCue code sect pass offset id).requests = p.requests :=
        fun c code id => Part.append_requests _ _
      unfold Part.readCue
      simp only
      split
      · exact skipped _ _ _
      · split
        · exact skipped _ _ _
        · split
          · exact skipped _ _ _
          · rfl
  unfold Part.loadOne at h
  split at h
  · cases h
  · split at h
    · cases h; rfl
    · split at h
      · cases h; exact read _ _ _ _ _ _
      · cases h

/-- The section of a replacement being walked is in use, or is marked as come into use. -/
def RequestUnit.inUseFor (u : RequestUnit) (n : SlotIx) (tag : Half) (args : ReplaceArgs) (used : Prop) : Prop :=
  u.scan = .executing n tag (.replace args) ∧ (u.replaceUsed = true ∨ used)

theorem Part.noteUse_marks {p : Part} {n : SlotIx} {tag : Half} {args : ReplaceArgs}
    (h : p.requests.inUseFor n tag args (p.seq.inUse args.section_.toNat = true)) : p.noteUse.requests.inUseFor n tag args False := by
  obtain ⟨scan, used⟩ := h
  unfold Part.noteUse RequestUnit.inUseFor
  rw [scan]
  exact ⟨scan, .inl (by rcases used with h | h <;> simp [h])⟩

theorem Part.refillFor_marks {n : SlotIx} {tag : Half} {args : ReplaceArgs} (k : Nat) :
    ∀ p : Part, p.requests.inUseFor n tag args (p.seq.inUse args.section_.toNat = true) →
      (p.refillFor k).requests.inUseFor n tag args False := by
  induction k with
  | zero => exact fun p h => p.noteUse_marks h
  | succ k ih =>
    intro p h
    have marked := p.noteUse_marks h
    unfold Part.refillFor
    split
    · next q loads =>
      refine ih q ?_
      rw [Part.loadOne_requests loads]
      exact ⟨marked.1, .inl (marked.2.resolve_right id)⟩
    · exact marked

/-- Settles O39: the walk's verdict and the section's use decide the book, the answer and the record. -/
theorem replaceSectionCompletes : Obligations.ReplaceSectionCompletes := by
  refine ⟨fun p n tag args scan used => ?_, ?_⟩
  · obtain ⟨_, marked⟩ := Part.refillFor_marks refillSteps p ⟨scan, used⟩
    exact marked.resolve_right id
  · intro s n tag args on scan sect q walk done used
    have run := exec_replaceSectionComplete on scan
    have inUse : ((decide (q.state = .running) && s.part.requests.replaceUsed) || q.inUse sect) = true ↔ used := by
      unfold used Sequencer.inUse
      by_cases running : q.state = .running <;> simp [running]
    refine ⟨fun used => ?_, fun unused e off failed => ?_, fun unused sec passed => ?_⟩
    · refine State.walk_answers (run.trans ?_)
      rw [show s.part.endReplace args = _ from if_pos (inUse.2 used)]
      rfl
    · refine State.walk_answers (run.trans ?_)
      rw [show s.part.endReplace args = _ from if_neg (mt inUse.1 unused), show walkReplace _ _ _ _ _ = _ from failed]
      rfl
    · refine State.walk_answers (run.trans ?_)
      rw [show s.part.endReplace args = _ from if_neg (mt inUse.1 unused), show walkReplace _ _ _ _ _ = _ from passed]
      rfl

end Sys2Proof.Machine
end

/-! PROOFS. Clearing the lanes for JUMP and STOP (R109), and STOP (R86, R158). -/

section
namespace Sys2Proof.Machine

open Sys2Proof (LaneIx SlotIx Instr)

/-! ### Lanes cleared (R109) -/

theorem Part.clearLane_eq (cause : ClearedCause) (p : Part) (i : LaneIx) :
    p.clearLane cause i =
      if (p.lane i).shadow.text.isSome then
        (p.setLane i ((p.lane i).cleared (blankShadow p.now))).append (clearedRecord cause i (p.lane i).shadow.cue)
      else p.setLane i ((p.lane i).cleared (blankShadow p.now)) := rfl

/-- A lane cleared changes that lane alone, and what an append writes. -/
theorem Part.clearLane_serves (cause : ClearedCause) (p : Part) (i : LaneIx) :
    (p.setLane i ((p.lane i).cleared (blankShadow p.now))).Keeps (p.clearLane cause i) := by
  rw [Part.clearLane_eq]
  split
  · exact Part.append_keeps _ _
  · exact .refl _

theorem Part.clearLane_lane (cause : ClearedCause) (p : Part) (i j : LaneIx) :
    (p.clearLane cause i).lane j = (p.setLane i ((p.lane i).cleared (blankShadow p.now))).lane j := by
  rw [Part.clearLane_eq]
  split
  · exact Part.append_lane_eq _ _ _
  · rfl

theorem Part.clearLane_clock (cause : ClearedCause) (p : Part) (i : LaneIx) : (p.clearLane cause i).clock = p.clock :=
  (Part.kept_clock (p.clearLane_serves cause i).kept).trans rfl

theorem Part.clearLane_seq (cause : ClearedCause) (p : Part) (i : LaneIx) : (p.clearLane cause i).seq = p.seq :=
  (Part.kept_seq (p.clearLane_serves cause i).kept).trans rfl

/-- Every lane cleared. -/
theorem Part.clearLanes_lane (cause : ClearedCause) (p : Part) (j : LaneIx) :
    (p.clearLanes false cause).lane j = (p.lane j).cleared (blankShadow p.now) := by
  have folded := Part.foldl_lane (f := Part.clearLane cause) (j := j) Part.now (g := fun now l => l.cleared (blankShadow now))
    (fun p i => congrArg Clock.showTime (p.clearLane_clock cause i))
    (fun p => (p.clearLane_lane cause j j).trans (p.lane_setLane_same j _))
    (fun p i apart => (p.clearLane_lane cause i j).trans (p.lane_setLane_other _ (Ne.symm apart))) allLanes p allLanes_nodup
  rw [if_pos (mem_allLanes j)] at folded
  exact folded

theorem Part.clearLanes_keep (cause : ClearedCause) (p : Part) : p.clearLanes true cause = p := rfl

theorem Part.clearLanes_leaves (p : Part) (keep : Bool) (cause : ClearedCause) :
    (p.clearLanes keep cause).clock = p.clock ∧ (p.clearLanes keep cause).seq = p.seq := by
  have folded : ∀ lanes : List LaneIx, ∀ q : Part,
      (lanes.foldl (Part.clearLane cause) q).clock = q.clock ∧ (lanes.foldl (Part.clearLane cause) q).seq = q.seq := by
    intro lanes
    induction lanes with
    | nil => exact fun q => ⟨rfl, rfl⟩
    | cons i rest ih =>
      intro q
      obtain ⟨clock, seq⟩ := ih (q.clearLane cause i)
      exact ⟨clock.trans (q.clearLane_clock cause i), seq.trans (q.clearLane_seq cause i)⟩
  cases keep with
  | true => exact ⟨rfl, rfl⟩
  | false => exact folded allLanes p

/-! ### The CLEARED records (R109) -/

theorem Part.appended_nil (p : Part) : p.appended p [] := fun room => ⟨(BitVec.add_zero _).symm, room.1, nofun⟩

/-- One lane cleared appends its record where its shadow was TEXT. -/
theorem Part.clearLane_appended {p q : Part} {rs : List Record} (cause : ClearedCause) (i : LaneIx) (h : p.appended q rs)
    (now : q.now = p.now) (mark : q.readMark = p.readMark) :
    p.appended (q.clearLane cause i)
      (rs ++ if (q.lane i).shadow.text.isSome then [clearedRecord cause i (q.lane i).shadow.cue] else []) := by
  have set_ : p.appended (q.setLane i ((q.lane i).cleared (blankShadow q.now))) rs :=
    Part.appended_quiet h ⟨rfl, rfl, fun _ _ => rfl⟩
  rw [Part.clearLane_eq]
  split
  · exact Part.appended_append _ set_ now mark
  · rw [List.append_nil]
    exact set_

/-- The CLEARED records of a clear without keep, in lane order. -/
theorem Part.clearLanes_appended (p : Part) (cause : ClearedCause) (lanes : List LaneIx) :
    ∀ (q : Part) (rs : List Record), lanes.Nodup → p.appended q rs → q.now = p.now → q.readMark = p.readMark →
      (∀ i ∈ lanes, q.lane i = p.lane i) →
      p.appended (lanes.foldl (Part.clearLane cause) q)
        (rs ++ (lanes.filter fun i => (p.lane i).shadow.text.isSome).map fun i => clearedRecord cause i (p.lane i).shadow.cue) := by
  induction lanes with
  | nil =>
    intro q rs _ h _ _ _
    rw [List.filter_nil, List.map_nil, List.append_nil]
    exact h
  | cons i rest ih =>
    intro q rs once h now mark same
    obtain ⟨fresh, once'⟩ := List.nodup_cons.1 once
    have one := Part.clearLane_appended cause i h now mark
    rw [same i List.mem_cons_self] at one
    have keeps := q.clearLane_serves cause i
    have more := ih (q.clearLane cause i) _ once' one ((congrArg Clock.showTime (q.clearLane_clock cause i) :).trans now)
      ((Memory.Reach.readMark (p := q) keeps.mem).trans mark) fun j mem => by
        have apart : i ≠ j := by
          rintro rfl
          exact fresh mem
        rw [Part.clearLane_lane, Part.lane_setLane_other _ _ apart]
        exact same j (List.mem_cons_of_mem _ mem)
    rw [List.foldl_cons]
    refine cast (congrArg _ ?_) more
    rw [List.append_assoc]
    congr 1
    by_cases text : (p.lane i).shadow.text.isSome = true
    · rw [if_pos text, List.filter_cons_of_pos (by exact text)]
      rfl
    · rw [if_neg text, List.filter_cons_of_neg (by exact text)]
      rfl

/-! ### STOP (R86) -/

theorem Part.flush_lane (p : Part) (i : LaneIx) : (p.flush.lane i).kept = (p.lane i).kept := Part.kept_lane p.flush_keeps.kept i

theorem Part.flush_clock (p : Part) : p.flush.clock = p.clock := (Part.kept_clock p.flush_keeps.kept).trans rfl

theorem Part.flush_seq (p : Part) : p.flush.seq = { p.seq with window := [], deferAt := none } :=
  (Part.kept_seq p.flush_keeps.kept).trans rfl

/-- The shadow and the max dwell expiry of a cleared lane (R92, R108). -/
theorem Lane.cleared_shadow (l : Lane) (now : Nat) :
    (l.cleared (blankShadow now)).shadow = blankShadow now ∧ (l.cleared (blankShadow now)).maxDwellAt = none := by
  have kept := l.cleared_kept (blankShadow now)
  generalize l.cleared (blankShadow now) = m at kept
  exact ⟨(congrArg Lane.shadow kept :), (congrArg Lane.maxDwellAt kept :)⟩

/-- What STOP leaves. -/
theorem Part.stopAct_leaves (p : Part) (keep : Bool) :
    (p.stopAct keep).seq = p.seq.rest ∧ (p.stopAct keep).clock = p.clock.stopped ∧
      ∀ i, ((p.stopAct keep).lane i).kept = ((p.flush.clearLanes keep .stop).lane i).kept := by
  obtain ⟨clock, seq⟩ := p.flush.clearLanes_leaves keep .stop
  unfold Part.stopAct
  dsimp only
  generalize p.flush.clearLanes keep .stop = q at clock seq ⊢
  have keeps := Part.reportClock_keeps ((q.setClock q.clock.stopped).setSeq q.seq.rest) q.clock.state .stop
  refine ⟨(Part.kept_seq keeps.kept).trans ?_, (Part.kept_clock keeps.kept).trans ?_, fun i => Part.kept_lane keeps.kept i⟩
  · show q.seq.rest = _
    rw [seq, Part.flush_seq]
    rfl
  · show q.clock.stopped = _
    rw [clock, Part.flush_clock]

theorem Part.requestStop_untaken (p : Part) (keep : Nat) (h : ¬ (p.seq.state = .running ∨ p.seq.state = .ended)) :
    p.requestStop keep = (p, .state, []) := if_pos h

theorem Part.requestStop_bad (p : Part) {keep : Nat} (held : p.seq.state = .running ∨ p.seq.state = .ended) (h : 1 < keep) :
    p.requestStop keep = (p, .badArg, []) := (if_neg (not_not.2 held)).trans (if_pos h)

theorem Part.requestStop_stops (p : Part) {keep : Nat} (held : p.seq.state = .running ∨ p.seq.state = .ended) (h : keep ≤ 1) :
    p.requestStop keep = (p.stopAct (decide (keep = 1)), .ok, []) := (if_neg (not_not.2 held)).trans (if_neg (Nat.not_lt.2 h))

/-- Settles O42: the lanes cleared unless kept, and the clock and the sequencer at rest. -/
theorem stopEndsAct : Obligations.StopEndsAct := by
  intro s n tag keep takes c q
  refine ⟨fun none_ => ?_, fun held bad => ?_, fun held good => ?_⟩
  · exact State.request_refused (exec_stop s n tag keep) takes (Part.requestStop_untaken _ _ none_)
  · exact State.request_refused (exec_stop s n tag keep) takes (Part.requestStop_bad _ held bad)
  · obtain ⟨seq, clock, lanes⟩ := (s.part.takeSlot n).stopAct_leaves (decide (keep.toNat = 1))
    refine State.request_stills (exec_stop s n tag keep) takes (Part.requestStop_stops _ held good) (Part.stopAct_stills ..)
      ⟨Part.complete_seq.trans seq, Part.complete_clock.trans clock, fun i => ?_⟩
    generalize keeps : decide (keep.toNat = 1) = k at lanes ⊢
    have lane := (Part.complete_lane (before := s.part) (n := n) (tag := tag) (r := .ok) (d := []) i).trans (lanes i)
    generalize (Part.complete s.part ((s.part.takeSlot n).stopAct k) n tag .ok []).lane i = l at lane
    refine ⟨fun kept => ?_, fun clears => ?_⟩
    · rw [← keeps, decide_eq_true kept, Part.clearLanes_keep, Part.flush_lane] at lane
      exact lane
    · rw [← keeps, decide_eq_false (by omega), Part.clearLanes_lane] at lane
      obtain ⟨shadow, dwell⟩ := ((s.part.takeSlot n).flush.lane i).cleared_shadow (s.part.takeSlot n).flush.now
      have now : (s.part.takeSlot n).flush.now = s.part.now := (congrArg Clock.showTime (Part.flush_clock _) :)
      rw [now] at shadow dwell lane
      generalize ((s.part.takeSlot n).flush.lane i).cleared (blankShadow s.part.now) = m at shadow dwell lane
      exact ⟨(congrArg Lane.shadow lane :).trans shadow, (congrArg Lane.maxDwellAt lane :).trans dwell⟩

end Sys2Proof.Machine
end

/-! PROOFS. The prime group (R82, R84): its cues read from the cue area alone, and what showing it leaves. -/

section
namespace Sys2Proof.Machine

open Sys2Proof (LaneIx SlotIx Instr)

/-! ### The cue area (11.1) -/

/-- Two memories alike in the cue area. -/
def Memory.sameCues (m k : Memory) : Prop :=
  ∀ a, Config.cueAreaAt ≤ a → a < Config.cueAreaAt + Config.cueAreaSize → k.byte a = m.byte a

theorem Memory.sameCues.trans {m k j : Memory} (h : m.sameCues k) (h' : k.sameCues j) : m.sameCues j := fun a above below =>
  (h' a above below).trans (h a above below)

/-- The part writes nothing of the cue area. -/
theorem Memory.Reach.sameCues {m k : Memory} (h : Memory.Reach ownByte m k) : m.sameCues k := fun a above below =>
  h.byte (by simp only [Config.cueAreaAt, Config.cueAreaSize] at above below; unfold ownByte; omega)

theorem Part.takeSlot_sameCues (p : Part) (n : SlotIx) : p.mem.sameCues (p.takeSlot n).mem := fun a above below =>
  p.takeSlot_byte_other (n := n) fun inside => by
    have := slotAt_bounds n
    simp only [Config.cueAreaAt] at above
    unfold inSlot at inside
    omega

section
variable {m k : Memory} (alike : m.sameCues k)
include alike

theorem Memory.sameCues.number {a count : Nat} (above : Config.cueAreaAt ≤ a)
    (below : a + count ≤ Config.cueAreaAt + Config.cueAreaSize) : k.number a count = m.number a count :=
  Memory.number_congr count a fun j h1 h2 => alike j (by omega) (by omega)

/-- A record's head is read from the cue area, or the record lies beyond it whatever is read. -/
theorem Memory.sameCues.head (offset : Nat) :
    (∀ r, checkExtent r offset = some .badCueRange) ∨ readCueHead k offset = readCueHead m offset := by
  by_cases beyond : Config.cueAreaSize < offset + 24
  · exact .inl fun r => if_pos beyond
  · right
    have word : ∀ d count, d + count ≤ 24 →
        k.number (Config.cueAreaAt + offset + d) count = m.number (Config.cueAreaAt + offset + d) count :=
      fun d count h => alike.number (by omega) (by omega)
    have byte : ∀ d, d < 24 → k.byte (Config.cueAreaAt + offset + d) = m.byte (Config.cueAreaAt + offset + d) :=
      fun d h => alike _ (by omega) (by omega)
    have first : k.number (Config.cueAreaAt + offset) 2 = m.number (Config.cueAreaAt + offset) 2 := word 0 2 (by decide)
    unfold readCueHead
    simp only [first, word 2 2 (by decide), word 4 1 (by decide), word 6 1 (by decide), word 10 2 (by decide),
      word 12 4 (by decide), word 16 2 (by decide), word 18 2 (by decide), byte 5 (by decide), byte 7 (by decide),
      byte 8 (by decide)]

theorem Memory.sameCues.refs (count : Nat) :
    ∀ a, Config.cueAreaAt ≤ a → a + 8 * count ≤ Config.cueAreaAt + Config.cueAreaSize → readRefs k a count = readRefs m a count := by
  induction count with
  | zero => exact fun _ _ _ => rfl
  | succ count ih =>
    intro a above below
    have word : ∀ d n, d + n ≤ 8 → k.number (a + d) n = m.number (a + d) n := fun d n h => alike.number (by omega) (by omega)
    have first : k.number a 1 = m.number a 1 := word 0 1 (by decide)
    rw [readRefs, readRefs, ih (a + 8) (by omega) (by omega), first, word 1 1 (by decide), word 2 1 (by decide),
      word 3 1 (by decide), word 4 4 (by decide)]

/-- A record whose extent passes is checked by its bytes of the cue area alone. -/
theorem Memory.sameCues.body {r : RawCue} {offset : Nat} (extent : checkExtent r offset = none) (sec : SectionRec) (used : Nat)
    (ctx : CueContext) : checkCueBody k r offset sec used ctx = checkCueBody m r offset sec used ctx := by
  have inside : offset + 24 + 8 * r.refs ≤ Config.cueAreaSize := by
    unfold checkExtent at extent
    split at extent
    · cases extent
    · split at extent
      · cases extent
      · split at extent
        · cases extent
        · omega
  unfold checkCueBody
  rw [alike.refs r.refs (Config.cueAreaAt + offset + 24) (by omega) (by omega)]

theorem Memory.sameCues.groupPlaces (threshold n : Nat) :
    ∀ index offset, groupPlaces k threshold n index offset = groupPlaces m threshold n index offset := by
  induction n with
  | zero => exact fun _ _ => rfl
  | succ n ih =>
    intro index offset
    unfold Machine.groupPlaces
    rcases alike.head offset with beyond | same
    · simp only [beyond]
    · simp only [same, ih]

theorem Memory.sameCues.startPoint (sec : SectionRec) (count : Nat) : startPoint k sec count = startPoint m sec count := by
  unfold Machine.startPoint
  rw [alike.groupPlaces]

theorem Memory.sameCues.readPrime (sec : SectionRec) (used sect n : Nat) :
    ∀ first group offset, readPrime k sec used sect first group n offset = readPrime m sec used sect first group n offset := by
  induction n with
  | zero => exact fun _ _ _ => rfl
  | succ n ih =>
    intro first group offset
    unfold Machine.readPrime
    rcases alike.head offset with beyond | same
    · simp only [beyond]
    · simp only [same, ih]
      split
      · rfl
      · next extent => rw [alike.body extent]

theorem Memory.sameCues.walkCues (sec : SectionRec) (used n : Nat) :
    ∀ offset ctx, walkCues k sec used n offset ctx = walkCues m sec used n offset ctx := by
  induction n with
  | zero => exact fun _ _ => rfl
  | succ n ih =>
    intro offset ctx
    unfold Machine.walkCues
    rcases alike.head offset with beyond | same
    · simp only [beyond]
    · simp only [same, ih]
      split
      · rfl
      · next extent => rw [alike.body extent]

theorem Memory.sameCues.primeCues (q : Sequencer) (sect count : Nat) : primeCues k q sect count = primeCues m q sect count := by
  unfold Machine.primeCues
  rw [alike.startPoint]
  simp only [alike.readPrime]

end

/-! ### The start point at count 0 (R82) -/

/-- Below no threshold lies no group. -/
theorem groupPlaces_zero (m : Memory) (n : Nat) :
    ∀ index offset, ∀ g ∈ (groupPlaces m 0 n index offset).1, g.2 = false := by
  induction n with
  | zero => intro index offset g mem; cases mem
  | succ n ih =>
    intro index offset g mem
    unfold groupPlaces at mem
    dsimp only at mem
    split at mem
    · cases mem
    · split at mem
      · exact ih _ _ g mem
      · rcases List.mem_cons.1 mem with rfl | mem
        · simp
        · exact ih _ _ g mem

theorem splitBelow_none {groups : List (ListPlace × Bool)} (h : ∀ g ∈ groups, g.2 = false) : (splitBelow groups).1 = [] := by
  induction groups with
  | nil => rfl
  | cons g rest ih =>
    have none_ := ih fun x hx => h x (List.mem_cons_of_mem _ hx)
    unfold splitBelow
    rcases split : splitBelow rest with ⟨below, after⟩
    rw [split] at none_
    simp [show below = [] from none_, h g List.mem_cons_self]

/-- At a threshold of 0 the start point is the head of the list (R82). -/
theorem startPoint_head (m : Memory) {sec : SectionRec} {count : Nat} (h : startThreshold sec count = 0) :
    startPoint m sec count = ({ index := 0, offset := sec.firstCue, left := sec.cueCount }, none) := by
  have none_ := splitBelow_none (groupPlaces_zero m sec.cueCount 0 sec.firstCue)
  unfold startPoint
  rw [h]
  dsimp only
  rcases split : splitBelow (groupPlaces m 0 sec.cueCount 0 sec.firstCue).1 with ⟨below, after⟩
  rw [split] at none_
  rw [show below = [] from none_]
  rfl

theorem startThreshold_zero (sec : SectionRec) : startThreshold sec 0 = 0 := by
  unfold startThreshold
  cases sec.kind <;> rfl

theorem startThreshold_called {sec : SectionRec} (h : sec.kind = .called) (count : Nat) : startThreshold sec count = 0 := by
  unfold startThreshold
  rw [h]

theorem primeCues_head (m : Memory) (q : Sequencer) {sect count : Nat} (h : startThreshold (q.sectionAt sect) count = 0) :
    primeCues m q sect count = [] := by
  unfold primeCues
  rw [startPoint_head m h]

/-! ### The prime group shown (R84) -/

/-- A lane that a title is sent on: up and not blanked (R101). -/
def Lane.sends (l : Lane) : Bool := l.up && !l.blanked

theorem Lane.sends_of_still {l m : Lane} (h : m.still = l.still) : m.sends = l.sends := by
  obtain ⟨_, blanked, _, _, link⟩ := Lane.link_of_still h
  unfold Lane.sends Lane.up
  rw [blanked, link]

/-- A primed title counts as sent where the lane is up and not blanked. -/
theorem Lane.takeTitle_sends (l : Lane) (sh : Shadow) (window : List Entry) : (l.takeTitle sh none window).2 = l.sends := by
  unfold Lane.sends
  by_cases up : l.up = true
  · by_cases blanked : l.blanked = true
    · rw [Lane.takeTitle_blanked_prime up blanked, up, blanked]
      rfl
    · have open_ : l.blanked = false := Bool.eq_false_iff.2 blanked
      by_cases text : sh.text = none
      · rw [Lane.takeTitle_clear up open_ text, up, open_]
        rfl
      · rw [Lane.takeTitle_text up open_ (Option.isSome_iff_ne_none.2 text), up, open_]
        rfl
  · have down : l.up = false := Bool.eq_false_iff.2 up
    rw [Lane.takeTitle_down down, down]
    rfl

theorem titleStep_still (cue : Cue) (key : Option EntryKey) (acc : Part × BitVec 6) (i : LaneIx) :
    acc.1.Stills (titleStep cue key acc i).1 := acc.1.setLane_stills i _ (Lane.takeTitle_still ..)

/-- The lanes that count as sent are those of the mask that are up and not blanked (R84, R101). -/
theorem titleSteps_sent (p : Part) (cue : Cue) (lanes : List LaneIx) :
    ∀ acc : Part × BitVec 6, (∀ i, (acc.1.lane i).sends = (p.lane i).sends) →
      (lanes.foldl (titleStep cue none) acc).2 =
        (lanes.filter fun i => (p.lane i).sends).foldl (fun m i => m ||| BitVec.twoPow 6 i.val) acc.2 := by
  induction lanes with
  | nil => exact fun _ _ => rfl
  | cons i rest ih =>
    intro acc same
    have more := ih (titleStep cue none acc i) fun j =>
      (Lane.sends_of_still (Part.still_lane (titleStep_still cue none acc i).still j)).trans (same j)
    rw [List.foldl_cons, more]
    have sent : (titleStep cue none acc i).2 = if (p.lane i).sends then acc.2 ||| BitVec.twoPow 6 i.val else acc.2 := by
      rw [← same i, ← Lane.takeTitle_sends (acc.1.lane i) (titleShadow cue i acc.1.now) acc.1.seq.window]
      rfl
    rw [sent]
    by_cases sends : (p.lane i).sends = true
    · rw [if_pos sends, List.filter_cons_of_pos (by exact sends), List.foldl_cons]
    · rw [if_neg sends, List.filter_cons_of_neg (by exact sends)]

theorem laneMask_eq (lanes : List LaneIx) : laneMask lanes = lanes.foldl (fun m i => m ||| BitVec.twoPow 6 i.val) 0 := by
  have values : (lanes >>= fun a => pure a.val) = lanes.map Fin.val := bind_pure_comp _ _
  unfold laneMask
  rw [values, List.foldl_map]

/-- The lanes a primed cue is sent on. -/
def Part.sentOn (p : Part) (c : Cue) : BitVec 6 := laneMask ((lanesOf c.mask).filter fun i => (p.lane i).sends)

theorem Part.handTitles_sent {p q : Part} (same : ∀ i, (q.lane i).sends = (p.lane i).sends) (cue : Cue) :
    (q.handTitles cue none).2 = p.sentOn cue := by
  rw [Part.handTitles_eq, titleSteps_sent p cue (lanesOf cue.mask) (q, 0) same]
  rw [Part.sentOn, laneMask_eq]

theorem Part.handAll_sent {p : Part} (cues : List Cue) : ∀ q : Part, (∀ i, (q.lane i).sends = (p.lane i).sends) →
    (q.handAll (cues.map fun c => (c, none))).2 = cues.map fun c => (c.id, p.sentOn c) := by
  induction cues with
  | nil => exact fun _ _ => rfl
  | cons c rest ih =>
    intro q same
    have more := ih (q.handTitles c none).1 fun i =>
      (Lane.sends_of_still (Part.still_lane (q.handTitles_stills c none).still i)).trans (same i)
    show (c.id, (q.handTitles c none).2) :: ((q.handTitles c none).1.handAll (rest.map fun c => (c, none))).2 = _
    rw [more, Part.handTitles_sent same]
    rfl

theorem Part.appendAll_appended {p : Part} (more : List Record) : ∀ (q : Part) (rs : List Record), p.appended q rs → q.now = p.now →
    q.readMark = p.readMark → p.appended (q.appendAll more) (rs ++ more) := by
  induction more with
  | nil =>
    intro q rs h _ _
    rw [List.append_nil]
    exact h
  | cons r rest ih =>
    intro q rs h now mark
    have keeps := q.append_keeps r
    rw [← List.singleton_append, ← List.append_assoc]
    exact ih (q.append r) _ (Part.appended_append r h now mark) (keeps.stills.now.trans now) ((Memory.Reach.readMark keeps.mem).trans mark)

section
variable (p : Part) (sect : Nat) (place : ListPlace)

/-- The cues of a prime group and the BAD_CUE records of those that fail, as the part reads them (R84). -/
def Part.primeRead : List Cue × List Record :=
  readPrime p.mem (p.seq.sectionAt sect) p.seq.usedLength sect true none place.left place.offset

/-- The part with the BAD_CUE records appended and the titles handed. -/
def Part.primeHanded : Part := ((p.appendAll (p.primeRead sect place).2).handAll ((p.primeRead sect place).1.map fun c => (c, none))).1

theorem Part.prime_eq : p.prime sect place =
    ((p.primeHanded sect place).appendAll
      ((p.primeRead sect place).1.map fun c => firedRecord .primed c.id sect (p.sentOn c) 0 none none),
      (p.primeRead sect place).1.head?.map Cue.id) := by
  have sent := Part.handAll_sent (p := p) (p.primeRead sect place).1 (p.appendAll (p.primeRead sect place).2) fun i =>
    congrArg Lane.sends (Part.lane_congr (Part.appendAll_lanes _ p) i)
  have records : ((p.appendAll (p.primeRead sect place).2).handAll ((p.primeRead sect place).1.map fun c => (c, none))).2.map
      (fun x => firedRecord .primed x.1 sect x.2 0 none none) =
        (p.primeRead sect place).1.map fun c => firedRecord .primed c.id sect (p.sentOn c) 0 none none := by
    rw [sent, List.map_map]
    rfl
  rw [← records]
  rfl

/-- What showing the prime group leaves: the sequencer and the clock stand, and each lane is as its titles leave it. -/
theorem Part.prime_leaves :
    (p.prime sect place).1.seq = p.seq ∧ (p.prime sect place).1.clock = p.clock ∧
      ∀ i, (p.prime sect place).1.lane i = (p.primeHanded sect place).lane i := by
  rw [Part.prime_eq]
  have marked := Part.appendAll_keeps (p.primeHanded sect place)
    ((p.primeRead sect place).1.map fun c => firedRecord .primed c.id sect (p.sentOn c) 0 none none)
  have noted := Part.appendAll_keeps p (p.primeRead sect place).2
  exact ⟨(Part.kept_seq marked.kept).trans ((Part.handAll_seq _ _).trans (Part.kept_seq noted.kept)),
    (Part.kept_clock marked.kept).trans ((Part.handAll_clock _ _).trans (Part.kept_clock noted.kept)),
    fun i => Part.lane_congr (Part.appendAll_lanes _ _) i⟩

theorem Part.prime_appended :
    p.appended (p.prime sect place).1
      ((p.primeRead sect place).2 ++
        (p.primeRead sect place).1.map fun c => firedRecord .primed c.id sect (p.sentOn c) 0 none none) := by
  rw [Part.prime_eq]
  have noted := Part.appendAll_keeps p (p.primeRead sect place).2
  have first := Part.appendAll_appended (p.primeRead sect place).2 p [] p.appended_nil rfl rfl
  have handed := Part.handAll_stills ((p.primeRead sect place).1.map fun c => (c, none)) (p.appendAll (p.primeRead sect place).2)
  obtain ⟨after, rest⟩ := Part.handAll_rest ((p.primeRead sect place).1.map fun c => (c, none)) (p.appendAll (p.primeRead sect place).2)
  refine Part.appendAll_appended _ _ _ ?_ (handed.now.trans noted.stills.now)
    ((Memory.Reach.readMark handed.mem).trans (Memory.Reach.readMark noted.mem))
  unfold Part.primeHanded
  rw [rest]
  exact Part.appended_quiet first ⟨rfl, rfl, fun _ _ => rfl⟩

end

/-! ### The lanes of the prime group (R15, R84) -/

/-- Two cues with no lane in common. -/
def Cue.apart (x y : Cue) : Prop := ∀ i, x.mask.getLsbD i = true → y.mask.getLsbD i = false

theorem Cue.apart_symm (x y : Cue) (h : x.apart y) : y.apart x := fun i there => by
  rw [← Bool.not_eq_true]
  exact fun here => Bool.false_ne_true ((h i here).symm.trans there)

/-- A WITH cue that joins a group has no lane of it (R15). -/
theorem checkCueBody_with {m : Memory} {r : RawCue} {offset used : Nat} {sec : SectionRec} {g : BitVec 6} {c : Cue}
    (with_ : r.trigger = 4) (ok : checkCueBody m r offset sec used { group := some g, previousAt := none } = .ok c) :
    ∀ i, g.getLsbD i = true → c.mask.getLsbD i = false := by
  have trigger : triggerOf r.trigger sec = some .withPrev := by rw [with_]; rfl
  unfold checkCueBody at ok
  rw [trigger] at ok
  dsimp only at ok
  split at ok
  · cases ok
  · split at ok
    · cases ok
    · split at ok
      · cases ok
      · split at ok
        · cases ok
        · next disjoint =>
          split at ok
          · cases ok
          · split at ok
            · cases ok
            · split at ok
              · cases ok
              · cases ok
                intro i inside
                rw [not_and, Option.all_some, decide_eq_true_iff, not_not] at disjoint
                have bit := congrArg (fun v => BitVec.getLsbD v i) (disjoint rfl)
                simpa [inside] using bit

/-- Behind a group's first cue, each further cue taken is apart from the group so far and from each other. -/
theorem readPrime_group (m : Memory) (sec : SectionRec) (used sect n : Nat) :
    ∀ (g : BitVec 6) (offset : Nat),
      (∀ x ∈ (readPrime m sec used sect false (some g) n offset).1, ∀ i, g.getLsbD i = true → x.mask.getLsbD i = false) ∧
      (readPrime m sec used sect false (some g) n offset).1.Pairwise Cue.apart := by
  induction n with
  | zero => exact fun _ _ => ⟨nofun, .nil⟩
  | succ n ih =>
    intro g offset
    unfold readPrime
    simp only
    split
    · exact ⟨nofun, .nil⟩
    · split
      · exact ⟨nofun, .nil⟩
      · next with_ =>
        have trigger : (readCueHead m offset).trigger = 4 := by simpa using with_
        split
        · next never => cases never
        · split
          · exact ih g _
          · next cue ok =>
            have here := checkCueBody_with trigger ok
            obtain ⟨behind, pairwise⟩ := ih (g ||| cue.mask) (offset + (readCueHead m offset).length)
            have joined : ∀ i, (g ||| cue.mask).getLsbD i = (g.getLsbD i || cue.mask.getLsbD i) := fun i => BitVec.getLsbD_or
            refine ⟨fun x mem i inside => ?_, List.pairwise_cons.2 ⟨fun y mem i inside => ?_, pairwise⟩⟩
            · rcases List.mem_cons.1 mem with rfl | mem
              · exact here i inside
              · exact behind x mem i (by rw [joined, inside]; rfl)
            · exact behind y mem i (by rw [joined, inside, Bool.or_true])

/-- A group whose first cue was lost shows nothing (R84). -/
theorem readPrime_lost (m : Memory) (sec : SectionRec) (used sect n : Nat) :
    ∀ offset, (readPrime m sec used sect false none n offset).1 = [] := by
  induction n with
  | zero => exact fun _ => rfl
  | succ n ih =>
    intro offset
    unfold readPrime
    simp only
    split
    · rfl
    · split
      · rfl
      · exact ih _

/-- No two cues of a prime group have a lane in common. -/
theorem readPrime_apart (m : Memory) (sec : SectionRec) (used sect n offset : Nat) :
    (readPrime m sec used sect true none n offset).1.Pairwise Cue.apart := by
  cases n with
  | zero => exact .nil
  | succ n =>
    unfold readPrime
    simp only
    split
    · exact .nil
    · split
      · exact .nil
      · split
        · next never => simp at never
        · split
          · rw [readPrime_lost]
            exact .nil
          · next cue ok =>
            obtain ⟨behind, pairwise⟩ := readPrime_group m sec used sect n (0 ||| cue.mask) (offset + (readCueHead m offset).length)
            refine List.pairwise_cons.2 ⟨fun y mem i inside => behind y mem i ?_, pairwise⟩
            rw [BitVec.getLsbD_or, inside, Bool.or_true]

section
variable {p : Part} {sect : Nat} {place : ListPlace} {i : LaneIx}

theorem Part.primeHanded_other (apart : ∀ x ∈ (p.primeRead sect place).1, x.mask.getLsbD i.val = false) :
    (p.primeHanded sect place).lane i = p.lane i := by
  refine (Part.handAll_lane_other _ _ fun x mem => ?_).trans (Part.lane_congr (Part.appendAll_lanes _ p) i)
  obtain ⟨c, there, rfl⟩ := List.mem_map.1 mem
  exact apart c there

/-- A lane of a prime cue's mask shows its title from now on (R84). -/
theorem Part.primeHanded_shadow {x : Cue} (mem : x ∈ (p.primeRead sect place).1) (inside : x.mask.getLsbD i.val = true) :
    ((p.primeHanded sect place).lane i).shadow = shownAs x i p.now := by
  have only : ∀ y ∈ (p.primeRead sect place).1, y.mask.getLsbD i.val = true → y = x := fun y there bit => by
    by_contra other
    have symm : Std.Symm Cue.apart := ⟨Cue.apart_symm⟩
    have apart := (readPrime_apart ..).forall there mem other
    exact Bool.false_ne_true ((apart _ bit).symm.trans inside)
  have shown := Part.handAll_shadow (i := i) (cue := x) ((p.primeRead sect place).1.map fun c => (c, none))
    (p.appendAll (p.primeRead sect place).2) ⟨(x, none), List.mem_map.2 ⟨x, mem, rfl⟩, inside⟩ (fun y there bit => by
      obtain ⟨c, here, rfl⟩ := List.mem_map.1 there
      exact only c here bit)
  rw [Part.primeHanded, shown, shownAs_eq, (Part.appendAll_keeps p _).stills.now]

end

end Sys2Proof.Machine
end

/-! PROOFS. ARM (R83, R157) and JUMP (R85, R158): the act begun at a section and count. -/

section
namespace Sys2Proof.Machine

open Sys2Proof (LaneIx SlotIx Instr)

/-! ### The steps of an arming (R83) -/

/-- The sequencer at a section's start, with nothing of an act before it. -/
def Sequencer.atStart (q : Sequencer) (sect now : Nat) : Sequencer :=
  { q with
    history := [], vampExit := false, lastFire := none, deferAt := none, pass := 0, current := some sect, entryRun := 1
    lastEntryAt := some now }

/-- The sequencer armed at a place of a section's list. -/
def Sequencer.arming (q : Sequencer) (sect : Nat) (start : ListPlace) (now : Nat) : Sequencer :=
  { q.atStart sect now with
    heldNext := some (q.atStart sect now).resolve
    cursor := .reading 0 sect start.offset start.index start.left false }

/-- Where an arming at a count starts to read, and where its prime group lies (R82, R84). -/
def Part.armStart (p : Part) (sect count : Nat) : ListPlace × Option ListPlace := startPoint p.mem (p.seq.sectionAt sect) count

/-- The part armed, its window loaded from the start point. -/
def Part.armLoaded (p : Part) (sect count : Nat) : Part :=
  (p.setSeq (p.seq.arming sect (p.armStart sect count).1 p.now)).refill

/-- The prime group shown, where it is asked for and there is one, with its first cue. -/
def Part.armPrimed (p : Part) (sect count : Nat) (prime : Bool) : Part × Option Half :=
  match prime, (p.armStart sect count).2 with
  | true, some place => (p.armLoaded sect count).prime sect place
  | _, _ => (p.armLoaded sect count, none)

/-- The clock armed and the sequencer RUNNING, with the notices and records that say so. -/
def Part.armSet (p : Part) (sect count : Nat) (how : HowEntered) (from_ : Option Nat) : Part :=
  (Part.setNotice (Part.reportClock
    ((p.setClock (p.clock.arm (p.seq.sectionAt sect) count)).setSeq { p.seq with state := .running }) p.clock.state .arm)
    .section_).append (sectionRecord how from_ sect 0)

theorem Part.armAt_eq (p : Part) (sect count : Nat) (prime : Bool) (how : HowEntered) (from_ : Option Nat) :
    p.armAt sect count prime how from_ =
      (((p.armPrimed sect count prime).1.armSet sect count how from_).recompute.settle, (p.armPrimed sect count prime).2) := rfl

/-! ### The window loaded from the start point -/

/-- Entries as loaded from a section's start: those of the current pass are the section's own. -/
structure Sequencer.Loading (sect : Nat) (q : Sequencer) : Prop where
  cursor : ∀ pass s offset index left lost, q.cursor = .reading pass s offset index left lost → pass = q.pass → s = sect
  window : ∀ e ∈ q.window, e.state = .waiting ∧ (e.key.pass = q.pass → e.key.sect = sect)

theorem Sequencer.loading_keeps (sect : Nat) : LoaderKeeps (Sequencer.Loading sect) where
  ends q pass s offset index lost h reading := by
    refine ⟨fun pass' s' offset' index' left' lost' here own => ?_, h.window⟩
    have beyond : q.afterPass pass = .reading pass' s' offset' index' left' lost' := here
    unfold Sequencer.afterPass Sequencer.nextPassCursor at beyond
    split at beyond
    · split at beyond
      · cases beyond
        exact absurd own (next_pass_ne _)
      · cases beyond
      · cases beyond
    · cases beyond
  skips q pass s offset index left lost offset' index' left' lost' h reading := by
    refine ⟨fun pass' s' _ _ _ _ here own => ?_, h.window⟩
    cases here
    exact h.cursor _ _ _ _ _ _ reading own
  takes q pass s offset index left lost cue offset' index' left' lost' h reading := by
    refine ⟨fun pass' s' _ _ _ _ here own => ?_, fun e mem => ?_⟩
    · cases here
      exact h.cursor _ _ _ _ _ _ reading own
    · rcases List.mem_append.1 mem with mem | mem
      · exact h.window e mem
      · rw [List.mem_singleton.1 mem]
        exact ⟨rfl, fun own => h.cursor _ _ _ _ _ _ reading own⟩

section
variable (p : Part) (sect count : Nat)

theorem Part.armLoaded_loads :
    (p.setSeq (p.seq.arming sect (p.armStart sect count).1 p.now)).Loads (p.armLoaded sect count) := Part.refill_loads _

theorem Part.armLoaded_loading (empty : p.seq.window = []) : Sequencer.Loading sect (p.armLoaded sect count).seq := by
  refine (Sequencer.loading_keeps sect).refill ⟨fun pass s _ _ _ _ here _ => ?_, fun e mem => ?_⟩
  · cases here
    rfl
  · rw [show (p.setSeq (p.seq.arming sect (p.armStart sect count).1 p.now)).seq.window = [] from empty] at mem
    cases mem

/-- What the loading leaves of the sequencer. -/
theorem Part.armLoaded_seq : ∃ more cursor, (p.armLoaded sect count).seq =
    { p.seq.arming sect (p.armStart sect count).1 p.now with window := p.seq.window ++ more, cursor := cursor } :=
  (p.armLoaded_loads sect count).seq

theorem Part.armLoaded_sectionAt (s : Nat) : (p.armLoaded sect count).seq.sectionAt s = p.seq.sectionAt s := by
  obtain ⟨_, _, seq⟩ := p.armLoaded_seq sect count
  rw [seq]
  rfl

theorem Part.armLoaded_lane (i : LaneIx) : (p.armLoaded sect count).lane i = p.lane i := Part.lane_congr (Part.refill_lanes _) i

theorem Part.armLoaded_clock : (p.armLoaded sect count).clock = p.clock := (p.armLoaded_loads sect count).clock

end

theorem Part.refillFor_succ {p q : Part} (n : Nat) (loads : p.noteUse.loadOne = some q) : p.refillFor (n + 1) = q.refillFor n := by
  rw [Part.refillFor, loads]

/-- A CALLED section's checked list has its first cue in the window (R15, R18). -/
theorem Part.refill_first {p : Part} {pass : Half} {sect : Nat} (empty : p.seq.window = [])
    (reading : p.seq.cursor =
      .reading pass sect (p.seq.sectionAt sect).firstCue 0 (p.seq.sectionAt sect).cueCount false)
    (some_ : 1 ≤ (p.seq.sectionAt sect).cueCount)
    (walk : walkSection p.mem (p.seq.sectionAt sect) p.seq.usedLength = none) :
    ∃ e more, p.refill.seq.window = e :: more ∧ e.key.pass = pass := by
  have noted := p.noteUse_keeps
  have seq : p.noteUse.seq = p.seq := Part.kept_seq noted.kept
  have alike := noted.mem.sameCues
  generalize sec_ : p.seq.sectionAt sect = sec at reading some_ walk
  obtain ⟨n, cues⟩ := Nat.exists_eq_add_of_le' some_
  unfold walkSection at walk
  rw [← alike.walkCues, cues] at walk
  unfold walkCues at walk
  dsimp only at walk
  split at walk
  · cases walk
  · next extent =>
    split at walk
    · cases walk
    · next cue body =>
      have read : (p.noteUse.readCue pass sect sec.firstCue 0 sec.cueCount false).seq.window =
          [Entry.loaded cue { sect := sect, pass := pass, offset := sec.firstCue, index := 0 }] := by
        have alone : p.noteUse.seq.openGroup sect pass 0 = none :=
          Sequencer.openGroup_none 0 (by rw [seq, empty]; exact nofun)
        unfold Part.readCue
        simp only [extent, alone]
        rw [seq, sec_, body, empty]
        simp [Entry.loaded]
      have loads : p.noteUse.loadOne = some (p.noteUse.readCue pass sect sec.firstCue 0 sec.cueCount false) := by
        unfold Part.loadOne
        rw [seq, reading, empty]
        dsimp only
        rw [if_neg (by omega), if_pos (by decide)]
      obtain ⟨more, _, after⟩ := (Part.refillFor_loads 8199 (p.noteUse.readCue pass sect sec.firstCue 0 sec.cueCount false)).seq
      rw [show p.refill = _ from Part.refillFor_succ 8199 loads, after, read]
      exact ⟨_, more, rfl, rfl⟩

/-! ### The prime group of an arming (R84) -/

/-- The cues of the prime group an arming shows. -/
def Part.armCues (p : Part) (sect count : Nat) (prime : Bool) : List Cue :=
  if prime then primeCues p.mem p.seq sect count else []

section
variable (p : Part) (sect count : Nat)

theorem Part.armPrimed_none {prime : Bool} (h : prime = false ∨ (p.armStart sect count).2 = none) :
    p.armPrimed sect count prime = (p.armLoaded sect count, none) ∧ p.armCues sect count prime = [] := by
  have cues : (p.armStart sect count).2 = none → primeCues p.mem p.seq sect count = [] := fun h => by
    unfold primeCues
    rw [show (startPoint p.mem (p.seq.sectionAt sect) count).2 = none from h]
  unfold Part.armPrimed Part.armCues
  rcases h with h | h
  · rw [h]
    exact ⟨rfl, rfl⟩
  · rw [h, cues h]
    cases prime <;> exact ⟨rfl, rfl⟩

theorem Part.armPrimed_some {place : ListPlace} (h : (p.armStart sect count).2 = some place) :
    p.armPrimed sect count true = (p.armLoaded sect count).prime sect place ∧
      p.armCues sect count true = ((p.armLoaded sect count).primeRead sect place).1 := by
  have loads := p.armLoaded_loads sect count
  obtain ⟨_, _, seq⟩ := p.armLoaded_seq sect count
  obtain ⟨_, _, keeps⟩ := loads
  have alike : p.mem.sameCues (p.armLoaded sect count).mem := Memory.Reach.sameCues keeps.mem
  have used : (p.armLoaded sect count).seq.usedLength = p.seq.usedLength := by rw [seq]; rfl
  refine ⟨by simp only [Part.armPrimed, h], ?_⟩
  unfold Part.primeRead Part.armCues primeCues
  rw [show (startPoint p.mem (p.seq.sectionAt sect) count).2 = some place from h, alike.readPrime, p.armLoaded_sectionAt, used]
  rfl

/-- What the prime group leaves behind the loading. -/
theorem Part.armPrimed_leaves (prime : Bool) :
    (p.armPrimed sect count prime).1.seq = (p.armLoaded sect count).seq ∧ (p.armPrimed sect count prime).1.clock = p.clock ∧
      (p.armPrimed sect count prime).2 = (p.armCues sect count prime).head?.map Cue.id ∧
      ∀ i, ((∀ x ∈ p.armCues sect count prime, x.mask.getLsbD i.val = false) → (p.armPrimed sect count prime).1.lane i = p.lane i) ∧
        ∀ x ∈ p.armCues sect count prime, x.mask.getLsbD i.val = true →
          ((p.armPrimed sect count prime).1.lane i).shadow = shownAs x i p.now := by
  have lane := p.armLoaded_lane sect count
  have clock := p.armLoaded_clock sect count
  by_cases none_ : prime = false ∨ (p.armStart sect count).2 = none
  · obtain ⟨primed, cues⟩ := p.armPrimed_none sect count none_
    rw [primed, cues]
    exact ⟨rfl, clock, rfl, fun i => ⟨fun _ => lane i, nofun⟩⟩
  · rw [not_or, Bool.not_eq_false] at none_
    obtain ⟨rfl, some_⟩ := none_
    obtain ⟨place, start⟩ := Option.ne_none_iff_exists'.1 some_
    obtain ⟨primed, cues⟩ := p.armPrimed_some sect count start
    obtain ⟨seq, clock', lanes⟩ := (p.armLoaded sect count).prime_leaves sect place
    rw [primed, cues]
    refine ⟨seq, clock'.trans clock, rfl, fun i => ⟨fun apart => ?_, fun x mem inside => ?_⟩⟩
    · rw [lanes, Part.primeHanded_other apart, lane]
    · rw [lanes, Part.primeHanded_shadow mem inside, show (p.armLoaded sect count).now = p.now from (congrArg Clock.showTime clock :)]

end

/-! ### The clock armed (R32) -/

theorem Clock.arm_eq (c : Clock) (sec : SectionRec) (count : Nat) : c.arm sec count = armedClock c sec count := by
  unfold Clock.arm armedClock
  cases sec.kind <;> rfl

section
variable (p : Part) (sect count : Nat) (how : HowEntered) (from_ : Option Nat)

theorem Part.armSet_keeps :
    ((p.setClock (p.clock.arm (p.seq.sectionAt sect) count)).setSeq { p.seq with state := .running }).Keeps
      (p.armSet sect count how from_) :=
  ((Part.reportClock_keeps ..).trans (Part.setNotice_keeps ..)).trans (Part.append_keeps ..)

theorem Part.armSet_leaves :
    (p.armSet sect count how from_).clock = armedClock p.clock (p.seq.sectionAt sect) count ∧
      (p.armSet sect count how from_).seq = { p.seq with state := .running } ∧
      (∀ i, ((p.armSet sect count how from_).lane i).kept = (p.lane i).kept) ∧
      (p.armSet sect count how from_).regs.notice.getLsbD 4 = true := by
  have keeps := p.armSet_keeps sect count how from_
  exact ⟨(Part.kept_clock keeps.kept).trans (Clock.arm_eq ..), Part.kept_seq keeps.kept, fun i => Part.kept_lane keeps.kept i,
    (Part.append_keeps _ (sectionRecord how from_ sect 0)).notices 4 (Part.setNotice_bit _ .section_)⟩

end

/-! ### The evaluation behind an arming (R66) -/

/-- With no fire to wait on, a clock that keeps no beat and no timer gives the section's own entries, and those of the next pass, no due
time (R50 to R55). -/
theorem Part.dueOf_armed {p : Part} {e : Entry} (unfired : p.seq.lastFire = none)
    (rests : p.clock.state = .armed ∨ p.clock.state = .untracked) (untimed : p.seq.currentRec.kind ≠ .timed)
    (own : e.key.pass = p.seq.pass → (p.seq.sectionAt e.key.sect).kind ≠ .timed) (head : Bool) : p.dueOf head e = none := by
  have undue : ∀ qe, p.clock.dueAt e qe = none := fun qe => by
    unfold Clock.dueAt
    rcases rests with h | h <;> rw [h]
  unfold Part.dueOf
  split
  · rfl
  · split
    · rfl
    · rfl
    · rw [unfired]
      split <;> rfl
    · split
      · rfl
      · cases p.seq.effective e with
        | none => rfl
        | some qe => exact undue qe
      · next timed =>
        have other : p.seq.isCurrent e = false := decide_eq_false fun here => own here timed
        unfold Part.passStart
        rw [other, if_neg nofun, if_neg fun h => untimed h.2]
        rfl

theorem armedClock_state (c : Clock) {sec : SectionRec} (count : Nat) :
    (armedClock c sec count).state = .armed ∨ (armedClock c sec count).state = .untracked := by
  unfold armedClock
  cases sec.kind
  · exact .inl rfl
  · exact .inr rfl
  · exact .inr rfl

/-- A part armed at a section's start, before its due times are taken anew. -/
structure Part.Armed (p : Part) (sect count : Nat) (q : Part) : Prop where
  clock : q.clock = armedClock p.clock (p.seq.sectionAt sect) count
  sections : ∀ s, q.seq.sectionAt s = p.seq.sectionAt s
  state : q.seq.state = .running
  current : q.seq.current = some sect
  pass : q.seq.pass = 0
  vampExit : q.seq.vampExit = false
  entryRun : q.seq.entryRun = 1
  lastFire : q.seq.lastFire = none
  history : q.seq.history = []
  notice : q.regs.notice.getLsbD 4 = true

theorem Part.Armed.currentRec {p q : Part} {sect count : Nat} (h : p.Armed sect count q) : q.seq.currentRec = p.seq.sectionAt sect := by
  unfold Sequencer.currentRec
  rw [h.current, ← h.sections]
  rfl

/-- The part that an arming evaluates. -/
def Part.armReady (p : Part) (sect count : Nat) (prime : Bool) (how : HowEntered) (from_ : Option Nat) : Part :=
  (p.armPrimed sect count prime).1.armSet sect count how from_

section
variable (p : Part) (sect count : Nat) (prime : Bool) (how : HowEntered) (from_ : Option Nat)

theorem Part.armReady_seq : (p.armReady sect count prime how from_).seq = { (p.armLoaded sect count).seq with state := .running } := by
  obtain ⟨_, seq, _⟩ := (p.armPrimed sect count prime).1.armSet_leaves sect count how from_
  rw [Part.armReady, seq, (p.armPrimed_leaves sect count prime).1]

theorem Part.armReady_armed : p.Armed sect count (p.armReady sect count prime how from_) := by
  have seq := p.armReady_seq sect count prime how from_
  obtain ⟨clock, _, _, notice⟩ := (p.armPrimed sect count prime).1.armSet_leaves sect count how from_
  obtain ⟨primedSeq, primedClock, _⟩ := p.armPrimed_leaves sect count prime
  obtain ⟨more, cursor, loaded⟩ := p.armLoaded_seq sect count
  rw [primedClock, primedSeq, p.armLoaded_sectionAt] at clock
  rw [loaded] at seq
  exact {
    clock := clock
    sections := fun s => by rw [seq]; rfl
    state := by rw [seq]
    current := by rw [seq]; rfl
    pass := by rw [seq]; rfl
    vampExit := by rw [seq]; rfl
    entryRun := by rw [seq]; rfl
    lastFire := by rw [seq]; rfl
    history := by rw [seq]; rfl
    notice := notice }

theorem Part.armReady_lane (i : LaneIx) :
    ((p.armReady sect count prime how from_).lane i).kept = ((p.armPrimed sect count prime).1.lane i).kept :=
  ((p.armPrimed sect count prime).1.armSet_leaves sect count how from_).2.2.1 i

end

/-- Behind an arming that no position and no timer makes due, the evaluation has nothing to do (R66). -/
theorem Part.Armed.settle_idle {p q : Part} {sect count : Nat} (h : p.Armed sect count q) (loading : Sequencer.Loading sect q.seq)
    (untimed : (p.seq.sectionAt sect).kind ≠ .timed)
    (goes : (p.seq.sectionAt sect).kind = .called → ∃ e more, q.seq.window = e :: more ∧ e.key.pass = 0) :
    q.recompute.settle = q.recompute := by
  have stays := q.recompute_stays
  have kind : q.recompute.seq.currentRec = p.seq.sectionAt sect :=
    (Sequencer.currentRec_of_place stays.place).trans h.currentRec
  refine Part.settle_idle _ (.inr ⟨?_, fun e head => ?_⟩)
  · by_cases called : (p.seq.sectionAt sect).kind = .called
    · obtain ⟨e, more, window, own⟩ := goes called
      have current : q.recompute.seq.pass = 0 := (Sequencer.pass_of_place stays.place).trans h.pass
      have here : (q.recompute.seq.window.all fun e => decide (e.key.pass ≠ q.recompute.seq.pass)) = false := by
        rw [q.recompute_cons window, current, List.all_cons, show (q.refreshEntry true e).key = e.key from rfl, own]
        simp
      unfold Sequencer.calledOver
      rw [here]
      simp
    · exact Sequencer.calledOver_kind (by rw [kind]; exact called)
  · cases window : q.seq.window with
    | nil =>
      have none_ : q.recompute.seq.window = [] := by
        unfold Part.recompute
        rw [window]
      rw [none_] at head
      cases head
    | cons f rest =>
      rw [q.recompute_cons window] at head
      cases head
      obtain ⟨waiting, own⟩ := loading.window f (by rw [window]; exact List.mem_cons_self)
      have undue : q.dueOf true f = none := by
        refine Part.dueOf_armed h.lastFire (by rw [h.clock]; exact armedClock_state ..) (by rw [h.currentRec]; exact untimed)
          (fun here => ?_) true
        rw [own here, h.sections]
        exact untimed
      exact ⟨by rw [show (q.refreshEntry true f).state = .waiting from waiting]; exact nofun, .inr (.inl undue)⟩

/-! ### What an arming leaves (R83) -/

section
variable {p : Part} {sect count : Nat}

/-- A CALLED section armed has its first cue at the window's head. -/
theorem Part.armLoaded_first (empty : p.seq.window = []) (called : (p.seq.sectionAt sect).kind = .called)
    (some_ : 1 ≤ (p.seq.sectionAt sect).cueCount) (walk : walkSection p.mem (p.seq.sectionAt sect) p.seq.usedLength = none) :
    ∃ e more, (p.armLoaded sect count).seq.window = e :: more ∧ e.key.pass = 0 := by
  have start : p.armStart sect count =
      ({ index := 0, offset := (p.seq.sectionAt sect).firstCue, left := (p.seq.sectionAt sect).cueCount }, none) :=
    startPoint_head p.mem (startThreshold_called called count)
  unfold Part.armLoaded
  rw [start]
  exact Part.refill_first empty rfl some_ walk

/-- Where nothing fires by position or time, the act begins with the window loaded and no more. -/
theorem Part.armAt_idle (empty : p.seq.window = []) (untimed : (p.seq.sectionAt sect).kind ≠ .timed)
    (goes : (p.seq.sectionAt sect).kind = .called →
      1 ≤ (p.seq.sectionAt sect).cueCount ∧ walkSection p.mem (p.seq.sectionAt sect) p.seq.usedLength = none)
    (prime : Bool) (how : HowEntered) (from_ : Option Nat) :
    (p.armAt sect count prime how from_).1 = (p.armReady sect count prime how from_).recompute := by
  have seq := p.armReady_seq sect count prime how from_
  have loading := p.armLoaded_loading sect count empty
  rw [Part.armAt_eq]
  refine (p.armReady_armed sect count prime how from_).settle_idle (by rw [seq]; exact ⟨loading.cursor, loading.window⟩) untimed
    fun called => ?_
  obtain ⟨some_, walk⟩ := goes called
  rw [seq]
  exact Part.armLoaded_first empty called some_ walk

/-- The act begun, as ARM and JUMP leave it (R83, R85). -/
structure Part.Begun (p : Part) (sect count : Nat) (q : Part) : Prop where
  clock : q.clock = armedClock p.clock (p.seq.sectionAt sect) count
  state : q.seq.state = .running
  current : q.seq.current = some sect
  pass : q.seq.pass = 0
  vampExit : q.seq.vampExit = false
  entryRun : q.seq.entryRun = 1
  notice : q.regs.notice.getLsbD 4 = true

theorem Part.Armed.begun {p q r : Part} {sect count : Nat} (h : p.Armed sect count q) (stays : q.Stays r) (stills : q.Stills r) :
    p.Begun sect count r where
  clock := stays.clock.trans h.clock
  state := (Sequencer.state_of_place stays.place).trans h.state
  current := (Sequencer.current_of_place stays.place).trans h.current
  pass := (Sequencer.pass_of_place stays.place).trans h.pass
  vampExit := (Sequencer.vampExit_of_place stays.place).trans h.vampExit
  entryRun := (congrArg Place.entryRun stays.place :).trans h.entryRun
  notice := stills.notices 4 h.notice

theorem Part.armAt_begun
    (goes : (p.seq.sectionAt sect).kind = .called → p.seq.window = [] ∧
      1 ≤ (p.seq.sectionAt sect).cueCount ∧ walkSection p.mem (p.seq.sectionAt sect) p.seq.usedLength = none)
    (prime : Bool) (how : HowEntered) (from_ : Option Nat) : p.Begun sect count (p.armAt sect count prime how from_).1 := by
  have armed := p.armReady_armed sect count prime how from_
  by_cases called : (p.seq.sectionAt sect).kind = .called
  · obtain ⟨empty, some_, walk⟩ := goes called
    rw [Part.armAt_idle empty (by rw [called]; exact nofun) fun _ => ⟨some_, walk⟩]
    exact armed.begun (Part.recompute_stays _) (Part.recompute_stills _)
  · rw [Part.armAt_eq]
    refine armed.begun ((Part.recompute_stays _).trans (Part.settle_stays _ ?_)) ((Part.recompute_stills _).trans (Part.settle_stills _))
    rw [Sequencer.currentRec_of_place (Part.recompute_stays _).place, armed.currentRec]
    exact called

/-- In a PULSED section nothing fires: F is absent, the history is empty, and the lanes are as the prime group leaves them. -/
theorem Part.armAt_unfired (empty : p.seq.window = []) (pulsed : (p.seq.sectionAt sect).kind = .pulsed) (prime : Bool)
    (how : HowEntered) (from_ : Option Nat) :
    (p.armAt sect count prime how from_).1.seq.lastFire = none ∧ (p.armAt sect count prime how from_).1.seq.history = [] ∧
      ∀ i, ((p.armAt sect count prime how from_).1.lane i).kept = ((p.armPrimed sect count prime).1.lane i).kept := by
  have armed := p.armReady_armed sect count prime how from_
  rw [Part.armAt_idle empty (by rw [pulsed]; exact nofun) (by rw [pulsed]; exact nofun)]
  exact ⟨armed.lastFire, armed.history, p.armReady_lane sect count prime how from_⟩

end

/-! ### ARM (R157) -/

theorem Sequencer.badPlace_iff (q : Sequencer) (sect count prime : Nat) :
    q.badPlace sect count prime = true ↔ ¬ (sect < q.sectionCount ∧ prime ≤ 1 ∧ goodCount (q.sectionAt sect) count) := by
  unfold Sequencer.badPlace goodCount
  cases (q.sectionAt sect).kind <;> simp <;> omega

theorem Part.primedWord_eq (cues : List Cue) : optWord ((cues.head?.map Cue.id).map BitVec.toNat) = primedWord cues := by
  rw [Option.map_map]
  rfl

/-- What an answer whose act is `q` keeps of it. -/
structure Part.AnswerKeeps (q t : Part) : Prop where
  clock : t.clock = q.clock
  seq : t.seq = q.seq
  lane : ∀ i, (t.lane i).kept = (q.lane i).kept
  notices : q.noticesStay t

theorem Part.complete_keeps (before q : Part) (n : SlotIx) (tag : Half) (r : Result) (d : List Nat) :
    q.AnswerKeeps (Part.complete before q n tag r d) :=
  ⟨Part.complete_clock, Part.complete_seq, Part.complete_lane, Part.complete_notices⟩

theorem Part.Begun.answered {p q t : Part} {sect count : Nat} (h : p.Begun sect count q) (keeps : q.AnswerKeeps t) :
    p.Begun sect count t := by
  have seq := keeps.seq
  exact ⟨keeps.clock.trans h.clock, seq ▸ h.state, seq ▸ h.current, seq ▸ h.pass, seq ▸ h.vampExit, seq ▸ h.entryRun,
    keeps.notices 4 h.notice⟩

/-- An act begun is answered with the window's fill and head and the first cue of the prime group (R157). -/
theorem State.arm_answers {c : Instr} {s : State} {n : SlotIx} {tag : Half} {act : Part → Part × Result × List Nat} {base : Part}
    {sect count : Nat} {prime : Bool} {how : HowEntered} {from_ : Option Nat} (meaning : exec c s = s.request n tag act)
    (takes : s.part.takes n = true)
    (acts : act (s.part.takeSlot n) =
      ((base.armAt sect count prime how from_).1, .ok,
        (base.armAt sect count prime how from_).1.armDetail (base.armAt sect count prime how from_).2))
    (stills : (s.part.takeSlot n).Stills (base.armAt sect count prime how from_).1) {cues : List Cue}
    (primes : base.armCues sect count prime = cues) :
    ∃ t, exec c s = .next t ∧ t.pending = s.pending ∧
      AnswersAs Part.still n tag .ok [t.part.seq.window.length, optWord t.part.seq.headCue, primedWord cues] s.part s.part t.part ∧
      (base.armAt sect count prime how from_).1.AnswerKeeps t.part := by
  obtain ⟨t, run, pending, answered, keeps⟩ := State.request_stills
    (post := (base.armAt sect count prime how from_).1.AnswerKeeps) meaning takes acts stills (Part.complete_keeps _ _ n tag _ _)
  refine ⟨t, run, pending, ?_, keeps⟩
  have first : (base.armAt sect count prime how from_).2 = cues.head?.map Cue.id := by
    rw [← primes, Part.armAt_eq]
    exact (base.armPrimed_leaves sect count prime).2.2.1
  rw [keeps.seq, ← Part.primedWord_eq, ← first]
  exact answered

theorem Part.requestArm_untaken (p : Part) (sect count prime : Nat) (h : ¬ (p.seq.state = .loaded ∨ p.seq.state = .ended)) :
    p.requestArm sect count prime = (p, .state, []) := if_pos h

theorem Part.requestArm_bad (p : Part) {sect count prime : Nat} (held : p.seq.state = .loaded ∨ p.seq.state = .ended)
    (bad : ¬ (sect < p.seq.sectionCount ∧ prime ≤ 1 ∧ goodCount (p.seq.sectionAt sect) count)) :
    p.requestArm sect count prime = (p, .badArg, []) :=
  (if_neg (not_not.2 held)).trans (if_pos ((p.seq.badPlace_iff ..).2 bad))

theorem Part.requestArm_arms (p : Part) {sect count prime : Nat} (held : p.seq.state = .loaded ∨ p.seq.state = .ended)
    (good : sect < p.seq.sectionCount ∧ prime ≤ 1 ∧ goodCount (p.seq.sectionAt sect) count) :
    p.requestArm sect count prime =
      ((p.armAt sect count (decide (prime = 1)) .arm none).1, .ok,
        (p.armAt sect count (decide (prime = 1)) .arm none).1.armDetail (p.armAt sect count (decide (prime = 1)) .arm none).2) :=
  (if_neg (not_not.2 held)).trans (if_neg fun bad => (p.seq.badPlace_iff ..).1 bad good)

theorem Part.armCues_eq {p b : Part} (alike : p.mem.sameCues b.mem) (book : b.seq.book = p.seq.book) (sect count prime : Nat) :
    b.armCues sect count (decide (prime = 1)) = if prime = 1 then primeCues p.mem p.seq sect count else [] := by
  have sections : ∀ s, b.seq.sectionAt s = p.seq.sectionAt s := fun s => by unfold Sequencer.sectionAt; rw [book]
  have used : b.seq.usedLength = p.seq.usedLength := by unfold Sequencer.usedLength; rw [book]
  unfold Part.armCues
  rw [alike.primeCues]
  unfold primeCues
  rw [sections, used]
  simp

/-- Settles O40: the window loaded from the start point, the prime group shown, and an evaluation that fires nothing by position. -/
theorem armBeginsAct : Obligations.ArmBeginsAct := by
  refine ⟨fun m q sect => primeCues_head m q (startThreshold_zero _), ?_, ?_⟩
  · intro p sect place read done
    obtain ⟨seq, clock, _⟩ := p.prime_leaves sect place
    exact ⟨rfl, seq, clock, p.prime_appended sect place⟩
  · intro s n tag sect count prime takes c q sec good
    refine ⟨fun none_ => ?_, fun held bad => ?_, fun held good goes => ?_⟩
    · exact State.request_refused (exec_arm s n tag sect count prime) takes (Part.requestArm_untaken _ _ _ _ none_)
    · exact State.request_refused (exec_arm s n tag sect count prime) takes (Part.requestArm_bad _ held bad)
    · intro cues
      have alike := s.part.takeSlot_sameCues n
      have primes : (s.part.takeSlot n).armCues sect.toNat count.toNat (decide (prime.toNat = 1)) = cues :=
        Part.armCues_eq alike rfl _ _ _
      obtain ⟨t, run, pending, answered, keeps⟩ := State.arm_answers (exec_arm s n tag sect count prime) takes
        (Part.requestArm_arms _ held good) (Part.armAt_stills ..) primes
      have begun := (Part.armAt_begun (p := s.part.takeSlot n) (sect := sect.toNat) (count := count.toNat) (fun called => by
        obtain ⟨empty, some_, walk⟩ := goes called
        exact ⟨empty, some_, (alike.walkCues ..).trans walk⟩) (decide (prime.toNat = 1)) .arm none).answered keeps
      refine ⟨t, run, pending, answered, begun.clock, begun.state, begun.current, begun.pass, begun.vampExit, begun.entryRun,
        begun.notice, fun pulsed empty => ?_⟩
      obtain ⟨lastFire, history, lanes⟩ :=
        Part.armAt_unfired (p := s.part.takeSlot n) (count := count.toNat) empty pulsed (decide (prime.toNat = 1)) .arm none
      have shown := ((s.part.takeSlot n).armPrimed_leaves sect.toNat count.toNat (decide (prime.toNat = 1))).2.2.2
      rw [primes] at shown
      refine ⟨by rw [keeps.seq]; exact lastFire, by rw [keeps.seq]; exact history, fun i => ⟨fun apart => ?_, fun x mem inside => ?_⟩⟩
      · rw [keeps.lane, lanes, (shown i).1 apart]
        rfl
      · have kept := (keeps.lane i).trans (lanes i)
        exact (congrArg Lane.shadow kept :).trans ((shown i).2 x mem inside)

end Sys2Proof.Machine
end

/-! PROOFS. JUMP (R85, R109, R158): the lanes cleared, and the act begun anew. -/

section
namespace Sys2Proof.Machine

open Sys2Proof (LaneIx SlotIx Instr)

/-! ### Shadows shown now, through the evaluation -/

/-- Every lane's shadow is shown from now. -/
def Part.ShownNow (p : Part) : Prop := ∀ i, (p.lane i).shadow.shown = p.now

section
variable {p : Part}

theorem Part.ShownNow.of_kept {q : Part} (h : p.ShownNow) (now : q.now = p.now) (lanes : ∀ i, (q.lane i).kept = (p.lane i).kept) :
    q.ShownNow := fun i => by
  rw [now, ← h i]
  exact (congrArg (fun l : Lane => l.shadow.shown) (lanes i) :)

theorem Part.ShownNow.handAll (xs : List (Cue × Option EntryKey)) : ∀ p : Part, p.ShownNow → (p.handAll xs).1.ShownNow := by
  induction xs with
  | nil => exact fun p h => h
  | cons x rest ih =>
    intro p h
    obtain ⟨cue, key⟩ := x
    refine ih (p.handTitles cue key).1 fun i => ?_
    rw [Part.handTitles_lane, Part.handTitles_now]
    split
    · rw [Lane.takeTitle_shadow, shownAs_eq]
      rfl
    · exact h i

theorem Part.ShownNow.fireHead (h : p.ShownNow) (some_ : p.seq.window ≠ []) (how : HowFired) : (p.fireHead how).ShownNow := fun i => by
  have handed := Part.ShownNow.handAll (groupTitles (headGroup p.seq.window)) p.unheaded h i
  rw [Part.fireHead_lane some_, handed, Part.handAll_now, (p.fireHead_stills how).now]
  rfl

theorem Part.ShownNow.fire (h : p.ShownNow) (some_ : p.seq.window ≠ []) (how : HowFired) (kind : p.seq.currentRec.kind ≠ .called) :
    (p.fireHead how).afterFire.ShownNow := by
  have fired := h.fireHead some_ how
  have going : (p.fireHead how).seq.calledOver = false :=
    Sequencer.calledOver_kind (by rw [Sequencer.currentRec_of_place (p.fireHead_stays how).place]; exact kind)
  rw [show (p.fireHead how).afterFire = (p.fireHead how).recompute from if_neg (by rw [going]; exact nofun)]
  exact fired.of_kept rfl fun _ => rfl

theorem Part.ShownNow.overtake (h : p.ShownNow) : p.overtake.ShownNow := by
  refine h.of_kept p.overtake_stills.now fun i => ?_
  unfold Part.overtake
  split
  · rename_i e rest n more _ _
    have gone := (Part.reportRemoved_keeps { p with seq := { p.seq with window := n :: more, deferAt := none } }
      (headGroup p.seq.window)).trans (Part.append_keeps _ (overtakenRecord .byGroup e.cue.id (some n.cue.id) e.key e.due))
    exact ((Part.refill_loads _).lane i).trans (Part.kept_lane gone.kept i)
  · rfl

theorem Part.ShownNow.evaluate (h : p.ShownNow) (kind : p.seq.currentRec.kind ≠ .called) : p.evaluate.part.ShownNow := by
  unfold Part.evaluate
  split
  · exact h
  · next e rest window =>
    have some_ : p.seq.window ≠ [] := by rw [window]; exact nofun
    dsimp only
    split
    · show Part.ShownNow (if _ then _ else _)
      split <;> exact h.of_kept rfl fun _ => rfl
    · split
      · split
        · exact h.overtake
        · split
          · exact h.fire some_ _ kind
          · exact h.of_kept rfl fun _ => rfl
      · split
        · exact h.fire some_ _ kind
        · exact h.of_kept rfl fun _ => rfl

theorem Part.ShownNow.settleFor (n : Nat) : ∀ p : Part, p.ShownNow → p.seq.currentRec.kind ≠ .called → (p.settleFor n).ShownNow := by
  induction n with
  | zero => exact fun p h _ => h
  | succ n ih =>
    intro p h kind
    have verdict := h.evaluate kind
    have stays := p.evaluate_stays kind
    unfold Part.settleFor
    rw [Sequencer.calledOver_kind kind]
    split
    · exact h
    · rw [if_neg nofun]
      split
      · next q waits =>
        rw [waits] at verdict
        exact verdict
      · next q again =>
        rw [again] at verdict stays
        have place : q.seq.place = p.seq.place := stays.place
        exact ih q verdict (by rw [Sequencer.currentRec_of_place place]; exact kind)

end

/-! ### The lanes before a jump (R85, R109) -/

/-- The part flushed, its history gone, its lanes cleared unless kept. -/
def Part.jumpReady (p : Part) (keep : Bool) : Part := (p.flush.setSeq { p.flush.seq with history := [] }).clearLanes keep .jump

theorem Part.jump_eq (p : Part) (sect count : Nat) (keep prime : Bool) :
    p.jump sect count keep prime = (p.jumpReady keep).armAt sect count prime .jump p.seq.current := rfl

section
variable (p : Part) (keep : Bool)

theorem Part.jumpReady_leaves :
    (p.jumpReady keep).clock = p.clock ∧
      (p.jumpReady keep).seq = { p.seq with window := [], deferAt := none, history := [] } := by
  obtain ⟨clock, seq⟩ := (p.flush.setSeq { p.flush.seq with history := [] }).clearLanes_leaves keep .jump
  refine ⟨clock.trans p.flush_clock, seq.trans ?_⟩
  show { p.flush.seq with history := [] } = _
  rw [p.flush_seq]

theorem Part.jumpReady_sameCues : p.mem.sameCues (p.jumpReady keep).mem :=
  (Memory.Reach.sameCues p.flush_stills.mem).trans
    (Memory.Reach.sameCues ((p.flush.setSeq { p.flush.seq with history := [] }).clearLanes_stills keep .jump).mem)

theorem Part.jumpReady_kept (i : LaneIx) : ((p.jumpReady true).lane i).kept = (p.lane i).kept := p.flush_lane i

theorem Part.jumpReady_cleared (i : LaneIx) : (p.jumpReady false).lane i = (p.flush.lane i).cleared (blankShadow p.now) := by
  have now : (p.flush.setSeq { p.flush.seq with history := [] }).now = p.now := (congrArg Clock.showTime p.flush_clock :)
  rw [← now]
  exact Part.clearLanes_lane ..

theorem Part.jumpReady_shownNow : (p.jumpReady false).ShownNow := fun i => by
  have now : (p.jumpReady false).now = p.now := (congrArg Clock.showTime (p.jumpReady_leaves false).1 :)
  rw [p.jumpReady_cleared, ((p.flush.lane i).cleared_shadow p.now).1, now]
  rfl

/-- A part made ready for a jump: the window, the deferral and the history gone, the lanes cleared unless kept (R85, R109). -/
structure Part.JumpBase (p : Part) (keep : Nat) (b : Part) : Prop where
  clock : b.clock = p.clock
  seq : b.seq = { p.seq with window := [], deferAt := none, history := [] }
  alike : p.mem.sameCues b.mem
  kept : keep = 1 → ∀ i, (b.lane i).kept = (p.lane i).kept
  shownNow : keep = 0 → b.ShownNow
  cleared : keep = 0 → ∀ i, (b.lane i).shadow = blankFrom p.now ∧ (b.lane i).maxDwellAt = none ∧
    ((p.lane i).up = true → (p.lane i).blanked = false → ∃ x ∈ (b.lane i).express, x.what = .clear)

theorem Part.jumpReady_base (keep : Nat) : p.JumpBase keep (p.jumpReady (decide (keep = 1))) where
  clock := (p.jumpReady_leaves _).1
  seq := (p.jumpReady_leaves _).2
  alike := p.jumpReady_sameCues _
  kept := by
    rintro rfl i
    exact p.jumpReady_kept i
  shownNow := by
    rintro rfl
    exact p.jumpReady_shownNow
  cleared := by
    rintro rfl i
    have flushed := p.flush_lane i
    have lane : (p.jumpReady (decide (0 = 1))).lane i = (p.flush.lane i).cleared (blankShadow p.now) := p.jumpReady_cleared i
    rw [lane]
    generalize p.flush.lane i = l at flushed
    have waits := fun up open_ => Lane.cleared_waits (l := l) (sh := blankShadow p.now) up open_ rfl
    obtain ⟨shadow, expiry⟩ := l.cleared_shadow p.now
    exact ⟨shadow, expiry, fun up open_ =>
      waits ((congrArg Lane.up flushed :).trans up) ((congrArg Lane.blanked flushed :).trans open_)⟩

end

/-- An arming from lanes all shown now leaves them so (R84, R109). -/
theorem Part.armAt_shownNow {p : Part} {sect count : Nat} (h : p.ShownNow) (empty : p.seq.window = [])
    (goes : (p.seq.sectionAt sect).kind = .called →
      1 ≤ (p.seq.sectionAt sect).cueCount ∧ walkSection p.mem (p.seq.sectionAt sect) p.seq.usedLength = none)
    (prime : Bool) (how : HowEntered) (from_ : Option Nat) : (p.armAt sect count prime how from_).1.ShownNow := by
  obtain ⟨_, clock, _, lanes⟩ := p.armPrimed_leaves sect count prime
  have now : (p.armPrimed sect count prime).1.now = p.now := (congrArg Clock.showTime clock :)
  have primed : (p.armPrimed sect count prime).1.ShownNow := fun i => by
    by_cases inside : ∃ x ∈ p.armCues sect count prime, x.mask.getLsbD i.val = true
    · obtain ⟨x, mem, bit⟩ := inside
      rw [(lanes i).2 x mem bit, now]
      rfl
    · have apart : ∀ x ∈ p.armCues sect count prime, x.mask.getLsbD i.val = false := fun x mem =>
        Bool.eq_false_iff.2 fun bit => inside ⟨x, mem, bit⟩
      rw [(lanes i).1 apart, now]
      exact h i
  have ready : (p.armReady sect count prime how from_).recompute.ShownNow :=
    primed.of_kept (((p.armPrimed sect count prime).1.armSet_keeps sect count how from_).stills.now.trans
      (by show ((p.armPrimed sect count prime).1.clock.arm _ count).showTime = _; rw [Clock.arm_eq]; unfold armedClock; split <;> rfl))
      (p.armReady_lane sect count prime how from_)
  by_cases called : (p.seq.sectionAt sect).kind = .called
  · rw [Part.armAt_idle empty (by rw [called]; exact nofun) goes]
    exact ready
  · rw [Part.armAt_eq]
    refine Part.ShownNow.settleFor _ _ ready ?_
    have record := (p.armReady_armed sect count prime how from_).currentRec
    unfold Part.armReady at record
    rw [Sequencer.currentRec_of_place (Part.recompute_stays _).place, record]
    exact called

/-! ### JUMP (R158) -/

theorem Sequencer.badJump_iff (q : Sequencer) (sect count keep prime : Nat) :
    (q.badPlace sect count prime || decide (1 < keep)) = true ↔
      ¬ (sect < q.sectionCount ∧ prime ≤ 1 ∧ goodCount (q.sectionAt sect) count ∧ keep ≤ 1) := by
  rw [Bool.or_eq_true, Sequencer.badPlace_iff, decide_eq_true_iff]
  have flag : 1 < keep ↔ ¬ keep ≤ 1 := Nat.not_le.symm
  tauto

theorem Part.requestJump_untaken (p : Part) (sect count keep prime : Nat) (h : ¬ (p.seq.state = .running ∨ p.seq.state = .ended)) :
    p.requestJump sect count keep prime = (p, .state, []) := if_pos h

section
variable {p : Part} {sect count keep prime : Nat} (held : p.seq.state = .running ∨ p.seq.state = .ended)
include held

theorem Part.requestJump_bad
    (bad : ¬ (sect < p.seq.sectionCount ∧ prime ≤ 1 ∧ goodCount (p.seq.sectionAt sect) count ∧ keep ≤ 1)) :
    p.requestJump sect count keep prime = (p, .badArg, []) :=
  (if_neg (not_not.2 held)).trans (if_pos ((p.seq.badJump_iff ..).2 bad))

theorem Part.requestJump_jumps
    (good : sect < p.seq.sectionCount ∧ prime ≤ 1 ∧ goodCount (p.seq.sectionAt sect) count ∧ keep ≤ 1) :
    p.requestJump sect count keep prime =
      (((p.jumpReady (decide (keep = 1))).armAt sect count (decide (prime = 1)) .jump p.seq.current).1, .ok,
        ((p.jumpReady (decide (keep = 1))).armAt sect count (decide (prime = 1)) .jump p.seq.current).1.armDetail
          ((p.jumpReady (decide (keep = 1))).armAt sect count (decide (prime = 1)) .jump p.seq.current).2) :=
  (if_neg (not_not.2 held)).trans (if_neg fun bad => (p.seq.badJump_iff ..).1 bad good)

end

/-- Settles O41: the lanes cleared unless kept, then the arming as ARM's. -/
theorem jumpMovesAct : Obligations.JumpMovesAct := by
  refine ⟨fun p cause => ?_, ?_⟩
  · exact Part.clearLanes_appended p cause allLanes p [] allLanes_nodup p.appended_nil rfl rfl fun _ _ => rfl
  · intro s n tag sect count keep prime takes c q sec good
    refine ⟨fun none_ => ?_, fun held bad => ?_, fun held good goes => ?_⟩
    · exact State.request_refused (exec_jump s n tag sect count keep prime) takes (Part.requestJump_untaken _ _ _ _ _ none_)
    · exact State.request_refused (exec_jump s n tag sect count keep prime) takes (Part.requestJump_bad held bad)
    · intro cues
      have base := (s.part.takeSlot n).jumpReady_base keep.toNat
      have acts := Part.requestJump_jumps (p := s.part.takeSlot n) held good
      have stills := (s.part.takeSlot n).jump_stills sect.toNat count.toNat (decide (keep.toNat = 1)) (decide (prime.toNat = 1))
      rw [Part.jump_eq] at stills
      have alike := (s.part.takeSlot_sameCues n).trans base.alike
      generalize (s.part.takeSlot n).jumpReady (decide (keep.toNat = 1)) = b at base acts stills alike
      have empty : b.seq.window = [] := (congrArg Sequencer.window base.seq :)
      have sec_ : b.seq.sectionAt sect.toNat = sec := (congrArg (fun q : Sequencer => q.sectionAt sect.toNat) base.seq :)
      have used : b.seq.usedLength = q.usedLength := (congrArg Sequencer.usedLength base.seq :)
      have clock : b.clock = s.part.clock := base.clock
      have now : b.now = s.part.now := (congrArg Clock.showTime clock :)
      have goes' : (b.seq.sectionAt sect.toNat).kind = .called → 1 ≤ (b.seq.sectionAt sect.toNat).cueCount ∧
          walkSection b.mem (b.seq.sectionAt sect.toNat) b.seq.usedLength = none := by
        rw [sec_, used]
        exact fun called => ⟨(goes called).1, (alike.walkCues ..).trans (goes called).2⟩
      have primes : b.armCues sect.toNat count.toNat (decide (prime.toNat = 1)) = cues :=
        Part.armCues_eq alike (congrArg Sequencer.book base.seq :) _ _ _
      obtain ⟨t, run, pending, answered, keeps⟩ := State.arm_answers (exec_jump s n tag sect count keep prime) takes acts stills primes
      have begun := (Part.armAt_begun (p := b) (fun called => ⟨empty, goes' called⟩) (decide (prime.toNat = 1)) .jump q.current).answered
        keeps
      have clock_ := begun.clock
      rw [clock, sec_] at clock_
      refine ⟨t, run, pending, answered, clock_, begun.state, begun.current, begun.pass, begun.vampExit, begun.entryRun, begun.notice,
        fun cleared i => ?_, fun pulsed => ?_⟩
      · have shown := Part.armAt_shownNow (count := count.toNat) (base.shownNow cleared) empty goes' (decide (prime.toNat = 1)) .jump
          q.current i
        exact ((congrArg (fun l : Lane => l.shadow.shown) (keeps.lane i) :).trans shown).trans stills.now
      · obtain ⟨lastFire, history, lanes⟩ :=
          Part.armAt_unfired (count := count.toNat) empty (by rw [sec_]; exact pulsed) (decide (prime.toNat = 1)) .jump q.current
        have primed := (b.armPrimed_leaves sect.toNat count.toNat (decide (prime.toNat = 1))).2.2.2
        rw [primes, now] at primed
        refine ⟨by rw [keeps.seq]; exact lastFire, by rw [keeps.seq]; exact history, fun i => ?_⟩
        have kept := (keeps.lane i).trans (lanes i)
        generalize t.part.lane i = l at kept
        refine ⟨fun apart => ?_, fun x mem inside =>
          (congrArg Lane.shadow kept :).trans ((primed i).2 x mem inside)⟩
        rw [(primed i).1 apart] at kept
        refine ⟨fun keeps => kept.trans (base.kept keeps i), fun clears => ?_⟩
        obtain ⟨shadow, expiry, waits⟩ := base.cleared clears i
        have express : l.express = (b.lane i).express := (congrArg Lane.express kept :)
        rw [express]
        exact ⟨(congrArg Lane.shadow kept :).trans shadow, (congrArg Lane.maxDwellAt kept :).trans expiry, waits⟩

end Sys2Proof.Machine
end
